-- ==== Sys2Proof/Word.lean ====
section
/-! DEFINITION. The word types of PNGDEC and the one plain division helper of its notation. -/

namespace Sys2Proof

/-- A byte, 0..255 (00_scope.md R8). -/
abbrev Byte := BitVec 8

/-- The width of every host register and of a bus address (00_scope.md R7: REG_W = ADDR_W = 32). -/
abbrev Word := BitVec 32

/-- `ceil_div(a, b) = (a + b - 1) div b` (00_scope.md R9). -/
def ceilDiv (a b : Nat) : Nat := (a + b - 1) / b

end Sys2Proof
end

