-- ==== Sys2Proof/Syntax.lean ====
section
/-! DEFINITION. The syntax of PNGDEC: one constructor of Instr per row of spec/opcode_table.json, and the stream
elements and port accesses they are decoded from (30_encoding.md R120, R144, R150). -/

namespace Sys2Proof

/-- The seven registers a WRITE_CFG may name (30_encoding.md R144). -/
inductive CfgReg where
  | config | inBase | inLen | outBase | outCap | scrBase | scrCap
  deriving DecidableEq, Repr

/-- The size of a host register access; only 32-bit accesses are defined (10_state.md R53). -/
inductive Width where
  | w8 | w16 | w32
  deriving DecidableEq, Repr

/-- One transaction on the host register port, at an 8-bit register-space offset (20_memory.md R90, R102). -/
inductive Access where
  | write (off : BitVec 8) (width : Width) (v : Word)
  | read (off : BitVec 8) (width : Width)
  deriving DecidableEq, Repr

/-- The decodable elements, one constructor per format of 30_encoding.md R120 (F-CHUNK has two: the frame's eight header
bytes, and the type value T once the frame is accepted). Symbols are the decoded symbol values (R150). -/
inductive Element where
  /-- F-REG: one host transaction. -/
  | access (a : Access)
  /-- F-SIG: the first bytes of the stream, at most eight. -/
  | sig (bs : List Byte)
  /-- F-CHUNK, framing: LENGTH and TYPE, eight bytes. -/
  | frame (bs : List Byte)
  /-- F-CHUNK, type rows: `T` of R123. -/
  | ctype (t : Word)
  /-- F-ZHDR: CMF and FLG. -/
  | zhdr (bs : List Byte)
  /-- F-BHDR: bit 0 is BFINAL, bits 2:1 are BTYPE. -/
  | bhdr (bits : BitVec 3)
  /-- F-CLSYM: a symbol of the code-length alphabet. -/
  | clsym (sym : Nat)
  /-- F-LITLEN: a symbol of the literal/length alphabet. -/
  | litlen (sym : Nat)
  /-- F-DIST: a symbol of the distance alphabet. -/
  | dist (sym : Nat)
  /-- F-ADLER: the four trailer bytes. -/
  | adler (bs : List Byte)
  /-- F-SCANLINE: the filter byte. -/
  | filter (b : Byte)
  /-- F-PIXEL: COLOR_TYPE * 256 + BIT_DEPTH. -/
  | mode (v : BitVec 16)
  deriving DecidableEq, Repr

/-- The instructions: one constructor per row of spec/opcode_table.json, in the table's order. -/
inductive Instr where
  /-- START: `WriteReg(0x04, v)` with v[0] = 1 (40_host_interface.md R182). -/
  | start (v : Word)
  /-- SET_IRQ_EN: `WriteReg(0x04, v)` with v[0] = 0 (R187). -/
  | setIrqEn (v : Word)
  /-- CLEAR_STATUS: `WriteReg(0x0C, v)` (R191). -/
  | clearStatus (v : Word)
  /-- WRITE_CFG: `WriteReg(off, v)` with off one of the seven (R188). -/
  | writeCfg (r : CfgReg) (v : Word)
  /-- READ: `ReadReg(off)` (R192). -/
  | read (off : BitVec 8)
  /-- SIG: the signature, with the bytes the stream has there (42_chunk_reader.md R231). -/
  | sig (bs : List Byte)
  /-- CHUNK: the frame of a chunk, LENGTH and TYPE (R232 to R235). -/
  | chunk (len ty : Word)
  /-- CHUNK_BAD_TYPE: a frame with a TYPE byte outside 0x20..0x7E (R232). -/
  | chunkBadType (len ty : Word)
  /-- IHDR (43_header_interpreter.md R273). -/
  | ihdr
  /-- PLTE (R280). -/
  | plte
  /-- IDAT (R286). -/
  | idat
  /-- IEND (R288). -/
  | iend
  /-- tRNS (R281). -/
  | trns
  /-- gAMA (R283). -/
  | gama
  /-- acTL (R284). -/
  | actl
  /-- fcTL (R284). -/
  | fctl
  /-- fdAT (R284). -/
  | fdat
  /-- UNKNOWN_CRITICAL (42_chunk_reader.md R237). -/
  | unknownCritical (ty : Word)
  /-- UNKNOWN_ANCILLARY (R238). -/
  | unknownAncillary (ty : Word)
  /-- ZHDR: CMF, FLG (44_inflate.md R325). -/
  | zhdr (cmf flg : Byte)
  /-- BLOCK_STORED, with BFINAL (R330). -/
  | blockStored (fin : Bool)
  /-- BLOCK_FIXED, with BFINAL (R331). -/
  | blockFixed (fin : Bool)
  /-- BLOCK_DYNAMIC, with BFINAL (R332, R340). -/
  | blockDynamic (fin : Bool)
  /-- BLOCK_RESERVED, with BFINAL (R333). -/
  | blockReserved (fin : Bool)
  /-- CL_LEN: code-length symbols 0..15 (R343). -/
  | clLen (l : BitVec 4)
  /-- CL_REPEAT_PREV: code-length symbol 16 (R344). -/
  | clRepeatPrev
  /-- CL_ZERO_SHORT: code-length symbol 17 (R345). -/
  | clZeroShort
  /-- CL_ZERO_LONG: code-length symbol 18 (R346). -/
  | clZeroLong
  /-- LIT: literal byte (R350). -/
  | lit (b : Byte)
  /-- EOB: symbol 256 (R351). -/
  | eob
  /- LEN_257 .. LEN_285: the length symbols (R352, R354). -/
  | len257 | len258 | len259 | len260 | len261 | len262 | len263 | len264 | len265 | len266 | len267 | len268 | len269 | len270
  | len271 | len272 | len273 | len274 | len275 | len276 | len277 | len278 | len279 | len280 | len281 | len282 | len283 | len284 | len285
  /-- LITLEN_INVALID: symbols 286 and 287 (R353). -/
  | litlenInvalid (sym : Nat)
  /- DIST_0 .. DIST_29: the distance symbols (R355). -/
  | dist0 | dist1 | dist2 | dist3 | dist4 | dist5 | dist6 | dist7 | dist8 | dist9 | dist10 | dist11 | dist12 | dist13 | dist14
  | dist15 | dist16 | dist17 | dist18 | dist19 | dist20 | dist21 | dist22 | dist23 | dist24 | dist25 | dist26 | dist27 | dist28 | dist29
  /-- DIST_INVALID: symbols 30 and 31 (R356). -/
  | distInvalid (sym : Nat)
  /-- ADLER: the trailer's value (R370). -/
  | adler (a : Word)
  /-- FILT_NONE (45_defilter.md R403). -/
  | filtNone
  /-- FILT_SUB (R404). -/
  | filtSub
  /-- FILT_UP (R405). -/
  | filtUp
  /-- FILT_AVERAGE (R406). -/
  | filtAverage
  /-- FILT_PAETH (R407). -/
  | filtPaeth
  /-- FILT_INVALID: a filter byte 5..255 (R409). -/
  | filtInvalid (b : Byte)
  /- The fifteen pixel modes (46_sample_expander.md R445 to R459). -/
  | g1 | g2 | g4 | g8 | g16
  | rgb8 | rgb16
  | idx1 | idx2 | idx4 | idx8
  | ga8 | ga16
  | rgba8 | rgba16
  /-- MODE_ILLEGAL: any other COLOR_TYPE * 256 + BIT_DEPTH (43_header_interpreter.md R274). -/
  | modeIllegal (v : BitVec 16)
  deriving DecidableEq, Repr

end Sys2Proof
end

