-- ==== Sys2Proof/WellFormed.lean ====
section
/-! DEFINITION. Which instructions are well formed: the operand values the encodings of 30_encoding.md admit. -/

namespace Sys2Proof

/-- Byte `i` (first byte 0) of a four-byte type tag `T = t0 * 2^24 + t1 * 2^16 + t2 * 2^8 + t3` (30_encoding.md R123). -/
def tagByte (t : Word) (i : Nat) : Byte := t.extractLsb' (24 - 8 * i) 8

/-- A printable type byte, 0x20..0x7E (R123). -/
def printableByte (b : Byte) : Bool := decide (0x20 ≤ b.toNat) && decide (b.toNat ≤ 0x7E)

/-- All four type bytes are printable (R123). -/
def printableTag (t : Word) : Bool :=
  printableByte (tagByte t 0) && printableByte (tagByte t 1) && printableByte (tagByte t 2) && printableByte (tagByte t 3)

/-- Bit 5 of TYPE[0] is 0: a critical chunk (R123, 42_chunk_reader.md R236). -/
def criticalTag (t : Word) : Bool := !(t.getLsbD 29)

/-- The nine known type codes (R124). -/
def knownTags : List Word :=
  [0x49484452#32, 0x504C5445#32, 0x49444154#32, 0x49454E44#32, 0x74524E53#32, 0x67414D41#32,
   0x6163544C#32, 0x6663544C#32, 0x66644154#32]

/-- The fifteen legal (COLOR_TYPE, BIT_DEPTH) pairs, as COLOR_TYPE * 256 + BIT_DEPTH (R126). -/
def legalModes : List (BitVec 16) :=
  [0x0001#16, 0x0002#16, 0x0004#16, 0x0008#16, 0x0010#16, 0x0208#16, 0x0210#16,
   0x0301#16, 0x0302#16, 0x0304#16, 0x0308#16, 0x0408#16, 0x0410#16, 0x0608#16, 0x0610#16]

/-- The eight signature bytes (R121). -/
def signatureBytes : List Byte := [0x89#8, 0x50#8, 0x4E#8, 0x47#8, 0x0D#8, 0x0A#8, 0x1A#8, 0x0A#8]

/-- The operands an instruction may carry. -/
def Instr.wf : Instr → Bool
  | .start v => v.getLsbD 0
  | .setIrqEn v => !(v.getLsbD 0)
  | .read off => off.toNat % 4 == 0
  | .sig bs => bs == signatureBytes
  | .chunk _ ty => printableTag ty
  | .chunkBadType _ ty => !(printableTag ty)
  | .unknownCritical ty => !(knownTags.contains ty) && criticalTag ty
  | .unknownAncillary ty => !(knownTags.contains ty) && !(criticalTag ty)
  | .zhdr cmf flg =>
    cmf.toNat % 16 == 8 && cmf.toNat / 16 ≤ 7 && (cmf.toNat * 256 + flg.toNat) % 31 == 0 && !(flg.getLsbD 5)
  | .litlenInvalid sym => sym == 286 || sym == 287
  | .distInvalid sym => sym == 30 || sym == 31
  | .filtInvalid b => decide (5 ≤ b.toNat)
  | .modeIllegal v => !(legalModes.contains v)
  | .clearStatus _ | .writeCfg _ _ => true
  | .ihdr | .plte | .idat | .iend | .trns | .gama | .actl | .fctl | .fdat => true
  | .blockStored _ | .blockFixed _ | .blockDynamic _ | .blockReserved _ => true
  | .clLen _ | .clRepeatPrev | .clZeroShort | .clZeroLong | .lit _ | .eob => true
  | .len257 | .len258 | .len259 | .len260 | .len261 | .len262 | .len263 | .len264 | .len265 | .len266 => true
  | .len267 | .len268 | .len269 | .len270 | .len271 | .len272 | .len273 | .len274 | .len275 | .len276 => true
  | .len277 | .len278 | .len279 | .len280 | .len281 | .len282 | .len283 | .len284 | .len285 => true
  | .dist0 | .dist1 | .dist2 | .dist3 | .dist4 | .dist5 | .dist6 | .dist7 | .dist8 | .dist9 => true
  | .dist10 | .dist11 | .dist12 | .dist13 | .dist14 | .dist15 | .dist16 | .dist17 | .dist18 | .dist19 => true
  | .dist20 | .dist21 | .dist22 | .dist23 | .dist24 | .dist25 | .dist26 | .dist27 | .dist28 | .dist29 => true
  | .adler _ => true
  | .filtNone | .filtSub | .filtUp | .filtAverage | .filtPaeth => true
  | .g1 | .g2 | .g4 | .g8 | .g16 | .rgb8 | .rgb16 | .idx1 | .idx2 | .idx4 | .idx8 => true
  | .ga8 | .ga16 | .rgba8 | .rgba16 => true

end Sys2Proof
end

