-- ==== Sys2Proof/Decode.lean ====
section
/-! DEFINITION. The decoder: total on every element, rejecting by name; after it the encoder, written from the same tables
of 30_encoding.md; and the reading of the opcode table's words. -/

namespace Sys2Proof

/-- Why an element is no instruction. -/
inductive DecodeError where
  /-- A port access that is not a 32-bit access at an offset that is a multiple of 4 (10_state.md R53). -/
  | portAccess
  /-- A write to an offset no command names: ignored by the port (30_encoding.md R144). -/
  | ignoredWrite
  /-- The element has not the number of bytes its format gives it (R145). -/
  | wrongLength
  /-- A symbol the alphabet does not have (R136, R137, R138). -/
  | noSuchSymbol
  deriving DecidableEq, Repr

/-- Four bytes in stream order as a 32-bit value, `BE32` (00_scope.md R10). -/
def be32 (b0 b1 b2 b3 : Byte) : Word := b0 ++ b1 ++ b2 ++ b3

/-- The four bytes of a 32-bit value, most significant first. -/
def be32Bytes (w : Word) : List Byte :=
  [w.extractLsb' 24 8, w.extractLsb' 16 8, w.extractLsb' 8 8, w.extractLsb' 0 8]

/-- The WRITE_CFG register at an offset (R144). -/
def cfgRegAt (off : BitVec 8) : Option CfgReg :=
  match off.toNat with
  | 0x08 => some .config
  | 0x1C => some .inBase
  | 0x20 => some .inLen
  | 0x24 => some .outBase
  | 0x28 => some .outCap
  | 0x2C => some .scrBase
  | 0x30 => some .scrCap
  | _ => none

/-- F-REG (R144, 10_state.md R53). -/
def decodeAccess : Access → Except DecodeError Instr
  | .write off width v =>
    if width = .w32 ∧ off.toNat % 4 = 0 then
      if off.toNat = 0x04 then
        if v.getLsbD 0 then .ok (.start v) else .ok (.setIrqEn v)
      else if off.toNat = 0x0C then .ok (.clearStatus v)
      else
        match cfgRegAt off with
        | some r => .ok (.writeCfg r v)
        | none => .error .ignoredWrite
    else .error .portAccess
  | .read off width =>
    if width = .w32 ∧ off.toNat % 4 = 0 then .ok (.read off) else .error .portAccess

/-- A printable type byte as the framing step tests it (42_chunk_reader.md R232). -/
def typeByteOk (b : Byte) : Bool := !(decide (b.toNat < 0x20) || decide (0x7E < b.toNat))

/-- F-CHUNK, framing: CHUNK_BAD_TYPE is checked before every other row (30_encoding.md R150, R122). -/
def decodeFrame : List Byte → Except DecodeError Instr
  | [l0, l1, l2, l3, t0, t1, t2, t3] =>
    if typeByteOk t0 && typeByteOk t1 && typeByteOk t2 && typeByteOk t3 then
      .ok (.chunk (be32 l0 l1 l2 l3) (be32 t0 t1 t2 t3))
    else .ok (.chunkBadType (be32 l0 l1 l2 l3) (be32 t0 t1 t2 t3))
  | _ => .error .wrongLength

/-- F-CHUNK, type rows: the nine known codes (R124), else the class by bit 5 of TYPE[0] (42_chunk_reader.md R236). -/
def decodeType (t : Word) : Instr :=
  if t = 0x49484452#32 then .ihdr
  else if t = 0x504C5445#32 then .plte
  else if t = 0x49444154#32 then .idat
  else if t = 0x49454E44#32 then .iend
  else if t = 0x74524E53#32 then .trns
  else if t = 0x67414D41#32 then .gama
  else if t = 0x6163544C#32 then .actl
  else if t = 0x6663544C#32 then .fctl
  else if t = 0x66644154#32 then .fdat
  else if t.getLsbD 29 then .unknownAncillary t
  else .unknownCritical t

/-- F-BHDR: bit 0 is BFINAL, then BTYPE, its first bit read being bit 0 (R133, 20_memory.md R91). -/
def decodeBlock (bits : BitVec 3) : Instr :=
  let fin := bits.getLsbD 0
  if bits.getLsbD 2 then
    if bits.getLsbD 1 then .blockReserved fin else .blockDynamic fin
  else
    if bits.getLsbD 1 then .blockFixed fin else .blockStored fin

/-- F-CLSYM (R136). -/
def decodeClSym (sym : Nat) : Except DecodeError Instr :=
  if sym < 16 then .ok (.clLen (BitVec.ofNat 4 sym))
  else
    match sym with
    | 16 => .ok .clRepeatPrev
    | 17 => .ok .clZeroShort
    | 18 => .ok .clZeroLong
    | _ => .error .noSuchSymbol

/-- F-LITLEN (R137). -/
def decodeLitLen (sym : Nat) : Except DecodeError Instr :=
  if sym < 256 then .ok (.lit (BitVec.ofNat 8 sym))
  else
    match sym with
    | 256 => .ok .eob
    | 257 => .ok .len257
    | 258 => .ok .len258
    | 259 => .ok .len259
    | 260 => .ok .len260
    | 261 => .ok .len261
    | 262 => .ok .len262
    | 263 => .ok .len263
    | 264 => .ok .len264
    | 265 => .ok .len265
    | 266 => .ok .len266
    | 267 => .ok .len267
    | 268 => .ok .len268
    | 269 => .ok .len269
    | 270 => .ok .len270
    | 271 => .ok .len271
    | 272 => .ok .len272
    | 273 => .ok .len273
    | 274 => .ok .len274
    | 275 => .ok .len275
    | 276 => .ok .len276
    | 277 => .ok .len277
    | 278 => .ok .len278
    | 279 => .ok .len279
    | 280 => .ok .len280
    | 281 => .ok .len281
    | 282 => .ok .len282
    | 283 => .ok .len283
    | 284 => .ok .len284
    | 285 => .ok .len285
    | 286 => .ok (.litlenInvalid 286)
    | 287 => .ok (.litlenInvalid 287)
    | _ => .error .noSuchSymbol

/-- F-DIST (R138). -/
def decodeDist (sym : Nat) : Except DecodeError Instr :=
  match sym with
  | 0 => .ok .dist0
  | 1 => .ok .dist1
  | 2 => .ok .dist2
  | 3 => .ok .dist3
  | 4 => .ok .dist4
  | 5 => .ok .dist5
  | 6 => .ok .dist6
  | 7 => .ok .dist7
  | 8 => .ok .dist8
  | 9 => .ok .dist9
  | 10 => .ok .dist10
  | 11 => .ok .dist11
  | 12 => .ok .dist12
  | 13 => .ok .dist13
  | 14 => .ok .dist14
  | 15 => .ok .dist15
  | 16 => .ok .dist16
  | 17 => .ok .dist17
  | 18 => .ok .dist18
  | 19 => .ok .dist19
  | 20 => .ok .dist20
  | 21 => .ok .dist21
  | 22 => .ok .dist22
  | 23 => .ok .dist23
  | 24 => .ok .dist24
  | 25 => .ok .dist25
  | 26 => .ok .dist26
  | 27 => .ok .dist27
  | 28 => .ok .dist28
  | 29 => .ok .dist29
  | 30 => .ok (.distInvalid 30)
  | 31 => .ok (.distInvalid 31)
  | _ => .error .noSuchSymbol

/-- F-SCANLINE (R141). -/
def decodeFilter (b : Byte) : Instr :=
  match b.toNat with
  | 0 => .filtNone
  | 1 => .filtSub
  | 2 => .filtUp
  | 3 => .filtAverage
  | 4 => .filtPaeth
  | _ => .filtInvalid b

/-- F-PIXEL: COLOR_TYPE * 256 + BIT_DEPTH (R126, R150). -/
def decodeMode (v : BitVec 16) : Instr :=
  match v.toNat with
  | 0x0001 => .g1
  | 0x0002 => .g2
  | 0x0004 => .g4
  | 0x0008 => .g8
  | 0x0010 => .g16
  | 0x0208 => .rgb8
  | 0x0210 => .rgb16
  | 0x0301 => .idx1
  | 0x0302 => .idx2
  | 0x0304 => .idx4
  | 0x0308 => .idx8
  | 0x0408 => .ga8
  | 0x0410 => .ga16
  | 0x0608 => .rgba8
  | 0x0610 => .rgba16
  | _ => .modeIllegal v

/-- The decoder. A signature and a zlib header decode whatever their bytes: the checks on them are the instruction's own
(42_chunk_reader.md R231, 44_inflate.md R325), and `Instr.wf` says which bytes are legal. -/
def decode : Element → Except DecodeError Instr
  | .access a => decodeAccess a
  | .sig bs => if bs.length ≤ 8 then .ok (.sig bs) else .error .wrongLength
  | .frame bs => decodeFrame bs
  | .ctype t => .ok (decodeType t)
  | .zhdr [cmf, flg] => .ok (.zhdr cmf flg)
  | .zhdr _ => .error .wrongLength
  | .bhdr bits => .ok (decodeBlock bits)
  | .clsym sym => decodeClSym sym
  | .litlen sym => decodeLitLen sym
  | .dist sym => decodeDist sym
  | .adler [b0, b1, b2, b3] => .ok (.adler (be32 b0 b1 b2 b3))
  | .adler _ => .error .wrongLength
  | .filter b => .ok (decodeFilter b)
  | .mode v => .ok (decodeMode v)

/-- The offset of a WRITE_CFG register (10_state.md R49). -/
def cfgRegOffset : CfgReg → BitVec 8
  | .config => 0x08#8
  | .inBase => 0x1C#8
  | .inLen => 0x20#8
  | .outBase => 0x24#8
  | .outCap => 0x28#8
  | .scrBase => 0x2C#8
  | .scrCap => 0x30#8

/-- F-BHDR bits of a block header: BFINAL first, then BTYPE (30_encoding.md R133). -/
def blockBits (fin : Bool) (btype : BitVec 2) : BitVec 3 := btype ++ BitVec.ofBool fin

/-- The encoder: the element an instruction is decoded from. -/
def encode : Instr → Element
  | .start v => .access (.write 0x04#8 .w32 v)
  | .setIrqEn v => .access (.write 0x04#8 .w32 v)
  | .clearStatus v => .access (.write 0x0C#8 .w32 v)
  | .writeCfg r v => .access (.write (cfgRegOffset r) .w32 v)
  | .read off => .access (.read off .w32)
  | .sig bs => .sig bs
  | .chunk len ty => .frame (be32Bytes len ++ be32Bytes ty)
  | .chunkBadType len ty => .frame (be32Bytes len ++ be32Bytes ty)
  | .ihdr => .ctype 0x49484452#32
  | .plte => .ctype 0x504C5445#32
  | .idat => .ctype 0x49444154#32
  | .iend => .ctype 0x49454E44#32
  | .trns => .ctype 0x74524E53#32
  | .gama => .ctype 0x67414D41#32
  | .actl => .ctype 0x6163544C#32
  | .fctl => .ctype 0x6663544C#32
  | .fdat => .ctype 0x66644154#32
  | .unknownCritical ty => .ctype ty
  | .unknownAncillary ty => .ctype ty
  | .zhdr cmf flg => .zhdr [cmf, flg]
  | .blockStored fin => .bhdr (blockBits fin 0#2)
  | .blockFixed fin => .bhdr (blockBits fin 1#2)
  | .blockDynamic fin => .bhdr (blockBits fin 2#2)
  | .blockReserved fin => .bhdr (blockBits fin 3#2)
  | .clLen l => .clsym l.toNat
  | .clRepeatPrev => .clsym 16
  | .clZeroShort => .clsym 17
  | .clZeroLong => .clsym 18
  | .lit b => .litlen b.toNat
  | .eob => .litlen 256
  | .len257 => .litlen 257
  | .len258 => .litlen 258
  | .len259 => .litlen 259
  | .len260 => .litlen 260
  | .len261 => .litlen 261
  | .len262 => .litlen 262
  | .len263 => .litlen 263
  | .len264 => .litlen 264
  | .len265 => .litlen 265
  | .len266 => .litlen 266
  | .len267 => .litlen 267
  | .len268 => .litlen 268
  | .len269 => .litlen 269
  | .len270 => .litlen 270
  | .len271 => .litlen 271
  | .len272 => .litlen 272
  | .len273 => .litlen 273
  | .len274 => .litlen 274
  | .len275 => .litlen 275
  | .len276 => .litlen 276
  | .len277 => .litlen 277
  | .len278 => .litlen 278
  | .len279 => .litlen 279
  | .len280 => .litlen 280
  | .len281 => .litlen 281
  | .len282 => .litlen 282
  | .len283 => .litlen 283
  | .len284 => .litlen 284
  | .len285 => .litlen 285
  | .litlenInvalid sym => .litlen sym
  | .dist0 => .dist 0
  | .dist1 => .dist 1
  | .dist2 => .dist 2
  | .dist3 => .dist 3
  | .dist4 => .dist 4
  | .dist5 => .dist 5
  | .dist6 => .dist 6
  | .dist7 => .dist 7
  | .dist8 => .dist 8
  | .dist9 => .dist 9
  | .dist10 => .dist 10
  | .dist11 => .dist 11
  | .dist12 => .dist 12
  | .dist13 => .dist 13
  | .dist14 => .dist 14
  | .dist15 => .dist 15
  | .dist16 => .dist 16
  | .dist17 => .dist 17
  | .dist18 => .dist 18
  | .dist19 => .dist 19
  | .dist20 => .dist 20
  | .dist21 => .dist 21
  | .dist22 => .dist 22
  | .dist23 => .dist 23
  | .dist24 => .dist 24
  | .dist25 => .dist 25
  | .dist26 => .dist 26
  | .dist27 => .dist 27
  | .dist28 => .dist 28
  | .dist29 => .dist 29
  | .distInvalid sym => .dist sym
  | .adler w => .adler (be32Bytes w)
  | .filtNone => .filter 0#8
  | .filtSub => .filter 1#8
  | .filtUp => .filter 2#8
  | .filtAverage => .filter 3#8
  | .filtPaeth => .filter 4#8
  | .filtInvalid b => .filter b
  | .g1 => .mode 0x0001#16
  | .g2 => .mode 0x0002#16
  | .g4 => .mode 0x0004#16
  | .g8 => .mode 0x0008#16
  | .g16 => .mode 0x0010#16
  | .rgb8 => .mode 0x0208#16
  | .rgb16 => .mode 0x0210#16
  | .idx1 => .mode 0x0301#16
  | .idx2 => .mode 0x0302#16
  | .idx4 => .mode 0x0304#16
  | .idx8 => .mode 0x0308#16
  | .ga8 => .mode 0x0408#16
  | .ga16 => .mode 0x0410#16
  | .rgba8 => .mode 0x0608#16
  | .rgba16 => .mode 0x0610#16
  | .modeIllegal v => .mode v

/-! ## Words of the opcode table

A row of the table gives a number of bits and a value; the FORMAT that says which layer the element belongs to (R120) is
not in the word, so one number can stand for rows of several formats (value 1 in one byte is START, BLOCK_FIXED, DIST_1
and FILT_SUB). The machine itself never meets this: where it stands fixes the format. `tableElement` picks one format for
each number, by the order its comments give (log entry 13). -/

/-- Extra-bit count of the distance symbols 18 and up (R138): `symbol div 2 - 1`. The reader's `fields` for these rows
name bit `extra` and bit `symbol` (98_reader.md), which carry no operand and may be set in a table word. -/
def tableDistNoise (sym w : Nat) : Bool :=
  let d := w - sym
  let e := 2 ^ (sym / 2 - 1)
  let f := 2 ^ sym
  d == 0 || d == e || d == f || d == e + f

/-- A word of at most one byte: the filter bytes first (the one format whose element is a byte), then the code-length
symbols 16 and 17, then the distance symbols; any other value is an invalid filter byte. -/
def tableByte (w : Nat) : Element :=
  if w < 5 then .filter (BitVec.ofNat 8 w)
  else if w = 16 ∨ w = 17 then .clsym w
  else if w < 32 then .dist w
  else .filter (BitVec.ofNat 8 w)

/-- A word of two bytes: a pixel mode where it is a legal one, then a literal/length symbol, then a zlib header with CM = 8
and FDICT = 0, else an illegal pixel mode. -/
def tableHalf (w : Nat) : Element :=
  if legalModes.contains (BitVec.ofNat 16 w) then .mode (BitVec.ofNat 16 w)
  else if w < 288 then .litlen w
  else if w / 256 % 16 = 8 ∧ w / 32 % 2 = 0 then .zhdr [BitVec.ofNat 8 (w / 256), BitVec.ofNat 8 w]
  else .mode (BitVec.ofNat 16 w)

/-- A word of three bytes: code-length symbol 18 or a distance symbol 18..23. -/
def tableThree (w : Nat) : Option Element :=
  if w % 32 = 18 ∧ (w / 256) % 2 = 0 then some (.clsym 18)
  else if 18 ≤ w % 32 ∧ w % 32 < 24 ∧ tableDistNoise (w % 32) w then some (.dist (w % 32))
  else none

/-- A word of four bytes: START where it is 1, a distance symbol 24..29, else a chunk type. -/
def tableWord (w : Nat) : Element :=
  if w = 1 then .access (.write 0x04#8 .w32 1#32)
  else if 24 ≤ w % 32 ∧ w % 32 < 30 ∧ tableDistNoise (w % 32) w then .dist (w % 32)
  else .ctype (BitVec.ofNat 32 w)

/-- The element a table word of `nbits` bits stands for. -/
def tableElement (nbits w : Nat) : Option Element :=
  if nbits = 0 then none
  else if nbits ≤ 8 then some (tableByte (w % 256))
  else if nbits ≤ 16 then some (tableHalf (w % 65536))
  else if nbits ≤ 24 then tableThree (w % 16777216)
  else if nbits ≤ 32 then some (tableWord (w % 4294967296))
  else if nbits = 64 then
    some (.sig (be32Bytes (BitVec.ofNat 32 (w / 4294967296)) ++ be32Bytes (BitVec.ofNat 32 w)))
  else none

/-- The instruction the decoder reads from a word of the opcode table (30_encoding.md R150). -/
def decodeTableWord (nbits w : Nat) : Option Instr :=
  match tableElement nbits w with
  | some e => (decode e).toOption
  | none => none

end Sys2Proof
end

