-- ==== Sys2Proof/Machine/Crc.lean ====
section
/-! DEFINITION. The CRC Validator (41_crc32.md R220), bit-serial and reflected. -/

namespace Sys2Proof.Machine

/-- One bit of the inner loop of R220. -/
def crcBit (c : Word) : Word := if c.getLsbD 0 then (c >>> 1) ^^^ 0xEDB88320#32 else c >>> 1

/-- `k` bits of the inner loop. -/
def crcBits : Nat → Word → Word
  | 0, c => c
  | k + 1, c => crcBits k (crcBit c)

/-- One byte of the outer loop. -/
def crcUpdate (c : Word) (b : Byte) : Word := crcBits 8 (c ^^^ b.setWidth 32)

/-- CRC32(s). -/
def crc32 (bs : List Byte) : Word := bs.foldl crcUpdate 0xFFFFFFFF#32 ^^^ 0xFFFFFFFF#32

end Sys2Proof.Machine
end

