-- ==== Sys2Proof/Config.lean ====
section
/-! DEFINITION. What is fixed for this hardware (00_scope.md R7), the values the model names for the OPEN parameters,
and the free values: opaque constants of which nothing can be proved but their type. -/

namespace Sys2Proof.Config

/-- The constant the ID register reads (10_state.md R31). -/
def idValue : Word := 0x504E4707#32

/-- LZ77 history size in bytes (00_scope.md R7, WINDOW). -/
def windowSize : Nat := 32768

/-- Entries of the palette RAM and of the alpha RAM (00_scope.md R7, PAL_MAX). -/
def palMax : Nat := 256

/-- Size of the bus address space in bytes (20_memory.md R90, ADDR_W = 32). -/
def busSize : Nat := 4294967296

/-- The Adler-32 modulus (44_inflate.md R363). -/
def adlerMod : Nat := 65521

/-- DESIGN CHOICE (log entry 3): P_MAX_DIM as State.reset holds it, the value of 95_test_vectors.md; R7 leaves it OPEN. -/
def resetMaxDim : Nat := 2147483647

/-- DESIGN CHOICE (log entry 3): P_MAX_PIXELS as State.reset holds it, the value of 95_test_vectors.md; R7 leaves it OPEN. -/
def resetMaxPixels : Nat := 4611686018427387904

/-- FREE VALUE (log entry 4): the byte the platform holds at a bus address nothing has written since power-on (R557). -/
opaque powerOnByte : Word → Byte

/-- FREE VALUE (log entry 6): a byte of WIN or ALPHA that the current decode has not written (R185, R553). -/
opaque staleByte : Nat → Byte

/-- FREE VALUE (log entry 8): the byte left at an address of SCR_USED or OUT_USED when the spec calls it unspecified
(R99, R100, R551); applied to the free-value counter and the address. -/
opaque spoiledByte : Nat → Nat → Byte

/-- FREE VALUE (log entry 10): what a host read of OUTR or SCR returns while BUSY = 1 (R103 item 4, R560 H2). -/
opaque racedByte : Nat → Byte

/-- FREE VALUE (log entry 16): what a register a decode writes holds, at each read and after the completion, once the host has
written into its regions (R103 item 5); applied to the free-value counter and a number for the field. -/
opaque racedWord : Nat → Nat → Word

/-- FREE VALUE (log entry 7): the draw behind a STATUS.PHASE read while BUSY = 1 (R36, R570). -/
opaque phaseDraw : Nat → Nat

end Sys2Proof.Config
end

