-- ==== Sys2Proof/Machine/State.lean ====
section
/-! DEFINITION. The machine's state as plain data (10_state.md), the errors a decode can raise (60_exceptions.md R502),
the reasons a step can stop, and the state after reset (70_reset_and_hazards.md R552). -/

namespace Sys2Proof.Machine

/-- Sparse contents of a memory or a table, keyed by index, strictly rising; an unlisted key has no value. -/
abbrev Table (α : Type) := List (Nat × α)

/-- The bus address space (20_memory.md R90): the bytes written since power-on. An unlisted address has no value here. -/
abbrev Memory := List Host.Cell

/-- The detail codes of 60_exceptions.md R502. -/
inductive Detail where
  /-- 0x0101 SIG_SHORT. -/
  | sigShort
  /-- 0x0102 SIG_MISMATCH. -/
  | sigMismatch
  /-- 0x0201 CHUNK_TRUNC_HEADER. -/
  | chunkTruncHeader
  /-- 0x0202 CHUNK_BAD_TYPE. -/
  | chunkBadType
  /-- 0x0203 CHUNK_TRUNC_BODY. -/
  | chunkTruncBody
  /-- 0x0204 CHUNK_CRC_MISMATCH. -/
  | chunkCrcMismatch
  /-- 0x0205 FIRST_NOT_IHDR. -/
  | firstNotIhdr
  /-- 0x0206 UNKNOWN_CRITICAL. -/
  | unknownCritical
  /-- 0x0207 UNKNOWN_ANCILLARY. -/
  | unknownAncillary
  /-- 0x0208 DUPLICATE_IHDR. -/
  | duplicateIhdr
  /-- 0x0209 IHDR_LENGTH. -/
  | ihdrLength
  /-- 0x020A ZERO_DIMENSION. -/
  | zeroDimension
  /-- 0x020B DIMENSION_RANGE. -/
  | dimensionRange
  /-- 0x020C BAD_DEPTH_COLOR. -/
  | badDepthColor
  /-- 0x020D BAD_COMPRESSION_METHOD. -/
  | badCompressionMethod
  /-- 0x020E BAD_FILTER_METHOD. -/
  | badFilterMethod
  /-- 0x020F BAD_INTERLACE_METHOD. -/
  | badInterlaceMethod
  /-- 0x0210 PLTE_NOT_ALLOWED. -/
  | plteNotAllowed
  /-- 0x0211 DUPLICATE_PLTE. -/
  | duplicatePlte
  /-- 0x0212 PLTE_LENGTH. -/
  | plteLength
  /-- 0x0213 PLTE_TOO_LONG. -/
  | plteTooLong
  /-- 0x0214 CHUNK_AFTER_IDAT. -/
  | chunkAfterIdat
  /-- 0x0215 IDAT_NOT_CONTIGUOUS. -/
  | idatNotContiguous
  /-- 0x0216 MISSING_PLTE. -/
  | missingPlte
  /-- 0x0217 MISSING_IDAT. -/
  | missingIdat
  /-- 0x0218 IEND_LENGTH. -/
  | iendLength
  /-- 0x0219 ANC_MISPLACED. -/
  | ancMisplaced
  /-- 0x021A ANC_DUPLICATE. -/
  | ancDuplicate
  /-- 0x021B TRNS_NOT_ALLOWED. -/
  | trnsNotAllowed
  /-- 0x021C TRNS_LENGTH. -/
  | trnsLength
  /-- 0x021D GAMA_LENGTH. -/
  | gamaLength
  /-- 0x0230 BAD_FILTER_TYPE. -/
  | badFilterType
  /-- 0x0231 PALETTE_INDEX. -/
  | paletteIndex
  /-- 0x0301 Z_TRUNCATED. -/
  | zTruncated
  /-- 0x0302 Z_BAD_CM. -/
  | zBadCm
  /-- 0x0303 Z_BAD_CINFO. -/
  | zBadCinfo
  /-- 0x0304 Z_BAD_FCHECK. -/
  | zBadFcheck
  /-- 0x0305 Z_FDICT. -/
  | zFdict
  /-- 0x0306 D_BAD_BTYPE. -/
  | dBadBtype
  /-- 0x0307 D_STORED_NLEN. -/
  | dStoredNlen
  /-- 0x0308 D_TOO_MANY_SYMBOLS. -/
  | dTooManySymbols
  /-- 0x0309 D_BAD_CLEN_CODE. -/
  | dBadClenCode
  /-- 0x030A D_REPEAT_NO_PREV. -/
  | dRepeatNoPrev
  /-- 0x030B D_REPEAT_OVERFLOW. -/
  | dRepeatOverflow
  /-- 0x030C D_NO_EOB. -/
  | dNoEob
  /-- 0x030D D_BAD_LITLEN_CODE. -/
  | dBadLitlenCode
  /-- 0x030E D_BAD_DIST_CODE. -/
  | dBadDistCode
  /-- 0x030F D_INVALID_CODE. -/
  | dInvalidCode
  /-- 0x0310 D_INVALID_SYMBOL. -/
  | dInvalidSymbol
  /-- 0x0311 D_DIST_TOO_FAR. -/
  | dDistTooFar
  /-- 0x0312 D_OUTPUT_OVERFLOW. -/
  | dOutputOverflow
  /-- 0x0313 D_OUTPUT_SHORT. -/
  | dOutputShort
  /-- 0x0314 Z_ADLER_MISMATCH. -/
  | zAdlerMismatch
  /-- 0x0401 DIM_CEILING. -/
  | dimCeiling
  /-- 0x0402 OUT_CAP. -/
  | outCap
  /-- 0x0403 SCR_CAP. -/
  | scrCap
  /-- 0x0501 CFG_REGION_WRAP. -/
  | cfgRegionWrap
  /-- 0x0502 CFG_REGION_OVERLAP. -/
  | cfgRegionOverlap
  /-- 0x0601 READ_FAULT. -/
  | readFault
  /-- 0x0602 WRITE_FAULT. -/
  | writeFault
  deriving DecidableEq, Repr

/-- One `raise K(detail, offset)` (R505); the kind is the high byte of the detail's code. -/
structure Raise where
  detail : Detail
  offset : Nat
  deriving DecidableEq, Repr

/-- How a decode ends (40_host_interface.md R190). -/
inductive DecodeResult where
  | success
  | error (e : Raise)
  deriving DecidableEq, Repr, Inhabited

/-- Where the sequential program of 40_host_interface.md R181 stands; each point but the first and the last is where one
element of a format of 30_encoding.md R120 is read next. -/
inductive Point where
  /-- ConfigCheck is next (R184). -/
  | configCheck
  /-- The signature is next (42_chunk_reader.md R231). -/
  | signature
  /-- A chunk header is next (R232). -/
  | chunkFrame
  /-- A framed chunk waits for its dispatch (43_header_interpreter.md R272). -/
  | chunkType
  /-- The zlib header is next (44_inflate.md R325). -/
  | zlibHeader
  /-- A block header is next (R320). -/
  | blockHeader
  /-- A code-length symbol is next (R340). -/
  | clSymbol
  /-- A literal/length symbol is next (R350). -/
  | litLen
  /-- A distance symbol is next (R352). -/
  | distance
  /-- The Adler-32 trailer is next (R370). -/
  | adler
  /-- A scanline is next (45_defilter.md R400). -/
  | scanline
  /-- A pixel is next (47_interlace.md R474). -/
  | pixel
  /-- The decode has returned or raised: the completion step is next (R190). -/
  | completing (o : DecodeResult)
  deriving DecidableEq, Repr

/-- idat_state (10_state.md R61). -/
inductive IdatState where
  | none | inRun | ended
  deriving DecidableEq, Repr

/-- The host registers with their fields (10_state.md R49); ID is a constant and reserved bits have no storage. -/
structure Regs where
  /-- CTRL.IRQ_EN (R32). -/
  irqEn : Bool
  /-- CONFIG.VALIDATE_CHECKSUMS (R34). -/
  validate : Bool
  /-- CONFIG.STRICT_ANCILLARY (R34). -/
  strict : Bool
  /-- STATUS.BUSY (R35). -/
  busy : Bool
  /-- STATUS.DONE (R35). -/
  done : Bool
  /-- STATUS.ERR (R35). -/
  err : Bool
  /-- STATUS.PHASE, as the sequential program writes it (R36, R181). -/
  phase : BitVec 3
  /-- ERR_KIND (R37). -/
  errKind : BitVec 4
  /-- ERR_DETAIL (R38). -/
  errDetail : BitVec 16
  /-- ERR_OFFSET (R39). -/
  errOffset : Word
  inBase : Word
  inLen : Word
  outBase : Word
  outCap : Word
  scrBase : Word
  scrCap : Word
  imgWidth : Word
  imgHeight : Word
  /-- IMG_INFO.BIT_DEPTH (R44). -/
  bitDepth : BitVec 5
  /-- IMG_INFO.COLOR_TYPE (R44). -/
  colorType : BitVec 3
  /-- IMG_INFO.INTERLACE (R44). -/
  interlace : Bool
  hasPlte : Bool
  hasTrns : Bool
  hasGama : Bool
  /-- IMG_INFO.PLTE_ENTRIES (R44). -/
  plteEntries : BitVec 9
  gamma : Word
  outLen : Word
  rawLen : Word
  /-- TRNS_KEY0[15:0] (R48). -/
  trnsKey0 : BitVec 16
  /-- TRNS_KEY0[31:16] (R48). -/
  trnsKey1 : BitVec 16
  /-- TRNS_KEY1[15:0] (R48). -/
  trnsKey2 : BitVec 16
  /-- TRNS_KEY1[24:16] (R48). -/
  trnsEntries : BitVec 9
  deriving DecidableEq, Repr

/-- L, the values latched at START (10_state.md R71, 40_host_interface.md R183). -/
structure Latch where
  validate : Bool
  strict : Bool
  inBase : Word
  inLen : Word
  outBase : Word
  outCap : Word
  scrBase : Word
  scrCap : Word
  deriving DecidableEq, Repr

/-- The header values W, H, depth, ctype, interlace (10_state.md R61). -/
structure Header where
  width : Nat
  height : Nat
  depth : Nat
  ctype : Nat
  interlace : Bool
  deriving DecidableEq, Repr

/-- The chunk record `ch` with its start `p` (42_chunk_reader.md R230). -/
structure Chunk where
  p : Nat
  len : Nat
  ty : Word
  deriving DecidableEq, Repr

/-- Chunk-parser state (10_state.md R61). -/
structure Parse where
  seenIhdr : Bool
  seenPlte : Bool
  seenTrns : Bool
  seenGama : Bool
  idat : IdatState
  nchunks : Nat
  chunk : Chunk
  deriving DecidableEq, Repr

/-- A palette entry (10_state.md R62). -/
structure Rgb where
  r : Byte
  g : Byte
  b : Byte
  deriving DecidableEq, Repr

/-- Palette RAM, alpha RAM and transparent-colour key (10_state.md R62 to R64). -/
structure Tables where
  pal : Table Rgb
  plteN : Nat
  alpha : Table Byte
  trnsN : Nat
  keyPresent : Bool
  key0 : BitVec 16
  key1 : BitVec 16
  key2 : BitVec 16
  deriving DecidableEq, Repr

/-- One code word of a canonical code: symbol, length, value (44_inflate.md R341). -/
structure CodeWord where
  sym : Nat
  len : Nat
  code : Nat
  deriving DecidableEq, Repr

/-- Inflater state (10_state.md R66) with the loop variables of 44_inflate.md R320, R340 and R352. -/
structure Infl where
  /-- The bit cursor. -/
  bp : Nat
  /-- Start of the current block's BFINAL bit. -/
  bstart : Nat
  /-- Start of the code word of the symbol being handled: s0, c0 or ds0. -/
  symStart : Nat
  bfinal : Bool
  btype : BitVec 2
  /-- LL[0..287]. -/
  ll : List Nat
  /-- DL[0..31]. -/
  dl : List Nat
  /-- CLL[0..18]. -/
  cll : List Nat
  clCode : List CodeWord
  llCode : List CodeWord
  dCode : List CodeWord
  /-- LENS of R340. -/
  lens : List Nat
  /-- HLIT + 257. -/
  nl : Nat
  /-- HDIST + 1. -/
  nd : Nat
  /-- mlen of the match whose distance is next (R352). -/
  mlen : Nat
  /-- s0 of that match. -/
  lenStart : Nat
  deriving DecidableEq, Repr

/-- Window, output counter and Adler-32 accumulators (10_state.md R67, R68). -/
structure Out where
  win : Table Byte
  n : Nat
  s1 : Nat
  s2 : Nat
  deriving DecidableEq, Repr

/-- Defilter state (10_state.md R69): pass, row, raw-stream offsets of the current and the previous scanline. -/
structure Defl where
  pass : Nat
  row : Nat
  off : Nat
  prev : Option Nat
  deriving DecidableEq, Repr

/-- Expander and reassembler state (10_state.md R70, 47_interlace.md R474): pass, pass row, pass column, pass offset. -/
structure Expand where
  pass : Nat
  row : Nat
  col : Nat
  off : Nat
  deriving DecidableEq, Repr

/-- A window of the bus address space. -/
structure Window where
  base : Nat
  size : Nat
  deriving DecidableEq, Repr

/-- What is fixed for one instance: the OPEN parameters of 00_scope.md R7 and the platform's device windows (20_memory.md
R101). No step changes it. -/
structure Platform where
  maxDim : Nat
  maxPixels : Nat
  devices : List Window
  deriving DecidableEq, Repr

/-- What the outside world does next (40_host_interface.md R180, R195; 60_exceptions.md R512; 70_reset_and_hazards.md R550). -/
inductive Input where
  /-- A host register transaction. -/
  | access (a : Access)
  /-- The engine takes one step. -/
  | engine
  /-- A bus transfer of the engine gets an error response; `addr` is its lowest byte address. -/
  | busError (write : Bool) (addr : Word)
  /-- The host writes a byte of memory. -/
  | memWrite (addr : Word) (b : Byte)
  /-- The host reads a byte of memory. -/
  | memRead (addr : Word)
  /-- rst_n falls. -/
  | resetLow
  /-- rst_n rises. -/
  | resetHigh
  deriving DecidableEq, Repr

/-- The interfaces: pending inputs, the word and byte last returned to the host, and the level of rst_n. -/
structure Port where
  inputs : List Input
  rdata : Word
  hostByte : Byte
  rstN : Bool
  deriving DecidableEq, Repr

/-- The model's own bookkeeping of free values: the lowest PHASE the next read may show (R36), a counter, and whether the
host has written into the regions of the running decode (20_memory.md R103 item 5). -/
structure Free where
  phaseFloor : Nat
  count : Nat
  raced : Bool
  deriving DecidableEq, Repr

/-- The machine. -/
structure State where
  regs : Regs
  lat : Latch
  /-- The program-counter analogue (10_state.md R60). -/
  pos : Nat
  hdr : Header
  parse : Parse
  tabs : Tables
  /-- C, the concatenated IDAT data (10_state.md R65); clen is its length. -/
  c : List Byte
  infl : Infl
  out : Out
  defl : Defl
  exp : Expand
  point : Point
  mem : Memory
  plat : Platform
  port : Port
  free : Free
  deriving DecidableEq, Repr

/-- How an engine operation goes on: to the next state, or to a `raise` in the state it has reached (00_scope.md R11). -/
inductive Flow where
  | go (s : State)
  | stop (s : State) (e : Raise)
  deriving DecidableEq, Repr

/-- Reasons a step stops with a fault. No error of a decode is among them: those are next states (R190). -/
inductive Fault where
  /-- Raised by a fetch in a state no run reaches, whose code holds a symbol its alphabet has not (log entry 12). Safe. -/
  | noSuchElement
  deriving DecidableEq, Repr

/-- Reasons a step is refused. -/
inductive Refusal where
  /-- Raised by exec for an instruction with no meaning yet. Safe. -/
  | notModelled (mnemonic : String)
  /-- Raised by the port for an access that is not 32-bit at a multiple of 4 (10_state.md R53). Safe: the spec defines no
  behaviour and has the model refuse it. -/
  | portAccess
  /-- Raised by START when a region covers a device with read side effects (20_memory.md R101). Safe: the spec has the
  model refuse such a launch. -/
  | regionCoversDevice
  deriving DecidableEq, Repr

/-- The host registers after reset (70_reset_and_hazards.md R552). -/
def Regs.reset : Regs where
  irqEn := false
  validate := true
  strict := false
  busy := false
  done := false
  err := false
  phase := 0
  errKind := 0
  errDetail := 0
  errOffset := 0
  inBase := 0
  inLen := 0
  outBase := 0
  outCap := 0
  scrBase := 0
  scrCap := 0
  imgWidth := 0
  imgHeight := 0
  bitDepth := 0
  colorType := 0
  interlace := false
  hasPlte := false
  hasTrns := false
  hasGama := false
  plteEntries := 0
  gamma := 0
  outLen := 0
  rawLen := 0
  trnsKey0 := 0
  trnsKey1 := 0
  trnsKey2 := 0
  trnsEntries := 0

/-- The inflater's fields after reset: unspecified by R553. DESIGN CHOICE (log entry 5). -/
def Infl.reset : Infl where
  bp := 0
  bstart := 0
  symStart := 0
  bfinal := false
  btype := 0
  ll := List.replicate 288 0
  dl := List.replicate 32 0
  cll := List.replicate 19 0
  clCode := []
  llCode := []
  dCode := []
  lens := []
  nl := 0
  nd := 0
  mlen := 0
  lenStart := 0

/-- The machine right after reset: the registers by R552, memory with nothing listed (R557), rst_n released, no pending
input. The internal state and L are unspecified (R553): DESIGN CHOICE (log entry 5). The OPEN parameters stand at the
values of 95_test_vectors.md: DESIGN CHOICE (log entry 3). -/
def State.reset : State where
  regs := Regs.reset
  lat := ⟨false, false, 0, 0, 0, 0, 0, 0⟩
  pos := 0
  hdr := ⟨0, 0, 0, 0, false⟩
  parse := ⟨false, false, false, false, .none, 0, ⟨0, 0, 0⟩⟩
  tabs := ⟨[], 0, [], 0, false, 0, 0, 0⟩
  c := []
  infl := Infl.reset
  out := ⟨[], 0, 0, 0⟩
  defl := ⟨0, 0, 0, none⟩
  exp := ⟨0, 0, 0, 0⟩
  point := .configCheck
  mem := []
  plat := ⟨Config.resetMaxDim, Config.resetMaxPixels, []⟩
  port := ⟨[], 0, 0, true⟩
  free := ⟨0, 0, false⟩

end Sys2Proof.Machine
end

