-- ==== Sys2Proof/Machine/Huffman.lean ====
section
/-! DEFINITION. Canonical Huffman codes: building, kinds and the fixed codes (44_inflate.md R341, R342, 30_encoding.md R139). -/

namespace Sys2Proof.Machine

/-- bl_count[l] of R341. -/
def blCount (lens : List Nat) (l : Nat) : Nat := if l = 0 then 0 else lens.count l

/-- next_code[l], next_code[l + 1], ... for `k` lengths, from the running `code` of R341. -/
def nextCodes (lens : List Nat) : Nat → Nat → Nat → List Nat
  | 0, _, _ => []
  | k + 1, l, code =>
    let code' := (code + blCount lens (l - 1)) * 2
    code' :: nextCodes lens k (l + 1) code'

/-- The assignment loop of R341 over the symbols from `s` on; `next` holds next_code[0..15]. -/
def assignCodes : Nat → List Nat → List Nat → List CodeWord
  | _, _, [] => []
  | s, next, l :: r =>
    if l = 0 then assignCodes (s + 1) next r
    else ⟨s, l, next.getD l 0⟩ :: assignCodes (s + 1) (next.set l (next.getD l 0 + 1)) r

/-- BuildCode(lens) (R341): the code words of the symbols whose length is not 0, in symbol order. -/
def buildCode (lens : List Nat) : List CodeWord := assignCodes 0 (0 :: nextCodes lens 15 1 0) lens

/-- K of R342. -/
def kraft (lens : List Nat) : Nat := (lens.map fun l => if l = 0 then 0 else 2 ^ (15 - l)).sum

/-- A complete code (R342). -/
def codeComplete (lens : List Nat) : Bool := kraft lens == 32768

/-- A single code: exactly one code word, of length 1 (R342). -/
def codeSingle (lens : List Nat) : Bool := lens.filter (fun l => l != 0) == [1]

/-- An empty code (R342). -/
def codeEmpty (lens : List Nat) : Bool := lens.all fun l => l == 0

/-- The lengths of the fixed literal/length code (30_encoding.md R139). -/
def fixedLitLens : List Nat :=
  List.replicate 144 8 ++ List.replicate 112 9 ++ List.replicate 24 7 ++ List.replicate 8 8

/-- The lengths of the fixed distance code (R139). -/
def fixedDistLens : List Nat := List.replicate 32 5

end Sys2Proof.Machine
end

