-- ==== Sys2Proof/Machine/Flags.lean ====
section
/-! DEFINITION. The status, flag and control words: how the fields stand in the 32-bit registers (10_state.md R32 to R48),
the register read, the interrupt level, and the codes of the errors. -/

namespace Sys2Proof.Machine

/-- The code of a detail (60_exceptions.md R502). -/
def Detail.code : Detail → BitVec 16
  | .sigShort => 0x0101#16
  | .sigMismatch => 0x0102#16
  | .chunkTruncHeader => 0x0201#16
  | .chunkBadType => 0x0202#16
  | .chunkTruncBody => 0x0203#16
  | .chunkCrcMismatch => 0x0204#16
  | .firstNotIhdr => 0x0205#16
  | .unknownCritical => 0x0206#16
  | .unknownAncillary => 0x0207#16
  | .duplicateIhdr => 0x0208#16
  | .ihdrLength => 0x0209#16
  | .zeroDimension => 0x020A#16
  | .dimensionRange => 0x020B#16
  | .badDepthColor => 0x020C#16
  | .badCompressionMethod => 0x020D#16
  | .badFilterMethod => 0x020E#16
  | .badInterlaceMethod => 0x020F#16
  | .plteNotAllowed => 0x0210#16
  | .duplicatePlte => 0x0211#16
  | .plteLength => 0x0212#16
  | .plteTooLong => 0x0213#16
  | .chunkAfterIdat => 0x0214#16
  | .idatNotContiguous => 0x0215#16
  | .missingPlte => 0x0216#16
  | .missingIdat => 0x0217#16
  | .iendLength => 0x0218#16
  | .ancMisplaced => 0x0219#16
  | .ancDuplicate => 0x021A#16
  | .trnsNotAllowed => 0x021B#16
  | .trnsLength => 0x021C#16
  | .gamaLength => 0x021D#16
  | .badFilterType => 0x0230#16
  | .paletteIndex => 0x0231#16
  | .zTruncated => 0x0301#16
  | .zBadCm => 0x0302#16
  | .zBadCinfo => 0x0303#16
  | .zBadFcheck => 0x0304#16
  | .zFdict => 0x0305#16
  | .dBadBtype => 0x0306#16
  | .dStoredNlen => 0x0307#16
  | .dTooManySymbols => 0x0308#16
  | .dBadClenCode => 0x0309#16
  | .dRepeatNoPrev => 0x030A#16
  | .dRepeatOverflow => 0x030B#16
  | .dNoEob => 0x030C#16
  | .dBadLitlenCode => 0x030D#16
  | .dBadDistCode => 0x030E#16
  | .dInvalidCode => 0x030F#16
  | .dInvalidSymbol => 0x0310#16
  | .dDistTooFar => 0x0311#16
  | .dOutputOverflow => 0x0312#16
  | .dOutputShort => 0x0313#16
  | .zAdlerMismatch => 0x0314#16
  | .dimCeiling => 0x0401#16
  | .outCap => 0x0402#16
  | .scrCap => 0x0403#16
  | .cfgRegionWrap => 0x0501#16
  | .cfgRegionOverlap => 0x0502#16
  | .readFault => 0x0601#16
  | .writeFault => 0x0602#16

/-- ERR_KIND of a detail: bits 15:8 of its code (R501, R502). -/
def Detail.kind (d : Detail) : BitVec 4 := d.code.extractLsb' 8 4

/-- CTRL as it reads: IRQ_EN in bit 2, START reads 0 (10_state.md R32). -/
def ctrlWord (r : Regs) : Word := 0#29 ++ BitVec.ofBool r.irqEn ++ 0#2

/-- CONFIG (R34). -/
def configWord (r : Regs) : Word := 0#30 ++ BitVec.ofBool r.strict ++ BitVec.ofBool r.validate

/-- STATUS with the PHASE value shown (R35). -/
def statusWord (r : Regs) (phase : BitVec 3) : Word :=
  0#21 ++ phase ++ 0#5 ++ BitVec.ofBool r.err ++ BitVec.ofBool r.done ++ BitVec.ofBool r.busy

/-- ERR_KIND (R37). -/
def errKindWord (r : Regs) : Word := 0#28 ++ r.errKind

/-- ERR_DETAIL (R38). -/
def errDetailWord (r : Regs) : Word := 0#16 ++ r.errDetail

/-- IMG_INFO (R44). -/
def imgInfoWord (r : Regs) : Word :=
  0#7 ++ r.plteEntries ++ BitVec.ofBool r.hasGama ++ BitVec.ofBool r.hasTrns ++ BitVec.ofBool r.hasPlte
    ++ BitVec.ofBool r.interlace ++ 0#1 ++ r.colorType ++ 0#3 ++ r.bitDepth

/-- TRNS_KEY0 (R48). -/
def trnsKey0Word (r : Regs) : Word := r.trnsKey1 ++ r.trnsKey0

/-- TRNS_KEY1 (R48). -/
def trnsKey1Word (r : Regs) : Word := 0#7 ++ r.trnsEntries ++ r.trnsKey2

/-- The PHASE value a STATUS read shows: the field while idle, a draw in phaseFloor..4 while BUSY (R36, R570; the draw is
a free value, log entry 7). -/
def phaseShown (s : State) : Nat :=
  if s.regs.busy then s.free.phaseFloor + Config.phaseDraw s.free.count % (5 - s.free.phaseFloor)
  else s.regs.phase.toNat

/-- The registers a decode writes, each a free value (20_memory.md R103 item 5, log entry 16); the others stay. -/
def racedRegs (n : Nat) (r : Regs) : Regs :=
  { r with
    imgWidth := Config.racedWord n 0, imgHeight := Config.racedWord n 1
    bitDepth := (Config.racedWord n 2).setWidth 5, colorType := (Config.racedWord n 3).setWidth 3
    interlace := (Config.racedWord n 4).getLsbD 0, hasPlte := (Config.racedWord n 5).getLsbD 0
    hasTrns := (Config.racedWord n 6).getLsbD 0, hasGama := (Config.racedWord n 7).getLsbD 0
    plteEntries := (Config.racedWord n 8).setWidth 9, gamma := Config.racedWord n 9
    outLen := Config.racedWord n 10, rawLen := Config.racedWord n 11
    trnsKey0 := (Config.racedWord n 12).setWidth 16, trnsKey1 := (Config.racedWord n 13).setWidth 16
    trnsKey2 := (Config.racedWord n 14).setWidth 16, trnsEntries := (Config.racedWord n 15).setWidth 9 }

/-- The registers as a read finds them: those a decode writes are fresh free values while a decode runs into whose regions
the host has written (R103 item 5, log entry 16). -/
def shownRegs (s : State) : Regs :=
  if s.regs.busy && s.free.raced then racedRegs s.free.count s.regs else s.regs

/-- The register at an offset (R49); a reserved offset reads 0. -/
def regWord (s : State) (off : BitVec 8) : Word :=
  match off.toNat with
  | 0x00 => Config.idValue
  | 0x04 => ctrlWord s.regs
  | 0x08 => configWord s.regs
  | 0x0C => statusWord s.regs (BitVec.ofNat 3 (phaseShown s))
  | 0x10 => errKindWord s.regs
  | 0x14 => errDetailWord s.regs
  | 0x18 => s.regs.errOffset
  | 0x1C => s.regs.inBase
  | 0x20 => s.regs.inLen
  | 0x24 => s.regs.outBase
  | 0x28 => s.regs.outCap
  | 0x2C => s.regs.scrBase
  | 0x30 => s.regs.scrCap
  | 0x34 => (shownRegs s).imgWidth
  | 0x38 => (shownRegs s).imgHeight
  | 0x3C => imgInfoWord (shownRegs s)
  | 0x40 => (shownRegs s).gamma
  | 0x44 => (shownRegs s).outLen
  | 0x48 => (shownRegs s).rawLen
  | 0x4C => trnsKey0Word (shownRegs s)
  | 0x50 => trnsKey1Word (shownRegs s)
  | _ => 0#32

/-- The `irq` output (60_exceptions.md R520). -/
def irq (s : State) : Bool := s.regs.irqEn && (s.regs.done || s.regs.err)

/-- The W1C effect of a STATUS write on DONE and ERR (40_host_interface.md R191). -/
def clearStatusFlags (v : Word) (r : Regs) : Regs :=
  { r with done := r.done && !(v.getLsbD 1), err := r.err && !(v.getLsbD 2) }

/-- What a START clears and sets in the registers (R182). -/
def startRegs (v : Word) (r : Regs) : Regs :=
  { r with
    done := false, err := false, errKind := 0, errDetail := 0, errOffset := 0, imgWidth := 0, imgHeight := 0,
    bitDepth := 0, colorType := 0, interlace := false, hasPlte := false, hasTrns := false, hasGama := false,
    plteEntries := 0, gamma := 0, outLen := 0, rawLen := 0, trnsKey0 := 0, trnsKey1 := 0, trnsKey2 := 0,
    trnsEntries := 0, irqEn := v.getLsbD 2, busy := true, phase := 1 }

/-- The registers after a completion (R190). -/
def completeRegs (o : DecodeResult) (r : Regs) : Regs :=
  match o with
  | .success => { r with done := true, phase := 0, busy := false }
  | .error e =>
    { r with
      errKind := e.detail.kind, errDetail := e.detail.code, errOffset := BitVec.ofNat 32 e.offset, err := true,
      phase := 0, busy := false }

end Sys2Proof.Machine
end

