-- ==== Sys2Proof/Machine/Geometry.lean ====
section
/-! DEFINITION. Pass geometry and derived lengths (47_interlace.md R470 to R472, 43_header_interpreter.md R278, R279,
45_defilter.md R402), all in unbounded integers. -/

namespace Sys2Proof.Machine

/-- Start row, start column, row step and column step of a pass (47_interlace.md R470). -/
structure PassGrid where
  r0 : Nat
  c0 : Nat
  dr : Nat
  dc : Nat
  deriving DecidableEq, Repr

/-- The Adam7 pass table (R472) with pass 0, the whole image (R470). -/
def passGrid : Nat → PassGrid
  | 1 => ⟨0, 0, 8, 8⟩
  | 2 => ⟨0, 4, 8, 8⟩
  | 3 => ⟨4, 0, 8, 4⟩
  | 4 => ⟨0, 2, 4, 4⟩
  | 5 => ⟨2, 0, 4, 2⟩
  | 6 => ⟨0, 1, 2, 2⟩
  | 7 => ⟨1, 0, 2, 1⟩
  | _ => ⟨0, 0, 1, 1⟩

/-- The passes of an image in order (R470). -/
def passNumbers (interlace : Bool) : List Nat := if interlace then [1, 2, 3, 4, 5, 6, 7] else [0]

/-- w_p (R471). -/
def passWidth (h : Header) (p : Nat) : Nat :=
  if (passGrid p).c0 < h.width then ceilDiv (h.width - (passGrid p).c0) (passGrid p).dc else 0

/-- h_p (R471). -/
def passHeight (h : Header) (p : Nat) : Nat :=
  if (passGrid p).r0 < h.height then ceilDiv (h.height - (passGrid p).r0) (passGrid p).dr else 0

/-- A pass with no column or no row is empty (R471, R476). -/
def passEmpty (h : Header) (p : Nat) : Bool := passWidth h p == 0 || passHeight h p == 0

/-- The channel count of a colour type (43_header_interpreter.md R278); 0 where no mode has that colour type. -/
def channels (ctype : Nat) : Nat :=
  match ctype with
  | 0 => 1
  | 2 => 3
  | 3 => 1
  | 4 => 2
  | 6 => 4
  | _ => 0

/-- rowbytes(w) (R279). -/
def rowBytes (h : Header) (w : Nat) : Nat := (w * (channels h.ctype * h.depth) + 7) / 8

/-- The bytes a pass takes in the raw stream, filter bytes included (R279). -/
def passBytes (h : Header) (p : Nat) : Nat :=
  if passEmpty h p then 0 else passHeight h p * (1 + rowBytes h (passWidth h p))

/-- RAWLEN (R279). -/
def rawLength (h : Header) : Nat := ((passNumbers h.interlace).map (passBytes h)).sum

/-- OUTLEN (R279). -/
def outLength (h : Header) : Nat := h.width * h.height * 4

/-- bpp, the filter stride in bytes (45_defilter.md R402). -/
def filterStride (h : Header) : Nat := max 1 (channels h.ctype * h.depth / 8)

/-- The first non-empty pass numbered `first` or more, in pass order (47_interlace.md R474, R476). -/
def nextPass (h : Header) (first : Nat) : Option Nat :=
  (passNumbers h.interlace).find? fun p => decide (first ≤ p) && !(passEmpty h p)

end Sys2Proof.Machine
end

