-- ==== Sys2Proof/Machine/Ops.lean ====
section
/-! DEFINITION. The named operations over memory, tables and registers: the one home of every bus access, raising an error
and the completion step (40_host_interface.md R190), launching a decode, and emitting a raw-stream byte. -/

namespace Sys2Proof.Machine

/-- The outcome of a step. -/
abbrev Result := Host.Outcome State Fault Refusal

/-! ### Sparse tables -/

/-- The value listed at a key. -/
def tableGet {α : Type} : Table α → Nat → Option α
  | [], _ => none
  | (a, b) :: r, k => if a = k then some b else tableGet r k

/-- Write the value of one key, keeping the keys strictly rising. -/
def tablePut {α : Type} : Table α → Nat → α → Table α
  | [], k, v => [(k, v)]
  | (a, b) :: r, k, v =>
    if k < a then (k, v) :: (a, b) :: r else if k = a then (k, v) :: r else (a, b) :: tablePut r k v

/-- Write `size` consecutive keys from `base` at once. -/
def tableFill {α : Type} (t : Table α) (base size : Nat) (f : Nat → α) : Table α :=
  t.filter (fun c => decide (c.1 < base)) ++ (List.range size).map (fun k => (base + k, f (base + k)))
    ++ t.filter (fun c => decide (base + size ≤ c.1))

/-- The canonical form of a table whose keys are below `bound`: strictly rising. -/
abbrev tableWf {α : Type} (bound : Nat) (t : Table α) : Prop :=
  t.Pairwise (fun x y => x.1 < y.1) ∧ ∀ c ∈ t, c.1 < bound

/-- The canonical form of memory: addresses strictly rising, all inside the bus address space (R90). An unlisted address
has no value, so no entry can equal what an unlisted address reads as. -/
abbrev Memory.wf (m : Memory) : Prop := tableWf Config.busSize m

/-! ### Field updates -/

def State.setRegs (s : State) (r : Regs) : State := { s with regs := r }
def State.setLat (s : State) (l : Latch) : State := { s with lat := l }
def State.setPos (s : State) (p : Nat) : State := { s with pos := p }
def State.setHdr (s : State) (h : Header) : State := { s with hdr := h }
def State.setParse (s : State) (p : Parse) : State := { s with parse := p }
def State.setTabs (s : State) (t : Tables) : State := { s with tabs := t }
def State.setC (s : State) (c : List Byte) : State := { s with c := c }
def State.setInfl (s : State) (i : Infl) : State := { s with infl := i }
def State.setOut (s : State) (o : Out) : State := { s with out := o }
def State.setDefl (s : State) (d : Defl) : State := { s with defl := d }
def State.setExp (s : State) (e : Expand) : State := { s with exp := e }
def State.setPoint (s : State) (p : Point) : State := { s with point := p }
def State.setMem (s : State) (m : Memory) : State := { s with mem := m }
def State.setPort (s : State) (p : Port) : State := { s with port := p }
def State.setFree (s : State) (f : Free) : State := { s with free := f }

/-- Move the bit cursor. -/
def State.setBp (s : State) (bp : Nat) : State := s.setInfl { s.infl with bp := bp }

/-- Write STATUS.PHASE (40_host_interface.md R181). -/
def State.setPhase (s : State) (p : BitVec 3) : State := s.setRegs { s.regs with phase := p }

/-! ### The bus -/

/-- Address `base + k` on the 32-bit bus. Inside a region that passed ConfigCheck it never wraps (log entry 11). -/
def busAt (base : Word) (k : Nat) : Word := base + BitVec.ofNat 32 k

/-- MemRead of one byte (20_memory.md R96); a byte nothing has written since power-on is a free value (log entry 4). -/
def busRead (s : State) (a : Word) : Byte :=
  match tableGet s.mem a.toNat with
  | some b => b
  | none => Config.powerOnByte a

/-- MemWrite of one byte (R97). -/
def busWrite (s : State) (a : Word) (b : Byte) : State := s.setMem (tablePut s.mem a.toNat b)

/-- In(i), byte i of the input stream (R98). -/
def inByte (s : State) (i : Nat) : Byte := busRead s (busAt s.lat.inBase i)

/-- The n bytes In(i) .. In(i+n-1). -/
def inBytes (s : State) (i n : Nat) : List Byte := (List.range n).map fun k => inByte s (i + k)

/-- Byte k of the raw stream, R[k] or R'[k], in the scratch region (R99). -/
def rawByte (s : State) (k : Nat) : Byte := busRead s (busAt s.lat.scrBase k)

/-- Write byte k of the raw stream (R99). -/
def setRaw (s : State) (k : Nat) (b : Byte) : State := busWrite s (busAt s.lat.scrBase k) b

/-- Write one RGBA byte of the output (R100). -/
def setOutByte (s : State) (k : Nat) (b : Byte) : State := busWrite s (busAt s.lat.outBase k) b

/-- Leave `size` bytes from `base` unspecified: each becomes a free value (log entry 8). -/
def spoil (s : State) (base : Word) (size : Nat) : State :=
  (s.setMem (tableFill s.mem base.toNat (min size (Config.busSize - base.toNat))
    (Config.spoiledByte s.free.count))).setFree { s.free with count := s.free.count + 1 }

/-! ### Regions -/

/-- The three regions of the latched values (R94). -/
def regionIn (l : Latch) : Window := ⟨l.inBase.toNat, l.inLen.toNat⟩
def regionOut (l : Latch) : Window := ⟨l.outBase.toNat, l.outCap.toNat⟩
def regionScr (l : Latch) : Window := ⟨l.scrBase.toNat, l.scrCap.toNat⟩

/-- A region that runs past the end of the bus address space (40_host_interface.md R184). -/
def windowWraps (w : Window) : Bool := decide (0 < w.size) && decide (Config.busSize < w.base + w.size)

/-- Two regions that share a byte (R184). -/
def windowsOverlap (a b : Window) : Bool :=
  decide (0 < a.size) && decide (0 < b.size) && decide (a.base < b.base + b.size) && decide (b.base < a.base + a.size)

/-- ConfigCheck's verdict, in its check order (R184). -/
def regionError (l : Latch) : Option Detail :=
  if windowWraps (regionIn l) || windowWraps (regionOut l) || windowWraps (regionScr l) then some .cfgRegionWrap
  else if windowsOverlap (regionIn l) (regionOut l) || windowsOverlap (regionIn l) (regionScr l)
      || windowsOverlap (regionOut l) (regionScr l) then some .cfgRegionOverlap
  else none

/-- The address lies in the window. -/
def windowHas (w : Window) (a : Nat) : Bool := decide (w.base ≤ a) && decide (a < w.base + w.size)

/-- OUT_USED and SCR_USED (20_memory.md R94): defined once IHDR is accepted, empty before. -/
def usedOut (s : State) : Window := ⟨s.lat.outBase.toNat, if s.parse.seenIhdr then outLength s.hdr else 0⟩
def usedScr (s : State) : Window := ⟨s.lat.scrBase.toNat, if s.parse.seenIhdr then rawLength s.hdr else 0⟩

/-! ### Errors and completion -/

/-- `raise K(detail, offset)` (60_exceptions.md R505): the program ends and the completion step is next. -/
def raise (s : State) (d : Detail) (off : Nat) : State := s.setPoint (.completing (.error ⟨d, off⟩))

/-- A flow as a step's outcome: a `raise` is a next state (R500). -/
def Flow.result : Flow → Result
  | .go s => .next s
  | .stop s e => .next (raise s e.detail e.offset)

/-- What a decode may have written of a region whose used part is `used`: that part, which is empty until IHDR is accepted;
but where the host has written into the regions (R103 item 5) and IHDR was not yet accepted, any part, if the regions are legal
(40_host_interface.md R184). -/
def openWindow (s : State) (used whole : Window) : Window :=
  if s.free.raced && !s.parse.seenIhdr && regionError s.lat == none then whole else used

/-- The bytes of OUTR and of SCR that a completion can leave unspecified (R99, R100, R103 item 5). -/
def openOut (s : State) : Window := openWindow s (usedOut s) (regionOut s.lat)
def openScr (s : State) : Window := openWindow s (usedScr s) (regionScr s.lat)

/-- The completion step (40_host_interface.md R190), the analogue of exception entry (60_exceptions.md R515): the error
registers, DONE or ERR, PHASE and BUSY; SCR_USED is left unspecified (20_memory.md R99), and OUT_USED after an error (R100).
After a host write into the regions OUT_USED and the registers a decode writes are left unspecified whatever the outcome (R103
item 5, log entry 16). -/
def complete (o : DecodeResult) (s : State) : State :=
  let s1 := spoil s s.lat.scrBase (openScr s).size
  let s2 := if o = .success ∧ s.free.raced = false then s1 else spoil s1 s.lat.outBase (openOut s).size
  s2.setRegs (completeRegs o (if s.free.raced then racedRegs s.free.count s.regs else s.regs))

/-- ConfigCheck, the first step of a decode (R184, R181). -/
def configCheck (s : State) : State :=
  match regionError s.lat with
  | some d => raise s d 0
  | none => (s.setPhase 1).setPoint .signature

/-! ### Launch -/

/-- Latch (40_host_interface.md R183). -/
def latchOf (r : Regs) : Latch :=
  ⟨r.validate, r.strict, r.inBase, r.inLen, r.outBase, r.outCap, r.scrBase, r.scrCap⟩

/-- InitInternal (R185): PAL, ALPHA and WIN keep what they held, and so do the fields no rule names there. -/
def initInternal (s : State) : State :=
  { s with
    pos := 0
    parse := { s.parse with
      seenIhdr := false, seenPlte := false, seenTrns := false, seenGama := false, idat := .none, nchunks := 0 }
    tabs := { s.tabs with plteN := 0, trnsN := 0, keyPresent := false }
    c := []
    out := { s.out with n := 0, s1 := 1, s2 := 0 } }

/-- An accepted START (R182): registers, Latch, InitInternal, and the engine at ConfigCheck; a new decode may show any
PHASE from 1 up (R36), and no host write into its regions has happened. -/
def launch (v : Word) (s : State) : State :=
  (((initInternal ((s.setRegs (startRegs v s.regs)).setLat (latchOf s.regs))).setPoint .configCheck).setFree
    { s.free with phaseFloor := 1, raced := false })

/-- A region of the launch covers a device window (20_memory.md R101). -/
def coversDevice (s : State) : Bool :=
  let l := latchOf s.regs
  s.plat.devices.any fun d =>
    windowsOverlap (regionIn l) d || windowsOverlap (regionOut l) d || windowsOverlap (regionScr l) d

/-! ### The raw stream -/

/-- Emit(b) (44_inflate.md R363). -/
def emit (s : State) (b : Byte) : State :=
  let s1 := (s.out.s1 + b.toNat) % Config.adlerMod
  (setRaw s s.out.n b).setOut
    { win := tablePut s.out.win (s.out.n % Config.windowSize) b
      n := s.out.n + 1
      s1 := s1
      s2 := (s.out.s2 + s1) % Config.adlerMod }

/-- WIN[k]; an entry this decode has not written is a free value, which no run reads (10_state.md R67, R185). -/
def winByte (s : State) (k : Nat) : Byte :=
  match tableGet s.out.win k with
  | some b => b
  | none => Config.staleByte k

/-- CompressionError(Z_TRUNCATED, clen) (R321). -/
def truncated (s : State) : State := raise s .zTruncated s.c.length

end Sys2Proof.Machine
end

