-- ==== Sys2Proof/Machine/Operands.lean ====
section
/-! DEFINITION. Every operand form: fields of a chunk's data, bits and symbols of C, samples of a scanline. -/

namespace Sys2Proof.Machine

/-! ### Chunk data (30_encoding.md R122, R125) -/

/-- Byte i of the current chunk's data field, In(p + 8 + i). -/
def dataByte (s : State) (i : Nat) : Byte := inByte s (s.parse.chunk.p + 8 + i)

/-- `BE32(data, i)` (00_scope.md R10). -/
def dataBe32 (s : State) (i : Nat) : Word :=
  be32 (dataByte s i) (dataByte s (i + 1)) (dataByte s (i + 2)) (dataByte s (i + 3))

/-- `BE16(data, i)` (R10). -/
def dataBe16 (s : State) (i : Nat) : BitVec 16 := dataByte s i ++ dataByte s (i + 1)

/-- The whole data field. -/
def dataBytes (s : State) : List Byte := inBytes s (s.parse.chunk.p + 8) s.parse.chunk.len

/-! ### Bits of C (30_encoding.md R132, 44_inflate.md R321) -/

/-- Bit k of C: bit k mod 8 of byte C[k div 8]. -/
def cBit (c : List Byte) (k : Nat) : Bool := (c.getD (k / 8) 0#8).getLsbD (k % 8)

/-- The m bits of C from bit bp, the first bit read being bit 0 of the value. -/
def bitsValue (c : List Byte) : Nat → Nat → Nat
  | _, 0 => 0
  | bp, m + 1 => (cBit c bp).toNat + 2 * bitsValue c (bp + 1) m

/-- GetBits(m) at bit bp: none when a bit at or beyond 8 * clen would be read (R321). -/
def getBits (c : List Byte) (bp m : Nat) : Option Nat :=
  if bp + m ≤ 8 * c.length then some (bitsValue c bp m) else none

/-- What DecodeSym finds: a symbol with the cursor after it, no code word, or the end of C. -/
inductive SymResult where
  | sym (s bp : Nat)
  | invalid
  | truncated
  deriving DecidableEq, Repr

/-- DecodeSym's loop (R322) with `l` bits read so far, of value `v`; 16 rounds suffice, no code word being longer than 15. -/
def decodeSymFrom (h : List CodeWord) (c : List Byte) : Nat → Nat → Nat → Nat → SymResult
  | 0, _, _, _ => .invalid
  | fuel + 1, bp, l, v =>
    if h.any (fun w => decide (l < w.len) && w.code / 2 ^ (w.len - l) == v) then
      match getBits c bp 1 with
      | none => .truncated
      | some b =>
        match h.find? (fun w => w.len == l + 1 && w.code == 2 * v + b) with
        | some w => .sym w.sym (bp + 1)
        | none => decodeSymFrom h c fuel (bp + 1) (l + 1) (2 * v + b)
    else .invalid

/-- DecodeSym(H) at bit bp (R322). -/
def decodeSym (h : List CodeWord) (c : List Byte) (bp : Nat) : SymResult := decodeSymFrom h c 16 bp 0 0

/-- The next byte boundary at or after a bit position (R330, R370). -/
def alignBits (bp : Nat) : Nat := ceilDiv bp 8 * 8

/-! ### Samples (46_sample_expander.md R431, R432, R439) -/

/-- SubSample(row, x, d), d in 1, 2, 4 (R431). -/
def subSample (s : State) (row x d : Nat) : Nat :=
  (rawByte s (row + x * d / 8)).toNat / 2 ^ (8 - d - x * d % 8) % 2 ^ d

/-- S8(row, x, ch, c) (R431). -/
def sample8 (s : State) (row x ch c : Nat) : Byte := rawByte s (row + x * ch + c)

/-- S16(row, x, ch, c), high byte first (R431). -/
def sample16 (s : State) (row x ch c : Nat) : BitVec 16 :=
  rawByte s (row + 2 * (x * ch + c)) ++ rawByte s (row + 2 * (x * ch + c) + 1)

/-- The high byte of a 16-bit sample (R432, d = 16). -/
def highByte (v : BitVec 16) : Byte := v.extractLsb' 8 8

/-- Alpha of a grey pixel, by the key at full depth (R439, ctype 0). -/
def greyAlpha (s : State) (v : Nat) : Byte :=
  if s.tabs.keyPresent ∧ v = s.tabs.key0.toNat then 0x00#8 else 0xFF#8

/-- Alpha of a truecolour pixel, by the key at full depth (R439, ctype 2). -/
def rgbAlpha (s : State) (r g b : Nat) : Byte :=
  if s.tabs.keyPresent ∧ r = s.tabs.key0.toNat ∧ g = s.tabs.key1.toNat ∧ b = s.tabs.key2.toNat then 0x00#8 else 0xFF#8

/-- PAL[i]; an entry this decode has not written is a free value, which no run reads (10_state.md R62, R185). -/
def palEntry (s : State) (i : Nat) : Rgb :=
  match tableGet s.tabs.pal i with
  | some e => e
  | none => ⟨Config.staleByte i, Config.staleByte (i + 256), Config.staleByte (i + 512)⟩

/-- ALPHA[i]; an entry this decode has not written is a free value, which no run reads (10_state.md R63, R185). -/
def alphaEntry (s : State) (i : Nat) : Byte :=
  match tableGet s.tabs.alpha i with
  | some b => b
  | none => Config.staleByte (i + 768)

end Sys2Proof.Machine
end

