-- ==== Sys2Proof/Machine/ChunkReader.lean ====
section
/-! DEFINITION. The Chunk Reader: signature, chunk frame, CRC, the dispatch order and the unknown chunk classes
(42_chunk_reader.md, 43_header_interpreter.md R272). -/

namespace Sys2Proof.Machine

/-- The compare loop of R231 from index `i`, over the expected bytes and the bytes the stream has. -/
def signatureError : Nat → List Byte → List Byte → Option Raise
  | _, [], _ => none
  | i, _ :: _, [] => some ⟨.sigShort, i⟩
  | i, x :: xs, b :: bs => if b = x then signatureError (i + 1) xs bs else some ⟨.sigMismatch, i⟩

/-- CheckSignature (R231). -/
def checkSignature (bs : List Byte) (s : State) : Flow :=
  match signatureError 0 signatureBytes bs with
  | some e => .stop s e
  | none => .go ((s.setPos 8).setPoint .chunkFrame)

/-- SIG (R231). -/
def execSig (bs : List Byte) (s : State) : Result := (checkSignature bs s).result

/-- The stored CRC of a chunk at `p` with `len` data bytes (R235). -/
def storedCrc (s : State) (p len : Nat) : Word :=
  be32 (inByte s (p + 8 + len)) (inByte s (p + 9 + len)) (inByte s (p + 10 + len)) (inByte s (p + 11 + len))

/-- The CRC over TYPE and DATA (R235, 30_encoding.md R122). -/
def chunkCrc (s : State) (p len : Nat) (ty : Word) : Word := crc32 (be32Bytes ty ++ inBytes s (p + 8) len)

/-- The body, advance and CRC steps of ReadChunk (R233 to R235), the header step having read LENGTH and TYPE. -/
def readChunk (len ty : Word) (s : State) : Flow :=
  let p := s.pos
  if s.lat.inLen.toNat < p + 12 + len.toNat then .stop s ⟨.chunkTruncBody, p⟩
  else
    let s1 := s.setPos (p + 12 + len.toNat)
    if s.lat.validate ∧ chunkCrc s p len.toNat ty ≠ storedCrc s p len.toNat then .stop s1 ⟨.chunkCrcMismatch, p⟩
    else .go ((s1.setParse { s1.parse with chunk := ⟨p, len.toNat, ty⟩ }).setPoint .chunkType)

/-- CHUNK (R232 to R235). -/
def execChunk (len ty : Word) (s : State) : Result := (readChunk len ty s).result

/-- CHUNK_BAD_TYPE (R232): LENGTH is read and not judged. -/
def execChunkBadType (_len _ty : Word) (s : State) : Result := (Flow.stop s ⟨.chunkBadType, s.pos⟩).result

/-- A `raise` whose offset is the start p of the current chunk. -/
def stopAtChunk (s : State) (d : Detail) : Flow := .stop s ⟨d, s.parse.chunk.p⟩

/-- The end of one round of the parse loop (R230): the chunk is counted and the next frame follows. -/
def nextChunk (s : State) : State :=
  (s.setParse { s.parse with nchunks := s.parse.nchunks + 1 }).setPoint .chunkFrame

/-- A skipped chunk (R242). -/
def skipChunk (s : State) : Flow := .go (nextChunk s)

/-- Step 2 of Dispatch: the IDAT run ends at a chunk of another type (43_header_interpreter.md R272). -/
def endIdatRun (t : Word) (s : State) : State :=
  if t ≠ 0x49444154#32 ∧ s.parse.idat = .inRun then s.setParse { s.parse with idat := .ended } else s

/-- Steps 1 to 3 of Dispatch for a chunk of type `t`, then the rule of its type (R272). -/
def dispatch (t : Word) (body : State → Flow) (s : State) : Flow :=
  if s.parse.nchunks = 0 ∧ t ≠ 0x49484452#32 then stopAtChunk s .firstNotIhdr
  else
    let s1 := endIdatRun t s
    if criticalTag t ∧ t ≠ 0x49444154#32 ∧ t ≠ 0x49454E44#32 ∧ s1.parse.idat ≠ .none then
      stopAtChunk s1 .chunkAfterIdat
    else body s1

/-- UNKNOWN_CRITICAL (R237). -/
def execUnknownCritical (ty : Word) (s : State) : Result :=
  (dispatch ty (fun s => stopAtChunk s .unknownCritical) s).result

/-- The rule of an unknown ancillary chunk (R238). -/
def unknownAncillary (s : State) : Flow :=
  if s.lat.strict then stopAtChunk s .unknownAncillary else skipChunk s

/-- UNKNOWN_ANCILLARY (R238). -/
def execUnknownAncillary (ty : Word) (s : State) : Result := (dispatch ty unknownAncillary s).result

end Sys2Proof.Machine
end

