-- ==== Sys2Proof/Machine/HeaderInterp.lean ====
section
/-! DEFINITION. The Header Interpreter: IHDR, PLTE, tRNS, gAMA, the APNG chunks, IDAT and IEND (43_header_interpreter.md). -/

namespace Sys2Proof.Machine

/-! ### IHDR -/

/-- W, H, depth, ctype and interlace of the IHDR data (R274, 30_encoding.md R125). -/
def ihdrHeader (s : State) : Header :=
  ⟨(dataBe32 s 0).toNat, (dataBe32 s 4).toNat, (dataByte s 8).toNat, (dataByte s 9).toNat,
    decide (dataByte s 12 = 1#8)⟩

/-- CheckIHDRFormat's verdict, in its check order (R274). -/
def ihdrFormatError (s : State) : Option Detail :=
  let h := ihdrHeader s
  if s.parse.chunk.len ≠ 13 then some .ihdrLength
  else if h.width = 0 ∨ h.height = 0 then some .zeroDimension
  else if 2147483647 < h.width ∨ 2147483647 < h.height then some .dimensionRange
  else if !(legalModes.contains (dataByte s 9 ++ dataByte s 8)) then some .badDepthColor
  else if dataByte s 10 ≠ 0#8 then some .badCompressionMethod
  else if dataByte s 11 ≠ 0#8 then some .badFilterMethod
  else if 1 < (dataByte s 12).toNat then some .badInterlaceMethod
  else none

/-- CheckCeiling fails (R275). -/
def overCeiling (p : Platform) (h : Header) : Bool :=
  decide (p.maxDim < h.width) || decide (p.maxDim < h.height) || decide (p.maxPixels < h.width * h.height)

/-- A length as the 32-bit registers show it, saturated (R277). -/
def saturate32 (n : Nat) : Word := BitVec.ofNat 32 (min n 0xFFFFFFFF)

/-- The first part of R277: the header registers. -/
def headerRegs (h : Header) (r : Regs) : Regs :=
  { r with
    imgWidth := BitVec.ofNat 32 h.width, imgHeight := BitVec.ofNat 32 h.height,
    bitDepth := BitVec.ofNat 5 h.depth, colorType := BitVec.ofNat 3 h.ctype, interlace := h.interlace }

/-- The second part of R277: the length registers. -/
def lengthRegs (h : Header) (r : Regs) : Regs :=
  { r with outLen := saturate32 (outLength h), rawLen := saturate32 (rawLength h) }

/-- ProcessIHDR (R273 to R277). -/
def processIhdr (s : State) : Flow :=
  if s.parse.seenIhdr then stopAtChunk s .duplicateIhdr
  else
    match ihdrFormatError s with
    | some d => stopAtChunk s d
    | none =>
      let h := ihdrHeader s
      let s1 := (s.setHdr h).setRegs (headerRegs h s.regs)
      if overCeiling s.plat h then stopAtChunk s1 .dimCeiling
      else
        let s2 := s1.setRegs (lengthRegs h s1.regs)
        if s.lat.outCap.toNat < outLength h then stopAtChunk s2 .outCap
        else if s.lat.scrCap.toNat < rawLength h then stopAtChunk s2 .scrCap
        else .go (nextChunk (s2.setParse { s2.parse with seenIhdr := true }))

/-- IHDR (R272, R273). -/
def execIhdr (s : State) : Result := (dispatch 0x49484452#32 processIhdr s).result

/-! ### PLTE -/

/-- ProcessPLTE's verdict, in its check order (R280). -/
def plteError (s : State) : Option Detail :=
  if s.hdr.ctype ≠ 3 then some .plteNotAllowed
  else if s.parse.seenPlte then some .duplicatePlte
  else if s.parse.chunk.len = 0 ∨ s.parse.chunk.len % 3 ≠ 0 then some .plteLength
  else if 2 ^ s.hdr.depth < s.parse.chunk.len / 3 then some .plteTooLong
  else none

/-- What an accepted PLTE writes (R280). -/
def acceptPlte (s : State) : State :=
  let n := s.parse.chunk.len / 3
  ((s.setTabs
      { s.tabs with
        pal := tableFill s.tabs.pal 0 n (fun i =>
          ⟨dataByte s (3 * i), dataByte s (3 * i + 1), dataByte s (3 * i + 2)⟩)
        plteN := n }).setParse
    { s.parse with seenPlte := true }).setRegs
    { s.regs with hasPlte := true, plteEntries := BitVec.ofNat 9 n }

/-- ProcessPLTE (R280). -/
def processPlte (s : State) : Flow :=
  match plteError s with
  | some d => stopAtChunk s d
  | none => .go (nextChunk (acceptPlte s))

/-- PLTE (R272, R280). -/
def execPlte (s : State) : Result := (dispatch 0x504C5445#32 processPlte s).result

/-! ### tRNS and gAMA -/

/-- AncBad(code) (R271). -/
def ancBad (d : Detail) (s : State) : Flow := if s.lat.strict then stopAtChunk s d else skipChunk s

/-- The length a tRNS may not have (R281). -/
def trnsLengthBad (s : State) : Bool :=
  let len := s.parse.chunk.len
  match s.hdr.ctype with
  | 0 => len != 2
  | 2 => len != 6
  | 3 => decide (s.tabs.plteN < len)
  | _ => false

/-- ProcessTRNS's verdict, in its check order (R281). -/
def trnsError (s : State) : Option Detail :=
  if s.parse.idat ≠ .none then some .ancMisplaced
  else if s.hdr.ctype = 3 ∧ s.parse.seenPlte = false then some .ancMisplaced
  else if s.parse.seenTrns then some .ancDuplicate
  else if s.hdr.ctype = 4 ∨ s.hdr.ctype = 6 then some .trnsNotAllowed
  else if trnsLengthBad s then some .trnsLength
  else none

/-- The tables after an accepted tRNS, by colour type (R281). -/
def trnsTables (s : State) : Tables :=
  match s.hdr.ctype with
  | 0 => { s.tabs with key0 := dataBe16 s 0, key1 := 0, key2 := 0, keyPresent := true }
  | 2 => { s.tabs with key0 := dataBe16 s 0, key1 := dataBe16 s 2, key2 := dataBe16 s 4, keyPresent := true }
  | 3 =>
    { s.tabs with
      alpha := tableFill s.tabs.alpha 0 s.parse.chunk.len (dataByte s), trnsN := s.parse.chunk.len }
  | _ => s.tabs

/-- The TRNS_KEY registers after an accepted tRNS, from the tables it left (R281, 10_state.md R48). -/
def trnsRegs (ctype : Nat) (t : Tables) (r : Regs) : Regs :=
  match ctype with
  | 0 => { r with hasTrns := true, trnsKey0 := t.key0, trnsKey1 := t.key1, trnsKey2 := 0, trnsEntries := 0 }
  | 2 => { r with hasTrns := true, trnsKey0 := t.key0, trnsKey1 := t.key1, trnsKey2 := t.key2, trnsEntries := 0 }
  | 3 =>
    { r with
      hasTrns := true, trnsKey0 := 0, trnsKey1 := 0, trnsKey2 := 0, trnsEntries := BitVec.ofNat 9 t.trnsN }
  | _ => { r with hasTrns := true, trnsKey0 := 0, trnsKey1 := 0, trnsKey2 := 0, trnsEntries := 0 }

/-- What an accepted tRNS writes (R281). -/
def acceptTrns (s : State) : State :=
  let t := trnsTables s
  ((s.setTabs t).setParse { s.parse with seenTrns := true }).setRegs (trnsRegs s.hdr.ctype t s.regs)

/-- ProcessTRNS (R281). -/
def processTrns (s : State) : Flow :=
  match trnsError s with
  | some d => ancBad d s
  | none => .go (nextChunk (acceptTrns s))

/-- tRNS (R272, R281). -/
def execTrns (s : State) : Result := (dispatch 0x74524E53#32 processTrns s).result

/-- ProcessGAMA's verdict, in its check order (R283). -/
def gamaError (s : State) : Option Detail :=
  if s.parse.idat ≠ .none ∨ s.parse.seenPlte then some .ancMisplaced
  else if s.parse.seenGama then some .ancDuplicate
  else if s.parse.chunk.len ≠ 4 then some .gamaLength
  else none

/-- What an accepted gAMA writes (R283). -/
def acceptGama (s : State) : State :=
  (s.setParse { s.parse with seenGama := true }).setRegs { s.regs with gamma := dataBe32 s 0, hasGama := true }

/-- ProcessGAMA (R283). -/
def processGama (s : State) : Flow :=
  match gamaError s with
  | some d => ancBad d s
  | none => .go (nextChunk (acceptGama s))

/-- gAMA (R272, R283). -/
def execGama (s : State) : Result := (dispatch 0x67414D41#32 processGama s).result

/-! ### The APNG chunks -/

/-- acTL (R272, R284): always skipped. -/
def execActl (s : State) : Result := (dispatch 0x6163544C#32 skipChunk s).result

/-- fcTL (R272, R284): always skipped. -/
def execFctl (s : State) : Result := (dispatch 0x6663544C#32 skipChunk s).result

/-- fdAT (R272, R284): always skipped. -/
def execFdat (s : State) : Result := (dispatch 0x66644154#32 skipChunk s).result

/-! ### IDAT and IEND -/

/-- ProcessIDAT (R286, R287). -/
def processIdat (s : State) : Flow :=
  match s.parse.idat with
  | .ended => stopAtChunk s .idatNotContiguous
  | .inRun => .go (nextChunk (s.setC (s.c ++ dataBytes s)))
  | .none =>
    if s.hdr.ctype = 3 ∧ s.parse.seenPlte = false then stopAtChunk s .missingPlte
    else .go (nextChunk ((s.setParse { s.parse with idat := .inRun }).setC (s.c ++ dataBytes s)))

/-- IDAT (R272, R286). -/
def execIdat (s : State) : Result := (dispatch 0x49444154#32 processIdat s).result

/-- Parse returns and Inflate begins: the chunk is counted, PHASE becomes 2 (42_chunk_reader.md R230,
40_host_interface.md R181). -/
def enterInflate (s : State) : State :=
  ((s.setParse { s.parse with nchunks := s.parse.nchunks + 1 }).setPhase 2).setPoint .zlibHeader

/-- ProcessIEND (R288). -/
def processIend (s : State) : Flow :=
  if s.parse.chunk.len ≠ 0 then stopAtChunk s .iendLength
  else if s.parse.idat = .none then stopAtChunk s .missingIdat
  else .go (enterInflate s)

/-- IEND (R272, R288). -/
def execIend (s : State) : Result := (dispatch 0x49454E44#32 processIend s).result

end Sys2Proof.Machine
end

