-- ==== Sys2Proof/Machine/HostPort.lean ====
section
/-! DEFINITION. The host commands (40_host_interface.md R182 to R192), one meaning each. -/

namespace Sys2Proof.Machine

/-- Write CTRL.IRQ_EN from bit 2 of a CTRL write (10_state.md R32). -/
def setIrqEnable (v : Word) (s : State) : State := s.setRegs { s.regs with irqEn := v.getLsbD 2 }

/-- START (R182). While BUSY = 1 it only sets IRQ_EN (R188); a launch over a device window is refused (20_memory.md R101). -/
def execStart (v : Word) (s : State) : Result :=
  if s.regs.busy then .next (setIrqEnable v s)
  else if coversDevice s then .refused .regionCoversDevice
  else .next (launch v s)

/-- SET_IRQ_EN (R187). -/
def execSetIrqEn (v : Word) (s : State) : Result := .next (setIrqEnable v s)

/-- CLEAR_STATUS (R191). -/
def execClearStatus (v : Word) (s : State) : Result := .next (s.setRegs (clearStatusFlags v s.regs))

/-- The registers after a write of a configuration register, CONFIG masked to its bits 1:0 (R188, 10_state.md R34). -/
def writeCfgReg (r : CfgReg) (v : Word) (g : Regs) : Regs :=
  match r with
  | .config => { g with validate := v.getLsbD 0, strict := v.getLsbD 1 }
  | .inBase => { g with inBase := v }
  | .inLen => { g with inLen := v }
  | .outBase => { g with outBase := v }
  | .outCap => { g with outCap := v }
  | .scrBase => { g with scrBase := v }
  | .scrCap => { g with scrCap := v }

/-- WRITE_CFG (R188): no effect while BUSY = 1. -/
def execWriteCfg (r : CfgReg) (v : Word) (s : State) : Result :=
  if s.regs.busy then .next s else .next (s.setRegs (writeCfgReg r v s.regs))

/-- The bookkeeping of the free values a read shows while BUSY: after a STATUS read no later read shows a lower PHASE
(10_state.md R36), and after a host write into the regions every read draws afresh (20_memory.md R103 item 5). -/
def noteRead (off : BitVec 8) (s : State) : Free :=
  if s.regs.busy = false then s.free
  else if off = 0x0C#8 then { s.free with phaseFloor := phaseShown s, count := s.free.count + 1 }
  else if s.free.raced then { s.free with count := s.free.count + 1 }
  else s.free

/-- READ (R192): the value goes to the host, and nothing of the block changes. -/
def execRead (off : BitVec 8) (s : State) : Result :=
  .next ((s.setPort { s.port with rdata := regWord s off }).setFree (noteRead off s))

end Sys2Proof.Machine
end

