-- ==== Sys2Proof/Machine/Expand.lean ====
section
/-! DEFINITION. The Sample Expander's fifteen modes and the Interlace Reassembler (46_sample_expander.md, 47_interlace.md). -/

namespace Sys2Proof.Machine

/-- A pixel as it is written: R, G, B, A (46_sample_expander.md R430). -/
structure Rgba where
  r : Byte
  g : Byte
  b : Byte
  a : Byte
  deriving DecidableEq, Repr

/-- The raw-stream index of the first data byte of the scanline the expander stands in (47_interlace.md R474). -/
def pixelRow (s : State) : Nat := s.exp.off + 1 + s.exp.row * (1 + rowBytes s.hdr (passWidth s.hdr s.exp.pass))

/-- The image column and row of the pass pixel the expander stands at (R470). -/
def imageX (s : State) : Nat := (passGrid s.exp.pass).c0 + s.exp.col * (passGrid s.exp.pass).dc
def imageY (s : State) : Nat := (passGrid s.exp.pass).r0 + s.exp.row * (passGrid s.exp.pass).dr

/-- The offset in OUT of that pixel's four bytes (R474, 20_memory.md R100). -/
def pixelOffset (s : State) : Nat := 4 * (imageY s * s.hdr.width + imageX s)

/-- The 4-byte MemWrite of R474. -/
def writePixel (p : Rgba) (s : State) : State :=
  let k := pixelOffset s
  setOutByte (setOutByte (setOutByte (setOutByte s k p.r) (k + 1) p.g) (k + 2) p.b) (k + 3) p.a

/-- The cursors after a pixel: the next column, row or non-empty pass, or success (R474, R476; 40_host_interface.md R181). -/
def nextPixel (s : State) : State :=
  let e := s.exp
  if e.col + 1 < passWidth s.hdr e.pass then (s.setExp { e with col := e.col + 1 }).setPoint .pixel
  else if e.row + 1 < passHeight s.hdr e.pass then (s.setExp { e with row := e.row + 1, col := 0 }).setPoint .pixel
  else
    match nextPass s.hdr (e.pass + 1) with
    | some p => (s.setExp ⟨p, 0, 0, e.off + passBytes s.hdr e.pass⟩).setPoint .pixel
    | none => s.setPoint (.completing .success)

/-- One pixel written and passed. -/
def putPixel (p : Rgba) (s : State) : State := nextPixel (writePixel p s)

/-- ExpandAndReassemble begins: PHASE 4, the first pixel of the first non-empty pass (R474, 40_host_interface.md R181). -/
def enterExpand (s : State) : State :=
  let s1 := s.setPhase 4
  match nextPass s.hdr 0 with
  | some p => (s1.setExp ⟨p, 0, 0, 0⟩).setPoint .pixel
  | none => s1.setPoint (.completing .success)

/-- The pixel of a sub-byte grey mode: depth d, scale factor k (R432, R433, R439). -/
def greySub (d k : Nat) (s : State) : Rgba :=
  let v := subSample s (pixelRow s) s.exp.col d
  let y := BitVec.ofNat 8 (v * k)
  ⟨y, y, y, greyAlpha s v⟩

/-- G1 (R445). -/
def execG1 (s : State) : Result := .next (putPixel (greySub 1 255 s) s)

/-- G2 (R446). -/
def execG2 (s : State) : Result := .next (putPixel (greySub 2 85 s) s)

/-- G4 (R447). -/
def execG4 (s : State) : Result := .next (putPixel (greySub 4 17 s) s)

/-- The pixel of G8 (R448). -/
def pixelG8 (s : State) : Rgba :=
  let v := sample8 s (pixelRow s) s.exp.col 1 0
  ⟨v, v, v, greyAlpha s v.toNat⟩

/-- G8 (R448). -/
def execG8 (s : State) : Result := .next (putPixel (pixelG8 s) s)

/-- The pixel of G16 (R449). -/
def pixelG16 (s : State) : Rgba :=
  let v := sample16 s (pixelRow s) s.exp.col 1 0
  ⟨highByte v, highByte v, highByte v, greyAlpha s v.toNat⟩

/-- G16 (R449). -/
def execG16 (s : State) : Result := .next (putPixel (pixelG16 s) s)

/-- The pixel of RGB8 (R450). -/
def pixelRgb8 (s : State) : Rgba :=
  let r := sample8 s (pixelRow s) s.exp.col 3 0
  let g := sample8 s (pixelRow s) s.exp.col 3 1
  let b := sample8 s (pixelRow s) s.exp.col 3 2
  ⟨r, g, b, rgbAlpha s r.toNat g.toNat b.toNat⟩

/-- RGB8 (R450). -/
def execRgb8 (s : State) : Result := .next (putPixel (pixelRgb8 s) s)

/-- The pixel of RGB16 (R451). -/
def pixelRgb16 (s : State) : Rgba :=
  let r := sample16 s (pixelRow s) s.exp.col 3 0
  let g := sample16 s (pixelRow s) s.exp.col 3 1
  let b := sample16 s (pixelRow s) s.exp.col 3 2
  ⟨highByte r, highByte g, highByte b, rgbAlpha s r.toNat g.toNat b.toNat⟩

/-- RGB16 (R451). -/
def execRgb16 (s : State) : Result := .next (putPixel (pixelRgb16 s) s)

/-- PaletteLookup(i, k) and the write of its pixel (R437). -/
def indexPixel (i k : Nat) (s : State) : Flow :=
  if s.tabs.plteN ≤ i then .stop s ⟨.paletteIndex, k⟩
  else
    let e := palEntry s i
    .go (putPixel ⟨e.r, e.g, e.b, if i < s.tabs.trnsN then alphaEntry s i else 0xFF#8⟩ s)

/-- A sub-byte indexed mode of depth d (R452 to R454). -/
def indexSub (d : Nat) (s : State) : Flow :=
  indexPixel (subSample s (pixelRow s) s.exp.col d) (pixelRow s + s.exp.col * d / 8) s

/-- IDX1 (R452). -/
def execIdx1 (s : State) : Result := (indexSub 1 s).result

/-- IDX2 (R453). -/
def execIdx2 (s : State) : Result := (indexSub 2 s).result

/-- IDX4 (R454). -/
def execIdx4 (s : State) : Result := (indexSub 4 s).result

/-- IDX8 (R455). -/
def execIdx8 (s : State) : Result :=
  (indexPixel (sample8 s (pixelRow s) s.exp.col 1 0).toNat (pixelRow s + s.exp.col) s).result

/-- The pixel of GA8 (R456). -/
def pixelGa8 (s : State) : Rgba :=
  let y := sample8 s (pixelRow s) s.exp.col 2 0
  ⟨y, y, y, sample8 s (pixelRow s) s.exp.col 2 1⟩

/-- GA8 (R456). -/
def execGa8 (s : State) : Result := .next (putPixel (pixelGa8 s) s)

/-- The pixel of GA16 (R457). -/
def pixelGa16 (s : State) : Rgba :=
  let y := highByte (sample16 s (pixelRow s) s.exp.col 2 0)
  ⟨y, y, y, highByte (sample16 s (pixelRow s) s.exp.col 2 1)⟩

/-- GA16 (R457). -/
def execGa16 (s : State) : Result := .next (putPixel (pixelGa16 s) s)

/-- The pixel of RGBA8 (R458). -/
def pixelRgba8 (s : State) : Rgba :=
  ⟨sample8 s (pixelRow s) s.exp.col 4 0, sample8 s (pixelRow s) s.exp.col 4 1,
    sample8 s (pixelRow s) s.exp.col 4 2, sample8 s (pixelRow s) s.exp.col 4 3⟩

/-- RGBA8 (R458). -/
def execRgba8 (s : State) : Result := .next (putPixel (pixelRgba8 s) s)

/-- The pixel of RGBA16 (R459). -/
def pixelRgba16 (s : State) : Rgba :=
  ⟨highByte (sample16 s (pixelRow s) s.exp.col 4 0), highByte (sample16 s (pixelRow s) s.exp.col 4 1),
    highByte (sample16 s (pixelRow s) s.exp.col 4 2), highByte (sample16 s (pixelRow s) s.exp.col 4 3)⟩

/-- RGBA16 (R459). -/
def execRgba16 (s : State) : Result := .next (putPixel (pixelRgba16 s) s)

/-- MODE_ILLEGAL (43_header_interpreter.md R274): the error IHDR raises for such a pair, at the chunk's start. IHDR's own
check keeps every decode from reaching a pixel with such a pair (log entry 14). -/
def execModeIllegal (_v : BitVec 16) (s : State) : Result := (Flow.stop s ⟨.badDepthColor, s.parse.chunk.p⟩).result

end Sys2Proof.Machine
end

