-- ==== Sys2Proof/Machine/Defilter.lean ====
section
/-! DEFINITION. The Defilterer: the five filter types and the order of scanlines (45_defilter.md). -/

namespace Sys2Proof.Machine

/-- A reconstruction function: Filt(i), a, b, c to Recon(i) (R400). -/
abbrev Recon := Byte → Byte → Byte → Byte → Byte

/-- None (R403). -/
def reconNone : Recon := fun f _ _ _ => f

/-- Sub (R404). -/
def reconSub : Recon := fun f a _ _ => f + a

/-- Up (R405). -/
def reconUp : Recon := fun f _ b _ => f + b

/-- Average (R406): the sum is formed without overflow. -/
def reconAverage : Recon := fun f a b _ => f + BitVec.ofNat 8 ((a.toNat + b.toNat) / 2)

/-- PaethPredictor (R408), in signed integers. -/
def paethPredictor (a b c : Byte) : Byte :=
  let pp : Int := (a.toNat : Int) + b.toNat - c.toNat
  let pa := (pp - a.toNat).natAbs
  let pb := (pp - b.toNat).natAbs
  let pc := (pp - c.toNat).natAbs
  if pa ≤ pb ∧ pa ≤ pc then a else if pb ≤ pc then b else c

/-- Paeth (R407). -/
def reconPaeth : Recon := fun f a b c => f + paethPredictor a b c

/-- The neighbours a, b, c of byte `i` of the scanline at `off` (R400, R402). -/
def leftByte (s : State) (off bpp i : Nat) : Byte := if bpp ≤ i then rawByte s (off + 1 + i - bpp) else 0#8

def upByte (s : State) (prev : Option Nat) (i : Nat) : Byte :=
  match prev with
  | some p => rawByte s (p + 1 + i)
  | none => 0#8

def upLeftByte (s : State) (prev : Option Nat) (bpp i : Nat) : Byte :=
  match prev with
  | some p => if bpp ≤ i then rawByte s (p + 1 + i - bpp) else 0#8
  | none => 0#8

/-- Reconstruct `n` bytes of the scanline at `off`, from byte `i` on, in place (R400, R401).
DESIGN CHOICE (log entry 18): the filter byte at `off`, unspecified after the phase (R401), keeps what the inflater wrote
until the completion leaves all of SCR_USED unspecified. -/
def reconBytes (f : Recon) (off : Nat) (prev : Option Nat) (bpp : Nat) : Nat → Nat → State → State
  | 0, _, s => s
  | n + 1, i, s =>
    let x := f (rawByte s (off + 1 + i)) (leftByte s off bpp i) (upByte s prev i) (upLeftByte s prev bpp i)
    reconBytes f off prev bpp n (i + 1) (setRaw s (off + 1 + i) x)

/-- The cursors after a scanline: the next row of the pass, the first row of the next pass (R400, R410), or the end of
the phase. -/
def nextRow (s : State) : State :=
  let d := s.defl
  let off := d.off + 1 + rowBytes s.hdr (passWidth s.hdr d.pass)
  if d.row + 1 < passHeight s.hdr d.pass then
    (s.setDefl { d with row := d.row + 1, off := off, prev := some d.off }).setPoint .scanline
  else
    match nextPass s.hdr (d.pass + 1) with
    | some p => (s.setDefl ⟨p, 0, off, none⟩).setPoint .scanline
    | none => enterExpand (s.setDefl { d with row := d.row + 1, off := off, prev := some d.off })

/-- One scanline through a filter type (R400). -/
def filterRow (f : Recon) (s : State) : State :=
  let d := s.defl
  nextRow (reconBytes f d.off d.prev (filterStride s.hdr) (rowBytes s.hdr (passWidth s.hdr d.pass)) 0 s)

/-- FILT_NONE (R403). -/
def execFiltNone (s : State) : Result := .next (filterRow reconNone s)

/-- FILT_SUB (R404). -/
def execFiltSub (s : State) : Result := .next (filterRow reconSub s)

/-- FILT_UP (R405). -/
def execFiltUp (s : State) : Result := .next (filterRow reconUp s)

/-- FILT_AVERAGE (R406). -/
def execFiltAverage (s : State) : Result := .next (filterRow reconAverage s)

/-- FILT_PAETH (R407). -/
def execFiltPaeth (s : State) : Result := .next (filterRow reconPaeth s)

/-- FILT_INVALID (R409). -/
def execFiltInvalid (_b : Byte) (s : State) : Result := (Flow.stop s ⟨.badFilterType, s.defl.off⟩).result

/-- Defilter begins: PHASE 3, the first row of the first non-empty pass (R400, 40_host_interface.md R181). -/
def enterDefilter (s : State) : State :=
  let s1 := s.setPhase 3
  match nextPass s.hdr 0 with
  | some p => (s1.setDefl ⟨p, 0, 0, none⟩).setPoint .scanline
  | none => enterExpand s1

end Sys2Proof.Machine
end

