-- ==== Sys2Proof/Machine/Inflate.lean ====
section
/-! DEFINITION. The Inflator: zlib header, blocks, code-length, literal/length and distance symbols, Adler-32 trailer
(44_inflate.md). -/

namespace Sys2Proof.Machine

/-- The rest of an operation that reads bits, or the truncation error when they run out (R321). -/
def withBits (o : Option Nat) (s : State) (k : Nat → Flow) : Flow :=
  match o with
  | some v => k v
  | none => .stop s ⟨.zTruncated, s.c.length⟩

/-! ### The zlib header -/

/-- ZlibHeader's verdict, in its check order (R325, R326). -/
def zlibError (cmf flg : Byte) : Option Detail :=
  if cmf.toNat % 16 ≠ 8 then some .zBadCm
  else if 7 < cmf.toNat / 16 then some .zBadCinfo
  else if (cmf.toNat * 256 + flg.toNat) % 31 ≠ 0 then some .zBadFcheck
  else if flg.getLsbD 5 then some .zFdict
  else none

/-- ZlibHeader (R325); the cursor then stands at bit 16 (R320). -/
def zlibHeader (cmf flg : Byte) (s : State) : Flow :=
  match zlibError cmf flg with
  | some d => .stop s ⟨d, 0⟩
  | none => .go ((s.setBp 16).setPoint .blockHeader)

/-- ZHDR (R325). -/
def execZhdr (cmf flg : Byte) (s : State) : Result := (zlibHeader cmf flg s).result

/-! ### Blocks -/

/-- BFINAL and BTYPE of the block that begins (R320). -/
def beginBlock (fin : Bool) (btype : BitVec 2) (s : State) : State :=
  s.setInfl { s.infl with bfinal := fin, btype := btype }

/-- The end of a block: the next block header, or EndOfData after the final block (R320, R351, R365). -/
def endBlock (s : State) : Flow :=
  if s.infl.bfinal then
    if s.out.n < rawLength s.hdr then .stop s ⟨.dOutputShort, ceilDiv s.infl.bp 8⟩
    else .go (s.setPoint .adler)
  else .go (s.setPoint .blockHeader)

/-- The data bytes of a stored block (R330). -/
def storedCopy : Nat → State → Flow
  | 0, s => endBlock s
  | k + 1, s =>
    withBits (getBits s.c s.infl.bp 8) s fun b =>
      storedCopy k ((emit s (BitVec.ofNat 8 b)).setBp (s.infl.bp + 8))

/-- StoredBlock (R330, 30_encoding.md R134). -/
def storedBlock (s : State) : Flow :=
  let bp := alignBits s.infl.bp
  let q := bp / 8
  withBits (getBits s.c bp 16) s fun len =>
    withBits (getBits s.c (bp + 16) 16) s fun nlen =>
      if nlen ≠ len ^^^ 0xFFFF then .stop s ⟨.dStoredNlen, q⟩
      else if rawLength s.hdr < s.out.n + len then .stop s ⟨.dOutputOverflow, q⟩
      else storedCopy len (s.setBp (bp + 32))

/-- BLOCK_STORED (R330). -/
def execBlockStored (fin : Bool) (s : State) : Result := (storedBlock (beginBlock fin 0 s)).result

/-- BLOCK_FIXED (R331): the fixed codes, and the first symbol is next. -/
def execBlockFixed (fin : Bool) (s : State) : Result :=
  let s1 := beginBlock fin 1 s
  .next ((s1.setInfl
    { s1.infl with
      ll := fixedLitLens, dl := fixedDistLens, llCode := buildCode fixedLitLens, dCode := buildCode fixedDistLens }).setPoint
    .litLen)

/-- ORDER of R340: the code-length symbols in the order of their lengths in the stream. -/
def clOrder : List Nat := [16, 17, 18, 0, 8, 7, 9, 6, 10, 5, 11, 4, 12, 3, 13, 2, 14, 1, 15]

/-- The loop of R340 that reads 3 bits for each listed code-length symbol. -/
def readClLens (c : List Byte) : List Nat → Nat → List Nat → Option (List Nat)
  | [], _, cll => some cll
  | k :: r, bp, cll =>
    match getBits c bp 3 with
    | none => none
    | some l => readClLens c r (bp + 3) (cll.set k l)

/-- CLL accepted: the code-length symbols are next (R340). -/
def beginSymbols (hlit hdist bp : Nat) (cll : List Nat) (s : State) : State :=
  (s.setInfl
    { s.infl with
      bp := bp, cll := cll, clCode := buildCode cll, lens := [], nl := hlit + 257, nd := hdist + 1 }).setPoint .clSymbol

/-- ReadDynamicHeader up to its symbol loop (R340, R347, R349). -/
def dynamicHeader (s : State) : Flow :=
  let bp := s.infl.bp
  let off := s.infl.bstart / 8
  withBits (getBits s.c bp 5) s fun hlit =>
    withBits (getBits s.c (bp + 5) 5) s fun hdist =>
      withBits (getBits s.c (bp + 10) 4) s fun hclen =>
        if 29 < hlit ∨ 29 < hdist then .stop s ⟨.dTooManySymbols, off⟩
        else
          match readClLens s.c (clOrder.take (hclen + 4)) (bp + 14) (List.replicate 19 0) with
          | none => .stop s ⟨.zTruncated, s.c.length⟩
          | some cll =>
            if codeComplete cll then .go (beginSymbols hlit hdist (bp + 14 + 3 * (hclen + 4)) cll s)
            else .stop s ⟨.dBadClenCode, off⟩

/-- BLOCK_DYNAMIC (R332, R340). -/
def execBlockDynamic (fin : Bool) (s : State) : Result := (dynamicHeader (beginBlock fin 2 s)).result

/-- BLOCK_RESERVED (R333). -/
def execBlockReserved (fin : Bool) (s : State) : Result :=
  (Flow.stop (beginBlock fin 3 s) ⟨.dBadBtype, s.infl.bstart / 8⟩).result

/-! ### Code-length symbols -/

/-- CheckCodes' verdict, in its check order (R348). -/
def codesError (ll dl : List Nat) : Option Detail :=
  if ll.getD 256 0 = 0 then some .dNoEob
  else if !(codeComplete ll || codeSingle ll) then some .dBadLitlenCode
  else if !(codeComplete dl || codeSingle dl || codeEmpty dl) then some .dBadDistCode
  else none

/-- The end of ReadDynamicHeader: LL and DL from LENS, CheckCodes, and the block's codes (R340, R348). -/
def finishDynamic (s : State) : Flow :=
  let i := s.infl
  let ll := i.lens.take i.nl ++ List.replicate (288 - i.nl) 0
  let dl := (i.lens.drop i.nl).take i.nd ++ List.replicate (32 - i.nd) 0
  let s1 := s.setInfl { i with ll := ll, dl := dl }
  match codesError ll dl with
  | some d => .stop s1 ⟨d, i.bstart / 8⟩
  | none => .go ((s1.setInfl { s1.infl with llCode := buildCode ll, dCode := buildCode dl }).setPoint .litLen)

/-- The loop condition of R340 after a symbol's lengths are appended. -/
def afterLens (s : State) : Flow :=
  if s.infl.lens.length < s.infl.nl + s.infl.nd then .go (s.setPoint .clSymbol) else finishDynamic s

/-- LENS <- LENS ++ [v] * r, with the cursor at `bp` (R343 to R346). -/
def appendLens (r v bp : Nat) (s : State) : State :=
  s.setInfl { s.infl with bp := bp, lens := s.infl.lens ++ List.replicate r v }

/-- CL_LEN (R343). -/
def execClLen (l : BitVec 4) (s : State) : Result := (afterLens (appendLens 1 l.toNat s.infl.bp s)).result

/-- The repeat of R344: the extra bits are read before the checks. -/
def repeatPrev (s : State) : Flow :=
  withBits (getBits s.c s.infl.bp 2) s fun e =>
    match s.infl.lens.getLast? with
    | none => .stop s ⟨.dRepeatNoPrev, s.infl.symStart / 8⟩
    | some v =>
      if s.infl.nl + s.infl.nd < s.infl.lens.length + (3 + e) then .stop s ⟨.dRepeatOverflow, s.infl.symStart / 8⟩
      else afterLens (appendLens (3 + e) v (s.infl.bp + 2) s)

/-- CL_REPEAT_PREV (R344). -/
def execClRepeatPrev (s : State) : Result := (repeatPrev s).result

/-- A run of zero lengths: `base` plus `extra` bits of them (R345, R346). -/
def zeroRun (base extra : Nat) (s : State) : Flow :=
  withBits (getBits s.c s.infl.bp extra) s fun e =>
    if s.infl.nl + s.infl.nd < s.infl.lens.length + (base + e) then .stop s ⟨.dRepeatOverflow, s.infl.symStart / 8⟩
    else afterLens (appendLens (base + e) 0 (s.infl.bp + extra) s)

/-- CL_ZERO_SHORT (R345). -/
def execClZeroShort (s : State) : Result := (zeroRun 3 3 s).result

/-- CL_ZERO_LONG (R346). -/
def execClZeroLong (s : State) : Result := (zeroRun 11 7 s).result

/-! ### Literal/length symbols -/

/-- Literal(b, s0) (R350). -/
def literal (b : Byte) (s : State) : Flow :=
  if rawLength s.hdr ≤ s.out.n then .stop s ⟨.dOutputOverflow, s.infl.symStart / 8⟩
  else .go ((emit s b).setPoint .litLen)

/-- LIT (R350). -/
def execLit (b : Byte) (s : State) : Result := (literal b s).result

/-- EOB (R351). -/
def execEob (s : State) : Result := (endBlock s).result

/-- The length half of Match (R352, R354): mlen is read, and the distance symbol is next. -/
def matchLength (base extra : Nat) (s : State) : Flow :=
  withBits (getBits s.c s.infl.bp extra) s fun e =>
    .go ((s.setInfl
      { s.infl with bp := s.infl.bp + extra, mlen := base + e, lenStart := s.infl.symStart }).setPoint .distance)

/-- LEN_257 (R354): 0 extra bits, lengths 3. -/
def execLen257 (s : State) : Result := (matchLength 3 0 s).result

/-- LEN_258 (R354): 0 extra bits, lengths 4. -/
def execLen258 (s : State) : Result := (matchLength 4 0 s).result

/-- LEN_259 (R354): 0 extra bits, lengths 5. -/
def execLen259 (s : State) : Result := (matchLength 5 0 s).result

/-- LEN_260 (R354): 0 extra bits, lengths 6. -/
def execLen260 (s : State) : Result := (matchLength 6 0 s).result

/-- LEN_261 (R354): 0 extra bits, lengths 7. -/
def execLen261 (s : State) : Result := (matchLength 7 0 s).result

/-- LEN_262 (R354): 0 extra bits, lengths 8. -/
def execLen262 (s : State) : Result := (matchLength 8 0 s).result

/-- LEN_263 (R354): 0 extra bits, lengths 9. -/
def execLen263 (s : State) : Result := (matchLength 9 0 s).result

/-- LEN_264 (R354): 0 extra bits, lengths 10. -/
def execLen264 (s : State) : Result := (matchLength 10 0 s).result

/-- LEN_265 (R354): 1 extra bits, lengths 11..12. -/
def execLen265 (s : State) : Result := (matchLength 11 1 s).result

/-- LEN_266 (R354): 1 extra bits, lengths 13..14. -/
def execLen266 (s : State) : Result := (matchLength 13 1 s).result

/-- LEN_267 (R354): 1 extra bits, lengths 15..16. -/
def execLen267 (s : State) : Result := (matchLength 15 1 s).result

/-- LEN_268 (R354): 1 extra bits, lengths 17..18. -/
def execLen268 (s : State) : Result := (matchLength 17 1 s).result

/-- LEN_269 (R354): 2 extra bits, lengths 19..22. -/
def execLen269 (s : State) : Result := (matchLength 19 2 s).result

/-- LEN_270 (R354): 2 extra bits, lengths 23..26. -/
def execLen270 (s : State) : Result := (matchLength 23 2 s).result

/-- LEN_271 (R354): 2 extra bits, lengths 27..30. -/
def execLen271 (s : State) : Result := (matchLength 27 2 s).result

/-- LEN_272 (R354): 2 extra bits, lengths 31..34. -/
def execLen272 (s : State) : Result := (matchLength 31 2 s).result

/-- LEN_273 (R354): 3 extra bits, lengths 35..42. -/
def execLen273 (s : State) : Result := (matchLength 35 3 s).result

/-- LEN_274 (R354): 3 extra bits, lengths 43..50. -/
def execLen274 (s : State) : Result := (matchLength 43 3 s).result

/-- LEN_275 (R354): 3 extra bits, lengths 51..58. -/
def execLen275 (s : State) : Result := (matchLength 51 3 s).result

/-- LEN_276 (R354): 3 extra bits, lengths 59..66. -/
def execLen276 (s : State) : Result := (matchLength 59 3 s).result

/-- LEN_277 (R354): 4 extra bits, lengths 67..82. -/
def execLen277 (s : State) : Result := (matchLength 67 4 s).result

/-- LEN_278 (R354): 4 extra bits, lengths 83..98. -/
def execLen278 (s : State) : Result := (matchLength 83 4 s).result

/-- LEN_279 (R354): 4 extra bits, lengths 99..114. -/
def execLen279 (s : State) : Result := (matchLength 99 4 s).result

/-- LEN_280 (R354): 4 extra bits, lengths 115..130. -/
def execLen280 (s : State) : Result := (matchLength 115 4 s).result

/-- LEN_281 (R354): 5 extra bits, lengths 131..162. -/
def execLen281 (s : State) : Result := (matchLength 131 5 s).result

/-- LEN_282 (R354): 5 extra bits, lengths 163..194. -/
def execLen282 (s : State) : Result := (matchLength 163 5 s).result

/-- LEN_283 (R354): 5 extra bits, lengths 195..226. -/
def execLen283 (s : State) : Result := (matchLength 195 5 s).result

/-- LEN_284 (R354): 5 extra bits, lengths 227..258. -/
def execLen284 (s : State) : Result := (matchLength 227 5 s).result

/-- LEN_285 (R354): 0 extra bits, lengths 258. -/
def execLen285 (s : State) : Result := (matchLength 258 0 s).result

/-- LITLEN_INVALID (R353). -/
def execLitlenInvalid (_sym : Nat) (s : State) : Result :=
  (Flow.stop s ⟨.dInvalidSymbol, s.infl.symStart / 8⟩).result

/-! ### Distance symbols -/

/-- The copy loop of Match, byte by byte (R352, R357, R361). -/
def copyMatch (dist : Nat) : Nat → State → State
  | 0, s => s
  | k + 1, s => copyMatch dist k (emit s (winByte s ((s.out.n - dist) % Config.windowSize)))

/-- The distance half of Match: dist is read, then the two checks, then the copy (R352, R355, R360, R362). -/
def matchDistance (base extra : Nat) (s : State) : Flow :=
  withBits (getBits s.c s.infl.bp extra) s fun e =>
    if s.out.n < base + e then .stop s ⟨.dDistTooFar, s.infl.lenStart / 8⟩
    else if rawLength s.hdr < s.out.n + s.infl.mlen then .stop s ⟨.dOutputOverflow, s.infl.lenStart / 8⟩
    else .go ((copyMatch (base + e) s.infl.mlen (s.setBp (s.infl.bp + extra))).setPoint .litLen)

/-- DIST_0 (R355): 0 extra bits, distances 1. -/
def execDist0 (s : State) : Result := (matchDistance 1 0 s).result

/-- DIST_1 (R355): 0 extra bits, distances 2. -/
def execDist1 (s : State) : Result := (matchDistance 2 0 s).result

/-- DIST_2 (R355): 0 extra bits, distances 3. -/
def execDist2 (s : State) : Result := (matchDistance 3 0 s).result

/-- DIST_3 (R355): 0 extra bits, distances 4. -/
def execDist3 (s : State) : Result := (matchDistance 4 0 s).result

/-- DIST_4 (R355): 1 extra bits, distances 5..6. -/
def execDist4 (s : State) : Result := (matchDistance 5 1 s).result

/-- DIST_5 (R355): 1 extra bits, distances 7..8. -/
def execDist5 (s : State) : Result := (matchDistance 7 1 s).result

/-- DIST_6 (R355): 2 extra bits, distances 9..12. -/
def execDist6 (s : State) : Result := (matchDistance 9 2 s).result

/-- DIST_7 (R355): 2 extra bits, distances 13..16. -/
def execDist7 (s : State) : Result := (matchDistance 13 2 s).result

/-- DIST_8 (R355): 3 extra bits, distances 17..24. -/
def execDist8 (s : State) : Result := (matchDistance 17 3 s).result

/-- DIST_9 (R355): 3 extra bits, distances 25..32. -/
def execDist9 (s : State) : Result := (matchDistance 25 3 s).result

/-- DIST_10 (R355): 4 extra bits, distances 33..48. -/
def execDist10 (s : State) : Result := (matchDistance 33 4 s).result

/-- DIST_11 (R355): 4 extra bits, distances 49..64. -/
def execDist11 (s : State) : Result := (matchDistance 49 4 s).result

/-- DIST_12 (R355): 5 extra bits, distances 65..96. -/
def execDist12 (s : State) : Result := (matchDistance 65 5 s).result

/-- DIST_13 (R355): 5 extra bits, distances 97..128. -/
def execDist13 (s : State) : Result := (matchDistance 97 5 s).result

/-- DIST_14 (R355): 6 extra bits, distances 129..192. -/
def execDist14 (s : State) : Result := (matchDistance 129 6 s).result

/-- DIST_15 (R355): 6 extra bits, distances 193..256. -/
def execDist15 (s : State) : Result := (matchDistance 193 6 s).result

/-- DIST_16 (R355): 7 extra bits, distances 257..384. -/
def execDist16 (s : State) : Result := (matchDistance 257 7 s).result

/-- DIST_17 (R355): 7 extra bits, distances 385..512. -/
def execDist17 (s : State) : Result := (matchDistance 385 7 s).result

/-- DIST_18 (R355): 8 extra bits, distances 513..768. -/
def execDist18 (s : State) : Result := (matchDistance 513 8 s).result

/-- DIST_19 (R355): 8 extra bits, distances 769..1024. -/
def execDist19 (s : State) : Result := (matchDistance 769 8 s).result

/-- DIST_20 (R355): 9 extra bits, distances 1025..1536. -/
def execDist20 (s : State) : Result := (matchDistance 1025 9 s).result

/-- DIST_21 (R355): 9 extra bits, distances 1537..2048. -/
def execDist21 (s : State) : Result := (matchDistance 1537 9 s).result

/-- DIST_22 (R355): 10 extra bits, distances 2049..3072. -/
def execDist22 (s : State) : Result := (matchDistance 2049 10 s).result

/-- DIST_23 (R355): 10 extra bits, distances 3073..4096. -/
def execDist23 (s : State) : Result := (matchDistance 3073 10 s).result

/-- DIST_24 (R355): 11 extra bits, distances 4097..6144. -/
def execDist24 (s : State) : Result := (matchDistance 4097 11 s).result

/-- DIST_25 (R355): 11 extra bits, distances 6145..8192. -/
def execDist25 (s : State) : Result := (matchDistance 6145 11 s).result

/-- DIST_26 (R355): 12 extra bits, distances 8193..12288. -/
def execDist26 (s : State) : Result := (matchDistance 8193 12 s).result

/-- DIST_27 (R355): 12 extra bits, distances 12289..16384. -/
def execDist27 (s : State) : Result := (matchDistance 12289 12 s).result

/-- DIST_28 (R355): 13 extra bits, distances 16385..24576. -/
def execDist28 (s : State) : Result := (matchDistance 16385 13 s).result

/-- DIST_29 (R355): 13 extra bits, distances 24577..32768. -/
def execDist29 (s : State) : Result := (matchDistance 24577 13 s).result

/-- DIST_INVALID (R356). -/
def execDistInvalid (_sym : Nat) (s : State) : Result :=
  (Flow.stop s ⟨.dInvalidSymbol, s.infl.symStart / 8⟩).result

/-! ### The trailer -/

/-- The Adler-32 of the bytes emitted so far (R371). -/
def adlerValue (o : Out) : Nat := o.s2 * 65536 + o.s1

/-- AdlerTrailer from the read of A on, the cursor standing at byte q (R370). -/
def adlerTrailer (a : Word) (s : State) : Flow :=
  if s.lat.validate ∧ a.toNat ≠ adlerValue s.out then .stop s ⟨.zAdlerMismatch, s.infl.bp / 8⟩
  else .go (enterDefilter s)

/-- ADLER (R370). -/
def execAdler (a : Word) (s : State) : Result := (adlerTrailer a s).result

end Sys2Proof.Machine
end

