-- ==== Sys2Proof/Machine/Fetch.lean ====
section
/-! DEFINITION. Fetching: which element the engine reads at each point of the sequential program, and how a given element is
placed where the next fetch reads it. -/

namespace Sys2Proof.Machine

/-- What the engine finds at its point: an element to decode, with the cursors after it, or a step that has no element. -/
inductive Fetched where
  | element (e : Element) (s : State)
  | own (s : State)
  deriving DecidableEq, Repr

/-- A symbol of code `h` (44_inflate.md R322). -/
def fetchSymbol (h : List CodeWord) (mk : Nat → Element) (s : State) : Fetched :=
  match decodeSym h s.c s.infl.bp with
  | .sym sym bp => .element (mk sym) (s.setInfl { s.infl with symStart := s.infl.bp, bp := bp })
  | .invalid => .own (raise s .dInvalidCode (s.infl.bp / 8))
  | .truncated => .own (truncated s)

/-- A chunk header (42_chunk_reader.md R232). -/
def fetchFrame (s : State) : Fetched :=
  if s.lat.inLen.toNat < s.pos + 8 then .own (raise s .chunkTruncHeader s.pos)
  else .element (.frame (inBytes s s.pos 8)) s

/-- CMF and FLG (44_inflate.md R325). -/
def fetchZlib (s : State) : Fetched :=
  match s.c with
  | cmf :: flg :: _ => .element (.zhdr [cmf, flg]) s
  | _ => .own (truncated s)

/-- A block header (44_inflate.md R320). -/
def fetchBlock (s : State) : Fetched :=
  match getBits s.c s.infl.bp 3 with
  | some v => .element (.bhdr (BitVec.ofNat 3 v)) (s.setInfl { s.infl with bstart := s.infl.bp, bp := s.infl.bp + 3 })
  | none => .own (truncated s)

/-- The trailer, after the skip to a byte boundary (44_inflate.md R370). -/
def fetchAdler (s : State) : Fetched :=
  let q := alignBits s.infl.bp / 8
  if s.c.length < q + 4 then .own (truncated s)
  else .element (.adler ((s.c.drop q).take 4)) (s.setBp (alignBits s.infl.bp))

/-- What the engine reads next (40_host_interface.md R181). -/
def fetch (s : State) : Fetched :=
  match s.point with
  | .configCheck => .own (configCheck s)
  | .signature => .element (.sig (inBytes s 0 (min 8 s.lat.inLen.toNat))) s
  | .chunkFrame => fetchFrame s
  | .chunkType => .element (.ctype s.parse.chunk.ty) s
  | .zlibHeader => fetchZlib s
  | .blockHeader => fetchBlock s
  | .clSymbol => fetchSymbol s.infl.clCode .clsym s
  | .litLen => fetchSymbol s.infl.llCode .litlen s
  | .distance => fetchSymbol s.infl.dCode .dist s
  | .adler => fetchAdler s
  | .scanline => .element (.filter (rawByte s s.defl.off)) s
  | .pixel => .element (.mode (BitVec.ofNat 16 (s.hdr.ctype * 256 + s.hdr.depth))) s
  | .completing o => .own (complete o s)

/-! ### Placing an element -/

/-- Write bytes at consecutive bus addresses. -/
def placeBytes : List Byte → Word → State → State
  | [], _, s => s
  | b :: r, a, s => placeBytes r (a + 1) (busWrite s a b)

/-- A code length for each of the 19 code-length symbols, making a complete code. -/
def placeClLens : List Nat := List.replicate 13 4 ++ List.replicate 6 5

/-- The `len` bits of a code word in the order they are read, as the value whose bit 0 is read first. -/
def reversedBits : Nat → Nat → Nat
  | 0, _ => 0
  | len + 1, v => v / 2 ^ len % 2 + 2 * reversedBits len v

/-- Append the code word of a symbol to C, with zero bits after it, and put the cursor there. -/
def placeSymbol (h : List CodeWord) (sym : Nat) (s : State) : State :=
  let v := match h.find? (fun w => w.sym == sym) with
    | some w => reversedBits w.len w.code
    | none => 0
  (s.setC (s.c ++ [BitVec.ofNat 8 v, BitVec.ofNat 8 (v / 256), 0#8, 0#8])).setBp (8 * s.c.length)

/-- The engine runs, and the next slot is its own. -/
def engineNext (p : Point) (s : State) : State :=
  ((s.setRegs { s.regs with busy := true }).setPort { s.port with inputs := .engine :: s.port.inputs }).setPoint p

/-- Put an element where the next step reads it. Elements no word of the opcode table stands for are not placed. -/
def placeElement (e : Element) (s : State) : State :=
  match e with
  | .access a => s.setPort { s.port with inputs := .access a :: s.port.inputs, rstN := true }
  | .sig bs =>
    engineNext .signature
      (placeBytes bs s.lat.inBase (s.setLat { s.lat with inLen := BitVec.ofNat 32 (max s.lat.inLen.toNat 8) }))
  | .ctype t => engineNext .chunkType (s.setParse { s.parse with chunk := { s.parse.chunk with ty := t } })
  | .zhdr bs => engineNext .zlibHeader (s.setC (bs ++ s.c.drop 2))
  | .clsym sym =>
    let h := buildCode placeClLens
    engineNext .clSymbol (placeSymbol h sym (s.setInfl { s.infl with clCode := h }))
  | .litlen sym =>
    let h := buildCode fixedLitLens
    engineNext .litLen (placeSymbol h sym (s.setInfl { s.infl with llCode := h }))
  | .dist sym =>
    let h := buildCode fixedDistLens
    engineNext .distance (placeSymbol h sym (s.setInfl { s.infl with dCode := h }))
  | .filter b => engineNext .scanline (setRaw s s.defl.off b)
  | .mode v => engineNext .pixel (s.setHdr { s.hdr with ctype := v.toNat / 256, depth := v.toNat % 256 })
  | .frame _ | .bhdr _ | .adler _ => s

end Sys2Proof.Machine
end

