-- ==== Sys2Proof/Machine/Inputs.lean ====
section
/-! DEFINITION. What the outside world does to the block other than by a command: memory accesses of the host, bus error
responses and reset (20_memory.md R103, 60_exceptions.md R512, 70_reset_and_hazards.md R550, R551). -/

namespace Sys2Proof

/-- FREE VALUE (log entry 16): how a decode ends once the host has written into its regions (20_memory.md R103 item 5);
applied to the free-value counter. -/
opaque Config.racedOutcome : Nat → Machine.DecodeResult

end Sys2Proof

namespace Sys2Proof.Machine

/-- An address in IN, OUTR or SCR of the running decode (20_memory.md R94). -/
def inRegions (s : State) (a : Nat) : Bool :=
  windowHas (regionIn s.lat) a || windowHas (regionOut s.lat) a || windowHas (regionScr s.lat) a

/-- Leave every byte of OUTR and SCR unspecified. -/
def spoilRegions (s : State) : State :=
  spoil (spoil s s.lat.outBase s.lat.outCap.toNat) s.lat.scrBase s.lat.scrCap.toNat

/-- A host write into a region of a running decode (R103 item 5): the byte is stored, the outcome of the decode is a free
value, and so are, from here on, the registers it writes (`shownRegs`, `complete`) and what it leaves in OUTR and SCR
(`complete`) (log entry 16). -/
def racedWrite (a : Word) (b : Byte) (s : State) : State :=
  ((busWrite s a b).setPoint (.completing (Config.racedOutcome s.free.count))).setFree
    { s.free with count := s.free.count + 1, raced := true }

/-- The host writes a byte of memory; into a region of a running decode it is a race. -/
def hostWrite (a : Word) (b : Byte) (s : State) : State :=
  if s.regs.busy && inRegions s a.toNat then racedWrite a b s else busWrite s a b

/-- A host read the spec lets return any value: one of OUTR or SCR while BUSY = 1 (70_reset_and_hazards.md R560 H2,
20_memory.md R103 item 4). -/
def racedRead (s : State) (a : Nat) : Bool :=
  s.regs.busy && (windowHas (regionOut s.lat) a || windowHas (regionScr s.lat) a)

/-- The host reads a byte of memory; a raced read returns a free value (log entry 10). -/
def hostRead (a : Word) (s : State) : State :=
  if racedRead s a.toNat then
    (s.setPort { s.port with hostByte := Config.racedByte s.free.count }).setFree
      { s.free with count := s.free.count + 1 }
  else s.setPort { s.port with hostByte := busRead s a }

/-- An address a running decode may have a transfer at: a read in IN, by prefetch from its first step on and whatever
ConfigCheck says (R98), or in SCR_USED; a write in SCR_USED or OUT_USED (R95); `openScr` and `openOut` are those parts, but
once the host has written into the regions (log entry 16). -/
def transferPossible (write : Bool) (a : Nat) (s : State) : Bool :=
  s.regs.busy &&
    (windowHas (openScr s) a || (if write then windowHas (openOut s) a else windowHas (regionIn s.lat) a))

/-- An error response on the bus ends the decode in place of any other outcome, a ConfigError included (R512); a response
to a transfer the engine cannot have made is none. DESIGN CHOICE (log entry 15), and so is that a second response before the
completion replaces the address of the first. -/
def busError (write : Bool) (a : Word) (s : State) : State :=
  if transferPossible write a.toNat s then raise s (if write then .writeFault else .readFault) a.toNat else s

/-- The bytes a reset in mid-decode leaves unspecified: those of OUTR and SCR (R551). Before ConfigCheck can pass none is
written (40_host_interface.md R184). -/
def abandon (s : State) : State :=
  if s.regs.busy && regionError s.lat == none then spoilRegions s else s

/-- rst_n falls (R550, R551): every register at its reset value, the decode abandoned with no completion step. Memory stays;
the internal state, unspecified by R553, takes State.reset's (log entry 5). -/
def resetLow (s : State) : State :=
  let s1 := abandon s
  { State.reset with
    mem := s1.mem, plat := s.plat, port := { s.port with rstN := false }
    free := { s1.free with phaseFloor := 0, raced := false } }

/-- rst_n rises (R550). -/
def resetHigh (s : State) : State := s.setPort { s.port with rstN := true }

end Sys2Proof.Machine
end

