-- ==== Sys2Proof/Machine/Engine.lean ====
section
/-! DEFINITION. One move of the engine and one transaction on the host port: fetch, decode, exec. -/

namespace Sys2Proof.Machine

/-- A fetched element, decoded and executed. -/
def runFetched : Fetched → Result
  | .own s => .next s
  | .element e s =>
    match decode e with
    | .ok i => exec i s
    | .error _ => .fault .noSuchElement

/-- One engine step; the engine does nothing while BUSY = 0 (40_host_interface.md R180). -/
def engineMove (s : State) : Result := if s.regs.busy then runFetched (fetch s) else .next s

/-- The access is a write. -/
def accessWrites : Access → Bool
  | .write _ _ _ => true
  | .read _ _ => false

/-- One host register transaction. Other than 32-bit aligned accesses are refused (10_state.md R53); while rst_n = 0 writes
are ignored (70_reset_and_hazards.md R550); a write no command names is ignored (30_encoding.md R144). -/
def portMove (a : Access) (s : State) : Result :=
  match decode (.access a) with
  | .ok i => if accessWrites a && !s.port.rstN then .next s else exec i s
  | .error .ignoredWrite => .next s
  | .error .portAccess => .refused .portAccess
  | .error .wrongLength => .fault .noSuchElement
  | .error .noSuchSymbol => .fault .noSuchElement

/-- What one pending input does, in the state from which it is taken off the list. -/
def inputMove : Input → State → Result
  | .access a, s => portMove a s
  | .engine, s => engineMove s
  | .busError w a, s => .next (busError w a s)
  | .memWrite a b, s => .next (hostWrite a b s)
  | .memRead a, s => .next (hostRead a s)
  | .resetLow, s => .next (resetLow s)
  | .resetHigh, s => .next (resetHigh s)

/-- The pending inputs but for the first. -/
def popInput (s : State) : State := s.setPort { s.port with inputs := s.port.inputs.tail }

end Sys2Proof.Machine
end

