-- ==== Sys2Proof/Machine/Step.lean ====
section
/-! DEFINITION. The step function, and the placing of a table word where the next step runs it. -/

namespace Sys2Proof.Machine

/-- One step: the first pending input, or an engine step when none is pending (40_host_interface.md R180). -/
def step (s : State) : Host.Outcome State Fault Refusal :=
  match s.port.inputs with
  | [] => engineMove s
  | i :: _ => inputMove i (popInput s)

/-- The state whose next step runs the instruction of a word of the opcode table. -/
def State.withFetchWord (s : State) (nbits w : Nat) : State :=
  match tableElement nbits w with
  | some e => placeElement e s
  | none => s

end Sys2Proof.Machine
end

