-- ==== Sys2Proof/Safety.lean ====
section
/-! DEFINITION. The invariants of the machine, in the terms the statements use: legal status flags, latched copies, canonical
memory, regions, cursors, window, checksum and codes. -/

namespace Sys2Proof.Machine

/-! ### Groups of points -/

/-- The points of Parse between two elements (42_chunk_reader.md R230), after the signature. -/
def Point.betweenChunks : Point → Bool
  | .chunkFrame | .chunkType => true
  | _ => false

/-- The points before the first chunk. -/
def Point.beforeChunks : Point → Bool
  | .configCheck | .signature => true
  | _ => false

/-- The points of Inflate after the zlib header (44_inflate.md R320). -/
def Point.inBlocks : Point → Bool
  | .blockHeader | .clSymbol | .litLen | .distance | .adler => true
  | _ => false

/-- The points of Inflate. -/
def Point.inflating : Point → Bool
  | .zlibHeader => true
  | p => p.inBlocks

/-- The points after Parse. -/
def Point.afterParse : Point → Bool
  | .scanline | .pixel => true
  | p => p.inflating

/-- The points between ConfigCheck and the decode's outcome. -/
def Point.running : Point → Bool
  | .configCheck | .completing _ => false
  | _ => true

/-! ### Invariants -/

/-- STATUS holds a legal combination (10_state.md R35, R36), and the model's own lowest PHASE is one. -/
def StatusLegal (s : State) : Prop :=
  (s.regs.busy = true → s.regs.done = false ∧ s.regs.err = false ∧ 1 ≤ s.regs.phase.toNat ∧ s.regs.phase.toNat ≤ 4 ∧
    1 ≤ s.free.phaseFloor ∧ s.free.phaseFloor ≤ 4) ∧
  (s.regs.busy = false → s.regs.phase = 0#3) ∧
  ¬(s.regs.done = true ∧ s.regs.err = true)

/-- While rst_n = 0 every register holds its reset value (70_reset_and_hazards.md R550). -/
def RegistersHeldInReset (s : State) : Prop := s.port.rstN = false → s.regs = Regs.reset

/-- While BUSY = 1 each latched copy equals its register (10_state.md R71). -/
def LatchAgrees (s : State) : Prop := s.regs.busy = true → s.lat = latchOf s.regs

/-- Memory is in its canonical form. -/
def MemoryCanonical (s : State) : Prop := Memory.wf s.mem

/-- The header is one IHDR accepted, and the used parts lie in their regions (43_header_interpreter.md R274, R276). -/
def HeaderFits (s : State) : Prop :=
  regionError s.lat = none ∧
  BitVec.ofNat 16 (s.hdr.ctype * 256 + s.hdr.depth) ∈ legalModes ∧ s.hdr.ctype < 256 ∧ s.hdr.depth < 256 ∧
  0 < s.hdr.width ∧ 0 < s.hdr.height ∧
  outLength s.hdr ≤ s.lat.outCap.toNat ∧ rawLength s.hdr ≤ s.lat.scrCap.toNat

/-- Regions: an accepted header fits; a decode past ConfigCheck has legal regions; no chunk after the first, and no phase
after Parse, without an accepted IHDR. -/
def RegionsInside (s : State) : Prop :=
  (s.parse.seenIhdr = true → HeaderFits s) ∧
  (s.regs.busy = true → s.point.running = true → regionError s.lat = none) ∧
  (s.regs.busy = true → s.point.beforeChunks = true → s.parse.nchunks = 0) ∧
  (s.regs.busy = true → s.point.betweenChunks = true → s.parse.nchunks ≠ 0 → s.parse.seenIhdr = true) ∧
  (s.regs.busy = true → s.point.afterParse = true → s.parse.seenIhdr = true)

/-- Nothing is emitted yet (40_host_interface.md R185). -/
def NothingEmitted (s : State) : Prop := s.out.n = 0 ∧ s.out.s1 = 1 ∧ s.out.s2 = 0

/-- Cursors: pos inside IN (10_state.md R60), the bit cursor inside C (R66), clen inside what was parsed, n up to RAWLEN
(44_inflate.md R362). -/
def CursorsInRange (s : State) : Prop :=
  s.regs.busy = true →
    s.pos ≤ s.lat.inLen.toNat ∧
    (s.point.beforeChunks = true → s.pos = 0 ∧ s.c = [] ∧ NothingEmitted s) ∧
    (s.point = .chunkFrame → s.c.length ≤ s.pos ∧ NothingEmitted s) ∧
    (s.point = .chunkType →
      s.c.length ≤ s.parse.chunk.p ∧ s.parse.chunk.p + 12 + s.parse.chunk.len = s.pos ∧ NothingEmitted s) ∧
    (s.point = .zlibHeader → s.c.length ≤ s.pos ∧ NothingEmitted s) ∧
    (s.point.inBlocks = true →
      s.c.length ≤ s.pos ∧ s.infl.bp ≤ 8 * s.c.length ∧ s.out.n ≤ rawLength s.hdr ∧
      s.out.s1 < Config.adlerMod ∧ s.out.s2 < Config.adlerMod)

/-- WIN holds the last 32768 bytes of the raw stream (10_state.md R67, 44_inflate.md R361). -/
def WindowHolds (s : State) : Prop :=
  s.regs.busy = true → s.point.inflating = true →
    ∀ j, j < s.out.n → s.out.n ≤ j + Config.windowSize →
      tableGet s.out.win (j % Config.windowSize) = some (rawByte s j)

/-- The Adler-32 accumulators over a byte sequence (44_inflate.md R371): s1, then s2. -/
def adlerSums (bs : List Byte) : Nat × Nat :=
  bs.foldl (fun a b =>
    let s1 := (a.1 + b.toNat) % Config.adlerMod
    (s1, (a.2 + s1) % Config.adlerMod)) (1, 0)

/-- The accumulators are those of the bytes emitted so far. -/
def AdlerHolds (s : State) : Prop :=
  s.regs.busy = true → s.point.inflating = true →
    (s.out.s1, s.out.s2) = adlerSums ((List.range s.out.n).map (rawByte s))

/-- Where pass `p` starts in the raw stream (47_interlace.md R478). -/
def passStart (h : Header) (p : Nat) : Nat :=
  (((passNumbers h.interlace).filter fun q => decide (q < p)).map (passBytes h)).sum

/-- The bytes of one scanline of pass `p`, filter byte included (43_header_interpreter.md R279). -/
def lineBytes (h : Header) (p : Nat) : Nat := 1 + rowBytes h (passWidth h p)

/-- The defilter and expander cursors stand at a scanline, and at a pixel, of a non-empty pass (10_state.md R69, R70). -/
def PassCursors (s : State) : Prop :=
  s.regs.busy = true →
    (s.point = .scanline →
      s.defl.pass ∈ passNumbers s.hdr.interlace ∧ passEmpty s.hdr s.defl.pass = false ∧
      s.defl.row < passHeight s.hdr s.defl.pass ∧
      s.defl.off = passStart s.hdr s.defl.pass + s.defl.row * lineBytes s.hdr s.defl.pass ∧
      s.defl.prev = if s.defl.row = 0 then none else some (s.defl.off - lineBytes s.hdr s.defl.pass)) ∧
    (s.point = .pixel →
      s.exp.pass ∈ passNumbers s.hdr.interlace ∧ passEmpty s.hdr s.exp.pass = false ∧
      s.exp.row < passHeight s.hdr s.exp.pass ∧ s.exp.col < passWidth s.hdr s.exp.pass ∧
      s.exp.off = passStart s.hdr s.exp.pass)

/-- The codes in use name symbols of their alphabets only (30_encoding.md R136 to R138). -/
def CodesInAlphabet (s : State) : Prop :=
  s.regs.busy = true →
    (s.point = .clSymbol → s.infl.nl ≤ 286 ∧ s.infl.nd ≤ 30 ∧ ∀ w ∈ s.infl.clCode, w.sym < 19) ∧
    (s.point = .litLen ∨ s.point = .distance →
      (∀ w ∈ s.infl.llCode, w.sym < 288) ∧ ∀ w ∈ s.infl.dCode, w.sym < 32)

/-! ### Safe runs -/

/-- The engine is to move: BUSY = 1 and no input pending. -/
def EngineTurn (s : State) : Prop := s.regs.busy = true ∧ s.port.inputs = []

/-- The outcome is a `raise` in state `s`, wherever the bit cursor is left: no rule reads it after a raise. -/
def RaisesIn (r : Result) (s : State) (d : Detail) (off : Nat) : Prop := ∃ bp, r = .next (raise (s.setBp bp) d off)

/-- The byte a memory holds at an address, if any has been written. -/
def memAt (s : State) (a : Nat) : Option Byte := tableGet s.mem a

end Sys2Proof.Machine
end

