-- ==== Sys2Proof/Certificates/Slice0/Obligations.lean ====
section
/-! DEFINITION. The statements for the provers, from the numbered rules of spec/. -/

section Statements

open Sys2Proof Sys2Proof.Machine

/-- O1. For every well-formed instruction i, with every operand at every value its encoding admits, decode (encode i)
is i. (30_encoding.md.) -/
def Obligations.DecodeInvertsEncode : Prop :=
  ∀ i : Instr, i.wf = true → decode (encode i) = .ok i

/-- O2. If decode e answers i, then encode i is e, and i is well formed unless it is a signature of at most eight
bytes or a zlib header, whose own rules judge their bytes. (30_encoding.md.) -/
def Obligations.EncodeInvertsDecode : Prop :=
  ∀ (e : Element) (i : Instr), decode e = .ok i →
    encode i = e ∧
    (i.wf = true ∨ (∃ bs, i = .sig bs ∧ bs.length ≤ 8) ∨ ∃ cmf flg, i = .zhdr cmf flg)

/-- O3. One or two elements of each format, written out from the encoding rules, decode to the instruction the rules
give. (30_encoding.md.) -/
def Obligations.DecodesWrittenOutWords : Prop :=
  decode (.access (.write 0x04#8 .w32 0x00000005#32)) = .ok (.start 5#32) ∧
  decode (.sig [0x89#8, 0x50#8, 0x4E#8, 0x47#8, 0x0D#8, 0x0A#8, 0x1A#8, 0x0A#8])
    = .ok (.sig [0x89#8, 0x50#8, 0x4E#8, 0x47#8, 0x0D#8, 0x0A#8, 0x1A#8, 0x0A#8]) ∧
  decode (.access (.write 0x0C#8 .w32 0x00000006#32)) = .ok (.clearStatus 6#32) ∧
  decode (.access (.write 0x2C#8 .w32 0x00003000#32)) = .ok (.writeCfg .scrBase 0x3000#32) ∧
  decode (.frame [0x00#8, 0x00#8, 0x00#8, 0x0D#8, 0x49#8, 0x48#8, 0x44#8, 0x52#8]) = .ok (.chunk 13#32 0x49484452#32) ∧
  decode (.frame [0x00#8, 0x00#8, 0x00#8, 0x0D#8, 0x49#8, 0x48#8, 0x44#8, 0x00#8])
    = .ok (.chunkBadType 13#32 0x49484400#32) ∧
  decode (.ctype 0x49444154#32) = .ok .idat ∧
  decode (.ctype 0x74455874#32) = .ok (.unknownAncillary 0x74455874#32) ∧
  decode (.ctype 0x41424344#32) = .ok (.unknownCritical 0x41424344#32) ∧
  decode (.zhdr [0x78#8, 0xDA#8]) = .ok (.zhdr 0x78#8 0xDA#8) ∧
  decode (.bhdr 0b011#3) = .ok (.blockFixed true) ∧
  decode (.bhdr 0b100#3) = .ok (.blockDynamic false) ∧
  decode (.clsym 8) = .ok (.clLen 8#4) ∧ decode (.clsym 18) = .ok .clZeroLong ∧
  decode (.litlen 65) = .ok (.lit 0x41#8) ∧ decode (.litlen 256) = .ok .eob ∧ decode (.litlen 284) = .ok .len284 ∧
  decode (.litlen 286) = .ok (.litlenInvalid 286) ∧
  decode (.dist 29) = .ok .dist29 ∧ decode (.dist 30) = .ok (.distInvalid 30) ∧
  decode (.adler [0x00#8, 0x0E#8, 0x00#8, 0x05#8]) = .ok (.adler 0x000E0005#32) ∧
  decode (.filter 4#8) = .ok .filtPaeth ∧ decode (.filter 5#8) = .ok (.filtInvalid 5#8) ∧
  decode (.mode 0x0302#16) = .ok .idx2 ∧ decode (.mode 0x0310#16) = .ok (.modeIllegal 0x0310#16)

/-- O4. When the first pending input is a port access: if it decodes to i (and is a read, or rst_n is 1), step is exec
of i in the state with the input taken off; a 32-bit write at a multiple of 4 while rst_n = 0, and one to an offset no
command names, only take the input off; an access that is not 32-bit at a multiple of 4 is refused, whatever rst_n is.
(30_encoding.md, 10_state.md, 70_reset_and_hazards.md.) -/
def Obligations.PortTransactions : Prop :=
  ∀ (s : State) (a : Access) (rest : List Input), s.port.inputs = .access a :: rest →
    (∀ i, decode (.access a) = .ok i → (accessWrites a = true → s.port.rstN = true) →
      step s = exec i { s with port := { s.port with inputs := rest } }) ∧
    (∀ off v, a = .write off .w32 v → off.toNat % 4 = 0 → s.port.rstN = false →
      step s = .next { s with port := { s.port with inputs := rest } }) ∧
    (∀ off v, a = .write off .w32 v → off.toNat % 4 = 0 →
      off.toNat ∉ [0x04, 0x08, 0x0C, 0x1C, 0x20, 0x24, 0x28, 0x2C, 0x30] →
      step s = .next { s with port := { s.port with inputs := rest } }) ∧
    (∀ off w v, a = .write off w v → (w ≠ .w32 ∨ off.toNat % 4 ≠ 0) → step s = .refused .portAccess) ∧
    (∀ off w, a = .read off w → (w ≠ .w32 ∨ off.toNat % 4 ≠ 0) → step s = .refused .portAccess)

/-- O5. With no pending input, or an engine slot first (then taken off): while BUSY = 1, if fetch finds an element
that decodes to i, step is exec of i in the state fetch leaves, and where fetch finds a step without an element, that
is the next state; while BUSY = 0 nothing else changes. What is found: at a chunk's dispatch its type, at a scanline
its filter byte, at a pixel the header's mode; at a block header three bits, BFINAL the first and BTYPE the next two
with its bit 0 first, bstart being the bit of BFINAL, and Z_TRUNCATED at clen if they are not there; at a code-length,
literal/length or distance symbol what DecodeSym (CanonicalCodeDecodes) finds in its code: a symbol, whose instruction
runs with the start of its code word kept and the cursor after it, D_INVALID_CODE at that start div 8, or Z_TRUNCATED
at clen. That the bit cursor, after a raise at an element, stands where the element began, though its bits were read
(44_inflate.md R322), is the model's choice (log entry 1). (40_host_interface.md, 30_encoding.md, 44_inflate.md.) -/
def Obligations.StepRunsStreamElement : Prop :=
  ∀ s u : State,
    ((s.port.inputs = [] ∧ u = s) ∨
      ∃ rest, s.port.inputs = .engine :: rest ∧ u = { s with port := { s.port with inputs := rest } }) →
    (s.regs.busy = true → ∀ e t i, fetch u = .element e t → decode e = .ok i → step s = exec i t) ∧
    (s.regs.busy = true → ∀ t, fetch u = .own t → step s = .next t) ∧
    (s.regs.busy = false → step s = .next u) ∧
    (s.regs.busy = true → u.point = .chunkType → ∀ i, decode (.ctype u.parse.chunk.ty) = .ok i → step s = exec i u) ∧
    (s.regs.busy = true → u.point = .scanline → ∀ i, decode (.filter (rawByte u u.defl.off)) = .ok i → step s = exec i u) ∧
    (s.regs.busy = true → u.point = .pixel → ∀ i, decode (.mode (BitVec.ofNat 16 (u.hdr.ctype * 256 + u.hdr.depth))) = .ok i →
      step s = exec i u) ∧
    (s.regs.busy = true → u.point = .blockHeader →
      let bp := u.infl.bp
      (8 * u.c.length < bp + 3 → step s = .next (raise u .zTruncated u.c.length)) ∧
      (bp + 3 ≤ 8 * u.c.length →
        let bfinal := cBit u.c bp
        let btype := (cBit u.c (bp + 1)).toNat + 2 * (cBit u.c (bp + 2)).toNat
        let t := { u with infl := { u.infl with bstart := bp, bp := bp + 3 } }
        (btype = 0 → step s = exec (.blockStored bfinal) t) ∧ (btype = 1 → step s = exec (.blockFixed bfinal) t) ∧
        (btype = 2 → step s = exec (.blockDynamic bfinal) t) ∧ (btype = 3 → step s = exec (.blockReserved bfinal) t))) ∧
    (s.regs.busy = true → ∀ row ∈ ([(.clSymbol, u.infl.clCode, .clsym), (.litLen, u.infl.llCode, .litlen),
        (.distance, u.infl.dCode, .dist)] : List (Point × List CodeWord × (Nat → Element))), u.point = row.1 →
      let bp := u.infl.bp
      (∀ x e, decodeSym row.2.1 u.c bp = .sym x e → ∀ i, decode (row.2.2 x) = .ok i →
        step s = exec i { u with infl := { u.infl with symStart := bp, bp := e } }) ∧
      (decodeSym row.2.1 u.c bp = .invalid → step s = .next (raise u .dInvalidCode (bp / 8))) ∧
      (decodeSym row.2.1 u.c bp = .truncated → step s = .next (raise u .zTruncated u.c.length)))

/-- O6. START in an idle state whose regions cover no device window (over one the launch is refused, see
OutsideEvents) answers exactly the state the three rules give: DONE, ERR, the error and IMG registers cleared, IRQ_EN
= v[2], BUSY = 1, PHASE = 1, L the seven registers, the internal state initialised, all else unchanged but the model's
own free-value bookkeeping. (R182, R183, R185.) -/
def Obligations.StartLaunchesDecode : Prop :=
  ∀ (v : Word) (s : State), s.regs.busy = false → coversDevice s = false →
    ∃ t, exec (.start v) s = .next t ∧ t =
      { s with
        regs :=
          { irqEn := v.getLsbD 2, validate := s.regs.validate, strict := s.regs.strict
            busy := true, done := false, err := false, phase := 1#3
            errKind := 0#4, errDetail := 0#16, errOffset := 0#32
            inBase := s.regs.inBase, inLen := s.regs.inLen, outBase := s.regs.outBase, outCap := s.regs.outCap
            scrBase := s.regs.scrBase, scrCap := s.regs.scrCap
            imgWidth := 0#32, imgHeight := 0#32, bitDepth := 0#5, colorType := 0#3, interlace := false
            hasPlte := false, hasTrns := false, hasGama := false, plteEntries := 0#9
            gamma := 0#32, outLen := 0#32, rawLen := 0#32
            trnsKey0 := 0#16, trnsKey1 := 0#16, trnsKey2 := 0#16, trnsEntries := 0#9 }
        lat :=
          { validate := s.regs.validate, strict := s.regs.strict, inBase := s.regs.inBase, inLen := s.regs.inLen
            outBase := s.regs.outBase, outCap := s.regs.outCap, scrBase := s.regs.scrBase, scrCap := s.regs.scrCap }
        pos := 0
        parse :=
          { seenIhdr := false, seenPlte := false, seenTrns := false, seenGama := false, idat := .none, nchunks := 0
            chunk := s.parse.chunk }
        tabs := { s.tabs with plteN := 0, trnsN := 0, keyPresent := false }
        c := []
        out := { win := s.out.win, n := 0, s1 := 1, s2 := 0 }
        point := .configCheck
        free := t.free }

/-- O7. WRITE_CFG in an idle state writes exactly the named register (CONFIG its bits 1:0); while BUSY = 1 it changes
nothing; START while BUSY = 1 sets IRQ_EN to v[2] and changes nothing else. (R188.) -/
def Obligations.ConfigWritesAndBusyStart : Prop :=
  ∀ (v : Word) (s : State),
    (s.regs.busy = false →
      exec (.writeCfg .config v) s
        = .next { s with regs := { s.regs with validate := v.getLsbD 0, strict := v.getLsbD 1 } } ∧
      exec (.writeCfg .inBase v) s = .next { s with regs := { s.regs with inBase := v } } ∧
      exec (.writeCfg .inLen v) s = .next { s with regs := { s.regs with inLen := v } } ∧
      exec (.writeCfg .outBase v) s = .next { s with regs := { s.regs with outBase := v } } ∧
      exec (.writeCfg .outCap v) s = .next { s with regs := { s.regs with outCap := v } } ∧
      exec (.writeCfg .scrBase v) s = .next { s with regs := { s.regs with scrBase := v } } ∧
      exec (.writeCfg .scrCap v) s = .next { s with regs := { s.regs with scrCap := v } }) ∧
    (s.regs.busy = true →
      (∀ r, exec (.writeCfg r v) s = .next s) ∧
      exec (.start v) s = .next { s with regs := { s.regs with irqEn := v.getLsbD 2 } })

/-- O8. In every state SET_IRQ_EN answers the state with IRQ_EN = v[2] and all else unchanged, and CLEAR_STATUS the
state with DONE cleared if v[1], ERR cleared if v[2], and all else unchanged. (R187, R191.) -/
def Obligations.IrqEnableAndStatusClear : Prop :=
  ∀ (v : Word) (s : State),
    exec (.setIrqEn v) s = .next { s with regs := { s.regs with irqEn := v.getLsbD 2 } } ∧
    exec (.clearStatus v) s = .next
      { s with
        regs :=
          { s.regs with
            done := if v.getLsbD 1 then false else s.regs.done
            err := if v.getLsbD 2 then false else s.regs.err } }

/-- O9. For every aligned offset, READ answers a state that differs only in the word returned to the host and (while
BUSY, at STATUS or after a host write into the regions) in the model's own free-value bookkeeping; the word is the
register as the register map gives it, field by field, and 0 at a reserved offset; STATUS while BUSY shows some PHASE
(see BusyStatusRead). While a decode runs into whose regions the host has written, the registers at 0x34 to 0x50 read
as some value instead (log entry 16). (R192.) -/
def Obligations.ReadReturnsRegister : Prop :=
  ∀ (off : BitVec 8) (s : State), ∃ t, exec (.read off) s = .next t ∧
    t = { s with port := { s.port with rdata := t.port.rdata }, free := t.free } ∧
    (s.regs.busy = false ∨ (off ≠ 0x0C#8 ∧ s.free.raced = false) → t.free = s.free) ∧
    (off = 0x00#8 → t.port.rdata = 0x504E4707#32) ∧
    (off = 0x04#8 → t.port.rdata.toNat = 4 * s.regs.irqEn.toNat) ∧
    (off = 0x08#8 → t.port.rdata.toNat = s.regs.validate.toNat + 2 * s.regs.strict.toNat) ∧
    (off = 0x0C#8 → s.regs.busy = false →
      t.port.rdata.toNat = 2 * s.regs.done.toNat + 4 * s.regs.err.toNat + 256 * s.regs.phase.toNat) ∧
    (off = 0x10#8 → t.port.rdata.toNat = s.regs.errKind.toNat) ∧
    (off = 0x14#8 → t.port.rdata.toNat = s.regs.errDetail.toNat) ∧
    (off = 0x18#8 → t.port.rdata = s.regs.errOffset) ∧
    (off = 0x1C#8 → t.port.rdata = s.regs.inBase) ∧ (off = 0x20#8 → t.port.rdata = s.regs.inLen) ∧
    (off = 0x24#8 → t.port.rdata = s.regs.outBase) ∧ (off = 0x28#8 → t.port.rdata = s.regs.outCap) ∧
    (off = 0x2C#8 → t.port.rdata = s.regs.scrBase) ∧ (off = 0x30#8 → t.port.rdata = s.regs.scrCap) ∧
    (s.regs.busy = false ∨ s.free.raced = false →
    (off = 0x34#8 → t.port.rdata = s.regs.imgWidth) ∧ (off = 0x38#8 → t.port.rdata = s.regs.imgHeight) ∧
    (off = 0x3C#8 → t.port.rdata.toNat =
      s.regs.bitDepth.toNat + 2 ^ 8 * s.regs.colorType.toNat + 2 ^ 12 * s.regs.interlace.toNat
        + 2 ^ 13 * s.regs.hasPlte.toNat + 2 ^ 14 * s.regs.hasTrns.toNat + 2 ^ 15 * s.regs.hasGama.toNat
        + 2 ^ 16 * s.regs.plteEntries.toNat) ∧
    (off = 0x40#8 → t.port.rdata = s.regs.gamma) ∧ (off = 0x44#8 → t.port.rdata = s.regs.outLen) ∧
    (off = 0x48#8 → t.port.rdata = s.regs.rawLen) ∧
    (off = 0x4C#8 → t.port.rdata.toNat = s.regs.trnsKey0.toNat + 2 ^ 16 * s.regs.trnsKey1.toNat) ∧
    (off = 0x50#8 → t.port.rdata.toNat = s.regs.trnsKey2.toNat + 2 ^ 16 * s.regs.trnsEntries.toNat)) ∧
    (0x54 ≤ off.toNat → off.toNat % 4 = 0 → t.port.rdata = 0#32)

/-- O10. READ of STATUS in a legal busy state answers a word with BUSY = 1, DONE = ERR = 0 and a PHASE between
phaseFloor (at least 1) and 4, and makes that PHASE the lowest a later read of the decode may show; nothing else
changes but the free-value counter. The draw is a free value (log entry 7). (10_state.md, 70_reset_and_hazards.md.) -/
def Obligations.BusyStatusRead : Prop :=
  ∀ s : State, StatusLegal s → s.regs.busy = true →
    ∃ ph, s.free.phaseFloor ≤ ph ∧ 1 ≤ ph ∧ ph ≤ 4 ∧
      exec (.read 0x0C#8) s = .next
        { s with
          port := { s.port with rdata := BitVec.ofNat 32 (1 + 256 * ph) }
          free := { s.free with phaseFloor := ph, count := s.free.count + 1 } }

/-- O11. irq equals IRQ_EN and (DONE or ERR) in every state; it is 0 in every legal busy state; it is 1 after a
completion step exactly when IRQ_EN = 1; enabling IRQ_EN while DONE or ERR is 1 raises it; clearing both flags, an
accepted START, IRQ_EN written 0 and reset bring it to 0. (R520.) -/
def Obligations.IrqLevelFollowsFlags : Prop :=
  ∀ s : State,
    (irq s = true ↔ s.regs.irqEn = true ∧ (s.regs.done = true ∨ s.regs.err = true)) ∧
    (StatusLegal s → s.regs.busy = true → irq s = false) ∧
    (∀ o, EngineTurn s → s.point = .completing o → ∃ t, step s = .next t ∧ irq t = s.regs.irqEn) ∧
    (∀ v t, exec (.setIrqEn v) s = .next t → irq t = (v.getLsbD 2 && (s.regs.done || s.regs.err))) ∧
    (∀ v t, exec (.clearStatus v) s = .next t → v.getLsbD 1 = true → v.getLsbD 2 = true → irq t = false) ∧
    (∀ v t, exec (.clearStatus v) s = .next t → s.regs.err = false → v.getLsbD 1 = true → irq t = false) ∧
    (∀ v t, exec (.clearStatus v) s = .next t → s.regs.done = false → v.getLsbD 2 = true → irq t = false) ∧
    (∀ v t, s.regs.busy = false → exec (.start v) s = .next t → irq t = false) ∧
    irq (resetLow s) = false ∧ irq State.reset = false

/-- O12. In State.reset, ID reads 0x504E4707, CONFIG 1, every other offset 0, and irq is 0. (R552.) -/
def Obligations.ResetRegisterValues : Prop :=
  regWord State.reset 0x00#8 = 0x504E4707#32 ∧ regWord State.reset 0x08#8 = 0x00000001#32 ∧
  (∀ off : BitVec 8, off ≠ 0x00#8 → off ≠ 0x08#8 → regWord State.reset off = 0#32) ∧
  irq State.reset = false

/-- O13. A step that takes a falling rst_n answers a state with every register reading its reset value, BUSY = DONE =
ERR = 0, irq = 0, rst_n low, the other pending inputs kept; memory is unchanged outside OUTR and SCR, and everywhere
when no decode was running; IN is unchanged when the regions are legal. The fate of the internal state is the model's
choice (log entry 5). A step that takes a rising rst_n sets rst_n high and changes nothing else; the registers having
been held at their reset values while it was low (RegistersHeldInReset, kept by every step:
StepKeepsStatusLatchAndMemory), the block is then idle with every register at its reset value.
(70_reset_and_hazards.md, 40_host_interface.md.) -/
def Obligations.ResetAbandonsDecode : Prop :=
  (∀ (s : State) (rest : List Input), s.port.inputs = .resetHigh :: rest →
    ∃ t, step s = .next t ∧ t = { s with port := { s.port with inputs := rest, rstN := true } } ∧
      (RegistersHeldInReset s → s.port.rstN = false → t.regs = Regs.reset ∧ t.regs.busy = false ∧ irq t = false)) ∧
  ∀ (s : State) (rest : List Input), s.port.inputs = .resetLow :: rest →
    ∃ t, step s = .next t ∧ t.regs = Regs.reset ∧ irq t = false ∧
      t.port = { s.port with inputs := rest, rstN := false } ∧ t.plat = s.plat ∧
      (s.regs.busy = false → t.mem = s.mem) ∧
      (∀ a, windowHas (regionOut s.lat) a = false → windowHas (regionScr s.lat) a = false → memAt t a = memAt s a) ∧
      (regionError s.lat = none → ∀ a, windowHas (regionIn s.lat) a = true → memAt t a = memAt s a)

/-- O14. From reset with START pending, four steps (the command, ConfigCheck, the signature, the completion) end with
STATUS = 4, ERR_KIND = 1, ERR_DETAIL = 0x0101, ERR_OFFSET = 0. (R556.) -/
def Obligations.StartStraightAfterReset : Prop :=
  ∃ t, Host.Core.run Sys2Proof.core 4
      { State.reset with
        port := { State.reset.port with inputs := [.access (.write 0x04#8 .w32 1#32)] } } = .next t ∧
    regWord t 0x0C#8 = 0x00000004#32 ∧ regWord t 0x10#8 = 1#32 ∧ regWord t 0x14#8 = 0x0101#32 ∧
    regWord t 0x18#8 = 0#32

/-- O15. At ConfigCheck the engine step raises CFG_REGION_WRAP at 0 if a non-empty region ends past 2^32, else
CFG_REGION_OVERLAP at 0 if two non-empty regions share a byte, else goes on to the signature with PHASE 1; nothing
else changes. (R184.) -/
def Obligations.ConfigCheckVerdict : Prop :=
  ∀ s : State, EngineTurn s → s.point = .configCheck →
    let inR := (s.lat.inBase.toNat, s.lat.inLen.toNat)
    let outR := (s.lat.outBase.toNat, s.lat.outCap.toNat)
    let scrR := (s.lat.scrBase.toNat, s.lat.scrCap.toNat)
    let wraps := ∃ r ∈ [inR, outR, scrR], 0 < r.2 ∧ 2 ^ 32 < r.1 + r.2
    let overlap := ∃ p ∈ [(inR, outR), (inR, scrR), (outR, scrR)],
      0 < p.1.2 ∧ 0 < p.2.2 ∧ p.1.1 < p.2.1 + p.2.2 ∧ p.2.1 < p.1.1 + p.1.2
    (wraps → step s = .next (raise s .cfgRegionWrap 0)) ∧
    (¬wraps → overlap → step s = .next (raise s .cfgRegionOverlap 0)) ∧
    (¬wraps → ¬overlap →
      step s = .next { s with regs := { s.regs with phase := 1#3 }, point := .signature })

/-- O16. At its end the decode completes in one step: on success DONE = 1; on an error ERR_KIND, ERR_DETAIL and
ERR_OFFSET (mod 2^32) are written and ERR = 1; PHASE = 0 and BUSY = 0; every other register and all internal state
unchanged; memory outside SCR_USED (and OUT_USED after an error) unchanged, so on success OUT_USED keeps the decoded
buffer. This is the completion of a decode into whose regions the host has not written (R103); the other is in
OutsideEvents. (R190.) -/
def Obligations.CompletionReportsOutcome : Prop :=
  ∀ (s : State) (o : DecodeResult), EngineTurn s → s.point = .completing o → s.free.raced = false →
    ∃ t, step s = .next t ∧
      t = { s with regs := t.regs, mem := t.mem, free := t.free } ∧ t.free.phaseFloor = s.free.phaseFloor ∧
      (o = .success →
        t.regs = { s.regs with done := true, phase := 0#3, busy := false } ∧
        (∀ a, windowHas (usedScr s) a = false → memAt t a = memAt s a) ∧
        (RegionsInside s → ∀ a, windowHas (usedOut s) a = true → memAt t a = memAt s a)) ∧
      (∀ e, o = .error e →
        t.regs.errKind.toNat = e.detail.code.toNat / 256 ∧
        t.regs = { s.regs with
          errKind := t.regs.errKind, errDetail := e.detail.code, errOffset := BitVec.ofNat 32 e.offset
          err := true, phase := 0#3, busy := false } ∧
        (∀ a, windowHas (usedScr s) a = false → windowHas (usedOut s) a = false → memAt t a = memAt s a))

/-- O17. At the signature the engine step goes on to the first chunk with pos = 8 when all eight bytes are there and
right; else it raises SIG_SHORT or SIG_MISMATCH at the first index i that is missing or wrong; SIG itself, executed on
any bytes, answers the same for those; nothing else changes. (R231.) -/
def Obligations.SignatureCompared : Prop :=
  ∀ s : State,
    (∀ bs : List Byte,
      ((∀ i, i < 8 → bs[i]? = some (signatureBytes.getD i 0#8)) →
        exec (.sig bs) s = .next { s with pos := 8, point := .chunkFrame }) ∧
      (∀ i, i < 8 → (∀ j, j < i → bs[j]? = some (signatureBytes.getD j 0#8)) →
        (bs[i]? = none → exec (.sig bs) s = .next (raise s .sigShort i)) ∧
        (∀ b, bs[i]? = some b → b ≠ signatureBytes.getD i 0#8 → exec (.sig bs) s = .next (raise s .sigMismatch i)))) ∧
    (EngineTurn s → s.point = .signature →
      ((∀ i, i < 8 → i < s.lat.inLen.toNat ∧ inByte s i = signatureBytes.getD i 0#8) →
        step s = .next { s with pos := 8, point := .chunkFrame }) ∧
      (∀ i, i < 8 → (∀ j, j < i → j < s.lat.inLen.toNat ∧ inByte s j = signatureBytes.getD j 0#8) →
        (s.lat.inLen.toNat ≤ i → step s = .next (raise s .sigShort i)) ∧
        (i < s.lat.inLen.toNat → inByte s i ≠ signatureBytes.getD i 0#8 → step s = .next (raise s .sigMismatch i))))

/-- O18. At a chunk frame with p = pos: fewer than 8 bytes left raises CHUNK_TRUNC_HEADER at p; else a type byte below
0x20 or above 0x7E raises CHUNK_BAD_TYPE at p, whatever LENGTH is; else the frame instruction runs with LENGTH and T,
both big-endian. (R232.) -/
def Obligations.ChunkHeaderRead : Prop :=
  ∀ s : State,
    (∀ len ty, exec (.chunkBadType len ty) s = .next (raise s .chunkBadType s.pos)) ∧
    (EngineTurn s → s.point = .chunkFrame →
      let p := s.pos
      let badByte := ∃ k, k < 4 ∧ ((inByte s (p + 4 + k)).toNat < 0x20 ∨ 0x7E < (inByte s (p + 4 + k)).toNat)
      (s.lat.inLen.toNat < p + 8 → step s = .next (raise s .chunkTruncHeader p)) ∧
      (p + 8 ≤ s.lat.inLen.toNat → badByte → step s = .next (raise s .chunkBadType p)) ∧
      (p + 8 ≤ s.lat.inLen.toNat → ¬badByte → ∃ len ty : Word,
        len.toNat = (inByte s p).toNat * 2 ^ 24 + (inByte s (p + 1)).toNat * 2 ^ 16
          + (inByte s (p + 2)).toNat * 2 ^ 8 + (inByte s (p + 3)).toNat ∧
        ty.toNat = (inByte s (p + 4)).toNat * 2 ^ 24 + (inByte s (p + 5)).toNat * 2 ^ 16
          + (inByte s (p + 6)).toNat * 2 ^ 8 + (inByte s (p + 7)).toNat ∧
        step s = exec (.chunk len ty) s))

/-- O19. CHUNK at p = pos: if len + 4 exceeds IN_LEN - p - 8 (in integers) it raises CHUNK_TRUNC_BODY at p; else pos
becomes p + 12 + len, and if VALIDATE = 1 and CRC32(TYPE ++ DATA) is not the big-endian trailer it raises
CHUNK_CRC_MISMATCH at p; else the chunk record is (p, len, T) and its dispatch is next; nothing else changes. (R233,
R234, R235.) -/
def Obligations.ChunkBodyAndCrc : Prop :=
  ∀ (len ty : Word) (s : State),
    let p := s.pos
    let crc := crc32 (be32Bytes ty ++ (List.range len.toNat).map fun k => inByte s (p + 8 + k))
    let stored := be32 (inByte s (p + 8 + len.toNat)) (inByte s (p + 9 + len.toNat))
      (inByte s (p + 10 + len.toNat)) (inByte s (p + 11 + len.toNat))
    (((s.lat.inLen.toNat : Int) - p - 8 < len.toNat + 4) → exec (.chunk len ty) s = .next (raise s .chunkTruncBody p)) ∧
    (((len.toNat : Int) + 4 ≤ s.lat.inLen.toNat - p - 8) →
      (s.lat.validate = true → crc ≠ stored →
        exec (.chunk len ty) s = .next (raise { s with pos := p + 12 + len.toNat } .chunkCrcMismatch p)) ∧
      (s.lat.validate = false ∨ crc = stored →
        exec (.chunk len ty) s = .next
          { s with
            pos := p + 12 + len.toNat
            parse := { s.parse with chunk := ⟨p, len.toNat, ty⟩ }
            point := .chunkType }))

/-- O20. With nchunks = 0 every chunk but IHDR raises FIRST_NOT_IHDR at its start; with nchunks > 0 and image data
seen (idat_state not NONE), IHDR, PLTE and an unknown critical chunk raise CHUNK_AFTER_IDAT at their start, the IDAT
run being ended. (43_header_interpreter.md.) -/
def Obligations.DispatchOrderErrors : Prop :=
  ∀ s : State,
    (s.parse.nchunks = 0 → ∀ i : Instr, i.wf = true →
      (i ∈ [.plte, .idat, .iend, .trns, .gama, .actl, .fctl, .fdat] ∨
        (∃ ty, i = .unknownCritical ty) ∨ ∃ ty, i = .unknownAncillary ty) →
      exec i s = .next (raise s .firstNotIhdr s.parse.chunk.p)) ∧
    (s.parse.nchunks ≠ 0 → s.parse.idat ≠ .none → ∀ i : Instr, i.wf = true →
      (i ∈ [.ihdr, .plte] ∨ ∃ ty, i = .unknownCritical ty) →
      exec i s = .next
        (raise { s with parse := { s.parse with idat := .ended } } .chunkAfterIdat s.parse.chunk.p))

/-- O21. After the first chunk: an unknown critical chunk before image data raises UNKNOWN_CRITICAL at its start
whatever STRICT is; an unknown ancillary chunk raises UNKNOWN_ANCILLARY at its start when STRICT = 1; with STRICT = 0
it, and in any case acTL, fcTL and fdAT, are skipped: nchunks counts up, an IDAT run ends, the next frame follows, and
nothing else changes. (R237, R238, R242, R284.) -/
def Obligations.UnknownAndSkippedChunks : Prop :=
  ∀ s : State, s.parse.nchunks ≠ 0 →
    let runEnded := if s.parse.idat = .inRun then .ended else s.parse.idat
    let skipped :=
      { s with
        parse := { s.parse with nchunks := s.parse.nchunks + 1, idat := runEnded }
        point := .chunkFrame }
    (∀ ty, (Instr.unknownCritical ty).wf = true → s.parse.idat = .none →
      exec (.unknownCritical ty) s = .next (raise s .unknownCritical s.parse.chunk.p)) ∧
    (∀ ty, (Instr.unknownAncillary ty).wf = true →
      (s.lat.strict = true →
        exec (.unknownAncillary ty) s = .next
          (raise { s with parse := { s.parse with idat := runEnded } } .unknownAncillary s.parse.chunk.p)) ∧
      (s.lat.strict = false → exec (.unknownAncillary ty) s = .next skipped)) ∧
    exec .actl s = .next skipped ∧ exec .fctl s = .next skipped ∧ exec .fdat s = .next skipped

/-- O22. An IHDR with no IHDR before it, 13 bytes of data, legal dimensions, a legal mode, zero methods, interlace 0
or 1, dimensions within the ceiling and lengths within the capacities: the header values are those of the data (big-
endian), IMG_WIDTH, IMG_HEIGHT, BIT_DEPTH, COLOR_TYPE, INTERLACE, OUT_LEN and RAW_LEN (which fit) are written,
seen_ihdr is set, the chunk is counted, and nothing else changes. (R273, R277.) -/
def Obligations.IhdrAccepted : Prop :=
  ∀ (s : State) (h : Header),
    s.parse.seenIhdr = false → s.parse.idat = .none → s.parse.chunk.len = 13 →
    h.width = (dataByte s 0).toNat * 2 ^ 24 + (dataByte s 1).toNat * 2 ^ 16 + (dataByte s 2).toNat * 2 ^ 8
      + (dataByte s 3).toNat →
    h.height = (dataByte s 4).toNat * 2 ^ 24 + (dataByte s 5).toNat * 2 ^ 16 + (dataByte s 6).toNat * 2 ^ 8
      + (dataByte s 7).toNat →
    h.depth = (dataByte s 8).toNat → h.ctype = (dataByte s 9).toNat →
    dataByte s 10 = 0#8 → dataByte s 11 = 0#8 → (dataByte s 12).toNat = h.interlace.toNat →
    0 < h.width → 0 < h.height → h.width ≤ 2 ^ 31 - 1 → h.height ≤ 2 ^ 31 - 1 →
    (h.ctype, h.depth) ∈ [(0, 1), (0, 2), (0, 4), (0, 8), (0, 16), (2, 8), (2, 16), (3, 1), (3, 2), (3, 4), (3, 8),
      (4, 8), (4, 16), (6, 8), (6, 16)] →
    h.width ≤ s.plat.maxDim → h.height ≤ s.plat.maxDim → h.width * h.height ≤ s.plat.maxPixels →
    h.width * h.height * 4 ≤ s.lat.outCap.toNat → rawLength h ≤ s.lat.scrCap.toNat →
    ∃ t, exec .ihdr s = .next t ∧
      t = { s with
        hdr := h
        regs := { s.regs with
          imgWidth := t.regs.imgWidth, imgHeight := t.regs.imgHeight, bitDepth := t.regs.bitDepth
          colorType := t.regs.colorType, interlace := h.interlace
          outLen := t.regs.outLen, rawLen := t.regs.rawLen }
        parse := { s.parse with seenIhdr := true, nchunks := s.parse.nchunks + 1 }
        point := .chunkFrame } ∧
      t.regs.imgWidth.toNat = h.width ∧ t.regs.imgHeight.toNat = h.height ∧
      t.regs.bitDepth.toNat = h.depth ∧ t.regs.colorType.toNat = h.ctype ∧
      t.regs.outLen.toNat = h.width * h.height * 4 ∧ t.regs.rawLen.toNat = rawLength h

/-- O23. For an IHDR before image data, the first failing check in the order of the rules is the error raised, at the
chunk start; a format error changes no register (of the header values W, H, depth, ctype and interlace, which no rule
reads after it, nothing is said); a ceiling error shows the header registers; a capacity error shows the lengths as
well, saturated at 0xFFFFFFFF. (R274, R275, R276.) -/
def Obligations.IhdrRejected : Prop :=
  ∀ s : State, s.parse.idat = .none →
    let h := ihdrHeader s
    let p := s.parse.chunk.p
    let withHeader :=
      { s with
        hdr := h
        regs := { s.regs with
          imgWidth := BitVec.ofNat 32 h.width, imgHeight := BitVec.ofNat 32 h.height
          bitDepth := BitVec.ofNat 5 h.depth, colorType := BitVec.ofNat 3 h.ctype, interlace := h.interlace } }
    let withLengths :=
      { withHeader with
        regs := { withHeader.regs with
          outLen := BitVec.ofNat 32 (min (h.width * h.height * 4) 0xFFFFFFFF)
          rawLen := BitVec.ofNat 32 (min (rawLength h) 0xFFFFFFFF) } }
    let zero := h.width = 0 ∨ h.height = 0
    let range := 2 ^ 31 - 1 < h.width ∨ 2 ^ 31 - 1 < h.height
    let mode := dataByte s 9 ++ dataByte s 8 ∈ legalModes
    let rejects := fun d => ∃ hd, exec .ihdr s = .next (raise { s with hdr := hd } d p)
    let ceiling := s.plat.maxDim < h.width ∨ s.plat.maxDim < h.height ∨ s.plat.maxPixels < h.width * h.height
    (s.parse.seenIhdr = true → exec .ihdr s = .next (raise s .duplicateIhdr p)) ∧
    (s.parse.seenIhdr = false →
      (s.parse.chunk.len ≠ 13 → exec .ihdr s = .next (raise s .ihdrLength p)) ∧
      (s.parse.chunk.len = 13 →
        (zero → rejects .zeroDimension) ∧
        (¬zero → range → rejects .dimensionRange) ∧
        (¬zero → ¬range → ¬mode → rejects .badDepthColor) ∧
        (¬zero → ¬range → mode → dataByte s 10 ≠ 0#8 → rejects .badCompressionMethod) ∧
        (¬zero → ¬range → mode → dataByte s 10 = 0#8 →
          (dataByte s 11 ≠ 0#8 → rejects .badFilterMethod) ∧
          (dataByte s 11 = 0#8 → 1 < (dataByte s 12).toNat → rejects .badInterlaceMethod) ∧
          (dataByte s 11 = 0#8 → (dataByte s 12).toNat ≤ 1 →
            (ceiling → exec .ihdr s = .next (raise withHeader .dimCeiling p)) ∧
            (¬ceiling → s.lat.outCap.toNat < h.width * h.height * 4 →
              exec .ihdr s = .next (raise withLengths .outCap p)) ∧
            (¬ceiling → h.width * h.height * 4 ≤ s.lat.outCap.toNat → s.lat.scrCap.toNat < rawLength h →
              exec .ihdr s = .next (raise withLengths .scrCap p))))))

/-- O24. A PLTE before image data (and after the first chunk) raises PLTE_NOT_ALLOWED, DUPLICATE_PLTE, PLTE_LENGTH or
PLTE_TOO_LONG at its start, the first that applies; else its n = len / 3 triples become PAL[0..n), other entries kept,
plte_n = n, seen_plte and HAS_PLTE are set, PLTE_ENTRIES = n, the chunk is counted, and nothing else changes. (R280.)
-/
def Obligations.PlteProcessed : Prop :=
  ∀ s : State, s.parse.nchunks ≠ 0 → s.parse.idat = .none →
    let p := s.parse.chunk.p
    let len := s.parse.chunk.len
    let lenBad := len = 0 ∨ len % 3 ≠ 0
    (s.hdr.ctype ≠ 3 → exec .plte s = .next (raise s .plteNotAllowed p)) ∧
    (s.hdr.ctype = 3 →
      (s.parse.seenPlte = true → exec .plte s = .next (raise s .duplicatePlte p)) ∧
      (s.parse.seenPlte = false → lenBad → exec .plte s = .next (raise s .plteLength p)) ∧
      (s.parse.seenPlte = false → ¬lenBad → 2 ^ s.hdr.depth < len / 3 → exec .plte s = .next (raise s .plteTooLong p)) ∧
      (s.parse.seenPlte = false → ¬lenBad → len / 3 ≤ 2 ^ s.hdr.depth →
        ∃ t, exec .plte s = .next t ∧
          t = { s with
            tabs := { s.tabs with pal := t.tabs.pal, plteN := len / 3 }
            parse := { s.parse with seenPlte := true, nchunks := s.parse.nchunks + 1 }
            regs := { s.regs with hasPlte := true, plteEntries := BitVec.ofNat 9 (len / 3) }
            point := .chunkFrame } ∧
          (∀ i, i < len / 3 → tableGet t.tabs.pal i
            = some ⟨dataByte s (3 * i), dataByte s (3 * i + 1), dataByte s (3 * i + 2)⟩) ∧
          (∀ i, len / 3 ≤ i → tableGet t.tabs.pal i = tableGet s.tabs.pal i)))

/-- O25. For a well-formed tRNS in its place (ctype 0, 2 or 3) and a well-formed gAMA in its place: the key at its
full 16 bits, or ALPHA and trns_n, and TRNS_KEY0, TRNS_KEY1, HAS_TRNS, or GAMMA and HAS_GAMA, are written; the seen
flag is set, the chunk counted, and nothing else changes. (43_header_interpreter.md, 10_state.md.) -/
def Obligations.TrnsAndGamaAccepted : Prop :=
  ∀ s : State, s.parse.nchunks ≠ 0 → s.parse.idat = .none →
    let be16 := fun k => dataByte s k ++ dataByte s (k + 1)
    (s.hdr.ctype = 0 → s.parse.seenTrns = false → s.parse.chunk.len = 2 →
      exec .trns s = .next
        { s with
          tabs := { s.tabs with key0 := be16 0, key1 := 0#16, key2 := 0#16, keyPresent := true }
          regs := { s.regs with
            hasTrns := true, trnsKey0 := be16 0, trnsKey1 := 0#16, trnsKey2 := 0#16, trnsEntries := 0#9 }
          parse := { s.parse with seenTrns := true, nchunks := s.parse.nchunks + 1 }
          point := .chunkFrame }) ∧
    (s.hdr.ctype = 2 → s.parse.seenTrns = false → s.parse.chunk.len = 6 →
      exec .trns s = .next
        { s with
          tabs := { s.tabs with key0 := be16 0, key1 := be16 2, key2 := be16 4, keyPresent := true }
          regs := { s.regs with
            hasTrns := true, trnsKey0 := be16 0, trnsKey1 := be16 2, trnsKey2 := be16 4, trnsEntries := 0#9 }
          parse := { s.parse with seenTrns := true, nchunks := s.parse.nchunks + 1 }
          point := .chunkFrame }) ∧
    (s.hdr.ctype = 3 → s.parse.seenPlte = true → s.parse.seenTrns = false → s.parse.chunk.len ≤ s.tabs.plteN →
      ∃ t, exec .trns s = .next t ∧
        t = { s with
          tabs := { s.tabs with alpha := t.tabs.alpha, trnsN := s.parse.chunk.len }
          regs := { s.regs with
            hasTrns := true, trnsKey0 := 0#16, trnsKey1 := 0#16, trnsKey2 := 0#16
            trnsEntries := BitVec.ofNat 9 s.parse.chunk.len }
          parse := { s.parse with seenTrns := true, nchunks := s.parse.nchunks + 1 }
          point := .chunkFrame } ∧
        (∀ i, i < s.parse.chunk.len → tableGet t.tabs.alpha i = some (dataByte s i)) ∧
        (∀ i, s.parse.chunk.len ≤ i → tableGet t.tabs.alpha i = tableGet s.tabs.alpha i)) ∧
    (s.parse.seenPlte = false → s.parse.seenGama = false → s.parse.chunk.len = 4 →
      exec .gama s = .next
        { s with
          regs := { s.regs with
            gamma := be32 (dataByte s 0) (dataByte s 1) (dataByte s 2) (dataByte s 3), hasGama := true }
          parse := { s.parse with seenGama := true, nchunks := s.parse.nchunks + 1 }
          point := .chunkFrame })

/-- O26. For tRNS and gAMA after the first chunk, with the first failing check in the order of their rules: with
STRICT = 1 its code is raised at the chunk start; with STRICT = 0 the chunk is skipped (counted, an IDAT run ended,
nothing else changed). (R271.) -/
def Obligations.AncillaryIllFormed : Prop :=
  ∀ s : State, s.parse.nchunks ≠ 0 →
    let runEnded := if s.parse.idat = .inRun then .ended else s.parse.idat
    let len := s.parse.chunk.len
    let bad := fun (i : Instr) (d : Detail) =>
      (s.lat.strict = true →
        exec i s = .next (raise { s with parse := { s.parse with idat := runEnded } } d s.parse.chunk.p)) ∧
      (s.lat.strict = false →
        exec i s = .next
          { s with
            parse := { s.parse with nchunks := s.parse.nchunks + 1, idat := runEnded }
            point := .chunkFrame })
    let lenBad := (s.hdr.ctype = 0 ∧ len ≠ 2) ∨ (s.hdr.ctype = 2 ∧ len ≠ 6) ∨ (s.hdr.ctype = 3 ∧ s.tabs.plteN < len)
    let trnsPlace := s.parse.idat = .none ∧ (s.hdr.ctype = 3 → s.parse.seenPlte = true)
    let gamaPlace := s.parse.idat = .none ∧ s.parse.seenPlte = false
    (¬trnsPlace → bad .trns .ancMisplaced) ∧
    (trnsPlace → s.parse.seenTrns = true → bad .trns .ancDuplicate) ∧
    (trnsPlace → s.parse.seenTrns = false → (s.hdr.ctype = 4 ∨ s.hdr.ctype = 6) → bad .trns .trnsNotAllowed) ∧
    (trnsPlace → s.parse.seenTrns = false → lenBad → bad .trns .trnsLength) ∧
    (¬gamaPlace → bad .gama .ancMisplaced) ∧
    (gamaPlace → s.parse.seenGama = true → bad .gama .ancDuplicate) ∧
    (gamaPlace → s.parse.seenGama = false → len ≠ 4 → bad .gama .gamaLength)

/-- O27. After the first chunk, IDAT raises IDAT_NOT_CONTIGUOUS after an ended run and MISSING_PLTE at the first IDAT
of an indexed image without palette, else it appends its data to C and the run goes on; IEND raises IEND_LENGTH when
its length is not 0, then MISSING_IDAT without an IDAT, else Parse ends with PHASE 2 and the zlib header next; nothing
else changes. (R286, R287, R288.) -/
def Obligations.IdatAndIend : Prop :=
  ∀ s : State, s.parse.nchunks ≠ 0 →
    let p := s.parse.chunk.p
    let appended :=
      { s with
        c := s.c ++ (List.range s.parse.chunk.len).map (fun k => inByte s (p + 8 + k))
        parse := { s.parse with idat := .inRun, nchunks := s.parse.nchunks + 1 }
        point := .chunkFrame }
    let runEnded := if s.parse.idat = .inRun then .ended else s.parse.idat
    let noPalette := s.hdr.ctype = 3 ∧ s.parse.seenPlte = false
    let out := { s with parse := { s.parse with idat := runEnded } }
    (s.parse.idat = .ended → exec .idat s = .next (raise s .idatNotContiguous p)) ∧
    (s.parse.idat = .none → noPalette → exec .idat s = .next (raise s .missingPlte p)) ∧
    (s.parse.idat = .none → ¬noPalette → exec .idat s = .next appended) ∧
    (s.parse.idat = .inRun → exec .idat s = .next appended) ∧
    (s.parse.chunk.len ≠ 0 → exec .iend s = .next (raise out .iendLength p)) ∧
    (s.parse.chunk.len = 0 → s.parse.idat = .none → exec .iend s = .next (raise out .missingIdat p)) ∧
    (s.parse.chunk.len = 0 → s.parse.idat ≠ .none →
      exec .iend s = .next
        { s with
          parse := { s.parse with idat := runEnded, nchunks := s.parse.nchunks + 1 }
          regs := { s.regs with phase := 2#3 }
          point := .zlibHeader })

/-- O28. At the zlib header, fewer than two bytes of C raise Z_TRUNCATED at clen; else CMF and FLG are the first two
bytes and the first failing check is raised at 0; else the bit cursor is 16 and a block header is next; FLEVEL and
CINFO up to 7 have no effect; nothing else changes. (R325, R326.) -/
def Obligations.ZlibHeaderChecked : Prop :=
  ∀ s : State,
    (EngineTurn s → s.point = .zlibHeader → s.c.length < 2 → step s = .next (raise s .zTruncated s.c.length)) ∧
    (EngineTurn s → s.point = .zlibHeader → ∀ cmf flg r, s.c = cmf :: flg :: r → step s = exec (.zhdr cmf flg) s) ∧
    (∀ cmf flg : Byte,
      let badCm := cmf.toNat % 16 ≠ 8
      let badCinfo := 7 < cmf.toNat / 16
      let badFcheck := (cmf.toNat * 256 + flg.toNat) % 31 ≠ 0
      (badCm → exec (.zhdr cmf flg) s = .next (raise s .zBadCm 0)) ∧
      (¬badCm → badCinfo → exec (.zhdr cmf flg) s = .next (raise s .zBadCinfo 0)) ∧
      (¬badCm → ¬badCinfo → badFcheck → exec (.zhdr cmf flg) s = .next (raise s .zBadFcheck 0)) ∧
      (¬badCm → ¬badCinfo → ¬badFcheck → flg.getLsbD 5 = true → exec (.zhdr cmf flg) s = .next (raise s .zFdict 0)) ∧
      (¬badCm → ¬badCinfo → ¬badFcheck → flg.getLsbD 5 = false →
        exec (.zhdr cmf flg) s = .next { s with infl := { s.infl with bp := 16 }, point := .blockHeader }))

/-- O29. Emitting a list bs of at most 32768 bytes from counter n: n grows by its length, raw byte n + k is bs[k],
every other address keeps its byte, WIN holds bs[k] at (n + k) mod 32768 and keeps every other entry, and s1, s2
advance byte by byte modulo 65521, which from 1 and 0 gives s1 = 1 + sum and s2 = the sum of the s1 values. (R363,
R371.) -/
def Obligations.EmitAppendsRawBytes : Prop :=
  ∀ (bs : List Byte) (s : State), bs.length ≤ 32768 →
    let t := bs.foldl emit s
    t = { s with mem := t.mem, out := t.out } ∧ t.out.n = s.out.n + bs.length ∧
    (∀ k, k < bs.length → rawByte t (s.out.n + k) = bs.getD k 0#8) ∧
    (∀ a, (∀ k, k < bs.length → a ≠ (s.lat.scrBase.toNat + s.out.n + k) % 2 ^ 32) → memAt t a = memAt s a) ∧
    (∀ k, k < bs.length → tableGet t.out.win ((s.out.n + k) % 32768) = some (bs.getD k 0#8)) ∧
    (∀ j, (∀ k, k < bs.length → j ≠ (s.out.n + k) % 32768) → tableGet t.out.win j = tableGet s.out.win j) ∧
    (s.out.s1 < 65521 → s.out.s2 < 65521 →
      t.out.s1 = (s.out.s1 + (bs.map BitVec.toNat).sum) % 65521 ∧
      t.out.s2 = (s.out.s2 + ((List.range bs.length).map fun k =>
        (s.out.s1 + ((bs.take (k + 1)).map BitVec.toNat).sum) % 65521).sum) % 65521)

/-- O30. BLOCK_STORED with the cursor in byte q after alignment: four bytes missing raise Z_TRUNCATED; NLEN other than
LEN XOR 0xFFFF raises D_STORED_NLEN at q; LEN beyond RAWLEN - n raises D_OUTPUT_OVERFLOW at q; data running out raises
Z_TRUNCATED after the bytes before it are emitted; else LEN bytes of C are emitted, the cursor after them, and a block
header is next, or after the final block the trailer, or D_OUTPUT_SHORT when n is still below RAWLEN. Of the bit
cursor after a raise before the data nothing is said. (R330.) -/
def Obligations.StoredBlockCopied : Prop :=
  ∀ (fin : Bool) (s : State),
    let q := (s.infl.bp + 7) / 8
    let byte := fun k => s.c.getD k 0#8
    let len := (byte q).toNat + 256 * (byte (q + 1)).toNat
    let nlen := (byte (q + 2)).toNat + 256 * (byte (q + 3)).toNat
    let s1 := { s with infl := { s.infl with bfinal := fin, btype := 0#2 } }
    let emitted := fun m =>
      let u := ((List.range m).map fun k => byte (q + 4 + k)).foldl emit s1
      { u with infl := { s1.infl with bp := 8 * (q + 4 + m) } }
    (s.c.length < q + 4 → RaisesIn (exec (.blockStored fin) s) s1 .zTruncated s.c.length) ∧
    (q + 4 ≤ s.c.length →
      (nlen ≠ len ^^^ 0xFFFF → RaisesIn (exec (.blockStored fin) s) s1 .dStoredNlen q) ∧
      (nlen = len ^^^ 0xFFFF → rawLength s.hdr < s.out.n + len →
        RaisesIn (exec (.blockStored fin) s) s1 .dOutputOverflow q) ∧
      (nlen = len ^^^ 0xFFFF → s.out.n + len ≤ rawLength s.hdr →
        (s.c.length < q + 4 + len →
          exec (.blockStored fin) s = .next (raise (emitted (s.c.length - (q + 4))) .zTruncated s.c.length)) ∧
        (q + 4 + len ≤ s.c.length →
          (fin = false → exec (.blockStored fin) s = .next { emitted len with point := .blockHeader }) ∧
          (fin = true → s.out.n + len = rawLength s.hdr →
            exec (.blockStored fin) s = .next { emitted len with point := .adler }) ∧
          (fin = true → s.out.n + len < rawLength s.hdr →
            exec (.blockStored fin) s = .next (raise (emitted len) .dOutputShort (q + 4 + len))))))

/-- O31. BLOCK_FIXED answers the state with the codes of the fixed lengths and a symbol next. BLOCK_DYNAMIC: bits
running out raise Z_TRUNCATED, HLIT or HDIST above 29 raises D_TOO_MANY_SYMBOLS, a code-length code that is not
complete raises D_BAD_CLEN_CODE, both at bstart div 8; else the symbols of nl = HLIT + 257 and nd = HDIST + 1 lengths
are next, with CLL read 3 bits each in ORDER. That the bit cursor and CLL, after one of these raises, stand as the
element found them, though header bits were read (44_inflate.md R340), is the model's choice (log entry 1).
(44_inflate.md, 30_encoding.md.) -/
def Obligations.HuffmanBlocksBegin : Prop :=
  ∀ (fin : Bool) (s : State),
    (exec (.blockFixed fin) s = .next
      { s with
        infl := { s.infl with
          bfinal := fin, btype := 1#2
          ll := List.replicate 144 8 ++ List.replicate 112 9 ++ List.replicate 24 7 ++ List.replicate 8 8
          dl := List.replicate 32 5
          llCode := buildCode
            (List.replicate 144 8 ++ List.replicate 112 9 ++ List.replicate 24 7 ++ List.replicate 8 8)
          dCode := buildCode (List.replicate 32 5) }
        point := .litLen }) ∧
    (let bp := s.infl.bp
     let hlit := bitsValue s.c bp 5
     let hdist := bitsValue s.c (bp + 5) 5
     let k := bitsValue s.c (bp + 10) 4 + 4
     let order := [16, 17, 18, 0, 8, 7, 9, 6, 10, 5, 11, 4, 12, 3, 13, 2, 14, 1, 15]
     let s1 := { s with infl := { s.infl with bfinal := fin, btype := 2#2 } }
     (8 * s.c.length < bp + 14 → exec (.blockDynamic fin) s = .next (raise s1 .zTruncated s.c.length)) ∧
     (bp + 14 ≤ 8 * s.c.length →
       (29 < hlit ∨ 29 < hdist →
         exec (.blockDynamic fin) s = .next (raise s1 .dTooManySymbols (s.infl.bstart / 8))) ∧
       (hlit ≤ 29 → hdist ≤ 29 →
         (8 * s.c.length < bp + 14 + 3 * k →
           exec (.blockDynamic fin) s = .next (raise s1 .zTruncated s.c.length)) ∧
         (bp + 14 + 3 * k ≤ 8 * s.c.length → ∀ cll : List Nat, cll.length = 19 →
           (∀ i, i < 19 → cll.getD (order.getD i 0) 0 = if i < k then bitsValue s.c (bp + 14 + 3 * i) 3 else 0) →
           (kraft cll ≠ 32768 →
             exec (.blockDynamic fin) s = .next (raise s1 .dBadClenCode (s.infl.bstart / 8))) ∧
           (kraft cll = 32768 →
             exec (.blockDynamic fin) s = .next
               { s1 with
                 infl := { s1.infl with
                   bp := bp + 14 + 3 * k, cll := cll, clCode := buildCode cll, lens := []
                   nl := hlit + 257, nd := hdist + 1 }
                 point := .clSymbol })))))

/-- O32. With total = nl + nd lengths wanted: symbols 0..15 append that length; 16 appends the last length 3 + e times
(e of 2 bits), raising D_REPEAT_NO_PREV on an empty list and D_REPEAT_OVERFLOW past total; 17 and 18 append 3 + e (3
bits) or 11 + e (7 bits) zeros, raising D_REPEAT_OVERFLOW past total; all at c0 div 8; missing extra bits raise
Z_TRUNCATED; when fewer than total lengths stand, the next symbol follows, else the header is finished
(DynamicHeaderFinished). Of the bit cursor after D_REPEAT_NO_PREV and D_REPEAT_OVERFLOW nothing is said. (R343, R344,
R345, R346.) -/
def Obligations.CodeLengthSymbols : Prop :=
  ∀ s : State,
    let total := s.infl.nl + s.infl.nd
    let have' := s.infl.lens.length
    let grown := fun bp (xs : List Nat) => { s with infl := { s.infl with bp := bp, lens := s.infl.lens ++ xs } }
    let after := fun (i : Instr) bp (xs : List Nat) =>
      (have' + xs.length < total → exec i s = .next { grown bp xs with point := .clSymbol }) ∧
      (total ≤ have' + xs.length → exec i s = (finishDynamic (grown bp xs)).result)
    let off := s.infl.symStart / 8
    (∀ l : BitVec 4, after (.clLen l) s.infl.bp [l.toNat]) ∧
    (∀ row ∈ [(Instr.clRepeatPrev, 3, 2), (Instr.clZeroShort, 3, 3), (Instr.clZeroLong, 11, 7)],
      let e := bitsValue s.c s.infl.bp row.2.2
      let r := row.2.1 + e
      (8 * s.c.length < s.infl.bp + row.2.2 → exec row.1 s = .next (raise s .zTruncated s.c.length)) ∧
      (s.infl.bp + row.2.2 ≤ 8 * s.c.length →
        (row.1 = .clRepeatPrev → s.infl.lens = [] → RaisesIn (exec row.1 s) s .dRepeatNoPrev off) ∧
        (row.1 = .clRepeatPrev → s.infl.lens ≠ [] → total < have' + r →
          RaisesIn (exec row.1 s) s .dRepeatOverflow off) ∧
        (row.1 ≠ .clRepeatPrev → total < have' + r → RaisesIn (exec row.1 s) s .dRepeatOverflow off) ∧
        (row.1 = .clRepeatPrev → ∀ v, s.infl.lens.getLast? = some v → have' + r ≤ total →
          after row.1 (s.infl.bp + row.2.2) (List.replicate r v)) ∧
        (row.1 ≠ .clRepeatPrev → have' + r ≤ total →
          after row.1 (s.infl.bp + row.2.2) (List.replicate r 0))))

/-- O33. With nl <= 288 and nd <= 32 the finished header takes LL[0..nl) from LENS and zeros up to 288, DL[0..nd) from
the rest and zeros up to 32; LL[256] = 0 raises D_NO_EOB, LL neither complete nor single D_BAD_LITLEN_CODE, DL neither
complete, single nor empty D_BAD_DIST_CODE, all at bstart div 8; else both codes are built and a symbol is next. It is
reached through the last code-length symbol (CodeLengthSymbols). (R348.) -/
def Obligations.DynamicHeaderFinished : Prop :=
  ∀ s : State, s.infl.nl ≤ 288 → s.infl.nd ≤ 32 → s.infl.lens.length = s.infl.nl + s.infl.nd →
    ∃ ll dl : List Nat, ll.length = 288 ∧ dl.length = 32 ∧
      (∀ i, ll.getD i 0 = if i < s.infl.nl then s.infl.lens.getD i 0 else 0) ∧
      (∀ i, dl.getD i 0 = if i < s.infl.nd then s.infl.lens.getD (s.infl.nl + i) 0 else 0) ∧
      (let single := fun xs : List Nat => ∃ i, i < xs.length ∧ xs.getD i 0 = 1 ∧ ∀ j, j ≠ i → xs.getD j 0 = 0
       let t := { s with infl := { s.infl with ll := ll, dl := dl } }
       let off := s.infl.bstart / 8
       let llBad := kraft ll ≠ 2 ^ 15 ∧ ¬single ll
       let dlBad := kraft dl ≠ 2 ^ 15 ∧ ¬single dl ∧ ∃ i, dl.getD i 0 ≠ 0
       (ll.getD 256 0 = 0 → finishDynamic s = .stop t ⟨.dNoEob, off⟩) ∧
       (ll.getD 256 0 ≠ 0 → llBad → finishDynamic s = .stop t ⟨.dBadLitlenCode, off⟩) ∧
       (ll.getD 256 0 ≠ 0 → ¬llBad → dlBad → finishDynamic s = .stop t ⟨.dBadDistCode, off⟩) ∧
       (ll.getD 256 0 ≠ 0 → ¬llBad → ¬dlBad →
         finishDynamic s = .go
           { s with
             infl := { s.infl with ll := ll, dl := dl, llCode := buildCode ll, dCode := buildCode dl }
             point := .litLen }))

/-- O34. LIT raises D_OUTPUT_OVERFLOW at s0 div 8 when n = RAWLEN or more, else writes its byte as raw byte n, to WIN
and to the checksum, and a symbol is next. EOB of a non-final block makes a block header next; of the final block it
raises D_OUTPUT_SHORT at ceil_div(bp, 8) when n < RAWLEN, else the trailer is next; nothing else changes.
(44_inflate.md.) -/
def Obligations.LiteralAndEndOfBlock : Prop :=
  ∀ s : State,
    (∀ b : Byte,
      (rawLength s.hdr ≤ s.out.n → exec (.lit b) s = .next (raise s .dOutputOverflow (s.infl.symStart / 8))) ∧
      (s.out.n < rawLength s.hdr → exec (.lit b) s = .next
        { s with
          mem := tablePut s.mem ((s.lat.scrBase.toNat + s.out.n) % 2 ^ 32) b
          out :=
            { win := tablePut s.out.win (s.out.n % 32768) b, n := s.out.n + 1
              s1 := (s.out.s1 + b.toNat) % 65521
              s2 := (s.out.s2 + (s.out.s1 + b.toNat) % 65521) % 65521 }
          point := .litLen })) ∧
    (s.infl.bfinal = false → exec .eob s = .next { s with point := .blockHeader }) ∧
    (s.infl.bfinal = true → s.out.n < rawLength s.hdr →
      exec .eob s = .next (raise s .dOutputShort ((s.infl.bp + 7) / 8))) ∧
    (s.infl.bfinal = true → rawLength s.hdr ≤ s.out.n → exec .eob s = .next { s with point := .adler })

/-- O35. For every row (symbol, base, extra bits) of the length table: if the extra bits run out, Z_TRUNCATED at clen
is raised; else the state has mlen = base + their value (3 to 258), the symbol's start kept as s0, the cursor after
the bits, and a distance symbol next; nothing else changes. (44_inflate.md, 30_encoding.md.) -/
def Obligations.LengthSymbolsRead : Prop :=
  ∀ row ∈ ([
      (.len257, 3, 0), (.len258, 4, 0), (.len259, 5, 0), (.len260, 6, 0), (.len261, 7, 0), (.len262, 8,
      0), (.len263, 9, 0), (.len264, 10, 0), (.len265, 11, 1), (.len266, 13, 1), (.len267, 15, 1),
      (.len268, 17, 1), (.len269, 19, 2), (.len270, 23, 2), (.len271, 27, 2), (.len272, 31, 2), (.len273,
      35, 3), (.len274, 43, 3), (.len275, 51, 3), (.len276, 59, 3), (.len277, 67, 4), (.len278, 83, 4),
      (.len279, 99, 4), (.len280, 115, 4), (.len281, 131, 5), (.len282, 163, 5), (.len283, 195, 5),
      (.len284, 227, 5), (.len285, 258, 0)] : List (Instr × Nat × Nat)),
    ∀ s : State,
      (8 * s.c.length < s.infl.bp + row.2.2 → exec row.1 s = .next (raise s .zTruncated s.c.length)) ∧
      (s.infl.bp + row.2.2 ≤ 8 * s.c.length →
        3 ≤ row.2.1 + bitsValue s.c s.infl.bp row.2.2 ∧ row.2.1 + bitsValue s.c s.infl.bp row.2.2 ≤ 258 ∧
        exec row.1 s = .next
          { s with
            infl := { s.infl with
              bp := s.infl.bp + row.2.2, mlen := row.2.1 + bitsValue s.c s.infl.bp row.2.2
              lenStart := s.infl.symStart }
            point := .distance })

/-- O36. For every row (symbol, base, extra bits) of the distance table, with dist = base + extra (1 to 32768):
missing bits raise Z_TRUNCATED at clen; dist > n raises D_DIST_TOO_FAR, else mlen > RAWLEN - n raises
D_OUTPUT_OVERFLOW, both at the length symbol's start; else mlen bytes are emitted one by one, each from WIN[(n - dist)
mod 32768] as it then stands, and a symbol is next; nothing else changes. That the bit cursor, after D_DIST_TOO_FAR
and D_OUTPUT_OVERFLOW, stands before the extra bits, though R352 reads them first, is the model's choice (log entry
1). (44_inflate.md, 30_encoding.md.) -/
def Obligations.DistanceSymbolsCopy : Prop :=
  ∀ row ∈ ([
      (.dist0, 1, 0), (.dist1, 2, 0), (.dist2, 3, 0), (.dist3, 4, 0), (.dist4, 5, 1), (.dist5, 7, 1),
      (.dist6, 9, 2), (.dist7, 13, 2), (.dist8, 17, 3), (.dist9, 25, 3), (.dist10, 33, 4), (.dist11, 49,
      4), (.dist12, 65, 5), (.dist13, 97, 5), (.dist14, 129, 6), (.dist15, 193, 6), (.dist16, 257, 7),
      (.dist17, 385, 7), (.dist18, 513, 8), (.dist19, 769, 8), (.dist20, 1025, 9), (.dist21, 1537, 9),
      (.dist22, 2049, 10), (.dist23, 3073, 10), (.dist24, 4097, 11), (.dist25, 6145, 11), (.dist26, 8193,
      12), (.dist27, 12289, 12), (.dist28, 16385, 13), (.dist29, 24577, 13)] : List (Instr × Nat × Nat)),
    ∀ s : State,
      let dist := row.2.1 + bitsValue s.c s.infl.bp row.2.2
      let read := { s with infl := { s.infl with bp := s.infl.bp + row.2.2 } }
      (8 * s.c.length < s.infl.bp + row.2.2 → exec row.1 s = .next (raise s .zTruncated s.c.length)) ∧
      (s.infl.bp + row.2.2 ≤ 8 * s.c.length →
        1 ≤ dist ∧ dist ≤ 32768 ∧
        (s.out.n < dist → exec row.1 s = .next (raise s .dDistTooFar (s.infl.lenStart / 8))) ∧
        (dist ≤ s.out.n → rawLength s.hdr < s.out.n + s.infl.mlen →
          exec row.1 s = .next (raise s .dOutputOverflow (s.infl.lenStart / 8))) ∧
        (dist ≤ s.out.n → s.out.n + s.infl.mlen ≤ rawLength s.hdr →
          exec row.1 s = .next
            { (fun u => emit u (winByte u ((u.out.n - dist) % 32768)))^[s.infl.mlen] read with point := .litLen }))

/-- O37. Where WIN holds the last 32768 raw bytes (WindowHolds, an invariant stated on its own), copying mlen bytes at
distance dist (1 <= dist <= n, dist <= 32768, n + mlen up to 2^32) gives n + mlen bytes whose byte n + k equals byte n
+ k - dist for every k < mlen, keeps the bytes before n, changes no other address, and WIN again holds the last 32768
bytes. (R357, R361.) -/
def Obligations.MatchRepeatsEarlierBytes : Prop :=
  ∀ (s : State) (dist mlen : Nat), s.regs.busy = true → s.point.inflating = true → WindowHolds s →
    1 ≤ dist → dist ≤ s.out.n → dist ≤ 32768 → s.out.n + mlen ≤ 2 ^ 32 →
    let t := copyMatch dist mlen s
    t = { s with mem := t.mem, out := t.out } ∧ t.out.n = s.out.n + mlen ∧
    (∀ k, k < mlen → rawByte t (s.out.n + k) = rawByte t (s.out.n + k - dist)) ∧
    (∀ k, k < s.out.n → rawByte t k = rawByte s k) ∧
    (∀ a, (∀ k, k < mlen → a ≠ (s.lat.scrBase.toNat + s.out.n + k) % 2 ^ 32) → memAt t a = memAt s a) ∧
    WindowHolds t

/-- O38. BTYPE 3 raises D_BAD_BTYPE at bstart div 8; literal/length 286, 287 and distance 30, 31 raise
D_INVALID_SYMBOL at the start of their code word div 8; a filter byte 5..255 raises BAD_FILTER_TYPE at its raw-stream
index; an illegal pixel mode raises BAD_DEPTH_COLOR at the chunk start (that it does so as an element of its own is
the model's reading, log entry 14). (44_inflate.md, 45_defilter.md, 43_header_interpreter.md.) -/
def Obligations.InvalidElementsRaise : Prop :=
  ∀ s : State,
    (∀ fin, exec (.blockReserved fin) s = .next
      (raise { s with infl := { s.infl with bfinal := fin, btype := 3#2 } } .dBadBtype (s.infl.bstart / 8))) ∧
    (∀ sym, (Instr.litlenInvalid sym).wf = true →
      exec (.litlenInvalid sym) s = .next (raise s .dInvalidSymbol (s.infl.symStart / 8))) ∧
    (∀ sym, (Instr.distInvalid sym).wf = true →
      exec (.distInvalid sym) s = .next (raise s .dInvalidSymbol (s.infl.symStart / 8))) ∧
    (∀ b, (Instr.filtInvalid b).wf = true → exec (.filtInvalid b) s = .next (raise s .badFilterType s.defl.off)) ∧
    (∀ v, (Instr.modeIllegal v).wf = true → exec (.modeIllegal v) s = .next (raise s .badDepthColor s.parse.chunk.p))

/-- O39. At the trailer the cursor moves to byte q; fewer than four bytes left raise Z_TRUNCATED at clen whatever
VALIDATE is; else A is the big-endian word at q; with VALIDATE = 1 and A other than s2 * 65536 + s1, ADLER raises
Z_ADLER_MISMATCH at q; else PHASE becomes 3 and the first scanline of the first non-empty pass is next; nothing else
changes. Of the bit cursor after Z_TRUNCATED nothing is said. (R370.) -/
def Obligations.AdlerTrailerChecked : Prop :=
  ∀ s : State,
    let q := (s.infl.bp + 7) / 8
    (EngineTurn s → s.point = .adler →
      (s.c.length < q + 4 → RaisesIn (step s) s .zTruncated s.c.length) ∧
      (q + 4 ≤ s.c.length → ∃ a : Word,
        a.toNat = (s.c.getD q 0#8).toNat * 2 ^ 24 + (s.c.getD (q + 1) 0#8).toNat * 2 ^ 16
          + (s.c.getD (q + 2) 0#8).toNat * 2 ^ 8 + (s.c.getD (q + 3) 0#8).toNat ∧
        step s = exec (.adler a) { s with infl := { s.infl with bp := 8 * q } })) ∧
    (∀ a : Word,
      (s.lat.validate = true → a.toNat ≠ s.out.s2 * 65536 + s.out.s1 →
        exec (.adler a) s = .next (raise s .zAdlerMismatch (s.infl.bp / 8))) ∧
      (s.lat.validate = false ∨ a.toNat = s.out.s2 * 65536 + s.out.s1 → ∀ p, nextPass s.hdr 0 = some p →
        exec (.adler a) s = .next
          { s with
            regs := { s.regs with phase := 3#3 }
            defl := { pass := p, row := 0, off := 0, prev := none }
            point := .scanline }))

/-- O40. For every list of code lengths up to 15, every code word (symbol, length, value < 2^length) that BuildCode
gives, and every bit position of C where the bits of the value stand most significant bit first, DecodeSym answers
that symbol with the cursor after the word; where C ends after a proper prefix of a code word it answers truncated;
where, after some number of bits of C, no code word agrees with the bits read so far, it answers invalid, so for a 1
bit under a single code and, with no bit read, under an empty one; and the codes of the fixed lengths are the code
words of 30_encoding.md R139. (44_inflate.md.) -/
def Obligations.CanonicalCodeDecodes : Prop :=
  (∀ (lens : List Nat) (c : List Byte) (bp : Nat) (w : CodeWord), (∀ l ∈ lens, l ≤ 15) → w ∈ buildCode lens →
    w.code < 2 ^ w.len → bp + w.len ≤ 8 * c.length →
    (∀ j, j < w.len → cBit c (bp + j) = w.code.testBit (w.len - 1 - j)) →
    decodeSym (buildCode lens) c bp = .sym w.sym (bp + w.len)) ∧
  (∀ (lens : List Nat) (c : List Byte) (bp k : Nat) (w : CodeWord), (∀ l ∈ lens, l ≤ 15) → w ∈ buildCode lens →
    w.code < 2 ^ w.len → k < w.len → bp + k = 8 * c.length →
    (∀ j, j < k → cBit c (bp + j) = w.code.testBit (w.len - 1 - j)) →
    decodeSym (buildCode lens) c bp = .truncated) ∧
  (∀ (lens : List Nat) (c : List Byte) (bp k : Nat), (∀ l ∈ lens, l ≤ 15) → bp + k ≤ 8 * c.length →
    (∀ w ∈ buildCode lens, ∃ j, j < k ∧ j < w.len ∧ cBit c (bp + j) ≠ w.code.testBit (w.len - 1 - j)) →
    decodeSym (buildCode lens) c bp = .invalid) ∧
  (∀ (lens : List Nat) (c : List Byte) (bp i : Nat), lens.getD i 0 = 1 → (∀ j, j ≠ i → lens.getD j 0 = 0) →
    bp < 8 * c.length → cBit c bp = true → decodeSym (buildCode lens) c bp = .invalid) ∧
  (∀ (lens : List Nat) (c : List Byte) (bp : Nat), (∀ l ∈ lens, l = 0) → decodeSym (buildCode lens) c bp = .invalid) ∧
  (∀ sym, sym < 288 → (⟨sym, if sym < 144 then 8 else if sym < 256 then 9 else if sym < 280 then 7 else 8,
    if sym < 144 then 0x30 + sym else if sym < 256 then 0x190 + (sym - 144)
      else if sym < 280 then sym - 256 else 0xC0 + (sym - 280)⟩ : CodeWord) ∈ buildCode fixedLitLens) ∧
  (∀ sym, sym < 32 → (⟨sym, 5, sym⟩ : CodeWord) ∈ buildCode fixedDistLens)

/-- O41. For a scanline inside the address space whose previous row (if any) lies before it: after FILT_NONE, SUB, UP,
AVERAGE or PAETH, byte i of the row is Recon(Filt(i), a, b, c) with a, b, c the reconstructed neighbours at stride bpp
(0 outside the row or above the first row of a pass), no byte of memory outside the scanline changes, and the cursors
are those of the next row; nothing else changes. Of the scanline's filter-type byte afterwards nothing is said: R401
leaves it unspecified. (R403, R404, R405, R406, R407.) -/
def Obligations.FilterRowsReconstructed : Prop :=
  ∀ row ∈ ([(.filtNone, fun f _ _ _ => f),
      (.filtSub, fun f a _ _ => f + a),
      (.filtUp, fun f _ b _ => f + b),
      (.filtAverage, fun f a b _ => f + BitVec.ofNat 8 ((a.toNat + b.toNat) / 2)),
      (.filtPaeth, fun f a b c => f + paethPredictor a b c)] : List (Instr × (Byte → Byte → Byte → Byte → Byte))),
    ∀ s : State,
      let rb := rowBytes s.hdr (passWidth s.hdr s.defl.pass)
      let off := s.defl.off
      let bpp := filterStride s.hdr
      off + 1 + rb ≤ 2 ^ 32 → (∀ p, s.defl.prev = some p → p + 1 + rb ≤ off) →
      ∃ m : Memory,
        let t := { s with mem := m }
        exec row.1 s = .next (nextRow t) ∧
        (∀ i, i < rb → rawByte t (off + 1 + i) =
          row.2 (rawByte s (off + 1 + i))
            (if bpp ≤ i then rawByte t (off + 1 + i - bpp) else 0#8)
            (match s.defl.prev with | some p => rawByte t (p + 1 + i) | none => 0#8)
            (match s.defl.prev with | some p => if bpp ≤ i then rawByte t (p + 1 + i - bpp) else 0#8 | none => 0#8)) ∧
        (∀ a, (∀ i, i ≤ rb → a ≠ (s.lat.scrBase.toNat + (off + i)) % 2 ^ 32) → memAt t a = memAt s a)

/-- O42. PaethPredictor(a, b, c) is a if |pp - a| is least or tied, else b if |pp - b| is at most |pp - c|, else c,
with pp = a + b - c in integers. After a row, the next row of the pass follows with this row as the previous one;
after the last row of a pass the next non-empty pass begins with no previous row; after the last pass PHASE is 4 and
the first pixel of the first non-empty pass is next. (R408, R410.) -/
def Obligations.PaethAndRowOrder : Prop :=
  (∀ a b c : Byte,
    let pp : Int := (a.toNat : Int) + b.toNat - c.toNat
    let pa := |pp - a.toNat|
    let pb := |pp - b.toNat|
    let pc := |pp - c.toNat|
    (pa ≤ pb → pa ≤ pc → paethPredictor a b c = a) ∧
    (¬(pa ≤ pb ∧ pa ≤ pc) → pb ≤ pc → paethPredictor a b c = b) ∧
    (¬(pa ≤ pb ∧ pa ≤ pc) → pc < pb → paethPredictor a b c = c)) ∧
  (∀ s : State,
    let off := s.defl.off + 1 + rowBytes s.hdr (passWidth s.hdr s.defl.pass)
    let later := fun q p => q ∈ passNumbers s.hdr.interlace ∧ p ≤ q ∧ passEmpty s.hdr q = false
    let least := fun q p => later q p ∧ ∀ r, later r p → q ≤ r
    (s.defl.row + 1 < passHeight s.hdr s.defl.pass →
      nextRow s = { s with
        defl := { pass := s.defl.pass, row := s.defl.row + 1, off := off, prev := some s.defl.off }
        point := .scanline }) ∧
    (passHeight s.hdr s.defl.pass ≤ s.defl.row + 1 →
      (∀ q, least q (s.defl.pass + 1) →
        nextRow s = { s with defl := { pass := q, row := 0, off := off, prev := none }, point := .scanline }) ∧
      ((∀ q, ¬later q (s.defl.pass + 1)) → ∀ q, least q 0 → ∃ d,
        nextRow s = { s with
          regs := { s.regs with phase := 4#3 }
          defl := d
          exp := { pass := q, row := 0, col := 0, off := 0 }
          point := .pixel })))

/-- O43. For each of the five filter types, any stride and any row of original bytes: if the first row of a pass holds
Orig(i) minus the predictor over the original bytes (mod 256), then after the filter instruction it holds the original
bytes. (R411.) -/
def Obligations.FilterInversion : Prop :=
  ∀ row ∈ ([(.filtNone, fun _ => 0#8),
      (.filtSub, fun a => a),
      (.filtUp, fun _ => 0#8),
      (.filtAverage, fun a => BitVec.ofNat 8 (a.toNat / 2)),
      (.filtPaeth, fun a => paethPredictor a 0#8 0#8)] : List (Instr × (Byte → Byte))),
    ∀ (s : State) (orig : List Byte),
      orig.length = rowBytes s.hdr (passWidth s.hdr s.defl.pass) → s.defl.prev = none →
      s.defl.off + 1 + orig.length ≤ 2 ^ 32 →
      (∀ i, i < orig.length → rawByte s (s.defl.off + 1 + i) =
        orig.getD i 0#8 - row.2 (if filterStride s.hdr ≤ i then orig.getD (i - filterStride s.hdr) 0#8 else 0#8)) →
      ∃ t, exec row.1 s = .next t ∧ ∀ i, i < orig.length → rawByte t (s.defl.off + 1 + i) = orig.getD i 0#8

/-- O44. For each grey, truecolour and alpha mode, the pixel (R, G, B, A) is that of its rule, from the samples of
pixel x of the scanline whose first data byte is raw byte row, with sub-byte samples taken most significant bits
first; the instruction answers the state with that pixel put (PixelWritten says what that writes). (R445, R446, R447,
R448, R449, R450, R451, R456, R457, R458, R459.) -/
def Obligations.PixelModesExpand : Prop :=
  ∀ s : State,
    let x := s.exp.col
    let row := s.exp.off + 1 + s.exp.row * (1 + rowBytes s.hdr (passWidth s.hdr s.exp.pass))
    let byte := fun k => rawByte s (row + k)
    let wide := fun k => (byte k).toNat * 256 + (byte (k + 1)).toNat
    let sub := fun d => (byte (x * d / 8)).toNat / 2 ^ (8 - d - x * d % 8) % 2 ^ d
    let key := s.tabs.keyPresent = true
    let greyA := fun (v : Nat) => if key ∧ v = s.tabs.key0.toNat then 0x00#8 else 0xFF#8
    let rgbA := fun (r g b : Nat) =>
      if key ∧ r = s.tabs.key0.toNat ∧ g = s.tabs.key1.toNat ∧ b = s.tabs.key2.toNat then 0x00#8 else 0xFF#8
    let grey := fun (y : Byte) (v : Nat) => .next (putPixel ⟨y, y, y, greyA v⟩ s)
    exec .g1 s = grey (BitVec.ofNat 8 (sub 1 * 255)) (sub 1) ∧
    exec .g2 s = grey (BitVec.ofNat 8 (sub 2 * 85)) (sub 2) ∧
    exec .g4 s = grey (BitVec.ofNat 8 (sub 4 * 17)) (sub 4) ∧
    exec .g8 s = grey (byte x) (byte x).toNat ∧
    exec .g16 s = grey (byte (2 * x)) (wide (2 * x)) ∧
    exec .rgb8 s = .next (putPixel ⟨byte (x * 3), byte (x * 3 + 1), byte (x * 3 + 2),
      rgbA (byte (x * 3)).toNat (byte (x * 3 + 1)).toNat (byte (x * 3 + 2)).toNat⟩ s) ∧
    exec .rgb16 s = .next (putPixel ⟨byte (6 * x), byte (6 * x + 2), byte (6 * x + 4),
      rgbA (wide (6 * x)) (wide (6 * x + 2)) (wide (6 * x + 4))⟩ s) ∧
    exec .ga8 s = .next (putPixel ⟨byte (2 * x), byte (2 * x), byte (2 * x), byte (2 * x + 1)⟩ s) ∧
    exec .ga16 s = .next (putPixel ⟨byte (4 * x), byte (4 * x), byte (4 * x), byte (4 * x + 2)⟩ s) ∧
    exec .rgba8 s = .next (putPixel ⟨byte (4 * x), byte (4 * x + 1), byte (4 * x + 2), byte (4 * x + 3)⟩ s) ∧
    exec .rgba16 s = .next (putPixel ⟨byte (8 * x), byte (8 * x + 2), byte (8 * x + 4), byte (8 * x + 6)⟩ s)

/-- O45. For IDX1, IDX2, IDX4 and IDX8 with index i held in raw byte k: i >= plte_n raises PALETTE_INDEX at k; else
the pixel put is PAL[i] with A = ALPHA[i] if i < trns_n and 0xFF otherwise. (R437, R452, R453, R454, R455.) -/
def Obligations.PaletteModesExpand : Prop :=
  ∀ row ∈ ([(.idx1, 1), (.idx2, 2), (.idx4, 4), (.idx8, 8)] : List (Instr × Nat)), ∀ s : State,
    let first := s.exp.off + 1 + s.exp.row * (1 + rowBytes s.hdr (passWidth s.hdr s.exp.pass))
    let bit := s.exp.col * row.2
    let k := first + bit / 8
    let i := (rawByte s k).toNat / 2 ^ (8 - row.2 - bit % 8) % 2 ^ row.2
    let e := palEntry s i
    (s.tabs.plteN ≤ i → exec row.1 s = .next (raise s .paletteIndex k)) ∧
    (i < s.tabs.plteN → exec row.1 s = .next
      (putPixel ⟨e.r, e.g, e.b, if i < s.tabs.trnsN then alphaEntry s i else 0xFF#8⟩ s)) ∧
    (∀ v, tableGet s.tabs.pal i = some v → e = v) ∧ (∀ v, tableGet s.tabs.alpha i = some v → alphaEntry s i = v)

/-- O46. Putting a pixel at pass pixel (col, row) with X = c0 + col * dc, Y = r0 + row * dr writes its four bytes at
OUT_BASE + 4 * (Y * W + X) .. + 3 (addresses modulo 2^32) and no other byte; the next column, then row, then non-empty
pass follows (its offset the pass's bytes further), and after the last one the decode ends in success; nothing else
changes. (47_interlace.md, 20_memory.md.) -/
def Obligations.PixelWrittenInPlace : Prop :=
  ∀ (p : Rgba) (s : State),
    let g := passGrid s.exp.pass
    let X := g.c0 + s.exp.col * g.dc
    let Y := g.r0 + s.exp.row * g.dr
    let addr := fun k => (s.lat.outBase.toNat + 4 * (Y * s.hdr.width + X) + k) % 2 ^ 32
    let t := putPixel p s
    let later := fun q => q ∈ passNumbers s.hdr.interlace ∧ s.exp.pass < q ∧ passEmpty s.hdr q = false
    memAt t (addr 0) = some p.r ∧ memAt t (addr 1) = some p.g ∧ memAt t (addr 2) = some p.b ∧
    memAt t (addr 3) = some p.a ∧
    (∀ a, a ∉ [addr 0, addr 1, addr 2, addr 3] → memAt t a = memAt s a) ∧
    t = { s with mem := t.mem, exp := t.exp, point := t.point } ∧
    (s.exp.col + 1 < passWidth s.hdr s.exp.pass →
      t.point = .pixel ∧ t.exp = { s.exp with col := s.exp.col + 1 }) ∧
    (passWidth s.hdr s.exp.pass ≤ s.exp.col + 1 →
      (s.exp.row + 1 < passHeight s.hdr s.exp.pass →
        t.point = .pixel ∧ t.exp = { s.exp with row := s.exp.row + 1, col := 0 }) ∧
      (passHeight s.hdr s.exp.pass ≤ s.exp.row + 1 →
        (∀ q, later q → (∀ r, later r → q ≤ r) →
          t.point = .pixel ∧ t.exp = { pass := q, row := 0, col := 0, off := s.exp.off + passBytes s.hdr s.exp.pass }) ∧
        ((∀ q, ¬later q) → t.point = .completing .success)))

/-- O47. For every image and every pixel (X, Y) inside it there is exactly one pass p and pass pixel (x, y) inside the
pass that maps to it; interlaced, p is the entry of the tile at (X mod 8, Y mod 8), and x = (X - c0) div dc, y = (Y -
r0) div dr. (R475.) -/
def Obligations.EveryPixelInOnePass : Prop :=
  ∀ (h : Header) (X Y : Nat), X < h.width → Y < h.height →
    let inside := fun q : Nat × Nat × Nat =>
      q.1 ∈ passNumbers h.interlace ∧ q.2.1 < passWidth h q.1 ∧ q.2.2 < passHeight h q.1 ∧
      X = (passGrid q.1).c0 + q.2.1 * (passGrid q.1).dc ∧ Y = (passGrid q.1).r0 + q.2.2 * (passGrid q.1).dr
    (∃! q, inside q) ∧
    (h.interlace = true → ∀ q, inside q →
      q.1 = ([[1, 6, 4, 6, 2, 6, 4, 6], [7, 7, 7, 7, 7, 7, 7, 7], [5, 6, 5, 6, 5, 6, 5, 6], [7, 7, 7, 7, 7, 7, 7, 7],
        [3, 6, 4, 6, 3, 6, 4, 6], [7, 7, 7, 7, 7, 7, 7, 7], [5, 6, 5, 6, 5, 6, 5, 6],
        [7, 7, 7, 7, 7, 7, 7, 7]].getD (Y % 8) []).getD (X % 8) 0 ∧
      q.2.1 = (X - (passGrid q.1).c0) / (passGrid q.1).dc ∧ q.2.2 = (Y - (passGrid q.1).r0) / (passGrid q.1).dr)

/-- O48. For every register value c and byte b, one byte of the bit-serial CRC equals T[(c XOR b) AND 0xFF] XOR (c >>
8), where T[k] is eight bits of the inner loop from k; and the CRC-32 of "123456789" is 0xCBF43926. (41_crc32.md.) -/
def Obligations.CrcTableStep : Prop :=
  (∀ (c : Word) (b : Byte),
    crcUpdate c b = crcBits 8 ((c ^^^ b.setWidth 32) &&& 0xFF#32) ^^^ (c >>> 8)) ∧
  crc32 [0x31#8, 0x32#8, 0x33#8, 0x34#8, 0x35#8, 0x36#8, 0x37#8, 0x38#8, 0x39#8] = 0xCBF43926#32

/-- O49. StatusLegal, RegistersHeldInReset, LatchAgrees, MemoryCanonical, RegionsInside, CursorsInRange, WindowHolds,
AdlerHolds, PassCursors and CodesInAlphabet hold at State.reset. (70_reset_and_hazards.md, 10_state.md.) -/
def Obligations.InvariantsHoldAtReset : Prop :=
  StatusLegal State.reset ∧ RegistersHeldInReset State.reset ∧ LatchAgrees State.reset ∧ MemoryCanonical State.reset ∧ RegionsInside State.reset ∧
  CursorsInRange State.reset ∧ WindowHolds State.reset ∧ AdlerHolds State.reset ∧ PassCursors State.reset ∧ CodesInAlphabet State.reset

/-- O50. From every state, any step (engine, command, input, reset) that answers a state keeps each of: STATUS legal
(at most one of DONE and ERR, neither while BUSY, PHASE 0 exactly while idle and 1..4 while BUSY); while rst_n = 0
every register at its reset value; while BUSY the latched copies equal their registers; memory lists strictly rising
addresses below 2^32. (10_state.md, 40_host_interface.md, 20_memory.md.) -/
def Obligations.StepKeepsStatusLatchAndMemory : Prop :=
  ∀ s t : State, step s = .next t →
    (StatusLegal s → StatusLegal t) ∧ (RegistersHeldInReset s → RegistersHeldInReset t) ∧
    (LatchAgrees s → LatchAgrees t) ∧ (MemoryCanonical s → MemoryCanonical t)

/-- O51. From every state with RegionsInside, any step that answers a state keeps it: once IHDR is accepted the
regions are legal, the mode is one of the fifteen, OUT_USED lies inside OUTR and SCR_USED inside SCR. (20_memory.md,
43_header_interpreter.md.) -/
def Obligations.StepKeepsRegionsInside : Prop :=
  ∀ s t : State, RegionsInside s → step s = .next t → RegionsInside t

/-- O52. From every state with CursorsInRange, any step that answers a state keeps it, and an engine step never makes
pos smaller. (10_state.md, 44_inflate.md, 42_chunk_reader.md.) -/
def Obligations.StepKeepsCursorsInRange : Prop :=
  ∀ s t : State, CursorsInRange s → step s = .next t →
    CursorsInRange t ∧ (EngineTurn s → s.pos ≤ t.pos)

/-- O53. From every state with RegionsInside, CursorsInRange, WindowHolds and AdlerHolds, any step that answers a
state keeps the last two. (44_inflate.md, 10_state.md.) -/
def Obligations.StepKeepsWindowAndAdler : Prop :=
  ∀ s t : State, RegionsInside s → CursorsInRange s → WindowHolds s → AdlerHolds s → step s = .next t →
    WindowHolds t ∧ AdlerHolds t

/-- O54. From every state with PassCursors, any step that answers a state keeps it. (45_defilter.md, 47_interlace.md.)
-/
def Obligations.StepKeepsPassCursors : Prop :=
  ∀ s t : State, PassCursors s → step s = .next t → PassCursors t

/-- O55. From every state with CodesInAlphabet, an engine step answers a next state, never a fault or a refusal,
whatever the input bytes are; and any step that answers a state keeps CodesInAlphabet. (60_exceptions.md,
40_host_interface.md, 44_inflate.md.) -/
def Obligations.EngineNeverStops : Prop :=
  (∀ s : State, CodesInAlphabet s → EngineTurn s → ∃ t, step s = .next t) ∧
  (∀ s t : State, CodesInAlphabet s → step s = .next t → CodesInAlphabet t)

/-- O56. From every state with RegionsInside and PassCursors, an engine step that answers a state leaves every byte
outside OUT_USED and SCR_USED, and every byte of IN, as it was. After a host write into the regions before IHDR is
accepted, no used part is known, and the first is said of the bytes outside OUTR and SCR (log entry 16).
(20_memory.md.) -/
def Obligations.WritesConfinedToUsedRegions : Prop :=
  ∀ s t : State, RegionsInside s → PassCursors s → EngineTurn s → step s = .next t →
    (∀ a, windowHas (usedOut s) a = false → windowHas (usedScr s) a = false →
      (s.free.raced = false ∨ s.parse.seenIhdr = true ∨
        (windowHas (regionOut s.lat) a = false ∧ windowHas (regionScr s.lat) a = false)) → memAt t a = memAt s a) ∧
    (∀ a, windowHas (regionIn s.lat) a = true → memAt t a = memAt s a)

/-- O57. An engine step other than the completion that answers a state leaves IRQ_EN, CONFIG, BUSY, DONE, ERR, the
error registers, the region registers, the latched copies, the platform, the port and the free-value bookkeeping as
they were. (40_host_interface.md, 10_state.md.) -/
def Obligations.EngineStepFrame : Prop :=
  ∀ s t : State, EngineTurn s → (∀ o, s.point ≠ .completing o) → step s = .next t →
    t.lat = s.lat ∧ t.plat = s.plat ∧ t.port = s.port ∧ t.free = s.free ∧
    t.regs = { s.regs with
      phase := t.regs.phase, imgWidth := t.regs.imgWidth, imgHeight := t.regs.imgHeight
      bitDepth := t.regs.bitDepth, colorType := t.regs.colorType, interlace := t.regs.interlace
      hasPlte := t.regs.hasPlte, hasTrns := t.regs.hasTrns, hasGama := t.regs.hasGama
      plteEntries := t.regs.plteEntries, gamma := t.regs.gamma, outLen := t.regs.outLen, rawLen := t.regs.rawLen
      trnsKey0 := t.regs.trnsKey0, trnsKey1 := t.regs.trnsKey1, trnsKey2 := t.regs.trnsKey2
      trnsEntries := t.regs.trnsEntries }

/-- O58. If a step takes a state with BUSY = 1 to one with BUSY = 0, then either the engine stood at the decode's
outcome and it is its turn (no pending input, or an engine slot), or the step took a falling rst_n. (R186.) -/
def Obligations.OnlyCompletionOrResetEndsDecode : Prop :=
  ∀ s t : State, s.regs.busy = true → step s = .next t → t.regs.busy = false →
    ((∃ o, s.point = .completing o) ∧ (s.port.inputs = [] ∨ ∃ rest, s.port.inputs = .engine :: rest)) ∨
    ∃ rest, s.port.inputs = .resetLow :: rest

/-- O59. An engine step at a block header or at a code-length, literal/length or distance symbol that does not raise
moves the bit cursor forward by at least one bit. (44_inflate.md.) -/
def Obligations.BitCursorAdvances : Prop :=
  ∀ s t : State, EngineTurn s → s.point ∈ [.blockHeader, .clSymbol, .litLen, .distance] → step s = .next t →
    (∀ o, t.point ≠ .completing o) → s.infl.bp < t.infl.bp

/-- O60. A pending host write stores its byte; into IN, OUTR or SCR while BUSY = 1 it also makes some outcome the
decode's and notes the race, every register staying until the completion (log entry 16). The completion of a raced
decode sets the flags and error registers as that outcome has them, leaves the registers a decode writes (IMG_WIDTH to
TRNS_KEY1) and OUT_USED and SCR_USED (before an accepted IHDR all of OUTR and SCR, or nothing where the regions are
illegal) at some values, and changes nothing else; an accepted START forgets the race (log entries 8, 16). A pending
host read returns the byte memory holds, except that of OUTR or SCR while BUSY = 1 it returns some byte (a free value,
log entry 10). A pending error response at an address of IN or SCR_USED (read), or of SCR_USED or OUT_USED (write; in
a raced decode the parts its completion leaves open), while BUSY = 1, makes READ_FAULT or WRITE_FAULT at that address
the outcome in place of any other, and any other error response changes nothing (the model's choice, log entry 15). A
START while idle whose regions cover a device window is refused (log entry 9). (20_memory.md, 60_exceptions.md,
70_reset_and_hazards.md.) -/
def Obligations.OutsideEvents : Prop :=
  ∀ (s : State) (a : Word) (rest : List Input),
    let u := { s with port := { s.port with inputs := rest } }
    let inIn := windowHas (regionIn s.lat) a.toNat = true
    let inOut := windowHas (regionOut s.lat) a.toNat = true
    let inScr := windowHas (regionScr s.lat) a.toNat = true
    let inside := inIn ∨ inOut ∨ inScr
    (∀ b, s.port.inputs = .memWrite a b :: rest →
      (s.regs.busy = true → inside → ∃ o, step s = .next
        { u with
          mem := tablePut s.mem a.toNat b, point := .completing o
          free := { s.free with count := s.free.count + 1, raced := true } }) ∧
      (s.regs.busy = false ∨ ¬inside → step s = .next { u with mem := tablePut s.mem a.toNat b })) ∧
    (∀ o, EngineTurn s → s.point = .completing o → s.free.raced = true → ∃ t, step s = .next t ∧
      t = { s with regs := t.regs, mem := t.mem, free := t.free } ∧
      t.regs = { completeRegs o s.regs with
        imgWidth := t.regs.imgWidth, imgHeight := t.regs.imgHeight, bitDepth := t.regs.bitDepth
        colorType := t.regs.colorType, interlace := t.regs.interlace, hasPlte := t.regs.hasPlte
        hasTrns := t.regs.hasTrns, hasGama := t.regs.hasGama, plteEntries := t.regs.plteEntries
        gamma := t.regs.gamma, outLen := t.regs.outLen, rawLen := t.regs.rawLen
        trnsKey0 := t.regs.trnsKey0, trnsKey1 := t.regs.trnsKey1, trnsKey2 := t.regs.trnsKey2
        trnsEntries := t.regs.trnsEntries } ∧
      ∀ c, windowHas (usedOut s) c = false → windowHas (usedScr s) c = false →
        (s.parse.seenIhdr = true ∨ regionError s.lat ≠ none ∨
          (windowHas (regionOut s.lat) c = false ∧ windowHas (regionScr s.lat) c = false)) → memAt t c = memAt s c) ∧
    (∀ v t, s.regs.busy = false → exec (.start v) s = .next t → t.free.raced = false) ∧
    (s.port.inputs = .memRead a :: rest → ∃ b k,
      step s = .next
        { u with port := { u.port with hostByte := b }, free := { s.free with count := s.free.count + k } } ∧
      (s.regs.busy = false ∨ (¬inOut ∧ ¬inScr) → k = 0 ∧ ∀ v, memAt s a.toNat = some v → b = v)) ∧
    (∀ w, s.port.inputs = .busError w a :: rest →
      let mine := windowHas (openScr s) a.toNat = true ∨ (w = true ∧ windowHas (openOut s) a.toNat = true) ∨
        (w = false ∧ inIn)
      (s.regs.busy = true → mine → step s = .next (raise u (if w then .writeFault else .readFault) a.toNat)) ∧
      (s.regs.busy = false ∨ ¬mine → step s = .next u)) ∧
    (∀ v, s.regs.busy = false →
      (∃ d ∈ s.plat.devices, ∃ r ∈ [regionIn (latchOf s.regs), regionOut (latchOf s.regs), regionScr (latchOf s.regs)],
        0 < r.size ∧ 0 < d.size ∧ r.base < d.base + d.size ∧ d.base < r.base + r.size) →
      exec (.start v) s = .refused .regionCoversDevice)

end Statements
end

