-- ==== Sys2Proof/Laws/State.lean ====
section
/-! SUPPORT. One lemma per field per field update of State, all by rfl. -/

namespace Sys2Proof.Machine

@[simp] theorem State.setRegs_regs (s : State) (v : Regs) : (s.setRegs v).regs = v := rfl
@[simp] theorem State.setRegs_lat (s : State) (v : Regs) : (s.setRegs v).lat = s.lat := rfl
@[simp] theorem State.setRegs_pos (s : State) (v : Regs) : (s.setRegs v).pos = s.pos := rfl
@[simp] theorem State.setRegs_hdr (s : State) (v : Regs) : (s.setRegs v).hdr = s.hdr := rfl
@[simp] theorem State.setRegs_parse (s : State) (v : Regs) : (s.setRegs v).parse = s.parse := rfl
@[simp] theorem State.setRegs_tabs (s : State) (v : Regs) : (s.setRegs v).tabs = s.tabs := rfl
@[simp] theorem State.setRegs_c (s : State) (v : Regs) : (s.setRegs v).c = s.c := rfl
@[simp] theorem State.setRegs_infl (s : State) (v : Regs) : (s.setRegs v).infl = s.infl := rfl
@[simp] theorem State.setRegs_out (s : State) (v : Regs) : (s.setRegs v).out = s.out := rfl
@[simp] theorem State.setRegs_defl (s : State) (v : Regs) : (s.setRegs v).defl = s.defl := rfl
@[simp] theorem State.setRegs_exp (s : State) (v : Regs) : (s.setRegs v).exp = s.exp := rfl
@[simp] theorem State.setRegs_point (s : State) (v : Regs) : (s.setRegs v).point = s.point := rfl
@[simp] theorem State.setRegs_mem (s : State) (v : Regs) : (s.setRegs v).mem = s.mem := rfl
@[simp] theorem State.setRegs_plat (s : State) (v : Regs) : (s.setRegs v).plat = s.plat := rfl
@[simp] theorem State.setRegs_port (s : State) (v : Regs) : (s.setRegs v).port = s.port := rfl
@[simp] theorem State.setRegs_free (s : State) (v : Regs) : (s.setRegs v).free = s.free := rfl

@[simp] theorem State.setLat_regs (s : State) (v : Latch) : (s.setLat v).regs = s.regs := rfl
@[simp] theorem State.setLat_lat (s : State) (v : Latch) : (s.setLat v).lat = v := rfl
@[simp] theorem State.setLat_pos (s : State) (v : Latch) : (s.setLat v).pos = s.pos := rfl
@[simp] theorem State.setLat_hdr (s : State) (v : Latch) : (s.setLat v).hdr = s.hdr := rfl
@[simp] theorem State.setLat_parse (s : State) (v : Latch) : (s.setLat v).parse = s.parse := rfl
@[simp] theorem State.setLat_tabs (s : State) (v : Latch) : (s.setLat v).tabs = s.tabs := rfl
@[simp] theorem State.setLat_c (s : State) (v : Latch) : (s.setLat v).c = s.c := rfl
@[simp] theorem State.setLat_infl (s : State) (v : Latch) : (s.setLat v).infl = s.infl := rfl
@[simp] theorem State.setLat_out (s : State) (v : Latch) : (s.setLat v).out = s.out := rfl
@[simp] theorem State.setLat_defl (s : State) (v : Latch) : (s.setLat v).defl = s.defl := rfl
@[simp] theorem State.setLat_exp (s : State) (v : Latch) : (s.setLat v).exp = s.exp := rfl
@[simp] theorem State.setLat_point (s : State) (v : Latch) : (s.setLat v).point = s.point := rfl
@[simp] theorem State.setLat_mem (s : State) (v : Latch) : (s.setLat v).mem = s.mem := rfl
@[simp] theorem State.setLat_plat (s : State) (v : Latch) : (s.setLat v).plat = s.plat := rfl
@[simp] theorem State.setLat_port (s : State) (v : Latch) : (s.setLat v).port = s.port := rfl
@[simp] theorem State.setLat_free (s : State) (v : Latch) : (s.setLat v).free = s.free := rfl

@[simp] theorem State.setPos_regs (s : State) (v : Nat) : (s.setPos v).regs = s.regs := rfl
@[simp] theorem State.setPos_lat (s : State) (v : Nat) : (s.setPos v).lat = s.lat := rfl
@[simp] theorem State.setPos_pos (s : State) (v : Nat) : (s.setPos v).pos = v := rfl
@[simp] theorem State.setPos_hdr (s : State) (v : Nat) : (s.setPos v).hdr = s.hdr := rfl
@[simp] theorem State.setPos_parse (s : State) (v : Nat) : (s.setPos v).parse = s.parse := rfl
@[simp] theorem State.setPos_tabs (s : State) (v : Nat) : (s.setPos v).tabs = s.tabs := rfl
@[simp] theorem State.setPos_c (s : State) (v : Nat) : (s.setPos v).c = s.c := rfl
@[simp] theorem State.setPos_infl (s : State) (v : Nat) : (s.setPos v).infl = s.infl := rfl
@[simp] theorem State.setPos_out (s : State) (v : Nat) : (s.setPos v).out = s.out := rfl
@[simp] theorem State.setPos_defl (s : State) (v : Nat) : (s.setPos v).defl = s.defl := rfl
@[simp] theorem State.setPos_exp (s : State) (v : Nat) : (s.setPos v).exp = s.exp := rfl
@[simp] theorem State.setPos_point (s : State) (v : Nat) : (s.setPos v).point = s.point := rfl
@[simp] theorem State.setPos_mem (s : State) (v : Nat) : (s.setPos v).mem = s.mem := rfl
@[simp] theorem State.setPos_plat (s : State) (v : Nat) : (s.setPos v).plat = s.plat := rfl
@[simp] theorem State.setPos_port (s : State) (v : Nat) : (s.setPos v).port = s.port := rfl
@[simp] theorem State.setPos_free (s : State) (v : Nat) : (s.setPos v).free = s.free := rfl

@[simp] theorem State.setHdr_regs (s : State) (v : Header) : (s.setHdr v).regs = s.regs := rfl
@[simp] theorem State.setHdr_lat (s : State) (v : Header) : (s.setHdr v).lat = s.lat := rfl
@[simp] theorem State.setHdr_pos (s : State) (v : Header) : (s.setHdr v).pos = s.pos := rfl
@[simp] theorem State.setHdr_hdr (s : State) (v : Header) : (s.setHdr v).hdr = v := rfl
@[simp] theorem State.setHdr_parse (s : State) (v : Header) : (s.setHdr v).parse = s.parse := rfl
@[simp] theorem State.setHdr_tabs (s : State) (v : Header) : (s.setHdr v).tabs = s.tabs := rfl
@[simp] theorem State.setHdr_c (s : State) (v : Header) : (s.setHdr v).c = s.c := rfl
@[simp] theorem State.setHdr_infl (s : State) (v : Header) : (s.setHdr v).infl = s.infl := rfl
@[simp] theorem State.setHdr_out (s : State) (v : Header) : (s.setHdr v).out = s.out := rfl
@[simp] theorem State.setHdr_defl (s : State) (v : Header) : (s.setHdr v).defl = s.defl := rfl
@[simp] theorem State.setHdr_exp (s : State) (v : Header) : (s.setHdr v).exp = s.exp := rfl
@[simp] theorem State.setHdr_point (s : State) (v : Header) : (s.setHdr v).point = s.point := rfl
@[simp] theorem State.setHdr_mem (s : State) (v : Header) : (s.setHdr v).mem = s.mem := rfl
@[simp] theorem State.setHdr_plat (s : State) (v : Header) : (s.setHdr v).plat = s.plat := rfl
@[simp] theorem State.setHdr_port (s : State) (v : Header) : (s.setHdr v).port = s.port := rfl
@[simp] theorem State.setHdr_free (s : State) (v : Header) : (s.setHdr v).free = s.free := rfl

@[simp] theorem State.setParse_regs (s : State) (v : Parse) : (s.setParse v).regs = s.regs := rfl
@[simp] theorem State.setParse_lat (s : State) (v : Parse) : (s.setParse v).lat = s.lat := rfl
@[simp] theorem State.setParse_pos (s : State) (v : Parse) : (s.setParse v).pos = s.pos := rfl
@[simp] theorem State.setParse_hdr (s : State) (v : Parse) : (s.setParse v).hdr = s.hdr := rfl
@[simp] theorem State.setParse_parse (s : State) (v : Parse) : (s.setParse v).parse = v := rfl
@[simp] theorem State.setParse_tabs (s : State) (v : Parse) : (s.setParse v).tabs = s.tabs := rfl
@[simp] theorem State.setParse_c (s : State) (v : Parse) : (s.setParse v).c = s.c := rfl
@[simp] theorem State.setParse_infl (s : State) (v : Parse) : (s.setParse v).infl = s.infl := rfl
@[simp] theorem State.setParse_out (s : State) (v : Parse) : (s.setParse v).out = s.out := rfl
@[simp] theorem State.setParse_defl (s : State) (v : Parse) : (s.setParse v).defl = s.defl := rfl
@[simp] theorem State.setParse_exp (s : State) (v : Parse) : (s.setParse v).exp = s.exp := rfl
@[simp] theorem State.setParse_point (s : State) (v : Parse) : (s.setParse v).point = s.point := rfl
@[simp] theorem State.setParse_mem (s : State) (v : Parse) : (s.setParse v).mem = s.mem := rfl
@[simp] theorem State.setParse_plat (s : State) (v : Parse) : (s.setParse v).plat = s.plat := rfl
@[simp] theorem State.setParse_port (s : State) (v : Parse) : (s.setParse v).port = s.port := rfl
@[simp] theorem State.setParse_free (s : State) (v : Parse) : (s.setParse v).free = s.free := rfl

@[simp] theorem State.setTabs_regs (s : State) (v : Tables) : (s.setTabs v).regs = s.regs := rfl
@[simp] theorem State.setTabs_lat (s : State) (v : Tables) : (s.setTabs v).lat = s.lat := rfl
@[simp] theorem State.setTabs_pos (s : State) (v : Tables) : (s.setTabs v).pos = s.pos := rfl
@[simp] theorem State.setTabs_hdr (s : State) (v : Tables) : (s.setTabs v).hdr = s.hdr := rfl
@[simp] theorem State.setTabs_parse (s : State) (v : Tables) : (s.setTabs v).parse = s.parse := rfl
@[simp] theorem State.setTabs_tabs (s : State) (v : Tables) : (s.setTabs v).tabs = v := rfl
@[simp] theorem State.setTabs_c (s : State) (v : Tables) : (s.setTabs v).c = s.c := rfl
@[simp] theorem State.setTabs_infl (s : State) (v : Tables) : (s.setTabs v).infl = s.infl := rfl
@[simp] theorem State.setTabs_out (s : State) (v : Tables) : (s.setTabs v).out = s.out := rfl
@[simp] theorem State.setTabs_defl (s : State) (v : Tables) : (s.setTabs v).defl = s.defl := rfl
@[simp] theorem State.setTabs_exp (s : State) (v : Tables) : (s.setTabs v).exp = s.exp := rfl
@[simp] theorem State.setTabs_point (s : State) (v : Tables) : (s.setTabs v).point = s.point := rfl
@[simp] theorem State.setTabs_mem (s : State) (v : Tables) : (s.setTabs v).mem = s.mem := rfl
@[simp] theorem State.setTabs_plat (s : State) (v : Tables) : (s.setTabs v).plat = s.plat := rfl
@[simp] theorem State.setTabs_port (s : State) (v : Tables) : (s.setTabs v).port = s.port := rfl
@[simp] theorem State.setTabs_free (s : State) (v : Tables) : (s.setTabs v).free = s.free := rfl

@[simp] theorem State.setC_regs (s : State) (v : List Byte) : (s.setC v).regs = s.regs := rfl
@[simp] theorem State.setC_lat (s : State) (v : List Byte) : (s.setC v).lat = s.lat := rfl
@[simp] theorem State.setC_pos (s : State) (v : List Byte) : (s.setC v).pos = s.pos := rfl
@[simp] theorem State.setC_hdr (s : State) (v : List Byte) : (s.setC v).hdr = s.hdr := rfl
@[simp] theorem State.setC_parse (s : State) (v : List Byte) : (s.setC v).parse = s.parse := rfl
@[simp] theorem State.setC_tabs (s : State) (v : List Byte) : (s.setC v).tabs = s.tabs := rfl
@[simp] theorem State.setC_c (s : State) (v : List Byte) : (s.setC v).c = v := rfl
@[simp] theorem State.setC_infl (s : State) (v : List Byte) : (s.setC v).infl = s.infl := rfl
@[simp] theorem State.setC_out (s : State) (v : List Byte) : (s.setC v).out = s.out := rfl
@[simp] theorem State.setC_defl (s : State) (v : List Byte) : (s.setC v).defl = s.defl := rfl
@[simp] theorem State.setC_exp (s : State) (v : List Byte) : (s.setC v).exp = s.exp := rfl
@[simp] theorem State.setC_point (s : State) (v : List Byte) : (s.setC v).point = s.point := rfl
@[simp] theorem State.setC_mem (s : State) (v : List Byte) : (s.setC v).mem = s.mem := rfl
@[simp] theorem State.setC_plat (s : State) (v : List Byte) : (s.setC v).plat = s.plat := rfl
@[simp] theorem State.setC_port (s : State) (v : List Byte) : (s.setC v).port = s.port := rfl
@[simp] theorem State.setC_free (s : State) (v : List Byte) : (s.setC v).free = s.free := rfl

@[simp] theorem State.setInfl_regs (s : State) (v : Infl) : (s.setInfl v).regs = s.regs := rfl
@[simp] theorem State.setInfl_lat (s : State) (v : Infl) : (s.setInfl v).lat = s.lat := rfl
@[simp] theorem State.setInfl_pos (s : State) (v : Infl) : (s.setInfl v).pos = s.pos := rfl
@[simp] theorem State.setInfl_hdr (s : State) (v : Infl) : (s.setInfl v).hdr = s.hdr := rfl
@[simp] theorem State.setInfl_parse (s : State) (v : Infl) : (s.setInfl v).parse = s.parse := rfl
@[simp] theorem State.setInfl_tabs (s : State) (v : Infl) : (s.setInfl v).tabs = s.tabs := rfl
@[simp] theorem State.setInfl_c (s : State) (v : Infl) : (s.setInfl v).c = s.c := rfl
@[simp] theorem State.setInfl_infl (s : State) (v : Infl) : (s.setInfl v).infl = v := rfl
@[simp] theorem State.setInfl_out (s : State) (v : Infl) : (s.setInfl v).out = s.out := rfl
@[simp] theorem State.setInfl_defl (s : State) (v : Infl) : (s.setInfl v).defl = s.defl := rfl
@[simp] theorem State.setInfl_exp (s : State) (v : Infl) : (s.setInfl v).exp = s.exp := rfl
@[simp] theorem State.setInfl_point (s : State) (v : Infl) : (s.setInfl v).point = s.point := rfl
@[simp] theorem State.setInfl_mem (s : State) (v : Infl) : (s.setInfl v).mem = s.mem := rfl
@[simp] theorem State.setInfl_plat (s : State) (v : Infl) : (s.setInfl v).plat = s.plat := rfl
@[simp] theorem State.setInfl_port (s : State) (v : Infl) : (s.setInfl v).port = s.port := rfl
@[simp] theorem State.setInfl_free (s : State) (v : Infl) : (s.setInfl v).free = s.free := rfl

@[simp] theorem State.setOut_regs (s : State) (v : Out) : (s.setOut v).regs = s.regs := rfl
@[simp] theorem State.setOut_lat (s : State) (v : Out) : (s.setOut v).lat = s.lat := rfl
@[simp] theorem State.setOut_pos (s : State) (v : Out) : (s.setOut v).pos = s.pos := rfl
@[simp] theorem State.setOut_hdr (s : State) (v : Out) : (s.setOut v).hdr = s.hdr := rfl
@[simp] theorem State.setOut_parse (s : State) (v : Out) : (s.setOut v).parse = s.parse := rfl
@[simp] theorem State.setOut_tabs (s : State) (v : Out) : (s.setOut v).tabs = s.tabs := rfl
@[simp] theorem State.setOut_c (s : State) (v : Out) : (s.setOut v).c = s.c := rfl
@[simp] theorem State.setOut_infl (s : State) (v : Out) : (s.setOut v).infl = s.infl := rfl
@[simp] theorem State.setOut_out (s : State) (v : Out) : (s.setOut v).out = v := rfl
@[simp] theorem State.setOut_defl (s : State) (v : Out) : (s.setOut v).defl = s.defl := rfl
@[simp] theorem State.setOut_exp (s : State) (v : Out) : (s.setOut v).exp = s.exp := rfl
@[simp] theorem State.setOut_point (s : State) (v : Out) : (s.setOut v).point = s.point := rfl
@[simp] theorem State.setOut_mem (s : State) (v : Out) : (s.setOut v).mem = s.mem := rfl
@[simp] theorem State.setOut_plat (s : State) (v : Out) : (s.setOut v).plat = s.plat := rfl
@[simp] theorem State.setOut_port (s : State) (v : Out) : (s.setOut v).port = s.port := rfl
@[simp] theorem State.setOut_free (s : State) (v : Out) : (s.setOut v).free = s.free := rfl

@[simp] theorem State.setDefl_regs (s : State) (v : Defl) : (s.setDefl v).regs = s.regs := rfl
@[simp] theorem State.setDefl_lat (s : State) (v : Defl) : (s.setDefl v).lat = s.lat := rfl
@[simp] theorem State.setDefl_pos (s : State) (v : Defl) : (s.setDefl v).pos = s.pos := rfl
@[simp] theorem State.setDefl_hdr (s : State) (v : Defl) : (s.setDefl v).hdr = s.hdr := rfl
@[simp] theorem State.setDefl_parse (s : State) (v : Defl) : (s.setDefl v).parse = s.parse := rfl
@[simp] theorem State.setDefl_tabs (s : State) (v : Defl) : (s.setDefl v).tabs = s.tabs := rfl
@[simp] theorem State.setDefl_c (s : State) (v : Defl) : (s.setDefl v).c = s.c := rfl
@[simp] theorem State.setDefl_infl (s : State) (v : Defl) : (s.setDefl v).infl = s.infl := rfl
@[simp] theorem State.setDefl_out (s : State) (v : Defl) : (s.setDefl v).out = s.out := rfl
@[simp] theorem State.setDefl_defl (s : State) (v : Defl) : (s.setDefl v).defl = v := rfl
@[simp] theorem State.setDefl_exp (s : State) (v : Defl) : (s.setDefl v).exp = s.exp := rfl
@[simp] theorem State.setDefl_point (s : State) (v : Defl) : (s.setDefl v).point = s.point := rfl
@[simp] theorem State.setDefl_mem (s : State) (v : Defl) : (s.setDefl v).mem = s.mem := rfl
@[simp] theorem State.setDefl_plat (s : State) (v : Defl) : (s.setDefl v).plat = s.plat := rfl
@[simp] theorem State.setDefl_port (s : State) (v : Defl) : (s.setDefl v).port = s.port := rfl
@[simp] theorem State.setDefl_free (s : State) (v : Defl) : (s.setDefl v).free = s.free := rfl

@[simp] theorem State.setExp_regs (s : State) (v : Expand) : (s.setExp v).regs = s.regs := rfl
@[simp] theorem State.setExp_lat (s : State) (v : Expand) : (s.setExp v).lat = s.lat := rfl
@[simp] theorem State.setExp_pos (s : State) (v : Expand) : (s.setExp v).pos = s.pos := rfl
@[simp] theorem State.setExp_hdr (s : State) (v : Expand) : (s.setExp v).hdr = s.hdr := rfl
@[simp] theorem State.setExp_parse (s : State) (v : Expand) : (s.setExp v).parse = s.parse := rfl
@[simp] theorem State.setExp_tabs (s : State) (v : Expand) : (s.setExp v).tabs = s.tabs := rfl
@[simp] theorem State.setExp_c (s : State) (v : Expand) : (s.setExp v).c = s.c := rfl
@[simp] theorem State.setExp_infl (s : State) (v : Expand) : (s.setExp v).infl = s.infl := rfl
@[simp] theorem State.setExp_out (s : State) (v : Expand) : (s.setExp v).out = s.out := rfl
@[simp] theorem State.setExp_defl (s : State) (v : Expand) : (s.setExp v).defl = s.defl := rfl
@[simp] theorem State.setExp_exp (s : State) (v : Expand) : (s.setExp v).exp = v := rfl
@[simp] theorem State.setExp_point (s : State) (v : Expand) : (s.setExp v).point = s.point := rfl
@[simp] theorem State.setExp_mem (s : State) (v : Expand) : (s.setExp v).mem = s.mem := rfl
@[simp] theorem State.setExp_plat (s : State) (v : Expand) : (s.setExp v).plat = s.plat := rfl
@[simp] theorem State.setExp_port (s : State) (v : Expand) : (s.setExp v).port = s.port := rfl
@[simp] theorem State.setExp_free (s : State) (v : Expand) : (s.setExp v).free = s.free := rfl

@[simp] theorem State.setPoint_regs (s : State) (v : Point) : (s.setPoint v).regs = s.regs := rfl
@[simp] theorem State.setPoint_lat (s : State) (v : Point) : (s.setPoint v).lat = s.lat := rfl
@[simp] theorem State.setPoint_pos (s : State) (v : Point) : (s.setPoint v).pos = s.pos := rfl
@[simp] theorem State.setPoint_hdr (s : State) (v : Point) : (s.setPoint v).hdr = s.hdr := rfl
@[simp] theorem State.setPoint_parse (s : State) (v : Point) : (s.setPoint v).parse = s.parse := rfl
@[simp] theorem State.setPoint_tabs (s : State) (v : Point) : (s.setPoint v).tabs = s.tabs := rfl
@[simp] theorem State.setPoint_c (s : State) (v : Point) : (s.setPoint v).c = s.c := rfl
@[simp] theorem State.setPoint_infl (s : State) (v : Point) : (s.setPoint v).infl = s.infl := rfl
@[simp] theorem State.setPoint_out (s : State) (v : Point) : (s.setPoint v).out = s.out := rfl
@[simp] theorem State.setPoint_defl (s : State) (v : Point) : (s.setPoint v).defl = s.defl := rfl
@[simp] theorem State.setPoint_exp (s : State) (v : Point) : (s.setPoint v).exp = s.exp := rfl
@[simp] theorem State.setPoint_point (s : State) (v : Point) : (s.setPoint v).point = v := rfl
@[simp] theorem State.setPoint_mem (s : State) (v : Point) : (s.setPoint v).mem = s.mem := rfl
@[simp] theorem State.setPoint_plat (s : State) (v : Point) : (s.setPoint v).plat = s.plat := rfl
@[simp] theorem State.setPoint_port (s : State) (v : Point) : (s.setPoint v).port = s.port := rfl
@[simp] theorem State.setPoint_free (s : State) (v : Point) : (s.setPoint v).free = s.free := rfl

@[simp] theorem State.setMem_regs (s : State) (v : Memory) : (s.setMem v).regs = s.regs := rfl
@[simp] theorem State.setMem_lat (s : State) (v : Memory) : (s.setMem v).lat = s.lat := rfl
@[simp] theorem State.setMem_pos (s : State) (v : Memory) : (s.setMem v).pos = s.pos := rfl
@[simp] theorem State.setMem_hdr (s : State) (v : Memory) : (s.setMem v).hdr = s.hdr := rfl
@[simp] theorem State.setMem_parse (s : State) (v : Memory) : (s.setMem v).parse = s.parse := rfl
@[simp] theorem State.setMem_tabs (s : State) (v : Memory) : (s.setMem v).tabs = s.tabs := rfl
@[simp] theorem State.setMem_c (s : State) (v : Memory) : (s.setMem v).c = s.c := rfl
@[simp] theorem State.setMem_infl (s : State) (v : Memory) : (s.setMem v).infl = s.infl := rfl
@[simp] theorem State.setMem_out (s : State) (v : Memory) : (s.setMem v).out = s.out := rfl
@[simp] theorem State.setMem_defl (s : State) (v : Memory) : (s.setMem v).defl = s.defl := rfl
@[simp] theorem State.setMem_exp (s : State) (v : Memory) : (s.setMem v).exp = s.exp := rfl
@[simp] theorem State.setMem_point (s : State) (v : Memory) : (s.setMem v).point = s.point := rfl
@[simp] theorem State.setMem_mem (s : State) (v : Memory) : (s.setMem v).mem = v := rfl
@[simp] theorem State.setMem_plat (s : State) (v : Memory) : (s.setMem v).plat = s.plat := rfl
@[simp] theorem State.setMem_port (s : State) (v : Memory) : (s.setMem v).port = s.port := rfl
@[simp] theorem State.setMem_free (s : State) (v : Memory) : (s.setMem v).free = s.free := rfl

@[simp] theorem State.setPort_regs (s : State) (v : Port) : (s.setPort v).regs = s.regs := rfl
@[simp] theorem State.setPort_lat (s : State) (v : Port) : (s.setPort v).lat = s.lat := rfl
@[simp] theorem State.setPort_pos (s : State) (v : Port) : (s.setPort v).pos = s.pos := rfl
@[simp] theorem State.setPort_hdr (s : State) (v : Port) : (s.setPort v).hdr = s.hdr := rfl
@[simp] theorem State.setPort_parse (s : State) (v : Port) : (s.setPort v).parse = s.parse := rfl
@[simp] theorem State.setPort_tabs (s : State) (v : Port) : (s.setPort v).tabs = s.tabs := rfl
@[simp] theorem State.setPort_c (s : State) (v : Port) : (s.setPort v).c = s.c := rfl
@[simp] theorem State.setPort_infl (s : State) (v : Port) : (s.setPort v).infl = s.infl := rfl
@[simp] theorem State.setPort_out (s : State) (v : Port) : (s.setPort v).out = s.out := rfl
@[simp] theorem State.setPort_defl (s : State) (v : Port) : (s.setPort v).defl = s.defl := rfl
@[simp] theorem State.setPort_exp (s : State) (v : Port) : (s.setPort v).exp = s.exp := rfl
@[simp] theorem State.setPort_point (s : State) (v : Port) : (s.setPort v).point = s.point := rfl
@[simp] theorem State.setPort_mem (s : State) (v : Port) : (s.setPort v).mem = s.mem := rfl
@[simp] theorem State.setPort_plat (s : State) (v : Port) : (s.setPort v).plat = s.plat := rfl
@[simp] theorem State.setPort_port (s : State) (v : Port) : (s.setPort v).port = v := rfl
@[simp] theorem State.setPort_free (s : State) (v : Port) : (s.setPort v).free = s.free := rfl

@[simp] theorem State.setFree_regs (s : State) (v : Free) : (s.setFree v).regs = s.regs := rfl
@[simp] theorem State.setFree_lat (s : State) (v : Free) : (s.setFree v).lat = s.lat := rfl
@[simp] theorem State.setFree_pos (s : State) (v : Free) : (s.setFree v).pos = s.pos := rfl
@[simp] theorem State.setFree_hdr (s : State) (v : Free) : (s.setFree v).hdr = s.hdr := rfl
@[simp] theorem State.setFree_parse (s : State) (v : Free) : (s.setFree v).parse = s.parse := rfl
@[simp] theorem State.setFree_tabs (s : State) (v : Free) : (s.setFree v).tabs = s.tabs := rfl
@[simp] theorem State.setFree_c (s : State) (v : Free) : (s.setFree v).c = s.c := rfl
@[simp] theorem State.setFree_infl (s : State) (v : Free) : (s.setFree v).infl = s.infl := rfl
@[simp] theorem State.setFree_out (s : State) (v : Free) : (s.setFree v).out = s.out := rfl
@[simp] theorem State.setFree_defl (s : State) (v : Free) : (s.setFree v).defl = s.defl := rfl
@[simp] theorem State.setFree_exp (s : State) (v : Free) : (s.setFree v).exp = s.exp := rfl
@[simp] theorem State.setFree_point (s : State) (v : Free) : (s.setFree v).point = s.point := rfl
@[simp] theorem State.setFree_mem (s : State) (v : Free) : (s.setFree v).mem = s.mem := rfl
@[simp] theorem State.setFree_plat (s : State) (v : Free) : (s.setFree v).plat = s.plat := rfl
@[simp] theorem State.setFree_port (s : State) (v : Free) : (s.setFree v).port = s.port := rfl
@[simp] theorem State.setFree_free (s : State) (v : Free) : (s.setFree v).free = v := rfl

@[simp] theorem State.setBp_regs (s : State) (v : Nat) : (s.setBp v).regs = s.regs := rfl
@[simp] theorem State.setBp_lat (s : State) (v : Nat) : (s.setBp v).lat = s.lat := rfl
@[simp] theorem State.setBp_pos (s : State) (v : Nat) : (s.setBp v).pos = s.pos := rfl
@[simp] theorem State.setBp_hdr (s : State) (v : Nat) : (s.setBp v).hdr = s.hdr := rfl
@[simp] theorem State.setBp_parse (s : State) (v : Nat) : (s.setBp v).parse = s.parse := rfl
@[simp] theorem State.setBp_tabs (s : State) (v : Nat) : (s.setBp v).tabs = s.tabs := rfl
@[simp] theorem State.setBp_c (s : State) (v : Nat) : (s.setBp v).c = s.c := rfl
@[simp] theorem State.setBp_infl (s : State) (v : Nat) : (s.setBp v).infl = { s.infl with bp := v } := rfl
@[simp] theorem State.setBp_out (s : State) (v : Nat) : (s.setBp v).out = s.out := rfl
@[simp] theorem State.setBp_defl (s : State) (v : Nat) : (s.setBp v).defl = s.defl := rfl
@[simp] theorem State.setBp_exp (s : State) (v : Nat) : (s.setBp v).exp = s.exp := rfl
@[simp] theorem State.setBp_point (s : State) (v : Nat) : (s.setBp v).point = s.point := rfl
@[simp] theorem State.setBp_mem (s : State) (v : Nat) : (s.setBp v).mem = s.mem := rfl
@[simp] theorem State.setBp_plat (s : State) (v : Nat) : (s.setBp v).plat = s.plat := rfl
@[simp] theorem State.setBp_port (s : State) (v : Nat) : (s.setBp v).port = s.port := rfl
@[simp] theorem State.setBp_free (s : State) (v : Nat) : (s.setBp v).free = s.free := rfl

@[simp] theorem State.setPhase_regs (s : State) (v : BitVec 3) : (s.setPhase v).regs = { s.regs with phase := v } := rfl
@[simp] theorem State.setPhase_lat (s : State) (v : BitVec 3) : (s.setPhase v).lat = s.lat := rfl
@[simp] theorem State.setPhase_pos (s : State) (v : BitVec 3) : (s.setPhase v).pos = s.pos := rfl
@[simp] theorem State.setPhase_hdr (s : State) (v : BitVec 3) : (s.setPhase v).hdr = s.hdr := rfl
@[simp] theorem State.setPhase_parse (s : State) (v : BitVec 3) : (s.setPhase v).parse = s.parse := rfl
@[simp] theorem State.setPhase_tabs (s : State) (v : BitVec 3) : (s.setPhase v).tabs = s.tabs := rfl
@[simp] theorem State.setPhase_c (s : State) (v : BitVec 3) : (s.setPhase v).c = s.c := rfl
@[simp] theorem State.setPhase_infl (s : State) (v : BitVec 3) : (s.setPhase v).infl = s.infl := rfl
@[simp] theorem State.setPhase_out (s : State) (v : BitVec 3) : (s.setPhase v).out = s.out := rfl
@[simp] theorem State.setPhase_defl (s : State) (v : BitVec 3) : (s.setPhase v).defl = s.defl := rfl
@[simp] theorem State.setPhase_exp (s : State) (v : BitVec 3) : (s.setPhase v).exp = s.exp := rfl
@[simp] theorem State.setPhase_point (s : State) (v : BitVec 3) : (s.setPhase v).point = s.point := rfl
@[simp] theorem State.setPhase_mem (s : State) (v : BitVec 3) : (s.setPhase v).mem = s.mem := rfl
@[simp] theorem State.setPhase_plat (s : State) (v : BitVec 3) : (s.setPhase v).plat = s.plat := rfl
@[simp] theorem State.setPhase_port (s : State) (v : BitVec 3) : (s.setPhase v).port = s.port := rfl
@[simp] theorem State.setPhase_free (s : State) (v : BitVec 3) : (s.setPhase v).free = s.free := rfl

@[simp] theorem raise_regs (s : State) (d : Detail) (k : Nat) : (raise s d k).regs = s.regs := rfl
@[simp] theorem raise_lat (s : State) (d : Detail) (k : Nat) : (raise s d k).lat = s.lat := rfl
@[simp] theorem raise_pos (s : State) (d : Detail) (k : Nat) : (raise s d k).pos = s.pos := rfl
@[simp] theorem raise_hdr (s : State) (d : Detail) (k : Nat) : (raise s d k).hdr = s.hdr := rfl
@[simp] theorem raise_parse (s : State) (d : Detail) (k : Nat) : (raise s d k).parse = s.parse := rfl
@[simp] theorem raise_tabs (s : State) (d : Detail) (k : Nat) : (raise s d k).tabs = s.tabs := rfl
@[simp] theorem raise_c (s : State) (d : Detail) (k : Nat) : (raise s d k).c = s.c := rfl
@[simp] theorem raise_infl (s : State) (d : Detail) (k : Nat) : (raise s d k).infl = s.infl := rfl
@[simp] theorem raise_out (s : State) (d : Detail) (k : Nat) : (raise s d k).out = s.out := rfl
@[simp] theorem raise_defl (s : State) (d : Detail) (k : Nat) : (raise s d k).defl = s.defl := rfl
@[simp] theorem raise_exp (s : State) (d : Detail) (k : Nat) : (raise s d k).exp = s.exp := rfl
@[simp] theorem raise_point (s : State) (d : Detail) (k : Nat) : (raise s d k).point = .completing (.error ⟨d, k⟩) := rfl
@[simp] theorem raise_mem (s : State) (d : Detail) (k : Nat) : (raise s d k).mem = s.mem := rfl
@[simp] theorem raise_plat (s : State) (d : Detail) (k : Nat) : (raise s d k).plat = s.plat := rfl
@[simp] theorem raise_port (s : State) (d : Detail) (k : Nat) : (raise s d k).port = s.port := rfl
@[simp] theorem raise_free (s : State) (d : Detail) (k : Nat) : (raise s d k).free = s.free := rfl

@[simp] theorem busWrite_regs (s : State) (a : Word) (b : Byte) : (busWrite s a b).regs = s.regs := rfl
@[simp] theorem busWrite_lat (s : State) (a : Word) (b : Byte) : (busWrite s a b).lat = s.lat := rfl
@[simp] theorem busWrite_pos (s : State) (a : Word) (b : Byte) : (busWrite s a b).pos = s.pos := rfl
@[simp] theorem busWrite_hdr (s : State) (a : Word) (b : Byte) : (busWrite s a b).hdr = s.hdr := rfl
@[simp] theorem busWrite_parse (s : State) (a : Word) (b : Byte) : (busWrite s a b).parse = s.parse := rfl
@[simp] theorem busWrite_tabs (s : State) (a : Word) (b : Byte) : (busWrite s a b).tabs = s.tabs := rfl
@[simp] theorem busWrite_c (s : State) (a : Word) (b : Byte) : (busWrite s a b).c = s.c := rfl
@[simp] theorem busWrite_infl (s : State) (a : Word) (b : Byte) : (busWrite s a b).infl = s.infl := rfl
@[simp] theorem busWrite_out (s : State) (a : Word) (b : Byte) : (busWrite s a b).out = s.out := rfl
@[simp] theorem busWrite_defl (s : State) (a : Word) (b : Byte) : (busWrite s a b).defl = s.defl := rfl
@[simp] theorem busWrite_exp (s : State) (a : Word) (b : Byte) : (busWrite s a b).exp = s.exp := rfl
@[simp] theorem busWrite_point (s : State) (a : Word) (b : Byte) : (busWrite s a b).point = s.point := rfl
@[simp] theorem busWrite_mem (s : State) (a : Word) (b : Byte) : (busWrite s a b).mem = tablePut s.mem a.toNat b := rfl
@[simp] theorem busWrite_plat (s : State) (a : Word) (b : Byte) : (busWrite s a b).plat = s.plat := rfl
@[simp] theorem busWrite_port (s : State) (a : Word) (b : Byte) : (busWrite s a b).port = s.port := rfl
@[simp] theorem busWrite_free (s : State) (a : Word) (b : Byte) : (busWrite s a b).free = s.free := rfl

@[simp] theorem popInput_regs (s : State) : (popInput s).regs = s.regs := rfl
@[simp] theorem popInput_lat (s : State) : (popInput s).lat = s.lat := rfl
@[simp] theorem popInput_pos (s : State) : (popInput s).pos = s.pos := rfl
@[simp] theorem popInput_hdr (s : State) : (popInput s).hdr = s.hdr := rfl
@[simp] theorem popInput_parse (s : State) : (popInput s).parse = s.parse := rfl
@[simp] theorem popInput_tabs (s : State) : (popInput s).tabs = s.tabs := rfl
@[simp] theorem popInput_c (s : State) : (popInput s).c = s.c := rfl
@[simp] theorem popInput_infl (s : State) : (popInput s).infl = s.infl := rfl
@[simp] theorem popInput_out (s : State) : (popInput s).out = s.out := rfl
@[simp] theorem popInput_defl (s : State) : (popInput s).defl = s.defl := rfl
@[simp] theorem popInput_exp (s : State) : (popInput s).exp = s.exp := rfl
@[simp] theorem popInput_point (s : State) : (popInput s).point = s.point := rfl
@[simp] theorem popInput_mem (s : State) : (popInput s).mem = s.mem := rfl
@[simp] theorem popInput_plat (s : State) : (popInput s).plat = s.plat := rfl
@[simp] theorem popInput_port (s : State) : (popInput s).port = { s.port with inputs := s.port.inputs.tail } := rfl
@[simp] theorem popInput_free (s : State) : (popInput s).free = s.free := rfl

end Sys2Proof.Machine
end

