-- ==== Sys2Proof/Laws/Memory.lean ====
section
/-! SUPPORT. Sparse tables and memory: read after write, and that every operation keeps the canonical form. -/

namespace Sys2Proof.Machine

variable {α : Type}

theorem tableGet_put_same (t : Table α) (k : Nat) (v : α) : tableGet (tablePut t k v) k = some v := by
  induction t with
  | nil => simp [tablePut, tableGet]
  | cons c r ih =>
    obtain ⟨a, b⟩ := c
    simp only [tablePut]
    split_ifs with h1 h2
    · simp [tableGet]
    · simp [tableGet]
    · rw [tableGet, if_neg (by omega), ih]

theorem tableGet_put_other (t : Table α) (k j : Nat) (v : α) (h : j ≠ k) :
    tableGet (tablePut t k v) j = tableGet t j := by
  induction t with
  | nil => simp [tablePut, tableGet]; omega
  | cons c r ih =>
    obtain ⟨a, b⟩ := c
    simp only [tablePut]
    split_ifs with h1 h2
    · simp only [tableGet]
      rw [if_neg (Ne.symm h)]
    · subst h2
      simp only [tableGet]
      rw [if_neg (Ne.symm h), if_neg (Ne.symm h)]
    · simp only [tableGet, ih]

theorem tableGet_put (t : Table α) (k j : Nat) (v : α) :
    tableGet (tablePut t k v) j = if j = k then some v else tableGet t j := by
  split_ifs with h
  · rw [h, tableGet_put_same]
  · exact tableGet_put_other t k j v h

theorem mem_tablePut {t : Table α} {k : Nat} {v : α} {c : Nat × α} (h : c ∈ tablePut t k v) :
    c = (k, v) ∨ c ∈ t := by
  induction t with
  | nil => simpa [tablePut] using h
  | cons d r ih =>
    obtain ⟨a, b⟩ := d
    simp only [tablePut] at h
    split_ifs at h with h1 h2
    · simpa using h
    · rcases List.mem_cons.1 h with h | h
      · exact .inl h
      · exact .inr (List.mem_cons_of_mem _ h)
    · rcases List.mem_cons.1 h with h | h
      · exact .inr (h ▸ List.mem_cons_self)
      · rcases ih h with h | h
        · exact .inl h
        · exact .inr (List.mem_cons_of_mem _ h)

theorem tablePut_wf {bound : Nat} {t : Table α} {k : Nat} {v : α} (hk : k < bound) (h : tableWf bound t) :
    tableWf bound (tablePut t k v) := by
  refine ⟨?_, fun c hc => ?_⟩
  · have hs := h.1
    clear h
    induction t with
    | nil => simp [tablePut]
    | cons d r ih =>
      obtain ⟨a, b⟩ := d
      have hr := List.pairwise_cons.1 hs
      simp only [tablePut]
      split_ifs with h1 h2
      · refine List.pairwise_cons.2 ⟨fun c hc => ?_, hs⟩
        rcases List.mem_cons.1 hc with hc | hc
        · subst hc; exact h1
        · exact Nat.lt_trans h1 (hr.1 c hc)
      · subst h2
        exact List.pairwise_cons.2 ⟨fun c hc => hr.1 c hc, hr.2⟩
      · refine List.pairwise_cons.2 ⟨fun c hc => ?_, ih hr.2⟩
        rcases mem_tablePut hc with hc | hc
        · subst hc; show a < k; omega
        · exact hr.1 c hc
  · rcases mem_tablePut hc with hc | hc
    · subst hc; exact hk
    · exact h.2 c hc

theorem tableGet_append (t u : Table α) (k : Nat) : tableGet (t ++ u) k = (tableGet t k).or (tableGet u k) := by
  induction t with
  | nil => simp [tableGet]
  | cons c r ih =>
    obtain ⟨a, b⟩ := c
    simp only [List.cons_append, tableGet]
    split_ifs
    · rfl
    · exact ih

theorem tableGet_filter (t : Table α) (p : Nat → Bool) (k : Nat) :
    tableGet (t.filter fun c => p c.1) k = if p k then tableGet t k else none := by
  induction t with
  | nil => simp [tableGet]
  | cons c r ih =>
    obtain ⟨a, b⟩ := c
    by_cases ha : p a
    · simp only [List.filter_cons, ha, if_true, tableGet]
      split_ifs with h1 h2 h2
      · rfl
      · subst h1; exact absurd ha h2
      · rw [ih, if_pos h2]
      · rw [ih, if_neg h2]
    · have ha' : p a = false := by simpa using ha
      simp only [List.filter_cons, ha', tableGet, Bool.false_eq_true, if_false, ih]
      split_ifs with h1 h2 <;> first | rfl | (subst h2; exact absurd h1 ha)

theorem tableGet_tabulate (n base k : Nat) (f : Nat → α) :
    tableGet ((List.range n).map fun i => (base + i, f (base + i))) k
      = if base ≤ k ∧ k < base + n then some (f k) else none := by
  induction n with
  | zero => simp [tableGet]
  | succ n ih =>
    rw [List.range_succ, List.map_append, tableGet_append, ih]
    simp only [List.map_cons, List.map_nil, tableGet]
    by_cases h1 : base ≤ k ∧ k < base + n
    · have : base ≤ k ∧ k < base + (n + 1) := by omega
      simp [h1, this]
    · by_cases h2 : base + n = k
      · subst h2; simp
      · have : ¬(base ≤ k ∧ k < base + (n + 1)) := by omega
        simp [h1, h2, this]

/-- Read after a block write. -/
theorem tableGet_fill (t : Table α) (base size k : Nat) (f : Nat → α) :
    tableGet (tableFill t base size f) k = if base ≤ k ∧ k < base + size then some (f k) else tableGet t k := by
  rw [tableFill, tableGet_append, tableGet_append, tableGet_filter t (fun a => decide (a < base)),
    tableGet_filter t (fun a => decide (base + size ≤ a)), tableGet_tabulate]
  by_cases h1 : k < base
  · have : ¬(base ≤ k ∧ k < base + size) := by omega
    have h2 : ¬(base + size ≤ k) := by omega
    simp [h1, this, h2]
  · by_cases h2 : k < base + size
    · have : base ≤ k ∧ k < base + size := by omega
      simp [h1, this]
    · have : ¬(base ≤ k ∧ k < base + size) := by omega
      have h3 : base + size ≤ k := by omega
      simp [h1, this, h3]

theorem tableFill_wf {bound : Nat} {t : Table α} {base size : Nat} {f : Nat → α} (hb : base + size ≤ bound)
    (h : tableWf bound t) : tableWf bound (tableFill t base size f) := by
  obtain ⟨hs, hk⟩ := h
  refine ⟨?_, fun c hc => ?_⟩
  · rw [tableFill, List.pairwise_append, List.pairwise_append]
    refine ⟨⟨hs.sublist List.filter_sublist, ?_, ?_⟩, hs.sublist List.filter_sublist, ?_⟩
    · rw [List.pairwise_map]
      exact List.pairwise_lt_range.imp (by intro a b hab; show base + a < base + b; omega)
    · intro a ha b hb'
      simp only [List.mem_filter, decide_eq_true_eq] at ha
      obtain ⟨i, -, rfl⟩ := List.mem_map.1 hb'
      show a.1 < base + i
      omega
    · intro a ha b hb'
      simp only [List.mem_filter, decide_eq_true_eq] at hb'
      rcases List.mem_append.1 ha with ha | ha
      · simp only [List.mem_filter, decide_eq_true_eq] at ha
        omega
      · obtain ⟨i, hi, rfl⟩ := List.mem_map.1 ha
        have := List.mem_range.1 hi
        show base + i < b.1
        omega
  · rw [tableFill, List.mem_append, List.mem_append] at hc
    rcases hc with (hc | hc) | hc
    · exact hk c (List.mem_filter.1 hc).1
    · obtain ⟨i, hi, rfl⟩ := List.mem_map.1 hc
      have := List.mem_range.1 hi
      show base + i < bound
      omega
    · exact hk c (List.mem_filter.1 hc).1

/-! ### Memory -/

/-- A byte write is seen at its address and nowhere else (20_memory.md R97). -/
theorem memAt_busWrite (s : State) (a : Word) (b : Byte) (k : Nat) :
    memAt (busWrite s a b) k = if k = a.toNat then some b else memAt s k := tableGet_put _ _ _ _

theorem busRead_busWrite (s : State) (a x : Word) (b : Byte) :
    busRead (busWrite s a b) x = if x = a then b else busRead s x := by
  simp only [busRead, busWrite_mem, tableGet_put, ← BitVec.toNat_inj]
  split_ifs <;> rfl

theorem busWrite_canonical {s : State} (a : Word) (b : Byte) (h : MemoryCanonical s) :
    MemoryCanonical (busWrite s a b) := tablePut_wf a.isLt h

theorem spoil_canonical {s : State} (base : Word) (size : Nat) (h : MemoryCanonical s) :
    MemoryCanonical (spoil s base size) :=
  tableFill_wf (by have : base.toNat < Config.busSize := base.isLt; omega) h

/-- Spoiling leaves every byte outside its range (20_memory.md R99, R100). -/
theorem memAt_spoil (s : State) (base : Word) (size k : Nat) (h : ¬(base.toNat ≤ k ∧ k < base.toNat + size)) :
    memAt (spoil s base size) k = memAt s k := by
  show tableGet (tableFill _ _ _ _) k = _
  rw [tableGet_fill, if_neg (by omega)]; rfl

/-! ### Windows -/

theorem windowHas_iff {w : Window} {a : Nat} : windowHas w a = true ↔ w.base ≤ a ∧ a < w.base + w.size := by
  rw [windowHas, Bool.and_eq_true, decide_eq_true_eq, decide_eq_true_eq]

theorem windowHas_false {w : Window} {a : Nat} : windowHas w a = false ↔ ¬(w.base ≤ a ∧ a < w.base + w.size) := by
  rw [← windowHas_iff, Bool.not_eq_true]

/-- ConfigCheck passes: no region wraps and no two share a byte (40_host_interface.md R184). -/
theorem regionError_none {l : Latch} (h : regionError l = none) :
    (windowWraps (regionIn l) = false ∧ windowWraps (regionOut l) = false ∧ windowWraps (regionScr l) = false) ∧
    windowsOverlap (regionIn l) (regionOut l) = false ∧ windowsOverlap (regionIn l) (regionScr l) = false ∧
    windowsOverlap (regionOut l) (regionScr l) = false := by
  rw [regionError] at h
  split_ifs at h with h1 h2
  simp only [Bool.or_eq_true, not_or, Bool.not_eq_true] at h1 h2
  tauto

theorem windowWraps_false {w : Window} (h : windowWraps w = false) {k : Nat} (hk : k < w.size) :
    w.base + k < 2 ^ 32 := by
  simp only [windowWraps, Bool.and_eq_false_iff, decide_eq_false_iff_not] at h
  have hb : Config.busSize = 4294967296 := rfl
  omega

theorem windowsOverlap_false {v w : Window} (h : windowsOverlap v w = false) {a : Nat} (h1 : windowHas v a = true) :
    windowHas w a = false := by
  simp only [windowsOverlap, Bool.and_eq_false_iff, decide_eq_false_iff_not] at h
  rw [windowHas_iff] at h1
  rw [windowHas_false]
  omega

/-! ### Fields that an operation leaves -/

theorem spoil_eq (s : State) (base : Word) (size : Nat) :
    ∃ m, spoil s base size = { s with mem := m, free := { s.free with count := s.free.count + 1 } } := ⟨_, rfl⟩

theorem emit_eq (s : State) (b : Byte) :
    emit s b = { s with
      mem := tablePut s.mem (busAt s.lat.scrBase s.out.n).toNat b
      out := ⟨tablePut s.out.win (s.out.n % Config.windowSize) b, s.out.n + 1, (s.out.s1 + b.toNat) % Config.adlerMod,
        (s.out.s2 + (s.out.s1 + b.toNat) % Config.adlerMod) % Config.adlerMod⟩ } := rfl

theorem racedWrite_eq (a : Word) (b : Byte) (s : State) :
    racedWrite a b s =
      { s with
        mem := tablePut s.mem a.toNat b, point := .completing (Config.racedOutcome s.free.count)
        free := { s.free with count := s.free.count + 1, raced := true } } := rfl

theorem racedWrite_canonical {s : State} (a : Word) (b : Byte) (h : MemoryCanonical s) :
    MemoryCanonical (racedWrite a b s) := busWrite_canonical a b h

/-! ### The completion step -/

/-- A completion keeps every field but the registers, memory and the free-value counter (40_host_interface.md R190). -/
theorem complete_eq (o : DecodeResult) (s : State) :
    ∃ m n, complete o s =
      { s with
        mem := m, free := { s.free with count := n }
        regs := completeRegs o (if s.free.raced then racedRegs s.free.count s.regs else s.regs) } := by
  rw [complete]
  by_cases h : o = .success ∧ s.free.raced = false
  · exact ⟨_, _, by rw [if_pos h]; rfl⟩
  · exact ⟨_, _, by rw [if_neg h]; rfl⟩

theorem complete_canonical {s : State} (o : DecodeResult) (h : MemoryCanonical s) : MemoryCanonical (complete o s) := by
  rw [complete]
  by_cases ho : o = .success ∧ s.free.raced = false
  · rw [if_pos ho]; exact spoil_canonical _ _ h
  · rw [if_neg ho]; exact spoil_canonical _ _ (spoil_canonical _ _ h)

theorem openWindow_base {s : State} {used whole : Window} (h : whole.base = used.base) :
    (openWindow s used whole).base = used.base := by
  rw [openWindow]
  split_ifs
  · exact h
  · rfl

theorem openOut_base (s : State) : (openOut s).base = s.lat.outBase.toNat := openWindow_base rfl
theorem openScr_base (s : State) : (openScr s).base = s.lat.scrBase.toNat := openWindow_base rfl

/-- What a completion can leave unspecified when no host write into the regions came: the used parts (R99, R100). -/
theorem openWindow_quiet {s : State} (h : s.free.raced = false) (used whole : Window) : openWindow s used whole = used := by
  simp [openWindow, h]

/-- A completion keeps every byte outside what it can leave unspecified of SCR, and of OUTR where it leaves that. -/
theorem memAt_complete (o : DecodeResult) (s : State) (k : Nat) (hs : windowHas (openScr s) k = false)
    (ho : (o = .success ∧ s.free.raced = false) ∨ windowHas (openOut s) k = false) :
    memAt (complete o s) k = memAt s k := by
  have h1 : memAt (spoil s s.lat.scrBase (openScr s).size) k = memAt s k :=
    memAt_spoil _ _ _ k (by rw [← openScr_base]; exact windowHas_false.1 hs)
  rw [complete]
  by_cases h : o = .success ∧ s.free.raced = false
  · rw [if_pos h]; exact h1
  · rw [if_neg h]
    refine (memAt_spoil _ _ _ k ?_).trans h1
    rw [← openOut_base]
    exact windowHas_false.1 (ho.resolve_left h)

end Sys2Proof.Machine
end

