-- ==== Sys2Proof/Laws/Operands.lean ====
section
/-! SUPPORT. Reading bits and symbols of C: what a read that succeeds says of the cursor, the value and the code. -/

namespace Sys2Proof.Machine

theorem bitsValue_lt (c : List Byte) (bp m : Nat) : bitsValue c bp m < 2 ^ m := by
  induction m generalizing bp with
  | zero => simp [bitsValue]
  | succ m ih =>
    have h := ih (bp + 1)
    have hb : (cBit c bp).toNat < 2 := Bool.toNat_lt _
    rw [bitsValue, pow_succ]
    omega

/-- GetBits succeeds exactly when the bits are there (44_inflate.md R321). -/
theorem getBits_eq_some {c : List Byte} {bp m v : Nat} :
    getBits c bp m = some v ↔ bp + m ≤ 8 * c.length ∧ v = bitsValue c bp m := by
  rw [getBits]
  split_ifs with h <;> simp [h, eq_comm]

theorem getBits_eq_none {c : List Byte} {bp m : Nat} : getBits c bp m = none ↔ 8 * c.length < bp + m := by
  rw [getBits]
  split_ifs with h <;> simp <;> omega

theorem getBits_some {c : List Byte} {bp m : Nat} (h : bp + m ≤ 8 * c.length) :
    getBits c bp m = some (bitsValue c bp m) := if_pos h

theorem getBits_none {c : List Byte} {bp m : Nat} (h : 8 * c.length < bp + m) : getBits c bp m = none :=
  if_neg (by omega)

/-- A byte boundary stands at most 7 bits further (R330, R370). -/
theorem alignBits_eq (bp : Nat) : alignBits bp = 8 * ((bp + 7) / 8) := by
  rw [alignBits, ceilDiv]; omega

theorem decodeSymFrom_sym {h : List CodeWord} {c : List Byte} {fuel bp l v x e : Nat}
    (hd : decodeSymFrom h c fuel bp l v = .sym x e) :
    bp < e ∧ e ≤ 8 * c.length ∧ ∃ w ∈ h, w.sym = x ∧ w.len = l + (e - bp) := by
  induction fuel generalizing bp l v with
  | zero => simp [decodeSymFrom] at hd
  | succ fuel ih =>
    rw [decodeSymFrom] at hd
    split at hd
    · split at hd
      · simp at hd
      · next b hb =>
        rw [getBits_eq_some] at hb
        split at hd
        · next w hw =>
          injection hd with h1 h2
          have hp := List.find?_some hw
          simp only [Bool.and_eq_true, beq_iff_eq] at hp
          refine ⟨by omega, by omega, w, List.mem_of_find?_eq_some hw, h1, ?_⟩
          rw [hp.1]; omega
        · obtain ⟨h1, h2, w, hw, hx, hl⟩ := ih hd
          exact ⟨by omega, h2, w, hw, hx, by omega⟩
    · simp at hd

/-- A decoded symbol moves the cursor by its code word, and is a symbol of the code (R322). -/
theorem decodeSym_sym {h : List CodeWord} {c : List Byte} {bp x e : Nat} (hd : decodeSym h c bp = .sym x e) :
    bp < e ∧ e ≤ 8 * c.length ∧ ∃ w ∈ h, w.sym = x := by
  obtain ⟨h1, h2, w, hw, hx, -⟩ := decodeSymFrom_sym hd
  exact ⟨h1, h2, w, hw, hx⟩

/-- BuildCode names symbols below the number of lengths (R341). -/
theorem assignCodes_sym {s : Nat} {next lens : List Nat} {w : CodeWord} (hw : w ∈ assignCodes s next lens) :
    s ≤ w.sym ∧ w.sym < s + lens.length ∧ w.len ≠ 0 ∧ lens.getD (w.sym - s) 0 = w.len := by
  induction lens generalizing s next with
  | nil => simp [assignCodes] at hw
  | cons l r ih =>
    rw [assignCodes] at hw
    split_ifs at hw with hl
    · obtain ⟨h1, h2, h3, h4⟩ := ih hw
      refine ⟨by omega, by simp only [List.length_cons]; omega, h3, ?_⟩
      rw [show w.sym - s = (w.sym - (s + 1)) + 1 by omega, List.getD_cons_succ, h4]
    · rcases List.mem_cons.1 hw with rfl | hw
      · simp [hl]
      · obtain ⟨h1, h2, h3, h4⟩ := ih hw
        refine ⟨by omega, by simp only [List.length_cons]; omega, h3, ?_⟩
        rw [show w.sym - s = (w.sym - (s + 1)) + 1 by omega, List.getD_cons_succ, h4]

/-- A code word of BuildCode names a symbol of the alphabet with the length it was given (R341). -/
theorem mem_buildCode {lens : List Nat} {w : CodeWord} (hw : w ∈ buildCode lens) :
    w.sym < lens.length ∧ w.len ≠ 0 ∧ lens.getD w.sym 0 = w.len := by
  obtain ⟨-, h2, h3, h4⟩ := assignCodes_sym hw
  exact ⟨by omega, h3, by simpa using h4⟩

theorem fixedLitLens_length : fixedLitLens.length = 288 := by
  rw [fixedLitLens, List.length_append, List.length_append, List.length_append, List.length_replicate,
    List.length_replicate, List.length_replicate, List.length_replicate]

theorem fixedDistLens_length : fixedDistLens.length = 32 := List.length_replicate

end Sys2Proof.Machine
end

