-- ==== Sys2Proof/Laws/Ops.lean ====
section
/-! SUPPORT. One lemma for each shared operation: everything it can change. -/

namespace Sys2Proof.Machine

/-! ### Bytes of the raw stream -/

theorem busAt_toNat (base : Word) (k : Nat) : (busAt base k).toNat = (base.toNat + k) % 2 ^ 32 := by
  simp [busAt, BitVec.toNat_add]

/-- Two raw-stream indices less than the size of the address space apart have different addresses. -/
theorem busAt_inj {base : Word} {j k : Nat} (hj : j < 2 ^ 32) (hk : k < 2 ^ 32) (h : busAt base j = busAt base k) :
    j = k := by
  have h1 := congrArg BitVec.toNat h
  rw [busAt_toNat, busAt_toNat] at h1
  omega

theorem rawByte_eq (s t : State) (k : Nat) (hl : t.lat = s.lat)
    (hm : memAt t (busAt s.lat.scrBase k).toNat = memAt s (busAt s.lat.scrBase k).toNat) :
    rawByte t k = rawByte s k := by
  simp only [rawByte, busRead, hl]
  rw [show tableGet t.mem (busAt s.lat.scrBase k).toNat = tableGet s.mem (busAt s.lat.scrBase k).toNat from hm]

theorem rawByte_setRaw (s : State) (k j : Nat) (b : Byte) (hk : k < 2 ^ 32) (hj : j < 2 ^ 32) :
    rawByte (setRaw s k b) j = if j = k then b else rawByte s j := by
  show busRead (busWrite s (busAt s.lat.scrBase k) b) (busAt s.lat.scrBase j) = _
  rw [busRead_busWrite]
  by_cases h : j = k
  · subst h; simp
  · rw [if_neg h, if_neg fun h1 => h (busAt_inj hj hk h1)]; rfl

theorem memAt_setRaw (s : State) (k : Nat) (b : Byte) (a : Nat) :
    memAt (setRaw s k b) a = if a = (s.lat.scrBase.toNat + k) % 2 ^ 32 then some b else memAt s a := by
  rw [setRaw, memAt_busWrite, busAt_toNat]

/-! ### Emit and the loops over it -/

@[simp] theorem emit_regs (s : State) (b : Byte) : (emit s b).regs = s.regs := rfl
@[simp] theorem emit_lat (s : State) (b : Byte) : (emit s b).lat = s.lat := rfl
@[simp] theorem emit_pos (s : State) (b : Byte) : (emit s b).pos = s.pos := rfl
@[simp] theorem emit_hdr (s : State) (b : Byte) : (emit s b).hdr = s.hdr := rfl
@[simp] theorem emit_parse (s : State) (b : Byte) : (emit s b).parse = s.parse := rfl
@[simp] theorem emit_tabs (s : State) (b : Byte) : (emit s b).tabs = s.tabs := rfl
@[simp] theorem emit_c (s : State) (b : Byte) : (emit s b).c = s.c := rfl
@[simp] theorem emit_infl (s : State) (b : Byte) : (emit s b).infl = s.infl := rfl
@[simp] theorem emit_defl (s : State) (b : Byte) : (emit s b).defl = s.defl := rfl
@[simp] theorem emit_exp (s : State) (b : Byte) : (emit s b).exp = s.exp := rfl
@[simp] theorem emit_point (s : State) (b : Byte) : (emit s b).point = s.point := rfl
@[simp] theorem emit_plat (s : State) (b : Byte) : (emit s b).plat = s.plat := rfl
@[simp] theorem emit_port (s : State) (b : Byte) : (emit s b).port = s.port := rfl
@[simp] theorem emit_free (s : State) (b : Byte) : (emit s b).free = s.free := rfl
@[simp] theorem emit_n (s : State) (b : Byte) : (emit s b).out.n = s.out.n + 1 := rfl

theorem memAt_emit (s : State) (b : Byte) (a : Nat) :
    memAt (emit s b) a = if a = (s.lat.scrBase.toNat + s.out.n) % 2 ^ 32 then some b else memAt s a :=
  memAt_setRaw s s.out.n b a

theorem rawByte_emit (s : State) (b : Byte) (j : Nat) (hn : s.out.n < 2 ^ 32) (hj : j < 2 ^ 32) :
    rawByte (emit s b) j = if j = s.out.n then b else rawByte s j :=
  rawByte_setRaw s s.out.n j b hn hj

/-- Emitting a list changes memory and the output fields only (44_inflate.md R363). -/
theorem foldl_emit_eq (bs : List Byte) (s : State) :
    bs.foldl emit s = { s with mem := (bs.foldl emit s).mem, out := (bs.foldl emit s).out } ∧
    (bs.foldl emit s).out.n = s.out.n + bs.length := by
  induction bs generalizing s with
  | nil => exact ⟨rfl, rfl⟩
  | cons b r ih =>
    obtain ⟨h1, h2⟩ := ih (emit s b)
    rw [List.foldl_cons]
    refine ⟨?_, by rw [h2, emit_n, List.length_cons]; omega⟩
    generalize r.foldl emit (emit s b) = t at h1
    obtain ⟨_⟩ := t
    exact h1

theorem memAt_foldl_emit (bs : List Byte) (s : State) (a : Nat)
    (h : ∀ k, k < bs.length → a ≠ (s.lat.scrBase.toNat + s.out.n + k) % 2 ^ 32) :
    memAt (bs.foldl emit s) a = memAt s a := by
  induction bs generalizing s with
  | nil => rfl
  | cons b r ih =>
    rw [List.foldl_cons, ih (emit s b), memAt_emit, if_neg (by simpa using h 0 (by simp))]
    intro k hk
    have := h (k + 1) (by simpa using hk)
    rw [emit_lat, emit_n]
    rwa [show s.lat.scrBase.toNat + (s.out.n + 1) + k = s.lat.scrBase.toNat + s.out.n + (k + 1) by omega]

/-- The copy loop is an emission of some `k` bytes (44_inflate.md R352). -/
theorem copyMatch_foldl (dist k : Nat) (s : State) :
    ∃ bs : List Byte, bs.length = k ∧ copyMatch dist k s = bs.foldl emit s := by
  induction k generalizing s with
  | zero => exact ⟨[], rfl, rfl⟩
  | succ k ih =>
    obtain ⟨bs, hl, h⟩ := ih (emit s (winByte s ((s.out.n - dist) % Config.windowSize)))
    exact ⟨winByte s ((s.out.n - dist) % Config.windowSize) :: bs, by rw [List.length_cons, hl], by
      rw [copyMatch, h, List.foldl_cons]⟩

theorem emit_setBp (s : State) (b : Byte) (bp : Nat) : emit (s.setBp bp) b = (emit s b).setBp bp := rfl

theorem foldl_emit_setBp (bs : List Byte) (s : State) (bp : Nat) :
    bs.foldl emit (s.setBp bp) = (bs.foldl emit s).setBp bp := by
  induction bs generalizing s with
  | nil => rfl
  | cons b r ih => rw [List.foldl_cons, emit_setBp, ih, List.foldl_cons]

/-- The data of a stored block: `len` bytes emitted and the block ended, or fewer emitted and the truncation raised
(44_inflate.md R330). -/
theorem storedCopy_cases (len : Nat) (s : State) :
    (∃ bs : List Byte, bs.length = len ∧ (0 < len → s.infl.bp + 8 * len ≤ 8 * s.c.length) ∧
      storedCopy len s = endBlock ((bs.foldl emit s).setBp (s.infl.bp + 8 * len))) ∨
    (∃ bs : List Byte, bs.length < len ∧
      storedCopy len s = .stop ((bs.foldl emit s).setBp (s.infl.bp + 8 * bs.length)) ⟨.zTruncated, s.c.length⟩) := by
  induction len generalizing s with
  | zero => exact .inl ⟨[], rfl, by simp, rfl⟩
  | succ k ih =>
    rw [storedCopy]
    cases hb : getBits s.c s.infl.bp 8 with
    | none => exact .inr ⟨[], by simp, rfl⟩
    | some b =>
      simp only [withBits]
      have hb' := (getBits_eq_some.1 hb).1
      rcases ih ((emit s (BitVec.ofNat 8 b)).setBp (s.infl.bp + 8)) with ⟨bs, hl, hr, h⟩ | ⟨bs, hl, h⟩
      · refine .inl ⟨BitVec.ofNat 8 b :: bs, by rw [List.length_cons, hl], fun _ => ?_, ?_⟩
        · simp at hr
          rcases Nat.eq_zero_or_pos k with rfl | hk
          · omega
          · have := hr hk; omega
        · rw [h, foldl_emit_setBp, List.foldl_cons]
          simp only [State.setBp_infl, emit_infl]
          rw [show s.infl.bp + 8 * (k + 1) = s.infl.bp + 8 + 8 * k by omega]
          rfl
      · refine .inr ⟨BitVec.ofNat 8 b :: bs, by simpa using hl, ?_⟩
        rw [h, foldl_emit_setBp, List.foldl_cons]
        simp only [State.setBp_infl, emit_infl, List.length_cons]
        rw [show s.infl.bp + 8 * (bs.length + 1) = s.infl.bp + 8 + 8 * bs.length by omega]
        rfl

/-! ### Rows and pixels -/

/-- Reconstruction changes memory only (45_defilter.md R401). -/
theorem reconBytes_eq (f : Recon) (off : Nat) (prev : Option Nat) (bpp n i : Nat) (s : State) :
    reconBytes f off prev bpp n i s = { s with mem := (reconBytes f off prev bpp n i s).mem } := by
  induction n generalizing i s with
  | zero => rfl
  | succ n ih => rw [reconBytes, ih]; rfl

/-- Reconstruction changes the bytes of its row only. -/
theorem memAt_reconBytes (f : Recon) (off : Nat) (prev : Option Nat) (bpp n i : Nat) (s : State) (a : Nat)
    (h : ∀ k, i ≤ k → k < i + n → a ≠ (s.lat.scrBase.toNat + (off + 1 + k)) % 2 ^ 32) :
    memAt (reconBytes f off prev bpp n i s) a = memAt s a := by
  induction n generalizing i s with
  | zero => rfl
  | succ n ih =>
    rw [reconBytes, ih, memAt_setRaw, if_neg (h i le_rfl (by omega))]
    intro k h1 h2
    exact h k (by omega) (by omega)

/-- A pixel write changes memory only (47_interlace.md R474). -/
theorem writePixel_eq (p : Rgba) (s : State) : writePixel p s = { s with mem := (writePixel p s).mem } := rfl

/-- A pixel write changes the four bytes of its pixel only. -/
theorem memAt_writePixel (p : Rgba) (s : State) (a : Nat)
    (h : ∀ k, k < 4 → a ≠ (s.lat.outBase.toNat + (pixelOffset s + k)) % 2 ^ 32) :
    memAt (writePixel p s) a = memAt s a := by
  have h0 := h 0 (by omega)
  have h1 := h 1 (by omega)
  have h2 := h 2 (by omega)
  have h3 := h 3 (by omega)
  simp only [writePixel, setOutByte, memAt_busWrite, busAt_toNat, busWrite_lat]
  rw [if_neg h3, if_neg h2, if_neg h1, if_neg (by simpa using h0)]

/-- The next pixel's cursors (47_interlace.md R474, R476). -/
theorem nextPixel_eq (s : State) : nextPixel s = { s with exp := (nextPixel s).exp, point := (nextPixel s).point } := by
  rw [nextPixel]
  split_ifs
  · rfl
  · rfl
  · split <;> rfl

/-- One pixel written and passed: memory, the expander's cursors and the point. -/
theorem putPixel_eq (p : Rgba) (s : State) :
    putPixel p s =
      { s with
        mem := (writePixel p s).mem, exp := (nextPixel (writePixel p s)).exp, point := (nextPixel (writePixel p s)).point } := by
  generalize hw : writePixel p s = w
  have h : w = { s with mem := w.mem } := by rw [← hw]; rfl
  rw [putPixel, hw, nextPixel_eq]
  rw [h]

/-- The next row's cursors (45_defilter.md R400, R410). -/
theorem nextRow_eq (s : State) :
    nextRow s = { s with regs := { s.regs with phase := (nextRow s).regs.phase },
                         defl := (nextRow s).defl, exp := (nextRow s).exp, point := (nextRow s).point } := by
  rw [nextRow]
  split_ifs
  · rfl
  · split
    · rfl
    · rw [enterExpand]; split <;> rfl

/-- The start of the defilter phase. -/
theorem enterDefilter_eq (s : State) :
    enterDefilter s = { s with regs := { s.regs with phase := (enterDefilter s).regs.phase },
                               defl := (enterDefilter s).defl, exp := (enterDefilter s).exp,
                               point := (enterDefilter s).point } := by
  rw [enterDefilter]
  split
  · rfl
  · rw [enterExpand]; split <;> rfl

@[simp] theorem upByte_none (s : State) (i : Nat) : upByte s none i = 0#8 := rfl
@[simp] theorem upByte_some (s : State) (p i : Nat) : upByte s (some p) i = rawByte s (p + 1 + i) := rfl
@[simp] theorem upLeftByte_none (s : State) (bpp i : Nat) : upLeftByte s none bpp i = 0#8 := rfl
@[simp] theorem upLeftByte_some (s : State) (p bpp i : Nat) :
    upLeftByte s (some p) bpp i = if bpp ≤ i then rawByte s (p + 1 + i - bpp) else 0#8 := rfl

/-- Reconstruction in place is the recurrence of 45_defilter.md R400 over the bytes it leaves: each byte of the row comes from
its filtered byte and the reconstructed neighbours, and every other raw byte stays. -/
theorem reconBytes_recurrence (f : Recon) (off : Nat) (prev : Option Nat) (bpp n i : Nat) (s : State) (hb : 1 ≤ bpp)
    (hoff : off + 1 + i + n ≤ 2 ^ 32) (hprev : ∀ p, prev = some p → p + 1 + i + n ≤ off) :
    let t := reconBytes f off prev bpp n i s
    (∀ k, i ≤ k → k < i + n → rawByte t (off + 1 + k) =
      f (rawByte s (off + 1 + k)) (leftByte t off bpp k) (upByte t prev k) (upLeftByte t prev bpp k)) ∧
    (∀ k, k < 2 ^ 32 → (k < off + 1 + i ∨ off + 1 + i + n ≤ k) → rawByte t k = rawByte s k) := by
  induction n generalizing i s with
  | zero => exact ⟨fun k h1 h2 => by omega, fun k _ _ => rfl⟩
  | succ n ih =>
    intro t
    set x := f (rawByte s (off + 1 + i)) (leftByte s off bpp i) (upByte s prev i) (upLeftByte s prev bpp i) with hx
    obtain ⟨i1, i2⟩ := ih (i + 1) (setRaw s (off + 1 + i) x) (by omega) (fun p hp => by have := hprev p hp; omega)
    have ht : t = reconBytes f off prev bpp n (i + 1) (setRaw s (off + 1 + i) x) := rfl
    rw [← ht] at i1 i2
    have keep : ∀ k, k < 2 ^ 32 → (k < off + 1 + i ∨ off + 1 + i + (n + 1) ≤ k) → rawByte t k = rawByte s k := by
      intro k hk h
      rw [i2 k hk (by omega), rawByte_setRaw _ _ _ _ (by omega) hk, if_neg (by omega)]
    refine ⟨fun k h1 h2 => ?_, keep⟩
    by_cases hki : k = i
    · subst hki
      rw [i2 _ (by omega) (by omega), rawByte_setRaw _ _ _ _ (by omega) (by omega), if_pos rfl, hx]
      have left : leftByte t off bpp k = leftByte s off bpp k := by
        rw [leftByte, leftByte]
        split_ifs
        · exact keep _ (by omega) (by omega)
        · rfl
      have up : upByte t prev k = upByte s prev k := by
        cases prev with
        | none => rfl
        | some p =>
          have := hprev p rfl
          exact keep _ (by omega) (by omega)
      have upLeft : upLeftByte t prev bpp k = upLeftByte s prev bpp k := by
        cases prev with
        | none => rfl
        | some p =>
          have := hprev p rfl
          rw [upLeftByte_some, upLeftByte_some]
          split_ifs
          · exact keep _ (by omega) (by omega)
          · rfl
      rw [left, up, upLeft]
    · rw [i1 k (by omega) (by omega), rawByte_setRaw _ _ _ _ (by omega) (by omega), if_neg (by omega)]

/-! ### Points after a pixel, a row, and the start of the defilter phase -/

theorem nextPixel_point (s : State) : (nextPixel s).point = .pixel ∨ (nextPixel s).point = .completing .success := by
  rw [nextPixel]
  split_ifs
  · simp
  · simp
  · split <;> simp

theorem nextRow_point (s : State) :
    (nextRow s).point = .scanline ∨ (nextRow s).point = .pixel ∨ (nextRow s).point = .completing .success := by
  rw [nextRow]
  split_ifs
  · simp
  · split
    · simp
    · rw [enterExpand]; split <;> simp

theorem enterDefilter_point (s : State) :
    (enterDefilter s).point = .scanline ∨ (enterDefilter s).point = .pixel ∨
      (enterDefilter s).point = .completing .success := by
  rw [enterDefilter]
  split
  · simp
  · rw [enterExpand]; split <;> simp

end Sys2Proof.Machine
end

