-- ==== Sys2Proof/Laws/Engine.lean ====
section
/-! SUPPORT. What an engine move can do, once and for all: one case for each thing that can be read at each point of the
sequential program (40_host_interface.md R181). Later proofs go by these cases and never unfold fetch, decode and exec. -/

namespace Sys2Proof.Machine

@[simp] theorem result_go (s : State) : (Flow.go s).result = .next s := rfl
@[simp] theorem result_stop (s : State) (e : Raise) : (Flow.stop s e).result = .next (raise s e.detail e.offset) := rfl

/-- The rule that Dispatch runs for a chunk type (43_header_interpreter.md R272). -/
inductive ChunkRule : Word → (State → Flow) → Prop
  | ihdr : ChunkRule 0x49484452#32 processIhdr
  | plte : ChunkRule 0x504C5445#32 processPlte
  | idat : ChunkRule 0x49444154#32 processIdat
  | iend : ChunkRule 0x49454E44#32 processIend
  | trns : ChunkRule 0x74524E53#32 processTrns
  | gama : ChunkRule 0x67414D41#32 processGama
  | skip (t : Word) (h : t ≠ 0x49484452#32) : ChunkRule t skipChunk
  | critical (t : Word) (h : t ≠ 0x49484452#32) : ChunkRule t fun s => stopAtChunk s .unknownCritical
  | ancillary (t : Word) (h : t ≠ 0x49484452#32) : ChunkRule t unknownAncillary

/-- A block header read: its start kept, the cursor after its three bits (44_inflate.md R320). -/
def atBlock (s : State) : State := s.setInfl { s.infl with bstart := s.infl.bp, bp := s.infl.bp + 3 }

/-- A symbol read: its start kept, the cursor at `e` (44_inflate.md R322). -/
def atSymbol (s : State) (e : Nat) : State := s.setInfl { s.infl with symStart := s.infl.bp, bp := e }

/-- The results an engine move has in a state. -/
inductive EngineCase (s : State) : Result → Prop
  | configCheck (h : s.point = .configCheck) : EngineCase s (.next (configCheck s))
  | signature (h : s.point = .signature) (bs : List Byte) (hb : bs.length ≤ s.lat.inLen.toNat) :
      EngineCase s (checkSignature bs s).result
  | frameBad (h : s.point = .chunkFrame) (d : Detail) : EngineCase s (.next (raise s d s.pos))
  | frame (h : s.point = .chunkFrame) (len ty : Word) : EngineCase s (readChunk len ty s).result
  | chunk (h : s.point = .chunkType) (body : State → Flow) (hb : ChunkRule s.parse.chunk.ty body) :
      EngineCase s (dispatch s.parse.chunk.ty body s).result
  | zlibShort (h : s.point = .zlibHeader) : EngineCase s (.next (truncated s))
  | zlib (h : s.point = .zlibHeader) (cmf flg : Byte) (hc : 2 ≤ s.c.length) : EngineCase s (zlibHeader cmf flg s).result
  | blockShort (h : s.point = .blockHeader) : EngineCase s (.next (truncated s))
  | stored (h : s.point = .blockHeader) (hb : s.infl.bp + 3 ≤ 8 * s.c.length) (fin : Bool) :
      EngineCase s (storedBlock (beginBlock fin 0 (atBlock s))).result
  | fixed (h : s.point = .blockHeader) (hb : s.infl.bp + 3 ≤ 8 * s.c.length) (fin : Bool) :
      EngineCase s (execBlockFixed fin (atBlock s))
  | dynamic (h : s.point = .blockHeader) (hb : s.infl.bp + 3 ≤ 8 * s.c.length) (fin : Bool) :
      EngineCase s (dynamicHeader (beginBlock fin 2 (atBlock s))).result
  | reserved (h : s.point = .blockHeader) (fin : Bool) (off : Nat) :
      EngineCase s (.next (raise (beginBlock fin 3 (atBlock s)) .dBadBtype off))
  | symbolBad (h : s.point = .clSymbol ∨ s.point = .litLen ∨ s.point = .distance) (d : Detail) (off : Nat) :
      EngineCase s (.next (raise s d off))
  | symbolInvalid (h : s.point = .litLen ∨ s.point = .distance) (e off : Nat) :
      EngineCase s (.next (raise (atSymbol s e) .dInvalidSymbol off))
  | strayCl (h : s.point = .clSymbol) (w : CodeWord) (hw : w ∈ s.infl.clCode) (hs : 19 ≤ w.sym) :
      EngineCase s (.fault .noSuchElement)
  | strayLit (h : s.point = .litLen) (w : CodeWord) (hw : w ∈ s.infl.llCode) (hs : 288 ≤ w.sym) :
      EngineCase s (.fault .noSuchElement)
  | strayDist (h : s.point = .distance) (w : CodeWord) (hw : w ∈ s.infl.dCode) (hs : 32 ≤ w.sym) :
      EngineCase s (.fault .noSuchElement)
  | clLen (h : s.point = .clSymbol) (e : Nat) (h1 : s.infl.bp < e) (h2 : e ≤ 8 * s.c.length) (l : BitVec 4) :
      EngineCase s (execClLen l (atSymbol s e))
  | clPrev (h : s.point = .clSymbol) (e : Nat) (h1 : s.infl.bp < e) (h2 : e ≤ 8 * s.c.length) :
      EngineCase s (repeatPrev (atSymbol s e)).result
  | clZero (h : s.point = .clSymbol) (e : Nat) (h1 : s.infl.bp < e) (h2 : e ≤ 8 * s.c.length) (base extra : Nat) :
      EngineCase s (zeroRun base extra (atSymbol s e)).result
  | lit (h : s.point = .litLen) (e : Nat) (h1 : s.infl.bp < e) (h2 : e ≤ 8 * s.c.length) (b : Byte) :
      EngineCase s (literal b (atSymbol s e)).result
  | eob (h : s.point = .litLen) (e : Nat) (h1 : s.infl.bp < e) (h2 : e ≤ 8 * s.c.length) :
      EngineCase s (endBlock (atSymbol s e)).result
  | length (h : s.point = .litLen) (e : Nat) (h1 : s.infl.bp < e) (h2 : e ≤ 8 * s.c.length) (base extra : Nat) :
      EngineCase s (matchLength base extra (atSymbol s e)).result
  | distance (h : s.point = .distance) (e : Nat) (h1 : s.infl.bp < e) (h2 : e ≤ 8 * s.c.length) (base extra : Nat)
      (hb : 1 ≤ base) (hx : base + 2 ^ extra ≤ 32769) : EngineCase s (matchDistance base extra (atSymbol s e)).result
  | adlerShort (h : s.point = .adler) : EngineCase s (.next (truncated s))
  | adler (h : s.point = .adler) (hq : alignBits s.infl.bp ≤ 8 * s.c.length) (a : Word) :
      EngineCase s (adlerTrailer a (s.setBp (alignBits s.infl.bp))).result
  | row (h : s.point = .scanline) (f : Recon) : EngineCase s (.next (filterRow f s))
  | rowBad (h : s.point = .scanline) (off : Nat) : EngineCase s (.next (raise s .badFilterType off))
  | pixel (h : s.point = .pixel) (p : Rgba) : EngineCase s (.next (putPixel p s))
  | pixelBad (h : s.point = .pixel) (d : Detail) (off : Nat) : EngineCase s (.next (raise s d off))
  | completing (o : DecodeResult) (h : s.point = .completing o) : EngineCase s (.next (complete o s))

theorem run_ctype (t : Word) (s : State) :
    ∃ body, ChunkRule t body ∧ runFetched (.element (.ctype t) s) = (dispatch t body s).result := by
  simp only [runFetched, decode, decodeType]
  split_ifs with h1 h2 h3 h4 h5 h6 h7 h8 h9 h10 <;> (try subst t)
  · exact ⟨_, .ihdr, rfl⟩
  · exact ⟨_, .plte, rfl⟩
  · exact ⟨_, .idat, rfl⟩
  · exact ⟨_, .iend, rfl⟩
  · exact ⟨_, .trns, rfl⟩
  · exact ⟨_, .gama, rfl⟩
  · exact ⟨_, .skip _ (by decide), rfl⟩
  · exact ⟨_, .skip _ (by decide), rfl⟩
  · exact ⟨_, .skip _ (by decide), rfl⟩
  · exact ⟨_, .ancillary _ h1, rfl⟩
  · exact ⟨_, .critical _ h1, rfl⟩

theorem run_frame (bs : List Byte) (hb : bs.length = 8) (s : State) :
    runFetched (.element (.frame bs) s) = .next (raise s .chunkBadType s.pos) ∨
    ∃ len ty, runFetched (.element (.frame bs) s) = (readChunk len ty s).result := by
  match bs, hb with
  | [l0, l1, l2, l3, t0, t1, t2, t3], _ =>
    simp only [runFetched, decode, decodeFrame]
    split_ifs
    · exact .inr ⟨_, _, rfl⟩
    · exact .inl rfl

theorem run_filter (b : Byte) (s : State) :
    (∃ f, runFetched (.element (.filter b) s) = .next (filterRow f s)) ∨
    runFetched (.element (.filter b) s) = .next (raise s .badFilterType s.defl.off) := by
  simp only [runFetched, decode, decodeFilter]
  split
  · exact .inl ⟨_, rfl⟩
  · exact .inl ⟨_, rfl⟩
  · exact .inl ⟨_, rfl⟩
  · exact .inl ⟨_, rfl⟩
  · exact .inl ⟨_, rfl⟩
  · exact .inr rfl

theorem indexPixel_cases (i k : Nat) (s : State) :
    (∃ p, (indexPixel i k s).result = .next (putPixel p s)) ∨
    ∃ d off, (indexPixel i k s).result = .next (raise s d off) := by
  by_cases h : s.tabs.plteN ≤ i
  · exact .inr ⟨_, _, by rw [indexPixel, if_pos h]; rfl⟩
  · exact .inl ⟨_, by rw [indexPixel, if_neg h]; rfl⟩

theorem run_mode (v : BitVec 16) (s : State) :
    (∃ p, runFetched (.element (.mode v) s) = .next (putPixel p s)) ∨
    ∃ d off, runFetched (.element (.mode v) s) = .next (raise s d off) := by
  simp only [runFetched, decode, decodeMode]
  split
  · exact .inl ⟨_, rfl⟩
  · exact .inl ⟨_, rfl⟩
  · exact .inl ⟨_, rfl⟩
  · exact .inl ⟨_, rfl⟩
  · exact .inl ⟨_, rfl⟩
  · exact .inl ⟨_, rfl⟩
  · exact .inl ⟨_, rfl⟩
  · exact indexPixel_cases _ _ s
  · exact indexPixel_cases _ _ s
  · exact indexPixel_cases _ _ s
  · exact indexPixel_cases _ _ s
  · exact .inl ⟨_, rfl⟩
  · exact .inl ⟨_, rfl⟩
  · exact .inl ⟨_, rfl⟩
  · exact .inl ⟨_, rfl⟩
  · exact .inr ⟨_, _, rfl⟩

theorem run_bhdr (v : BitVec 3) (s : State) :
    ∃ fin, runFetched (.element (.bhdr v) s) = (storedBlock (beginBlock fin 0 s)).result ∨
      runFetched (.element (.bhdr v) s) = execBlockFixed fin s ∨
      runFetched (.element (.bhdr v) s) = (dynamicHeader (beginBlock fin 2 s)).result ∨
      runFetched (.element (.bhdr v) s) = .next (raise (beginBlock fin 3 s) .dBadBtype (s.infl.bstart / 8)) := by
  refine ⟨v.getLsbD 0, ?_⟩
  simp only [runFetched, decode, decodeBlock]
  split_ifs
  · exact .inr (.inr (.inr rfl))
  · exact .inr (.inr (.inl rfl))
  · exact .inr (.inl rfl)
  · exact .inl rfl

theorem run_clsym (x : Nat) (s : State) :
    (19 ≤ x ∧ runFetched (.element (.clsym x) s) = .fault .noSuchElement) ∨
    (∃ l, runFetched (.element (.clsym x) s) = execClLen l s) ∨
    runFetched (.element (.clsym x) s) = (repeatPrev s).result ∨
    ∃ base extra, runFetched (.element (.clsym x) s) = (zeroRun base extra s).result := by
  simp only [runFetched, decode, decodeClSym]
  split_ifs with h
  · exact .inr (.inl ⟨_, rfl⟩)
  · split
    · next i hi =>
      split at hi
      · injection hi with hi; subst hi; exact .inr (.inr (.inl rfl))
      · injection hi with hi; subst hi; exact .inr (.inr (.inr ⟨_, _, rfl⟩))
      · injection hi with hi; subst hi; exact .inr (.inr (.inr ⟨_, _, rfl⟩))
      · exact absurd hi (by simp)
    · next e he =>
      split at he
      · exact absurd he (by simp)
      · exact absurd he (by simp)
      · exact absurd he (by simp)
      · next h16 h17 h18 =>
        refine .inl ⟨?_, rfl⟩
        have h16 : x ≠ 16 := h16
        have h17 : x ≠ 17 := h17
        have h18 : x ≠ 18 := h18
        omega

/-- What a literal/length symbol runs. -/
inductive LitLenRun (s : State) : Result → Prop
  | lit (b : Byte) : LitLenRun s (literal b s).result
  | eob : LitLenRun s (endBlock s).result
  | length (base extra : Nat) : LitLenRun s (matchLength base extra s).result
  | invalid : LitLenRun s (.next (raise s .dInvalidSymbol (s.infl.symStart / 8)))

theorem run_litlen (x : Nat) (s : State) :
    (288 ≤ x ∧ runFetched (.element (.litlen x) s) = .fault .noSuchElement) ∨
    LitLenRun s (runFetched (.element (.litlen x) s)) := by
  by_cases h : x < 256
  · right
    simp only [runFetched, decode, decodeLitLen, if_pos h]
    exact .lit _
  · by_cases h2 : x < 288
    · right
      interval_cases x <;> first | exact .eob | exact .length _ _ | exact .invalid
    · refine .inl ⟨by omega, ?_⟩
      simp only [runFetched, decode, decodeLitLen, if_neg h]
      split
      · next i hi => split at hi <;> first | omega | (exact absurd hi (by simp))
      · rfl

/-- What a distance symbol runs. -/
inductive DistRun (s : State) : Result → Prop
  | distance (base extra : Nat) (hb : 1 ≤ base) (hx : base + 2 ^ extra ≤ 32769) :
      DistRun s (matchDistance base extra s).result
  | invalid : DistRun s (.next (raise s .dInvalidSymbol (s.infl.symStart / 8)))

theorem run_dist (x : Nat) (s : State) :
    (32 ≤ x ∧ runFetched (.element (.dist x) s) = .fault .noSuchElement) ∨
    DistRun s (runFetched (.element (.dist x) s)) := by
  by_cases h2 : x < 32
  · right
    interval_cases x <;> first | exact .invalid | exact .distance _ _ (by decide) (by decide)
  · refine .inl ⟨by omega, ?_⟩
    simp only [runFetched, decode, decodeDist]
    split
    · next i hi => split at hi <;> first | omega | (exact absurd hi (by simp))
    · rfl

theorem run_sig (bs : List Byte) (hb : bs.length ≤ 8) (s : State) :
    runFetched (.element (.sig bs) s) = (checkSignature bs s).result := by
  simp only [runFetched, decode, if_pos hb]; rfl

theorem inBytes_length (s : State) (i n : Nat) : (inBytes s i n).length = n := by simp [inBytes]

/-- One of the cases holds of every engine move. -/
theorem engine_cases (s : State) : EngineCase s (runFetched (fetch s)) := by
  rw [fetch]
  split
  · next h => exact .configCheck h
  · next h =>
    have hl := inBytes_length s 0 (min 8 s.lat.inLen.toNat)
    rw [run_sig _ (by omega)]
    exact .signature h _ (by omega)
  · next h =>
    rw [fetchFrame]
    split_ifs with hl
    · exact .frameBad h _
    · rcases run_frame (inBytes s s.pos 8) (inBytes_length ..) s with hr | ⟨len, ty, hr⟩ <;> rw [hr]
      · exact .frameBad h _
      · exact .frame h _ _
  · next h =>
    obtain ⟨body, hb, hr⟩ := run_ctype s.parse.chunk.ty s
    rw [hr]
    exact .chunk h body hb
  · next h =>
    rw [fetchZlib]
    split
    · next cmf flg r hc => exact .zlib h cmf flg (by rw [hc]; simp)
    · exact .zlibShort h
  · next h =>
    rw [fetchBlock]
    split
    · next v hv =>
      have hb := (getBits_eq_some.1 hv).1
      obtain ⟨fin, hr | hr | hr | hr⟩ := run_bhdr (BitVec.ofNat 3 v) (atBlock s) <;> rw [atBlock] at hr <;> rw [hr]
      · exact .stored h hb fin
      · exact .fixed h hb fin
      · exact .dynamic h hb fin
      · exact .reserved h fin _
    · exact .blockShort h
  · next h =>
    rw [fetchSymbol]
    split
    · next x e hd =>
      obtain ⟨h1, h2, w, hw, rfl⟩ := decodeSym_sym hd
      rcases run_clsym w.sym (atSymbol s e) with ⟨h19, hr⟩ | ⟨l, hr⟩ | hr | ⟨b, x, hr⟩ <;> rw [atSymbol] at hr <;> rw [hr]
      · exact .strayCl h w hw h19
      · exact .clLen h e h1 h2 l
      · exact .clPrev h e h1 h2
      · exact .clZero h e h1 h2 b x
    · exact .symbolBad (.inl h) _ _
    · exact .symbolBad (.inl h) _ _
  · next h =>
    rw [fetchSymbol]
    split
    · next x e hd =>
      obtain ⟨h1, h2, w, hw, rfl⟩ := decodeSym_sym hd
      rcases run_litlen w.sym (atSymbol s e) with ⟨h19, hr⟩ | hr
      · rw [atSymbol] at hr; rw [hr]; exact .strayLit h w hw h19
      · change EngineCase s (runFetched (.element (.litlen w.sym) (atSymbol s e)))
        generalize runFetched (.element (.litlen w.sym) (atSymbol s e)) = r at hr
        cases hr with
        | lit b => exact .lit h e h1 h2 b
        | eob => exact .eob h e h1 h2
        | length b x => exact .length h e h1 h2 b x
        | invalid => exact .symbolInvalid (.inl h) e _
    · exact .symbolBad (.inr (.inl h)) _ _
    · exact .symbolBad (.inr (.inl h)) _ _
  · next h =>
    rw [fetchSymbol]
    split
    · next x e hd =>
      obtain ⟨h1, h2, w, hw, rfl⟩ := decodeSym_sym hd
      rcases run_dist w.sym (atSymbol s e) with ⟨h19, hr⟩ | hr
      · rw [atSymbol] at hr; rw [hr]; exact .strayDist h w hw h19
      · change EngineCase s (runFetched (.element (.dist w.sym) (atSymbol s e)))
        generalize runFetched (.element (.dist w.sym) (atSymbol s e)) = r at hr
        cases hr with
        | distance b x hb hx => exact .distance h e h1 h2 b x hb hx
        | invalid => exact .symbolInvalid (.inr h) e _
    · exact .symbolBad (.inr (.inr h)) _ _
    · exact .symbolBad (.inr (.inr h)) _ _
  · next h =>
    rw [fetchAdler]
    split_ifs with hl
    · exact .adlerShort h
    · have hq : alignBits s.infl.bp ≤ 8 * s.c.length := by rw [alignBits_eq] at *; omega
      have h4 : ((s.c.drop (alignBits s.infl.bp / 8)).take 4).length = 4 := by
        rw [List.length_take, List.length_drop]; omega
      match (s.c.drop (alignBits s.infl.bp / 8)).take 4, h4 with
      | [b0, b1, b2, b3], _ => exact .adler h hq _
  · next h =>
    rcases run_filter (rawByte s s.defl.off) s with ⟨f, hr⟩ | hr <;> rw [hr]
    · exact .row h f
    · exact .rowBad h _
  · next h =>
    rcases run_mode (BitVec.ofNat 16 (s.hdr.ctype * 256 + s.hdr.depth)) s with ⟨p, hr⟩ | ⟨d, off, hr⟩ <;> rw [hr]
    · exact .pixel h p
    · exact .pixelBad h d off
  · next o h => exact .completing o h

end Sys2Proof.Machine
end

