-- ==== Sys2Proof/Laws/Huffman.lean ====
section
/-! SUPPORT. Canonical Huffman codes: code words are distinct, none is a prefix of another, and DecodeSym finds each
(44_inflate.md R322, R341). -/

namespace Sys2Proof.Machine

/-- One round of the next_code loop of R341. -/
theorem nextCodes_step (lens : List Nat) (k l code j : Nat) (h : j + 1 < k) :
    (nextCodes lens k l code).getD (j + 1) 0 = ((nextCodes lens k l code).getD j 0 + blCount lens (l + j)) * 2 := by
  induction j generalizing k l code with
  | zero =>
    match k, h with
    | k + 2, _ => simp [nextCodes]
  | succ j ih =>
    match k, h with
    | k + 1, h =>
      simp only [nextCodes, List.getD_cons_succ]
      rw [ih k (l+1) _ (by omega)]
      rw [show l + 1 + j = l + (j + 1) by omega]

/-- next_code[l] of R341 before any symbol is assigned. -/
def firstCode (lens : List Nat) (l : Nat) : Nat := (0 :: nextCodes lens 15 1 0).getD l 0

theorem firstCode_step (lens) (l : Nat) (h : 1 ≤ l) (h2 : l < 15) :
    firstCode lens (l + 1) = (firstCode lens l + lens.count l) * 2 := by
  obtain ⟨j, rfl⟩ : ∃ j, l = j + 1 := ⟨l - 1, by omega⟩
  simp only [firstCode, List.getD_cons_succ]
  rw [nextCodes_step _ _ _ _ _ (by omega), blCount, if_neg (by omega), Nat.add_comm 1 j]
/-- The codes of a longer length begin after every code of a shorter one, extended. -/
theorem firstCode_ge (lens) (l d : Nat) (h : 1 ≤ l) (h2 : l + d + 1 ≤ 15) :
    (firstCode lens l + lens.count l) * 2 ^ (d + 1) ≤ firstCode lens (l + d + 1) := by
  induction d with
  | zero => rw [firstCode_step _ _ h (by omega)]; simp
  | succ d ih =>
    have := ih (by omega)
    have e := firstCode_step lens (l + d + 1) (by omega) (by omega)
    rw [show l + (d + 1) + 1 = l + d + 1 + 1 by omega, e, Nat.pow_succ, ← Nat.mul_assoc]
    have : firstCode lens (l+d+1) ≤ firstCode lens (l+d+1) + lens.count (l+d+1) := by omega
    nlinarith

/-- The values given to the code words of one length run on from next_code of it. -/
theorem assignCodes_range (s : Nat) (next lens : List Nat) (hn : next.length = 16) (hl : ∀ l ∈ lens, l ≤ 15)
    (w : CodeWord) (hw : w ∈ assignCodes s next lens) :
    1 ≤ w.len ∧ w.len ≤ 15 ∧ next.getD w.len 0 ≤ w.code ∧ w.code < next.getD w.len 0 + lens.count w.len := by
  induction lens generalizing s next with
  | nil => simp [assignCodes] at hw
  | cons l r ih =>
    rw [assignCodes] at hw
    have hl15 := hl l (by simp)
    split_ifs at hw with h0
    · obtain ⟨a, b, c, d⟩ := ih _ _ hn (fun x hx => hl x (by simp [hx])) hw
      refine ⟨a, b, c, ?_⟩
      rw [List.count_cons_of_ne (by omega)]; exact d
    · rcases List.mem_cons.1 hw with rfl | hw
      · refine ⟨by show 1 ≤ l; omega, hl15, le_rfl, ?_⟩
        show _ < _ + (l :: r).count l
        simp
      · obtain ⟨a, b, c, d⟩ := ih _ _ (by simpa using hn) (fun x hx => hl x (by simp [hx])) hw
        by_cases e : w.len = l
        · rw [e] at c d ⊢
          have : (next.set l (next.getD l 0 + 1)).getD l 0 = next.getD l 0 + 1 := by
            simp [List.getD_eq_getElem?_getD, hn, show l < 16 by omega]
          rw [this] at c d
          rw [List.count_cons_self]
          exact ⟨by omega, by omega, by omega, by omega⟩
        · have : (next.set l (next.getD l 0 + 1)).getD w.len 0 = next.getD w.len 0 := by
            simp [List.getD_eq_getElem?_getD, show l ≠ w.len by omega]
          rw [this] at c d
          rw [List.count_cons_of_ne (by omega)]
          exact ⟨a, b, c, d⟩

theorem assignCodes_unique (s : Nat) (next lens : List Nat) (hn : next.length = 16) (hl : ∀ l ∈ lens, l ≤ 15)
    (w v : CodeWord) (hw : w ∈ assignCodes s next lens) (hv : v ∈ assignCodes s next lens) (e1 : w.len = v.len) (e2 : w.code = v.code) : w = v := by
  induction lens generalizing s next with
  | nil => simp [assignCodes] at hw
  | cons l r ih =>
    rw [assignCodes] at hw hv
    have hl15 := hl l (by simp)
    have hl' : ∀ x ∈ r, x ≤ 15 := fun x hx => hl x (by simp [hx])
    split_ifs at hw hv with h0
    · exact ih _ _ hn hl' hw hv
    · have key : ∀ u ∈ assignCodes (s+1) (next.set l (next.getD l 0 + 1)) r, u.len = l → next.getD l 0 + 1 ≤ u.code := by
        intro u hu hul
        have := (assignCodes_range _ _ _ (by simpa using hn) hl' u hu).2.2.1
        rw [hul] at this
        have e : (next.set l (next.getD l 0 + 1)).getD l 0 = next.getD l 0 + 1 := by
          simp [List.getD_eq_getElem?_getD, hn, show l < 16 by omega]
        omega
      rcases List.mem_cons.1 hw with rfl | hw <;> rcases List.mem_cons.1 hv with rfl | hv
      · rfl
      · have := key v hv e1.symm; change next.getD l 0 = v.code at e2; omega
      · have := key w hw e1; change w.code = next.getD l 0 at e2; omega
      · exact ih _ _ (by simpa using hn) hl' hw hv

theorem nextCodes_length (lens k l code) : (nextCodes lens k l code).length = k := by
  induction k generalizing l code with
  | zero => rfl
  | succ k ih => simp [nextCodes, ih]

/-- Two code words of one length and value are one code word. -/
theorem buildCode_unique {lens : List Nat} (hl : ∀ l ∈ lens, l ≤ 15) {w v : CodeWord} (hw : w ∈ buildCode lens)
    (hv : v ∈ buildCode lens) (e1 : w.len = v.len) (e2 : w.code = v.code) : w = v :=
  assignCodes_unique _ _ _ (by simp [nextCodes_length]) hl w v hw hv e1 e2

/-- No code word is a prefix of a longer one. -/
theorem buildCode_prefix_free {lens : List Nat} (hl : ∀ l ∈ lens, l ≤ 15) {w v : CodeWord} (hw : w ∈ buildCode lens)
    (hv : v ∈ buildCode lens) (h : v.len < w.len) : v.code ≠ w.code / 2 ^ (w.len - v.len) := by
  have hn : (0 :: nextCodes lens 15 1 0).length = 16 := by simp [nextCodes_length]
  obtain ⟨a, b, c, d⟩ := assignCodes_range _ _ _ hn hl w hw
  obtain ⟨a', b', c', d'⟩ := assignCodes_range _ _ _ hn hl v hv
  have := firstCode_ge lens v.len (w.len - v.len - 1) a' (by omega)
  rw [show v.len + (w.len - v.len - 1) + 1 = w.len by omega, show w.len - v.len - 1 + 1 = w.len - v.len by omega] at this
  have h2 : firstCode lens v.len + lens.count v.len ≤ w.code / 2 ^ (w.len - v.len) := by
    rw [Nat.le_div_iff_mul_le (Nat.two_pow_pos _)]
    exact this.trans c
  have : v.code < firstCode lens v.len + lens.count v.len := d'
  omega

/-- One round of DecodeSym while the bits read are a proper prefix of a code word and its next bit follows (R322). -/
theorem decodeSymFrom_round {h : List CodeWord} {w : CodeWord} (hw : w ∈ h) (c : List Byte) (bp l fuel : Nat)
    (hl : l < w.len) (hb : bp + l < 8 * c.length) (hbit : cBit c (bp + l) = w.code.testBit (w.len - 1 - l)) :
    decodeSymFrom h c (fuel + 1) (bp + l) l (w.code / 2 ^ (w.len - l)) =
      match h.find? (fun u => u.len == l + 1 && u.code == w.code / 2 ^ (w.len - (l + 1))) with
      | some u => .sym u.sym (bp + l + 1)
      | none => decodeSymFrom h c fuel (bp + l + 1) (l + 1) (w.code / 2 ^ (w.len - (l + 1))) := by
  have hany : h.any (fun u => decide (l < u.len) && u.code / 2 ^ (u.len - l) == w.code / 2 ^ (w.len - l)) = true :=
    List.any_eq_true.2 ⟨w, hw, by simpa using hl⟩
  have hg : getBits c (bp + l) 1 = some (w.code.testBit (w.len - 1 - l)).toNat := by
    rw [getBits, if_pos (by omega)]
    simp [bitsValue, hbit]
  have hv : 2 * (w.code / 2 ^ (w.len - l)) + (w.code.testBit (w.len - 1 - l)).toNat = w.code / 2 ^ (w.len - (l + 1)) := by
    rw [Nat.toNat_testBit, show w.len - l = (w.len - 1 - l) + 1 by omega, Nat.pow_succ, ← Nat.div_div_eq_div_mul,
      show w.len - (l + 1) = w.len - 1 - l by omega]
    omega
  rw [decodeSymFrom, if_pos hany, hg]
  simp only [hv] <;> rfl

/-- The round ends with no symbol when the word has more bits, no code word being a prefix of another. -/
theorem decodeSymFrom_inside {lens : List Nat} (hlens : ∀ l ∈ lens, l ≤ 15) {w : CodeWord} (hw : w ∈ buildCode lens)
    (c : List Byte) (bp l fuel : Nat) (hl : l + 1 < w.len) (hb : bp + l < 8 * c.length)
    (hbit : cBit c (bp + l) = w.code.testBit (w.len - 1 - l)) :
    decodeSymFrom (buildCode lens) c (fuel + 1) (bp + l) l (w.code / 2 ^ (w.len - l)) =
      decodeSymFrom (buildCode lens) c fuel (bp + l + 1) (l + 1) (w.code / 2 ^ (w.len - (l + 1))) := by
  have hfind : (buildCode lens).find? (fun u => u.len == l + 1 && u.code == w.code / 2 ^ (w.len - (l + 1))) = none := by
    rw [List.find?_eq_none]
    intro v hv hx
    simp only [Bool.and_eq_true, beq_iff_eq] at hx
    have := buildCode_prefix_free hlens hw hv (by omega)
    rw [hx.1] at this
    exact this hx.2
  rw [decodeSymFrom_round hw c bp l fuel (by omega) hb hbit, hfind]

/-- DecodeSym from the middle of a code word on: the rest of its bits lead to its symbol (R322). -/
theorem decodeSymFrom_word (lens : List Nat) (c : List Byte) (bp : Nat) (w : CodeWord) (hl : ∀ l ∈ lens, l ≤ 15)
    (hw : w ∈ buildCode lens) (hb : bp + w.len ≤ 8 * c.length)
    (hbits : ∀ j, j < w.len → cBit c (bp + j) = w.code.testBit (w.len - 1 - j))
    (r l fuel : Nat) (hr : l + r + 1 = w.len) (hf : r + 1 ≤ fuel) :
    decodeSymFrom (buildCode lens) c fuel (bp + l) l (w.code / 2 ^ (w.len - l)) = .sym w.sym (bp + w.len) := by
  induction r generalizing l fuel with
  | zero =>
    have hwl : l + 1 = w.len := by omega
    obtain ⟨fuel, rfl⟩ : ∃ f, fuel = f + 1 := ⟨fuel - 1, by omega⟩
    rw [decodeSymFrom_round hw c bp l fuel (by omega) (by omega) (hbits l (by omega))]
    have hfind : (buildCode lens).find? (fun u => u.len == l + 1 && u.code == w.code / 2 ^ (w.len - (l + 1))) = some w := by
      rw [hwl, Nat.sub_self, Nat.pow_zero, Nat.div_one]
      cases hx : (buildCode lens).find? (fun u => u.len == w.len && u.code == w.code) with
      | none =>
        rw [List.find?_eq_none] at hx
        have := hx w hw
        simp at this
      | some v =>
        have h2 := List.find?_some hx
        simp only [Bool.and_eq_true, beq_iff_eq] at h2
        rw [buildCode_unique hl (List.mem_of_find?_eq_some hx) hw h2.1 h2.2]
    rw [hfind, ← hwl]
    rfl
  | succ r ih =>
    obtain ⟨fuel, rfl⟩ : ∃ f, fuel = f + 1 := ⟨fuel - 1, by omega⟩
    rw [decodeSymFrom_inside hl hw c bp l fuel (by omega) (by omega) (hbits l (by omega))]
    exact ih (l + 1) fuel (by omega) (by omega)

/-- The value of the first k bits of C from bp, the first bit the most significant (30_encoding.md R132). -/
def codeBits (c : List Byte) (bp : Nat) : Nat → Nat
  | 0 => 0
  | k + 1 => 2 * codeBits c bp k + (cBit c (bp + k)).toNat

/-- A code word whose first k bits have the value of the bits read agrees with each of them. -/
theorem codeBits_agree (c : List Byte) (bp : Nat) (w : CodeWord) (k : Nat) (hk : k ≤ w.len)
    (h : w.code / 2 ^ (w.len - k) = codeBits c bp k) (j : Nat) (hj : j < k) :
    cBit c (bp + j) = w.code.testBit (w.len - 1 - j) := by
  induction k with
  | zero => omega
  | succ k ih =>
    have hb := (cBit c (bp + k)).toNat_lt
    rw [codeBits] at h
    by_cases e : j = k
    · subst e
      have : w.code.testBit (w.len - 1 - j) = decide ((w.code / 2 ^ (w.len - (j + 1))) % 2 = 1) := by
        rw [Nat.testBit_eq_decide_div_mod_eq, show w.len - 1 - j = w.len - (j + 1) by omega]
      rw [this, h]
      cases cBit c (bp + j) <;> simp
    · refine ih (by omega) ?_ (by omega)
      rw [show w.len - k = w.len - (k + 1) + 1 by omega, Nat.pow_succ, ← Nat.div_div_eq_div_mul, h]
      omega

/-- A round of DecodeSym in which no code word extends the bits read finds none (R322). -/
theorem decodeSymFrom_invalid (h : List CodeWord) (c : List Byte) (fuel bp l v : Nat)
    (hn : ∀ w ∈ h, ¬(l < w.len ∧ w.code / 2 ^ (w.len - l) = v)) : decodeSymFrom h c fuel bp l v = .invalid := by
  cases fuel with
  | zero => rfl
  | succ fuel =>
    rw [decodeSymFrom, if_neg]
    rw [List.any_eq_true]
    rintro ⟨w, hw, hx⟩
    exact hn w hw (by simpa using hx)

end Sys2Proof.Machine
end

