-- ==== Sys2Proof/Laws/Step.lean ====
section
/-! SUPPORT. What a step can do, once and for all: an engine move, a host command, or an event of the outside world. -/

namespace Sys2Proof.Machine

/-- What a transaction on the host port does (40_host_interface.md R182 to R192). -/
inductive PortCase (s : State) : Result → Prop
  | ignored : PortCase s (.next s)
  | refused : PortCase s (.refused .portAccess)
  | start (v : Word) (hr : s.port.rstN = true) (hb : s.regs.busy = false) (hd : coversDevice s = false) :
      PortCase s (.next (launch v s))
  | device (hr : s.port.rstN = true) (hb : s.regs.busy = false) (hd : coversDevice s = true) :
      PortCase s (.refused .regionCoversDevice)
  | irqEn (hr : s.port.rstN = true) (v : Word) : PortCase s (.next (setIrqEnable v s))
  | clear (hr : s.port.rstN = true) (v : Word) : PortCase s (.next (s.setRegs (clearStatusFlags v s.regs)))
  | cfg (hr : s.port.rstN = true) (r : CfgReg) (v : Word) (hb : s.regs.busy = false) :
      PortCase s (.next (s.setRegs (writeCfgReg r v s.regs)))
  | read (off : BitVec 8) : PortCase s (execRead off s)

/-- An access that decodes runs, but for a write in reset (70_reset_and_hazards.md R550). -/
theorem portMove_ok {a : Access} {i : Instr} (h : decode (.access a) = .ok i) (s : State) :
    portMove a s = if accessWrites a && !s.port.rstN then .next s else exec i s := by rw [portMove, h]

theorem portMove_refused {a : Access} (h : decode (.access a) = .error .portAccess) (s : State) :
    portMove a s = .refused .portAccess := by rw [portMove, h]

theorem portMove_ignored {a : Access} (h : decode (.access a) = .error .ignoredWrite) (s : State) :
    portMove a s = .next s := by rw [portMove, h]

theorem decode_aligned_write {off : BitVec 8} {w : Width} (v : Word) (h : w = .w32 ∧ off.toNat % 4 = 0) :
    decode (.access (.write off w v)) =
      if off.toNat = 0x04 then if v.getLsbD 0 then .ok (.start v) else .ok (.setIrqEn v)
      else if off.toNat = 0x0C then .ok (.clearStatus v)
      else
        match cfgRegAt off with
        | some r => .ok (.writeCfg r v)
        | none => .error .ignoredWrite := by
  rw [decode, decodeAccess]
  exact if_pos h

theorem port_cases (a : Access) (s : State) : PortCase s (portMove a s) := by
  cases a with
  | read off w =>
    by_cases h : w = .w32 ∧ off.toNat % 4 = 0
    · rw [portMove_ok (i := .read off) (by rw [decode, decodeAccess, if_pos h])]
      exact .read off
    · rw [portMove_refused (by rw [decode, decodeAccess, if_neg h])]
      exact .refused
  | write off w v =>
    -- A write that decodes is ignored in reset, and runs otherwise.
    have run : ∀ i : Instr, decode (.access (.write off w v)) = .ok i →
        (s.port.rstN = true → PortCase s (exec i s)) → PortCase s (portMove (.write off w v) s) := by
      intro i hd h
      rw [portMove_ok hd]
      split_ifs with hr
      · exact .ignored
      · exact h (by simpa [accessWrites] using hr)
    by_cases h1 : w = .w32 ∧ off.toNat % 4 = 0
    · have hd := decode_aligned_write v h1
      split_ifs at hd with h2 h3
      · refine run _ hd fun hr => ?_
        show PortCase s (execStart v s)
        rw [execStart]
        split_ifs with hb hd
        · exact .irqEn hr v
        · exact .device hr (by simpa using hb) hd
        · exact .start v hr (by simpa using hb) (by simpa using hd)
      · exact run _ hd fun hr => .irqEn hr v
      · exact run _ hd fun hr => .clear hr v
      · cases hc : cfgRegAt off with
        | none =>
          rw [hc] at hd
          rw [portMove_ignored hd]
          exact .ignored
        | some r =>
          rw [hc] at hd
          refine run _ hd fun hr => ?_
          show PortCase s (execWriteCfg r v s)
          rw [execWriteCfg]
          split_ifs with hb
          · exact .ignored
          · exact .cfg hr r v (by simpa using hb)
    · rw [portMove_refused (by rw [decode, decodeAccess, if_neg h1])]
      exact .refused

/-- The results a step has in a state. -/
inductive StepCase (s : State) : Result → Prop
  | engine (u : State) (r : Result)
      (hu : (s.port.inputs = [] ∧ u = s) ∨ ∃ rest, s.port.inputs = .engine :: rest ∧ u = popInput s)
      (hb : u.regs.busy = true) (hr : EngineCase u r) : StepCase s r
  | idle (u : State)
      (hu : (s.port.inputs = [] ∧ u = s) ∨ ∃ rest, s.port.inputs = .engine :: rest ∧ u = popInput s)
      (hb : u.regs.busy = false) : StepCase s (.next u)
  | port (a : Access) (rest : List Input) (hi : s.port.inputs = .access a :: rest) (r : Result)
      (hr : PortCase (popInput s) r) : StepCase s r
  | busError (w : Bool) (a : Word) (rest : List Input) (hi : s.port.inputs = .busError w a :: rest) :
      StepCase s (.next (busError w a (popInput s)))
  | memWrite (a : Word) (b : Byte) (rest : List Input) (hi : s.port.inputs = .memWrite a b :: rest) :
      StepCase s (.next (hostWrite a b (popInput s)))
  | memRead (a : Word) (rest : List Input) (hi : s.port.inputs = .memRead a :: rest) :
      StepCase s (.next (hostRead a (popInput s)))
  | resetLow (rest : List Input) (hi : s.port.inputs = .resetLow :: rest) : StepCase s (.next (resetLow (popInput s)))
  | resetHigh (rest : List Input) (hi : s.port.inputs = .resetHigh :: rest) : StepCase s (.next (resetHigh (popInput s)))

/-- One of the cases holds of every step. -/
theorem step_cases (s : State) : StepCase s (step s) := by
  have engine : ∀ u, ((s.port.inputs = [] ∧ u = s) ∨ ∃ rest, s.port.inputs = .engine :: rest ∧ u = popInput s) →
      StepCase s (engineMove u) := by
    intro u hu
    rw [engineMove]
    split_ifs with hb
    · exact .engine u _ hu hb (engine_cases u)
    · exact .idle u hu (by simpa using hb)
  rw [step]
  split
  · next hi => exact engine s (.inl ⟨hi, rfl⟩)
  · next i rest hi =>
    cases i with
    | access a => exact .port a rest hi _ (port_cases a _)
    | engine => exact engine (popInput s) (.inr ⟨rest, hi, rfl⟩)
    | busError w a => exact .busError w a rest hi
    | memWrite a b => exact .memWrite a b rest hi
    | memRead a => exact .memRead a rest hi
    | resetLow => exact .resetLow rest hi
    | resetHigh => exact .resetHigh rest hi

/-- When it is the engine's turn, a step is an engine move. -/
theorem step_engine {s : State} (h : EngineTurn s) : step s = runFetched (fetch s) := by
  rw [step, h.2]
  exact if_pos h.1

end Sys2Proof.Machine
end

