-- ==== Sys2Proof/Laws/Moves.lean ====
section
/-! SUPPORT. An engine move that answers a state, with every flow resolved: the next state written out in terms of the one
before, one case for each kind of move. The invariants are proved by these cases. -/

namespace Sys2Proof.Machine

/-- The state a flow has reached. -/
def Flow.state : Flow → State
  | .go s => s
  | .stop s _ => s

theorem result_next {f : Flow} {t : State} (h : f.result = .next t) :
    (∃ e, f = .stop f.state e ∧ t = raise f.state e.detail e.offset) ∨ (f = .go f.state ∧ t = f.state) := by
  cases f with
  | go s => right; injection h with h; exact ⟨rfl, h.symm⟩
  | stop s e => left; injection h with h; exact ⟨e, rfl, h.symm⟩

theorem next_inj {u t : State} (h : (Host.Outcome.next u : Result) = .next t) : t = u := by injection h with h; exact h.symm

/-- The point and the inflater's fields after a move inside Inflate, and the codes in use there. -/
structure InflMove (s : State) (i : Infl) (p : Point) : Prop where
  from_blocks : s.point.inBlocks = true
  to_blocks : p.inBlocks = true
  advances : s.infl.bp < i.bp
  inside : i.bp ≤ 8 * s.c.length
  clCode : p = .clSymbol →
    (s.point = .clSymbol ∧ i.clCode = s.infl.clCode ∧ i.nl = s.infl.nl ∧ i.nd = s.infl.nd) ∨
    ((∀ w ∈ i.clCode, w.sym < 19) ∧ i.nl ≤ 286 ∧ i.nd ≤ 30)
  litCode : p = .litLen ∨ p = .distance →
    ((s.point = .litLen ∨ s.point = .distance) ∧ i.llCode = s.infl.llCode ∧ i.dCode = s.infl.dCode) ∨
    ((s.point = .clSymbol → s.infl.nl ≤ 286 ∧ s.infl.nd ≤ 30) →
      (∀ w ∈ i.llCode, w.sym < 288) ∧ ∀ w ∈ i.dCode, w.sym < 32)

/-- What may differ in the state an error is raised in. -/
structure Raised (s u : State) : Prop where
  lat : u.lat = s.lat
  seen : u.parse.seenIhdr = s.parse.seenIhdr
  hdr : s.parse.seenIhdr = true → u.hdr = s.hdr
  busy : u.regs.busy = s.regs.busy
  pos_le : s.pos ≤ u.pos
  pos_in : s.pos ≤ s.lat.inLen.toNat → u.pos ≤ s.lat.inLen.toNat
  mem : u.mem = s.mem ∨ ∃ bs : List Byte, s.point.inBlocks = true ∧ s.out.n + bs.length ≤ rawLength s.hdr ∧
    u.mem = (bs.foldl emit s).mem

theorem Raised.refl (s : State) : Raised s s := ⟨rfl, rfl, fun _ => rfl, rfl, le_rfl, id, .inl rfl⟩

/-- The moves of the engine other than the completion step. -/
inductive Move (s : State) : State → Prop
  | raised (u : State) (d : Detail) (off : Nat) (h : Raised s u) : Move s (raise u d off)
  | configOk (h : s.point = .configCheck) (hr : regionError s.lat = none) : Move s ((s.setPhase 1).setPoint .signature)
  | sigOk (h : s.point = .signature) (hl : 8 ≤ s.lat.inLen.toNat) : Move s ((s.setPos 8).setPoint .chunkFrame)
  | frameOk (h : s.point = .chunkFrame) (len : Nat) (ty : Word) (hl : s.pos + 12 + len ≤ s.lat.inLen.toNat) :
      Move s (((s.setPos (s.pos + 12 + len)).setParse { s.parse with chunk := ⟨s.pos, len, ty⟩ }).setPoint .chunkType)
  | ihdrOk (h : s.point = .chunkType) (hs : s.parse.seenIhdr = false) (hd : Header) (r : Regs) (idat : IdatState)
      (hr : r.busy = s.regs.busy)
      (hm : BitVec.ofNat 16 (hd.ctype * 256 + hd.depth) ∈ legalModes ∧ hd.ctype < 256 ∧ hd.depth < 256)
      (hw : 0 < hd.width) (hh : 0 < hd.height) (ho : outLength hd ≤ s.lat.outCap.toNat)
      (hx : rawLength hd ≤ s.lat.scrCap.toNat) :
      Move s (nextChunk { s with hdr := hd, regs := r, parse := { s.parse with seenIhdr := true, idat := idat } })
  | chunkOk (h : s.point = .chunkType) (hn : s.parse.nchunks ≠ 0) (r : Regs) (hr : r.busy = s.regs.busy) (p : Parse)
      (hs : p.seenIhdr = s.parse.seenIhdr) (hp : p.nchunks = s.parse.nchunks) (hc : p.chunk = s.parse.chunk) (t : Tables)
      (c : List Byte) (hcc : c = s.c ∨ c.length = s.c.length + s.parse.chunk.len) :
      Move s (nextChunk { s with regs := r, parse := p, tabs := t, c := c })
  | parseEnd (h : s.point = .chunkType) (hn : s.parse.nchunks ≠ 0) (p : Parse) (hs : p.seenIhdr = s.parse.seenIhdr) :
      Move s (((s.setParse p).setPhase 2).setPoint .zlibHeader)
  | zlibOk (h : s.point = .zlibHeader) (hc : 2 ≤ s.c.length) : Move s ((s.setBp 16).setPoint .blockHeader)
  | inflate (bs : List Byte) (i : Infl) (p : Point) (hi : InflMove s i p)
      (hb : bs = [] ∨ s.out.n + bs.length ≤ rawLength s.hdr) :
      Move s { bs.foldl emit s with infl := i, point := p }
  | adlerOk (h : s.point = .adler) (bp : Nat) : Move s (enterDefilter (s.setBp bp))
  | row (h : s.point = .scanline) (f : Recon) : Move s (filterRow f s)
  | pixel (h : s.point = .pixel) (p : Rgba) : Move s (putPixel p s)

/-- A flow that ends in a move, or in a state an error is raised in. -/
def FlowMove (s : State) : Flow → Prop
  | .go t => Move s t
  | .stop u _ => Raised s u

theorem FlowMove.move {s t : State} {f : Flow} (h : FlowMove s f) (hr : f.result = .next t) : Move s t := by
  cases f with
  | go u => rw [next_inj hr]; exact h
  | stop u e => rw [next_inj hr]; exact .raised u _ _ h

theorem foldl_emit_setInfl (bs : List Byte) (s : State) (i : Infl) :
    bs.foldl emit (s.setInfl i) = (bs.foldl emit s).setInfl i := by
  induction bs generalizing s with
  | nil => rfl
  | cons b r ih => exact ih (emit s b)

/-- An emission in a state where an error is raised. -/
theorem Raised.emitted {s : State} {bs : List Byte} (i : Infl) (hp : s.point.inBlocks = true)
    (hb : bs = [] ∨ s.out.n + bs.length ≤ rawLength s.hdr) : Raised s ((bs.foldl emit s).setInfl i) := by
  have h := (foldl_emit_eq bs s).1
  refine ⟨?_, ?_, fun _ => ?_, ?_, ?_, fun hp => ?_, ?_⟩
  · rw [h]; rfl
  · rw [h]; rfl
  · rw [h]; rfl
  · rw [h]; rfl
  · rw [h]; exact le_refl s.pos
  · rw [h]; exact hp
  · rcases hb with rfl | hb
    · exact .inl rfl
    · exact .inr ⟨bs, hp, hb, rfl⟩

theorem endBlock_move {s : State} {bs : List Byte} {i : Infl} (hp : s.point.inBlocks = true)
    (ha : s.infl.bp < i.bp) (hi : i.bp ≤ 8 * s.c.length) (hb : bs = [] ∨ s.out.n + bs.length ≤ rawLength s.hdr) :
    FlowMove s (endBlock ((bs.foldl emit s).setInfl i)) := by
  have hm : ∀ p, p = .adler ∨ p = .blockHeader → InflMove s i p := by
    rintro p (rfl | rfl) <;> exact ⟨hp, rfl, ha, hi, by simp, by simp⟩
  rw [endBlock]
  split_ifs
  · exact Raised.emitted i hp hb
  · exact Move.inflate bs i .adler (hm _ (.inl rfl)) hb
  · exact Move.inflate bs i .blockHeader (hm _ (.inr rfl)) hb

theorem storedBlock_move {s : State} {i : Infl} (hp : s.point.inBlocks = true) (ha : s.infl.bp < i.bp) :
    FlowMove s (storedBlock (s.setInfl i)) := by
  have hq := alignBits_eq i.bp
  simp only [storedBlock, withBits, State.setInfl_infl, State.setInfl_c]
  split
  · next len h1 =>
    split
    · next nlen h2 =>
      have hc := (getBits_eq_some.1 h2).1
      split_ifs with h3 h4
      · exact Raised.emitted (bs := []) i hp (.inl rfl)
      · exact Raised.emitted (bs := []) i hp (.inl rfl)
      · have h4 : s.out.n + len ≤ rawLength s.hdr := by
          change ¬(rawLength s.hdr < s.out.n + len) at h4; omega
        rcases storedCopy_cases len ((s.setInfl i).setBp (alignBits i.bp + 32)) with ⟨bs, hl, hr, h⟩ | ⟨bs, hl, h⟩ <;>
          rw [h]
        · rw [foldl_emit_setBp, foldl_emit_setInfl]
          refine endBlock_move (i := { i with bp := alignBits i.bp + 32 + 8 * len }) hp ?_ ?_ (.inr (by omega))
          · show s.infl.bp < alignBits i.bp + 32 + 8 * len
            omega
          · change 0 < len → alignBits i.bp + 32 + 8 * len ≤ 8 * s.c.length at hr
            show alignBits i.bp + 32 + 8 * len ≤ 8 * s.c.length
            rcases Nat.eq_zero_or_pos len with h0 | h0
            · omega
            · exact hr h0
        · rw [foldl_emit_setBp, foldl_emit_setInfl]
          exact Raised.emitted _ hp (.inr (by omega))
    · exact Raised.emitted (bs := []) i hp (.inl rfl)
  · exact Raised.emitted (bs := []) i hp (.inl rfl)

theorem readClLens_length {c : List Byte} {ks : List Nat} {bp : Nat} {cll out : List Nat}
    (h : readClLens c ks bp cll = some out) :
    out.length = cll.length ∧ (ks ≠ [] → bp + 3 * ks.length ≤ 8 * c.length) := by
  induction ks generalizing bp cll with
  | nil => rw [readClLens] at h; injection h with h; subst h; exact ⟨rfl, by simp⟩
  | cons k r ih =>
    rw [readClLens] at h
    split at h
    · cases h
    · next l hl =>
      obtain ⟨h1, h2⟩ := ih h
      have := (getBits_eq_some.1 hl).1
      refine ⟨by rw [h1, List.length_set], fun _ => ?_⟩
      cases r with
      | nil => simpa using this
      | cons k' r' =>
        have := h2 (by simp)
        simp only [List.length_cons] at this ⊢
        omega

theorem dynamicHeader_move {s : State} {i : Infl} (hp : s.point.inBlocks = true) (ha : s.infl.bp < i.bp) :
    FlowMove s (dynamicHeader (s.setInfl i)) := by
  simp only [dynamicHeader, withBits, State.setInfl_infl, State.setInfl_c]
  have hR : Raised s (s.setInfl i) := Raised.emitted (bs := []) i hp (.inl rfl)
  split
  · next hlit h1 =>
    split
    · next hdist h2 =>
      split
      · next hclen h3 =>
        split_ifs with h4
        · exact hR
        · split
          · exact hR
          · next cll hc =>
            obtain ⟨hl, hb⟩ := readClLens_length hc
            have hlt := bitsValue_lt s.c (i.bp + 10) 4
            rw [← (getBits_eq_some.1 h3).2] at hlt
            have hlen : (clOrder.take (hclen + 4)).length = hclen + 4 := by
              rw [List.length_take]; simp only [clOrder, List.length_cons, List.length_nil]; omega
            have hb := hb (by intro h0; rw [h0] at hlen; simp at hlen)
            rw [hlen] at hb
            split_ifs
            · exact Move.inflate [] { i with
                  bp := i.bp + 14 + 3 * (hclen + 4), cll := cll, clCode := buildCode cll, lens := []
                  nl := hlit + 257, nd := hdist + 1 } .clSymbol
                ⟨hp, rfl, by show s.infl.bp < i.bp + 14 + 3 * (hclen + 4); omega, hb,
                  fun _ => .inr ⟨fun w hw => by have := (mem_buildCode hw).1; simp at hl; omega,
                    by show hlit + 257 ≤ 286; omega, by show hdist + 1 ≤ 30; omega⟩,
                  by simp⟩ (.inl rfl)
            · exact hR
      · exact hR
    · exact hR
  · exact hR

theorem afterLens_move {s : State} {i : Infl} (hp : s.point = .clSymbol) (ha : s.infl.bp < i.bp)
    (hi : i.bp ≤ 8 * s.c.length) (h1 : i.clCode = s.infl.clCode) (h2 : i.nl = s.infl.nl) (h3 : i.nd = s.infl.nd) :
    FlowMove s (afterLens (s.setInfl i)) := by
  have hp' : s.point.inBlocks = true := by rw [hp]; rfl
  rw [afterLens]
  split_ifs
  · exact Move.inflate [] i .clSymbol ⟨hp', rfl, ha, hi, fun _ => .inl ⟨hp, h1, h2, h3⟩, by simp⟩ (.inl rfl)
  · simp only [finishDynamic]
    split
    · exact Raised.emitted (bs := []) _ hp' (.inl rfl)
    · refine Move.inflate [] _ .litLen ⟨hp', rfl, ha, hi, by simp, fun _ => .inr fun hn => ?_⟩ (.inl rfl)
      obtain ⟨n1, n2⟩ := hn hp
      refine ⟨fun w hw => ?_, fun w hw => ?_⟩
      · have := (mem_buildCode hw).1
        simp only [State.setInfl_infl, List.length_append, List.length_take, List.length_replicate] at this
        omega
      · have := (mem_buildCode hw).1
        simp only [State.setInfl_infl, List.length_append, List.length_take, List.length_drop,
          List.length_replicate] at this
        omega

theorem append_ofNat (a b : Byte) : a ++ b = BitVec.ofNat 16 (a.toNat * 256 + b.toNat) := by
  apply BitVec.eq_of_toNat_eq
  have ha := a.isLt
  have hb := b.isLt
  rw [BitVec.toNat_append, BitVec.toNat_ofNat, ← Nat.shiftLeft_add_eq_or_of_lt hb, Nat.shiftLeft_eq, Nat.mod_eq_of_lt]
  all_goals omega

/-- An IHDR that passes CheckIHDRFormat (43_header_interpreter.md R274). -/
theorem ihdrFormatError_none {s : State} (h : ihdrFormatError s = none) :
    (BitVec.ofNat 16 ((ihdrHeader s).ctype * 256 + (ihdrHeader s).depth) ∈ legalModes ∧ (ihdrHeader s).ctype < 256 ∧
      (ihdrHeader s).depth < 256) ∧ 0 < (ihdrHeader s).width ∧ 0 < (ihdrHeader s).height ∧ s.parse.chunk.len = 13 := by
  simp only [ihdrFormatError] at h
  split_ifs at h with h1 h2 h3 h4
  refine ⟨⟨?_, (dataByte s 9).isLt, (dataByte s 8).isLt⟩, by omega, by omega, by omega⟩
  rw [append_ofNat] at h4
  show BitVec.ofNat 16 ((dataByte s 9).toNat * 256 + (dataByte s 8).toNat) ∈ legalModes
  simpa using h4

theorem processIhdr_move {s : State} {x : IdatState} (hp : s.point = .chunkType) :
    FlowMove s (processIhdr (s.setParse { s.parse with idat := x })) := by
  have hR : Raised s (s.setParse { s.parse with idat := x }) := ⟨rfl, rfl, fun _ => rfl, rfl, le_rfl, id, .inl rfl⟩
  rw [processIhdr]
  split_ifs with hs
  · exact hR
  · have hs : s.parse.seenIhdr = false := by simpa using hs
    have hR' : ∀ h r, r.busy = s.regs.busy →
        Raised s (((s.setParse { s.parse with idat := x }).setHdr h).setRegs r) := fun h r hr =>
      ⟨rfl, rfl, fun h' => (by rw [hs] at h'; cases h'), hr, le_rfl, id, .inl rfl⟩
    split
    · exact hR
    · next hf =>
      obtain ⟨hm, hw, hh, -⟩ := ihdrFormatError_none hf
      generalize ihdrHeader (s.setParse { s.parse with idat := x }) = h at hm hw hh
      by_cases h1 : overCeiling s.plat h = true
      · rw [if_pos (by exact h1)]; exact hR' _ _ rfl
      rw [if_neg (by exact h1)]
      by_cases h2 : s.lat.outCap.toNat < outLength h
      · rw [if_pos (by exact h2)]; exact hR' _ _ rfl
      rw [if_neg (by exact h2)]
      by_cases h3 : s.lat.scrCap.toNat < rawLength h
      · rw [if_pos (by exact h3)]; exact hR' _ _ rfl
      rw [if_neg (by exact h3)]
      exact Move.ihdrOk hp hs h _ x rfl hm hw hh (Nat.not_lt.1 h2) (Nat.not_lt.1 h3)

/-- A chunk in its dispatch (43_header_interpreter.md R272). -/
theorem dispatch_move {s : State} {ty : Word} {body : State → Flow} (hp : s.point = .chunkType) (hb : ChunkRule ty body) :
    FlowMove s (dispatch ty body s) := by
  obtain ⟨x, hx⟩ : ∃ x, endIdatRun ty s = s.setParse { s.parse with idat := x } := by
    rw [endIdatRun]
    by_cases h : ty ≠ 0x49444154#32 ∧ s.parse.idat = .inRun
    · exact ⟨.ended, by rw [if_pos h]⟩
    · exact ⟨s.parse.idat, by rw [if_neg h]; rfl⟩
  have hR : Raised s (s.setParse { s.parse with idat := x }) := ⟨rfl, rfl, fun _ => rfl, rfl, le_rfl, id, .inl rfl⟩
  rw [dispatch, hx]
  by_cases h0 : s.parse.nchunks = 0 ∧ ty ≠ 0x49484452#32
  · rw [if_pos h0]; exact Raised.refl s
  rw [if_neg h0]
  by_cases h1 : criticalTag ty ∧ ty ≠ 0x49444154#32 ∧ ty ≠ 0x49454E44#32 ∧ x ≠ .none
  · rw [if_pos (by exact h1)]; exact hR
  · rw [if_neg (by exact h1)]
    have hn : ty ≠ 0x49484452#32 → s.parse.nchunks ≠ 0 := fun h h' => h0 ⟨h', h⟩
    have hskip : ty ≠ 0x49484452#32 → FlowMove s (skipChunk (s.setParse { s.parse with idat := x })) := fun h =>
      Move.chunkOk hp (hn h) s.regs rfl { s.parse with idat := x } rfl rfl rfl s.tabs s.c (.inl rfl)
    have hanc : ∀ d, ty ≠ 0x49484452#32 → FlowMove s (ancBad d (s.setParse { s.parse with idat := x })) := by
      intro d h
      rw [ancBad]; split_ifs
      · exact hR
      · exact hskip h
    cases hb with
    | skip _ h => exact hskip h
    | critical _ h => exact hR
    | ancillary _ h => exact hanc .unknownAncillary h
    | ihdr => exact processIhdr_move hp
    | plte =>
      rw [processPlte]
      split
      · exact hR
      · refine Move.chunkOk hp (hn (by decide)) _ ?_ { s.parse with idat := x, seenPlte := true } rfl rfl rfl _ s.c (.inl rfl)
        rfl
    | idat =>
      have hc : (s.c ++ dataBytes (s.setParse { s.parse with idat := x })).length = s.c.length + s.parse.chunk.len := by
        rw [List.length_append, dataBytes, inBytes_length]; rfl
      rw [processIdat]
      split
      · exact hR
      · exact Move.chunkOk hp (hn (by decide)) s.regs rfl { s.parse with idat := x } rfl rfl rfl s.tabs _ (.inr hc)
      · split_ifs
        · exact hR
        · exact Move.chunkOk hp (hn (by decide)) s.regs rfl { s.parse with idat := .inRun } rfl rfl rfl s.tabs _ (.inr hc)
    | iend =>
      rw [processIend]
      split_ifs
      · exact hR
      · exact hR
      · exact Move.parseEnd hp (hn (by decide)) { s.parse with idat := x, nchunks := s.parse.nchunks + 1 } rfl
    | trns =>
      rw [processTrns]
      split
      · exact hanc _ (by decide)
      · refine Move.chunkOk hp (hn (by decide)) _ ?_ { s.parse with idat := x, seenTrns := true } rfl rfl rfl _ s.c (.inl rfl)
        simp only [trnsRegs]; split <;> rfl
    | gama =>
      rw [processGama]
      split
      · exact hanc _ (by decide)
      · refine Move.chunkOk hp (hn (by decide)) _ ?_ { s.parse with idat := x, seenGama := true } rfl rfl rfl s.tabs s.c (.inl rfl)
        rfl

/-- Every engine move but the completion step is one of the moves. -/
theorem engine_moves {s t : State} {r : Result} (hc : EngineCase s r) (hp : ∀ o, s.point ≠ .completing o)
    (hr : r = .next t) : Move s t := by
  have hR := Raised.refl s
  have hI : ∀ i, s.point.inBlocks = true → Raised s (s.setInfl i) := fun i h => Raised.emitted (bs := []) i h (.inl rfl)
  cases hc with
  | configCheck h =>
    rw [next_inj hr, configCheck]
    split
    · exact .raised s _ _ hR
    · next h' => exact .configOk h h'
  | signature h bs hb =>
    refine FlowMove.move ?_ hr
    rw [checkSignature]
    split
    · exact hR
    · next h' =>
      refine Move.sigOk h ?_
      have : ∀ (i : Nat) (xs bs : List Byte), signatureError i xs bs = none → xs.length ≤ bs.length := by
        intro i xs
        induction xs generalizing i with
        | nil => simp
        | cons x xs ih =>
          intro bs hbs
          cases bs with
          | nil => cases hbs
          | cons b bs =>
            rw [signatureError] at hbs
            split_ifs at hbs
            simpa using ih _ _ hbs
      exact le_trans (this 0 _ _ h') hb
  | frameBad h d => rw [next_inj hr]; exact .raised s _ _ hR
  | frame h len ty =>
    refine FlowMove.move ?_ hr
    simp only [readChunk]
    split_ifs with h1 h2
    · exact hR
    · exact ⟨rfl, rfl, fun _ => rfl, rfl, by show s.pos ≤ s.pos + 12 + len.toNat; omega,
        fun _ => by show s.pos + 12 + len.toNat ≤ _; omega, .inl rfl⟩
    · exact Move.frameOk h len.toNat ty (by omega)
  | chunk h body hb => exact (dispatch_move h hb).move hr
  | zlibShort h => rw [next_inj hr]; exact .raised s _ _ hR
  | zlib h cmf flg hc =>
    refine FlowMove.move ?_ hr
    rw [zlibHeader]
    split
    · exact hR
    · exact Move.zlibOk h hc
  | blockShort h => rw [next_inj hr]; exact .raised s _ _ hR
  | stored h hb fin =>
    exact (storedBlock_move (i := { s.infl with bstart := s.infl.bp, bp := s.infl.bp + 3, bfinal := fin, btype := 0 })
      (by rw [h]; rfl) (by show _ < s.infl.bp + 3; omega)).move hr
  | fixed h hb fin =>
    rw [next_inj hr]
    exact Move.inflate [] _ .litLen ⟨by rw [h]; rfl, rfl, by show _ < s.infl.bp + 3; omega, hb, by simp, fun _ => .inr fun _ =>
      ⟨fun w hw => fixedLitLens_length ▸ (mem_buildCode hw).1,
        fun w hw => fixedDistLens_length ▸ (mem_buildCode hw).1⟩⟩ (.inl rfl)
  | dynamic h hb fin =>
    exact (dynamicHeader_move (i := { s.infl with bstart := s.infl.bp, bp := s.infl.bp + 3, bfinal := fin, btype := 2 })
      (by rw [h]; rfl) (by show _ < s.infl.bp + 3; omega)).move hr
  | reserved h fin off => rw [next_inj hr]; exact .raised _ _ _ (hI _ (by rw [h]; rfl))
  | symbolBad h d off => rw [next_inj hr]; exact .raised s _ _ hR
  | symbolInvalid h e off =>
    rw [next_inj hr]; exact .raised _ _ _ (hI _ (by rcases h with h | h <;> rw [h] <;> rfl))
  | strayCl => cases hr
  | strayLit => cases hr
  | strayDist => cases hr
  | clLen h e h1 h2 l =>
    exact (afterLens_move (i := { s.infl with symStart := s.infl.bp, bp := e, lens := s.infl.lens ++ List.replicate 1 l.toNat })
      h h1 h2 rfl rfl rfl).move hr
  | clPrev h e h1 h2 =>
    refine FlowMove.move ?_ hr
    have hI := fun i => hI i (by rw [h]; rfl)
    simp only [repeatPrev, withBits]
    split
    · next x hx =>
      have := (getBits_eq_some.1 hx).1
      change e + 2 ≤ 8 * s.c.length at this
      split
      · exact hI _
      · split_ifs
        · exact hI _
        · exact afterLens_move (i := { s.infl with symStart := s.infl.bp, bp := e + 2, lens := _ })
            h (by show _ < e + 2; omega) this rfl rfl rfl
    · exact hI _
  | clZero h e h1 h2 base extra =>
    refine FlowMove.move ?_ hr
    have hI := fun i => hI i (by rw [h]; rfl)
    simp only [zeroRun, withBits]
    split
    · next x hx =>
      have := (getBits_eq_some.1 hx).1
      change e + extra ≤ 8 * s.c.length at this
      split_ifs
      · exact hI _
      · exact afterLens_move (i := { s.infl with symStart := s.infl.bp, bp := e + extra, lens := _ })
          h (by show _ < e + extra; omega) this rfl rfl rfl
    · exact hI _
  | lit h e h1 h2 b =>
    refine FlowMove.move ?_ hr
    rw [literal]
    split_ifs with hl
    · exact hI _ (by rw [h]; rfl)
    · refine Move.inflate [b] { s.infl with symStart := s.infl.bp, bp := e } .litLen
        ⟨by rw [h]; rfl, rfl, h1, h2, by simp, fun _ => .inl ⟨.inl h, rfl, rfl⟩⟩ (.inr ?_)
      change ¬(rawLength s.hdr ≤ s.out.n) at hl
      simp only [List.length_singleton]; omega
  | eob h e h1 h2 =>
    exact (endBlock_move (bs := []) (i := { s.infl with symStart := s.infl.bp, bp := e }) (by rw [h]; rfl) h1 h2
      (.inl rfl)).move hr
  | length h e h1 h2 base extra =>
    refine FlowMove.move ?_ hr
    simp only [matchLength, withBits]
    split
    · next x hx =>
      have := (getBits_eq_some.1 hx).1
      change e + extra ≤ 8 * s.c.length at this
      exact Move.inflate [] { s.infl with
          symStart := s.infl.bp, bp := e + extra, mlen := base + x, lenStart := s.infl.bp } .distance
        ⟨by rw [h]; rfl, rfl, by show _ < e + extra; omega, this, by simp, fun _ => .inl ⟨.inl h, rfl, rfl⟩⟩ (.inl rfl)
    · exact hI _ (by rw [h]; rfl)
  | distance h e h1 h2 base extra hb hx' =>
    refine FlowMove.move ?_ hr
    have hI := fun i => hI i (by rw [h]; rfl)
    simp only [matchDistance, withBits]
    split
    · next x hx =>
      have := (getBits_eq_some.1 hx).1
      change e + extra ≤ 8 * s.c.length at this
      split_ifs with h3 h4
      · exact hI _
      · exact hI _
      · obtain ⟨bs, hl, hc⟩ := copyMatch_foldl (base + x) (atSymbol s e).infl.mlen ((atSymbol s e).setBp ((atSymbol s e).infl.bp + extra))
        rw [hc]
        have h4 : ¬(rawLength s.hdr < s.out.n + s.infl.mlen) := h4
        have hl : bs.length = s.infl.mlen := hl
        have := Move.inflate bs { s.infl with symStart := s.infl.bp, bp := e + extra } .litLen
          ⟨by rw [h]; rfl, rfl, by show _ < e + extra; omega, this, by simp, fun _ => .inl ⟨.inr h, rfl, rfl⟩⟩
          (.inr (by omega))
        have hs : (atSymbol s e).setBp ((atSymbol s e).infl.bp + extra) =
          s.setInfl { s.infl with symStart := s.infl.bp, bp := e + extra } := rfl
        rw [hs, foldl_emit_setInfl]
        exact this
    · exact hI _
  | adlerShort h => rw [next_inj hr]; exact .raised s _ _ hR
  | adler h hq a =>
    refine FlowMove.move ?_ hr
    rw [adlerTrailer]
    split_ifs
    · exact hI _ (by rw [h]; rfl)
    · exact Move.adlerOk h _
  | row h f => rw [next_inj hr]; exact .row h f
  | rowBad h off => rw [next_inj hr]; exact .raised s _ _ hR
  | pixel h p => rw [next_inj hr]; exact .pixel h p
  | pixelBad h d off => rw [next_inj hr]; exact .raised s _ _ hR
  | completing o h => exact absurd h (hp o)

/-- A predicate kept by every kind of thing a step does is kept by the step. -/
theorem step_preserves {P : State → Prop} {s t : State} (hs : step s = .next t) (h : P s)
    (hport : ∀ s p f, P s → P ((s.setPort p).setFree f))
    (hmove : ∀ s t, s.regs.busy = true → Move s t → P s → P t)
    (hdone : ∀ s o, s.regs.busy = true → s.point = .completing o → P s → P (complete o s))
    (hlaunch : ∀ s v, s.regs.busy = false → P s → P (launch v s))
    (hregs : ∀ s r, r.busy = s.regs.busy → P s → P (s.setRegs r))
    (hbus : ∀ s d a, s.regs.busy = true → P s → P (raise s d a))
    (hmem : ∀ s a b, (s.regs.busy = true → inRegions s a.toNat = false) → P s → P (busWrite s a b))
    (hrace : ∀ s a b, s.regs.busy = true → P s → P (racedWrite a b s))
    (hreset : ∀ s, P s → P (resetLow s)) : P t := by
  have hpop : P (popInput s) := hport s { s.port with inputs := s.port.inputs.tail } s.free h
  have hc := step_cases s
  rw [hs] at hc
  generalize hr : (Host.Outcome.next t : Result) = r at hc
  cases hc with
  | engine u r hu hb he =>
    have hu : P u := by rcases hu with ⟨-, rfl⟩ | ⟨_, -, rfl⟩ <;> assumption
    by_cases hp : ∃ o, u.point = .completing o
    · obtain ⟨o, ho⟩ := hp
      cases he
      case completing o' h' => rw [next_inj hr.symm]; exact hdone u o' hb h' hu
      all_goals simp_all
    · exact hmove u t hb (engine_moves he (fun o h => hp ⟨o, h⟩) hr.symm) hu
  | idle u hu hb => rw [next_inj hr.symm]; rcases hu with ⟨-, rfl⟩ | ⟨_, -, rfl⟩ <;> assumption
  | port a rest hi r hp =>
    generalize popInput s = u at hp hpop
    cases hp with
    | ignored => rw [next_inj hr.symm]; exact hpop
    | refused => cases hr
    | device => cases hr
    | start v _ hb hd => rw [next_inj hr.symm]; exact hlaunch u v hb hpop
    | irqEn _ v => rw [next_inj hr.symm]; exact hregs u _ rfl hpop
    | clear _ v => rw [next_inj hr.symm]; exact hregs u _ rfl hpop
    | cfg _ r v hb =>
      rw [next_inj hr.symm]
      exact hregs u _ (by cases r <;> rfl) hpop
    | read off => rw [next_inj hr.symm]; exact hport u _ _ hpop
  | busError w a rest hi =>
    rw [next_inj hr.symm, busError]
    split
    · next ht =>
      refine hbus _ _ _ ?_ hpop
      simp only [transferPossible, Bool.and_eq_true] at ht
      exact ht.1
    · exact hpop
  | memWrite a b rest hi =>
    rw [next_inj hr.symm, hostWrite]
    split_ifs with hb
    · exact hrace _ a b (by simp_all) hpop
    · refine hmem _ a b (fun h' => ?_) hpop
      rw [h'] at hb
      simpa using hb
  | memRead a rest hi =>
    rw [next_inj hr.symm, hostRead]
    split_ifs
    · exact hport _ _ _ hpop
    · exact hport (popInput s) { (popInput s).port with hostByte := busRead (popInput s) a } (popInput s).free hpop
  | resetLow rest hi => rw [next_inj hr.symm]; exact hreset _ hpop
  | resetHigh rest hi => rw [next_inj hr.symm]; exact hport (popInput s) { (popInput s).port with rstN := true } (popInput s).free hpop

end Sys2Proof.Machine
end

