-- ==== Sys2Proof/Laws/Passes.lean ====
section
/-! SUPPORT. The order of the passes: which one is next, and where it starts in the raw stream. -/

namespace Sys2Proof.Machine

theorem passBytes_empty {h : Header} {p : Nat} (he : passEmpty h p = true) : passBytes h p = 0 := if_pos he

theorem passBytes_full {h : Header} {p : Nat} (he : passEmpty h p = false) :
    passBytes h p = passHeight h p * lineBytes h p := by
  rw [passBytes, if_neg (by simp [he])]; rfl

theorem passEmpty_false {h : Header} {p : Nat} : passEmpty h p = false ↔ 0 < passWidth h p ∧ 0 < passHeight h p := by
  simp only [passEmpty, Bool.or_eq_false_iff, beq_eq_false_iff_ne]; omega

/-- The pass nextPass finds is the least non-empty one from `first` on (47_interlace.md R474, R476). -/
theorem nextPass_some {h : Header} {first p : Nat} :
    nextPass h first = some p ↔
      (p ∈ passNumbers h.interlace ∧ first ≤ p ∧ passEmpty h p = false) ∧
      ∀ q, q ∈ passNumbers h.interlace → first ≤ q → passEmpty h q = false → p ≤ q := by
  have hs : (passNumbers h.interlace).Pairwise (· < ·) := by rw [passNumbers]; split_ifs <;> decide
  rw [nextPass, List.find?_eq_some_iff_append]
  simp only [Bool.and_eq_true, decide_eq_true_eq, Bool.not_eq_true']
  constructor
  · rintro ⟨⟨h1, h2⟩, as, bs, hl, h3⟩
    rw [hl] at hs ⊢
    refine ⟨⟨by simp, h1, h2⟩, fun q hq hf he => ?_⟩
    rcases List.mem_append.1 hq with hq | hq
    · have := h3 q hq
      simp [hf, he] at this
    · rcases List.mem_cons.1 hq with rfl | hq
      · exact le_rfl
      · exact le_of_lt ((List.pairwise_cons.1 (List.pairwise_append.1 hs).2.1).1 q hq)
  · rintro ⟨⟨h1, h2, h3⟩, h4⟩
    refine ⟨⟨h2, h3⟩, ?_⟩
    obtain ⟨as, bs, hl⟩ := List.append_of_mem h1
    refine ⟨as, bs, hl, fun q hq => ?_⟩
    rw [hl] at hs h4
    have hlt := (List.pairwise_append.1 hs).2.2 q hq p (by simp)
    by_contra hc
    simp at hc
    have := h4 q (by simp [hq]) hc.1 hc.2
    omega

theorem nextPass_none {h : Header} {first : Nat} :
    nextPass h first = none ↔ ∀ q, q ∈ passNumbers h.interlace → first ≤ q → passEmpty h q = true := by
  rw [nextPass, List.find?_eq_none]
  simp only [Bool.and_eq_true, decide_eq_true_eq, Bool.not_eq_true', not_and, Bool.not_eq_false]

/-- The bytes of the passes before `q`, one list entry at a time. -/
theorem passStart_eq (h : Header) (q : Nat) :
    passStart h q = ((passNumbers h.interlace).map fun p => if p < q then passBytes h p else 0).sum := by
  rw [passStart]
  induction passNumbers h.interlace with
  | nil => rfl
  | cons a r ih =>
    simp only [List.filter_cons, List.map_cons, List.sum_cons, ← ih]
    by_cases ha : a < q <;> simp [ha]

/-- The first pass starts at 0. -/
theorem passStart_first {h : Header} {p : Nat} (hp : nextPass h 0 = some p) : passStart h p = 0 := by
  rw [passStart_eq, List.sum_eq_zero_iff]
  intro x hx
  obtain ⟨q, hq, rfl⟩ := List.mem_map.1 hx
  split_ifs with hlt
  · refine passBytes_empty ?_
    by_contra he
    have := (nextPass_some.1 hp).2 q hq (Nat.zero_le _) (by simpa using he)
    omega
  · rfl

theorem sum_map_pair {l : List Nat} (hs : l.Pairwise (· < ·)) {p : Nat} (hp : p ∈ l) (f g : Nat → Nat) (x : Nat)
    (h1 : f p = g p + x) (h2 : ∀ q ∈ l, q ≠ p → f q = g q) : (l.map f).sum = (l.map g).sum + x := by
  induction l with
  | nil => cases hp
  | cons a r ih =>
    obtain ⟨ha, hr⟩ := List.pairwise_cons.1 hs
    rcases List.mem_cons.1 hp with rfl | hp
    · have : r.map f = r.map g := List.map_congr_left fun q hq =>
        h2 q (List.mem_cons_of_mem _ hq) (by have := ha q hq; omega)
      simp only [List.map_cons, List.sum_cons, this, h1]; omega
    · have h3 := h2 a List.mem_cons_self (by have := ha p hp; omega)
      have := ih hr hp fun q hq => h2 q (List.mem_cons_of_mem _ hq)
      simp only [List.map_cons, List.sum_cons, h3, this]; omega

/-- The next pass starts where this one ends (47_interlace.md R478). -/
theorem passStart_next {h : Header} {p q : Nat} (hp : p ∈ passNumbers h.interlace) (hq : nextPass h (p + 1) = some q) :
    passStart h q = passStart h p + passBytes h p := by
  have hs : (passNumbers h.interlace).Pairwise (· < ·) := by rw [passNumbers]; split_ifs <;> decide
  obtain ⟨⟨-, h2, -⟩, h4⟩ := nextPass_some.1 hq
  rw [passStart_eq, passStart_eq]
  refine sum_map_pair hs hp _ _ _ (by simp; omega) fun r hr hne => ?_
  by_cases h5 : r < p
  · rw [if_pos h5, if_pos (by omega)]
  · rw [if_neg h5]
    split_ifs with h6
    · refine passBytes_empty ?_
      by_contra he
      have := h4 r hr (by omega) (by simpa using he)
      omega
    · rfl

/-- A pass lies inside the raw stream. -/
theorem passEnd_le {h : Header} {p : Nat} (hp : p ∈ passNumbers h.interlace) :
    passStart h p + passBytes h p ≤ rawLength h := by
  have hs : (passNumbers h.interlace).Pairwise (· < ·) := by rw [passNumbers]; split_ifs <;> decide
  have : ((passNumbers h.interlace).map fun q => if q < p + 1 then passBytes h q else 0).sum =
      passStart h p + passBytes h p := by
    rw [passStart_eq]
    refine sum_map_pair hs hp _ _ _ (by simp) fun r hr hne => ?_
    by_cases h5 : r < p
    · rw [if_pos h5, if_pos (by omega)]
    · rw [if_neg h5, if_neg (by omega)]
  rw [← this, rawLength]
  exact List.sum_le_sum fun q _ => by split_ifs <;> omega

end Sys2Proof.Machine
end

