-- ==== Sys2Proof/Laws/PerInstr.lean ====
section
/-! SUPPORT. Laws made per instruction: the family EncodingShape says that the element an instruction is encoded as has the
number of bytes, or the range of symbols, its format gives it (30_encoding.md R120, R145). -/

namespace Sys2Proof.Laws.EncodingShape

/-- The element has the size, alignment or symbol range of its format. -/
def hasShape : Element → Bool
  | .access (.write off width _) => width == .w32 && off.toNat % 4 == 0
  | .access (.read off width) => width == .w32 && off.toNat % 4 == 0
  | .sig bs => bs.length == 8
  | .frame bs => bs.length == 8
  | .zhdr bs => bs.length == 2
  | .adler bs => bs.length == 4
  | .clsym sym => decide (sym < 19)
  | .litlen sym => decide (sym < 288)
  | .dist sym => decide (sym < 32)
  | .ctype _ | .bhdr _ | .filter _ | .mode _ => true

/-- The family's statement of one instruction. -/
def Statement (i : Instr) : Prop := i.wf = true → hasShape (encode i) = true

theorem start (v : Word) : Statement (.start v) := fun _ => rfl
theorem setIrqEn (v : Word) : Statement (.setIrqEn v) := fun _ => rfl
theorem clearStatus (v : Word) : Statement (.clearStatus v) := fun _ => rfl
theorem writeCfg (r : CfgReg) (v : Word) : Statement (.writeCfg r v) := by intro _; cases r <;> rfl
theorem read (off : BitVec 8) : Statement (.read off) := by intro h; simpa [Instr.wf, encode, hasShape] using h
theorem sig (bs : List Byte) : Statement (.sig bs) := by intro h; simp only [Instr.wf, beq_iff_eq] at h; subst h; rfl
theorem chunk (len : Word) (ty : Word) : Statement (.chunk len ty) := fun _ => rfl
theorem chunkBadType (len : Word) (ty : Word) : Statement (.chunkBadType len ty) := fun _ => rfl
theorem ihdr : Statement .ihdr := fun _ => rfl
theorem plte : Statement .plte := fun _ => rfl
theorem idat : Statement .idat := fun _ => rfl
theorem iend : Statement .iend := fun _ => rfl
theorem trns : Statement .trns := fun _ => rfl
theorem gama : Statement .gama := fun _ => rfl
theorem actl : Statement .actl := fun _ => rfl
theorem fctl : Statement .fctl := fun _ => rfl
theorem fdat : Statement .fdat := fun _ => rfl
theorem unknownCritical (ty : Word) : Statement (.unknownCritical ty) := fun _ => rfl
theorem unknownAncillary (ty : Word) : Statement (.unknownAncillary ty) := fun _ => rfl
theorem zhdr (cmf : Byte) (flg : Byte) : Statement (.zhdr cmf flg) := fun _ => rfl
theorem blockStored (fin : Bool) : Statement (.blockStored fin) := fun _ => rfl
theorem blockFixed (fin : Bool) : Statement (.blockFixed fin) := fun _ => rfl
theorem blockDynamic (fin : Bool) : Statement (.blockDynamic fin) := fun _ => rfl
theorem blockReserved (fin : Bool) : Statement (.blockReserved fin) := fun _ => rfl
theorem clLen (l : BitVec 4) : Statement (.clLen l) := by intro _; have := l.isLt; simp [encode, hasShape]; omega
theorem clRepeatPrev : Statement .clRepeatPrev := fun _ => rfl
theorem clZeroShort : Statement .clZeroShort := fun _ => rfl
theorem clZeroLong : Statement .clZeroLong := fun _ => rfl
theorem lit (b : Byte) : Statement (.lit b) := by intro _; have := b.isLt; simp [encode, hasShape]; omega
theorem eob : Statement .eob := fun _ => rfl
theorem len257 : Statement .len257 := fun _ => rfl
theorem len258 : Statement .len258 := fun _ => rfl
theorem len259 : Statement .len259 := fun _ => rfl
theorem len260 : Statement .len260 := fun _ => rfl
theorem len261 : Statement .len261 := fun _ => rfl
theorem len262 : Statement .len262 := fun _ => rfl
theorem len263 : Statement .len263 := fun _ => rfl
theorem len264 : Statement .len264 := fun _ => rfl
theorem len265 : Statement .len265 := fun _ => rfl
theorem len266 : Statement .len266 := fun _ => rfl
theorem len267 : Statement .len267 := fun _ => rfl
theorem len268 : Statement .len268 := fun _ => rfl
theorem len269 : Statement .len269 := fun _ => rfl
theorem len270 : Statement .len270 := fun _ => rfl
theorem len271 : Statement .len271 := fun _ => rfl
theorem len272 : Statement .len272 := fun _ => rfl
theorem len273 : Statement .len273 := fun _ => rfl
theorem len274 : Statement .len274 := fun _ => rfl
theorem len275 : Statement .len275 := fun _ => rfl
theorem len276 : Statement .len276 := fun _ => rfl
theorem len277 : Statement .len277 := fun _ => rfl
theorem len278 : Statement .len278 := fun _ => rfl
theorem len279 : Statement .len279 := fun _ => rfl
theorem len280 : Statement .len280 := fun _ => rfl
theorem len281 : Statement .len281 := fun _ => rfl
theorem len282 : Statement .len282 := fun _ => rfl
theorem len283 : Statement .len283 := fun _ => rfl
theorem len284 : Statement .len284 := fun _ => rfl
theorem len285 : Statement .len285 := fun _ => rfl
theorem litlenInvalid (sym : Nat) : Statement (.litlenInvalid sym) := by intro h; simp [Instr.wf] at h; rcases h with rfl | rfl <;> rfl
theorem dist0 : Statement .dist0 := fun _ => rfl
theorem dist1 : Statement .dist1 := fun _ => rfl
theorem dist2 : Statement .dist2 := fun _ => rfl
theorem dist3 : Statement .dist3 := fun _ => rfl
theorem dist4 : Statement .dist4 := fun _ => rfl
theorem dist5 : Statement .dist5 := fun _ => rfl
theorem dist6 : Statement .dist6 := fun _ => rfl
theorem dist7 : Statement .dist7 := fun _ => rfl
theorem dist8 : Statement .dist8 := fun _ => rfl
theorem dist9 : Statement .dist9 := fun _ => rfl
theorem dist10 : Statement .dist10 := fun _ => rfl
theorem dist11 : Statement .dist11 := fun _ => rfl
theorem dist12 : Statement .dist12 := fun _ => rfl
theorem dist13 : Statement .dist13 := fun _ => rfl
theorem dist14 : Statement .dist14 := fun _ => rfl
theorem dist15 : Statement .dist15 := fun _ => rfl
theorem dist16 : Statement .dist16 := fun _ => rfl
theorem dist17 : Statement .dist17 := fun _ => rfl
theorem dist18 : Statement .dist18 := fun _ => rfl
theorem dist19 : Statement .dist19 := fun _ => rfl
theorem dist20 : Statement .dist20 := fun _ => rfl
theorem dist21 : Statement .dist21 := fun _ => rfl
theorem dist22 : Statement .dist22 := fun _ => rfl
theorem dist23 : Statement .dist23 := fun _ => rfl
theorem dist24 : Statement .dist24 := fun _ => rfl
theorem dist25 : Statement .dist25 := fun _ => rfl
theorem dist26 : Statement .dist26 := fun _ => rfl
theorem dist27 : Statement .dist27 := fun _ => rfl
theorem dist28 : Statement .dist28 := fun _ => rfl
theorem dist29 : Statement .dist29 := fun _ => rfl
theorem distInvalid (sym : Nat) : Statement (.distInvalid sym) := by intro h; simp [Instr.wf] at h; rcases h with rfl | rfl <;> rfl
theorem adler (a : Word) : Statement (.adler a) := fun _ => rfl
theorem filtNone : Statement .filtNone := fun _ => rfl
theorem filtSub : Statement .filtSub := fun _ => rfl
theorem filtUp : Statement .filtUp := fun _ => rfl
theorem filtAverage : Statement .filtAverage := fun _ => rfl
theorem filtPaeth : Statement .filtPaeth := fun _ => rfl
theorem filtInvalid (b : Byte) : Statement (.filtInvalid b) := fun _ => rfl
theorem g1 : Statement .g1 := fun _ => rfl
theorem g2 : Statement .g2 := fun _ => rfl
theorem g4 : Statement .g4 := fun _ => rfl
theorem g8 : Statement .g8 := fun _ => rfl
theorem g16 : Statement .g16 := fun _ => rfl
theorem rgb8 : Statement .rgb8 := fun _ => rfl
theorem rgb16 : Statement .rgb16 := fun _ => rfl
theorem idx1 : Statement .idx1 := fun _ => rfl
theorem idx2 : Statement .idx2 := fun _ => rfl
theorem idx4 : Statement .idx4 := fun _ => rfl
theorem idx8 : Statement .idx8 := fun _ => rfl
theorem ga8 : Statement .ga8 := fun _ => rfl
theorem ga16 : Statement .ga16 := fun _ => rfl
theorem rgba8 : Statement .rgba8 := fun _ => rfl
theorem rgba16 : Statement .rgba16 := fun _ => rfl
theorem modeIllegal (v : BitVec 16) : Statement (.modeIllegal v) := fun _ => rfl

end Sys2Proof.Laws.EncodingShape
end

