-- ==== Sys2Proof/Tests/Slice0.lean ====
section
/-! SUPPORT. The model's own tests: ill-formed terms refused, every constructor decoded from its written-out word, one-step
tests with the values of spec/95_test_vectors.md, and a witness for the hypotheses of each obligation. -/

-- One theorem after the other: each of these proofs waits for the kernel, and many at once would each hold a thread.
set_option Elab.async false

namespace Sys2Proof.Tests

open Sys2Proof Sys2Proof.Machine

/-! ## Helpers -/

/-- What a test looks at in the next state. -/
def look {α : Type} (r : Result) (f : State → α) : Option α :=
  match r with
  | .next t => some (f t)
  | .fault _ => none
  | .refused _ => none

/-- Bytes at consecutive addresses. -/
def cells (base : Nat) (bs : List Byte) : Memory := bs.zipIdx.map fun p => (base + p.2, p.1)

/-- The latched values of a decode of 70 bytes at 0x1000, with OUTR at 0x2000 and SCR at 0x3000 of 4096 bytes each. -/
def lat0 : Latch := ⟨true, false, 0x1000#32, 70#32, 0x2000#32, 4096#32, 0x3000#32, 4096#32⟩

/-- The registers of that decode. -/
def regs0 : Regs :=
  { Regs.reset with
    busy := true, phase := 1#3, inBase := 0x1000#32, inLen := 70#32, outBase := 0x2000#32, outCap := 4096#32
    scrBase := 0x3000#32, scrCap := 4096#32 }

/-- A decode in its middle: a point, a header, the memory. -/
def mid (p : Point) (h : Header) (m : Memory) : State :=
  { State.reset with regs := regs0, lat := lat0, hdr := h, mem := m, point := p, free := ⟨1, 0, false⟩ }

/-- A grey image of depth 8, not interlaced. -/
def grey8 (w h : Nat) : Header := ⟨w, h, 8, 0, false⟩

/-- A chunk waiting for its dispatch: p = 33, some chunks before it, its data bytes. -/
def chunkAt (h : Header) (ty : Word) (data : List Byte) : State :=
  { mid .chunkType h (cells 0x1029 data) with
    pos := 33 + 12 + data.length
    parse := ⟨true, false, false, false, .none, 1, ⟨33, data.length, ty⟩⟩ }

/-- An IHDR waiting for its dispatch, as the first chunk, with its data bytes and the capacities. -/
def ihdrAt (data : List Byte) (outCap scrCap : Word) : State :=
  { mid .chunkType ⟨0, 0, 0, 0, false⟩ (cells 0x1010 data) with
    lat := { lat0 with outCap := outCap, scrCap := scrCap }
    pos := 33
    parse := ⟨false, false, false, false, .none, 0, ⟨8, data.length, 0x49484452#32⟩⟩ }

/-- The inflater in a block at bit `bp` of C, in an image of G8 pixels `raw - 1` wide and one high: RAWLEN = raw. -/
def inflAt (p : Point) (c : List Byte) (bp raw : Nat) : State :=
  { mid p (grey8 (raw - 1) 1) [] with
    c := c, pos := 70
    parse := ⟨true, false, false, false, .ended, 3, ⟨58, 0, 0x49454E44#32⟩⟩
    infl := { Infl.reset with bp := bp }
    out := ⟨[], 0, 1, 0⟩ }

/-- The defilter at a row of a G8 image `w` wide and two high, with the raw stream in scratch. -/
def rowAt (w row : Nat) (raw : List Byte) : State :=
  { mid .scanline (grey8 w 2) (cells 0x3000 raw) with
    parse := ⟨true, false, false, false, .ended, 3, ⟨58, 0, 0x49454E44#32⟩⟩
    defl := ⟨0, row, row * (w + 1), if row = 0 then none else some 0⟩ }

/-- The raw bytes of a next state. -/
def rawOf (n : Nat) (t : State) : List Byte := (List.range n).map (rawByte t)

/-- The expander at column `col` of a one-row image, with the row's data bytes in scratch after the filter byte. -/
def pixelAt (h : Header) (col : Nat) (tabs : Tables) (data : List Byte) : State :=
  { mid .pixel h (cells 0x3000 (0#8 :: data)) with
    parse := ⟨true, true, false, false, .ended, 3, ⟨58, 0, 0x49454E44#32⟩⟩
    tabs := tabs, exp := ⟨0, 0, col, 0⟩ }

/-- No palette, no alpha, no key. -/
def noTabs : Tables := ⟨[], 0, [], 0, false, 0, 0, 0⟩

/-- A transparent-colour key. -/
def keyTabs (a b c : BitVec 16) : Tables := ⟨[], 0, [], 0, true, a, b, c⟩

/-- A palette and its alphas. -/
def palTabs (ps : List Rgb) (as : List Byte) : Tables :=
  ⟨ps.zipIdx.map fun p => (p.2, p.1), ps.length, as.zipIdx.map fun p => (p.2, p.1), as.length, false, 0, 0, 0⟩

/-- The four output bytes of pixel `k` of a next state. -/
def outPixel (k : Nat) (t : State) : List (Option Byte) := (List.range 4).map fun j => memAt t (0x2000 + 4 * k + j)

/-- The outcome of a decode that has just raised. -/
def raised (d : Detail) (off : Nat) : Point := .completing (.error ⟨d, off⟩)

/-! ## WellFormed refuses ill-formed terms -/

theorem test_wf_start : (Instr.start 4#32).wf = false := by decide
theorem test_wf_setIrqEn : (Instr.setIrqEn 5#32).wf = false := by decide
theorem test_wf_read : (Instr.read 0x0E#8).wf = false := by decide
theorem test_wf_sig : (Instr.sig [0x89#8, 0x50#8, 0x4E#8, 0x46#8, 0x0D#8, 0x0A#8, 0x1A#8, 0x0A#8]).wf = false := by decide
theorem test_wf_chunk : (Instr.chunk 0#32 0x7F484452#32).wf = false := by decide
theorem test_wf_chunkBadType : (Instr.chunkBadType 0#32 0x4948447E#32).wf = false := by decide
theorem test_wf_unknownCritical :
    (Instr.unknownCritical 0x49484452#32).wf = false ∧ (Instr.unknownCritical 0x74455874#32).wf = false := by decide
theorem test_wf_unknownAncillary :
    (Instr.unknownAncillary 0x74524E53#32).wf = false ∧ (Instr.unknownAncillary 0x41424344#32).wf = false := by decide
theorem test_wf_zhdr :
    (Instr.zhdr 0x79#8 0x01#8).wf = false ∧ (Instr.zhdr 0x88#8 0x1C#8).wf = false ∧
    (Instr.zhdr 0x78#8 0x00#8).wf = false ∧ (Instr.zhdr 0x78#8 0x20#8).wf = false := by decide
theorem test_wf_litlenInvalid : (Instr.litlenInvalid 285).wf = false ∧ (Instr.litlenInvalid 288).wf = false := by decide
theorem test_wf_distInvalid : (Instr.distInvalid 29).wf = false ∧ (Instr.distInvalid 32).wf = false := by decide
theorem test_wf_filtInvalid : (Instr.filtInvalid 4#8).wf = false := by decide
theorem test_wf_modeIllegal : (Instr.modeIllegal 0x0302#16).wf = false := by decide

/-! ## Every constructor, decoded from a word written out from 30_encoding.md -/

/-- R144: CTRL at 0x04, STATUS at 0x0C, the seven registers, any aligned read. -/
theorem test_decode_host :
    decode (.access (.write 0b00000100#8 .w32 0b101#32)) = .ok (.start 5#32) ∧
    decode (.access (.write 0b00000100#8 .w32 0b100#32)) = .ok (.setIrqEn 4#32) ∧
    decode (.access (.write 0b00001100#8 .w32 0b110#32)) = .ok (.clearStatus 6#32) ∧
    decode (.access (.write 0b00001000#8 .w32 0b10#32)) = .ok (.writeCfg .config 2#32) ∧
    decode (.access (.write 0b00011100#8 .w32 1#32)) = .ok (.writeCfg .inBase 1#32) ∧
    decode (.access (.write 0b00100000#8 .w32 1#32)) = .ok (.writeCfg .inLen 1#32) ∧
    decode (.access (.write 0b00100100#8 .w32 1#32)) = .ok (.writeCfg .outBase 1#32) ∧
    decode (.access (.write 0b00101000#8 .w32 1#32)) = .ok (.writeCfg .outCap 1#32) ∧
    decode (.access (.write 0b00101100#8 .w32 1#32)) = .ok (.writeCfg .scrBase 1#32) ∧
    decode (.access (.write 0b00110000#8 .w32 1#32)) = .ok (.writeCfg .scrCap 1#32) ∧
    decode (.access (.read 0b11111100#8 .w32)) = .ok (.read 0xFC#8) := by decide

/-- R53, R144: what is no instruction. -/
theorem test_decode_port_errors :
    decode (.access (.write 0x00#8 .w32 1#32)) = .error .ignoredWrite ∧
    decode (.access (.write 0x05#8 .w32 1#32)) = .error .portAccess ∧
    decode (.access (.write 0x04#8 .w16 1#32)) = .error .portAccess ∧
    decode (.access (.read 0x04#8 .w8)) = .error .portAccess ∧
    decode (.sig (List.replicate 9 0#8)) = .error .wrongLength ∧ decode (.frame [0#8]) = .error .wrongLength ∧
    decode (.zhdr [0#8]) = .error .wrongLength ∧ decode (.adler [0#8]) = .error .wrongLength ∧
    decode (.clsym 19) = .error .noSuchSymbol ∧ decode (.litlen 288) = .error .noSuchSymbol ∧
    decode (.dist 32) = .error .noSuchSymbol := by decide

/-- R121, R122: the signature, a frame, and a frame whose last type byte is 0x7F. -/
theorem test_decode_framing :
    decode (.sig [0b10001001#8, 0b01010000#8, 0b01001110#8, 0b01000111#8, 0b00001101#8, 0b00001010#8, 0b00011010#8,
      0b00001010#8]) = .ok (.sig signatureBytes) ∧
    decode (.frame [0#8, 0#8, 1#8, 2#8, 0x49#8, 0x44#8, 0x41#8, 0x54#8]) = .ok (.chunk 258#32 0x49444154#32) ∧
    decode (.frame [0#8, 0#8, 1#8, 2#8, 0x49#8, 0x44#8, 0x41#8, 0x7F#8]) = .ok (.chunkBadType 258#32 0x4944417F#32) := by
  decide

/-- R123, R124: four letters each, "IHDR" to "fdAT", then an unknown critical and an unknown ancillary type. -/
theorem test_decode_types :
    decode (.ctype (0x49#8 ++ 0x48#8 ++ 0x44#8 ++ 0x52#8)) = .ok .ihdr ∧
    decode (.ctype (0x50#8 ++ 0x4C#8 ++ 0x54#8 ++ 0x45#8)) = .ok .plte ∧
    decode (.ctype (0x49#8 ++ 0x44#8 ++ 0x41#8 ++ 0x54#8)) = .ok .idat ∧
    decode (.ctype (0x49#8 ++ 0x45#8 ++ 0x4E#8 ++ 0x44#8)) = .ok .iend ∧
    decode (.ctype (0x74#8 ++ 0x52#8 ++ 0x4E#8 ++ 0x53#8)) = .ok .trns ∧
    decode (.ctype (0x67#8 ++ 0x41#8 ++ 0x4D#8 ++ 0x41#8)) = .ok .gama ∧
    decode (.ctype (0x61#8 ++ 0x63#8 ++ 0x54#8 ++ 0x4C#8)) = .ok .actl ∧
    decode (.ctype (0x66#8 ++ 0x63#8 ++ 0x54#8 ++ 0x4C#8)) = .ok .fctl ∧
    decode (.ctype (0x66#8 ++ 0x64#8 ++ 0x41#8 ++ 0x54#8)) = .ok .fdat ∧
    decode (.ctype (0x41#8 ++ 0x62#8 ++ 0x43#8 ++ 0x44#8)) = .ok (.unknownCritical 0x41624344#32) ∧
    decode (.ctype (0x74#8 ++ 0x45#8 ++ 0x58#8 ++ 0x74#8)) = .ok (.unknownAncillary 0x74455874#32) := by decide

/-- R131, R133, R140: the zlib header, the eight block headers (bit 0 is BFINAL), the trailer. -/
theorem test_decode_blocks :
    decode (.zhdr [0b01111000#8, 0b11011010#8]) = .ok (.zhdr 0x78#8 0xDA#8) ∧
    decode (.bhdr 0b000#3) = .ok (.blockStored false) ∧ decode (.bhdr 0b001#3) = .ok (.blockStored true) ∧
    decode (.bhdr 0b010#3) = .ok (.blockFixed false) ∧ decode (.bhdr 0b011#3) = .ok (.blockFixed true) ∧
    decode (.bhdr 0b100#3) = .ok (.blockDynamic false) ∧ decode (.bhdr 0b101#3) = .ok (.blockDynamic true) ∧
    decode (.bhdr 0b110#3) = .ok (.blockReserved false) ∧ decode (.bhdr 0b111#3) = .ok (.blockReserved true) ∧
    decode (.adler [0x01#8, 0x49#8, 0x00#8, 0x72#8]) = .ok (.adler 0x01490072#32) := by decide

/-- R136. -/
theorem test_decode_clsym :
    (∀ l : BitVec 4, decode (.clsym l.toNat) = .ok (.clLen l)) ∧ decode (.clsym 16) = .ok .clRepeatPrev ∧
    decode (.clsym 17) = .ok .clZeroShort ∧ decode (.clsym 18) = .ok .clZeroLong := by decide

/-- R137: the literals, 256, 286 and 287. -/
theorem test_decode_litlen :
    decode (.litlen 0) = .ok (.lit 0#8) ∧ decode (.litlen 255) = .ok (.lit 255#8) ∧ decode (.litlen 256) = .ok .eob ∧
    decode (.litlen 286) = .ok (.litlenInvalid 286) ∧ decode (.litlen 287) = .ok (.litlenInvalid 287) := by decide

/-- R137: the length symbols. -/
theorem test_decode_lengths : ∀ row ∈ ([
    (257, .len257), (258, .len258), (259, .len259), (260, .len260), (261, .len261), (262, .len262), (263, .len263),
    (264, .len264), (265, .len265), (266, .len266), (267, .len267), (268, .len268), (269, .len269), (270, .len270),
    (271, .len271), (272, .len272), (273, .len273), (274, .len274), (275, .len275), (276, .len276), (277, .len277),
    (278, .len278), (279, .len279), (280, .len280), (281, .len281), (282, .len282), (283, .len283), (284, .len284),
    (285, .len285)] : List (Nat × Instr)),
    decode (.litlen row.1) = .ok row.2 := by decide

/-- R138: the distance symbols. -/
theorem test_decode_distances : ∀ row ∈ ([
    (0, .dist0), (1, .dist1), (2, .dist2), (3, .dist3), (4, .dist4), (5, .dist5), (6, .dist6), (7, .dist7),
    (8, .dist8), (9, .dist9), (10, .dist10), (11, .dist11), (12, .dist12), (13, .dist13), (14, .dist14),
    (15, .dist15), (16, .dist16), (17, .dist17), (18, .dist18), (19, .dist19), (20, .dist20), (21, .dist21),
    (22, .dist22), (23, .dist23), (24, .dist24), (25, .dist25), (26, .dist26), (27, .dist27), (28, .dist28),
    (29, .dist29),
    (30, .distInvalid 30), (31, .distInvalid 31)] : List (Nat × Instr)),
    decode (.dist row.1) = .ok row.2 := by decide

/-- R141. -/
theorem test_decode_filters :
    decode (.filter 0#8) = .ok .filtNone ∧ decode (.filter 1#8) = .ok .filtSub ∧ decode (.filter 2#8) = .ok .filtUp ∧
    decode (.filter 3#8) = .ok .filtAverage ∧ decode (.filter 4#8) = .ok .filtPaeth ∧
    decode (.filter 5#8) = .ok (.filtInvalid 5#8) ∧ decode (.filter 0xFF#8) = .ok (.filtInvalid 0xFF#8) := by decide

/-- R126: COLOR_TYPE in the high byte, BIT_DEPTH in the low byte. -/
theorem test_decode_modes :
    decode (.mode (0#8 ++ 1#8)) = .ok .g1 ∧ decode (.mode (0#8 ++ 2#8)) = .ok .g2 ∧ decode (.mode (0#8 ++ 4#8)) = .ok .g4 ∧
    decode (.mode (0#8 ++ 8#8)) = .ok .g8 ∧ decode (.mode (0#8 ++ 16#8)) = .ok .g16 ∧
    decode (.mode (2#8 ++ 8#8)) = .ok .rgb8 ∧ decode (.mode (2#8 ++ 16#8)) = .ok .rgb16 ∧
    decode (.mode (3#8 ++ 1#8)) = .ok .idx1 ∧ decode (.mode (3#8 ++ 2#8)) = .ok .idx2 ∧
    decode (.mode (3#8 ++ 4#8)) = .ok .idx4 ∧ decode (.mode (3#8 ++ 8#8)) = .ok .idx8 ∧
    decode (.mode (4#8 ++ 8#8)) = .ok .ga8 ∧ decode (.mode (4#8 ++ 16#8)) = .ok .ga16 ∧
    decode (.mode (6#8 ++ 8#8)) = .ok .rgba8 ∧ decode (.mode (6#8 ++ 16#8)) = .ok .rgba16 ∧
    decode (.mode (1#8 ++ 8#8)) = .ok (.modeIllegal 0x0108#16) ∧ decode (.mode (3#8 ++ 16#8)) = .ok (.modeIllegal 0x0310#16) := by
  decide

/-- R132, R139: code words of the fixed codes, most significant bit first: 00110000 is 0, 111111111 is 255, 0000000 is 256,
11000111 is 287; 11101 is distance 29. -/
theorem test_fixed_code_words :
    decodeSym (buildCode fixedLitLens) [0b00001100#8] 0 = .sym 0 8 ∧
    decodeSym (buildCode fixedLitLens) [0xFF#8, 0x01#8] 0 = .sym 255 9 ∧
    decodeSym (buildCode fixedLitLens) [0x00#8] 0 = .sym 256 7 ∧
    decodeSym (buildCode fixedLitLens) [0b11100011#8] 0 = .sym 287 8 ∧
    decodeSym (buildCode fixedDistLens) [0b10111#8] 0 = .sym 29 5 ∧
    decodeSym (buildCode fixedDistLens) [0b10111000#8] 3 = .sym 29 8 ∧
    decodeSym (buildCode fixedLitLens) [] 0 = .truncated ∧ decodeSym [] [0#8] 0 = .invalid := by decide +kernel

/-- The words of the opcode table that name one row only. -/
theorem test_table_words :
    decodeTableWord 64 0x89504E470D0A1A0A = some (.sig signatureBytes) ∧ decodeTableWord 32 0x74524E53 = some .trns ∧
    decodeTableWord 16 257 = some .len257 ∧ decodeTableWord 16 0x0610 = some .rgba16 ∧
    decodeTableWord 8 4 = some .filtPaeth ∧ decodeTableWord 8 31 = some (.distInvalid 31) ∧ decodeTableWord 0 0 = none := by
  decide +kernel

/-! ## One step of each instruction -/

/-- HI17, R182: a START after an error. -/
theorem test_start :
    look (exec (.start 5#32) { State.reset with regs := { Regs.reset with err := true, errKind := 1#4, imgWidth := 9#32 } })
      (fun t => (t.regs.busy, t.regs.err, t.regs.errKind, t.regs.imgWidth, irq t, t.out.s1))
      = some (true, false, 0#4, 0#32, false, 1) := by decide
/-- HI19, R188: a START while BUSY only writes IRQ_EN. -/
theorem test_start_busy :
    look (exec (.start 5#32) (mid .litLen (grey8 1 1) [])) (fun t => (t.regs.irqEn, t.point, t.regs.phase))
      = some (true, .litLen, 1#3) := by decide
/-- HI14, HI23. -/
theorem test_setIrqEn :
    look (exec (.setIrqEn 0xFFFFFFFA#32) { State.reset with regs := { Regs.reset with irqEn := true, done := true } })
      (fun t => (irq t, t.regs.done, regWord t 0x04#8)) = some (false, true, 0#32) := by decide
/-- HI12. -/
theorem test_clearStatus_other :
    look (exec (.clearStatus 4#32) { State.reset with regs := { Regs.reset with irqEn := true, done := true } })
      (fun t => (regWord t 0x0C#8, irq t)) = some (2#32, true) := by decide
/-- HI13. -/
theorem test_clearStatus :
    look (exec (.clearStatus 2#32) { State.reset with regs := { Regs.reset with irqEn := true, done := true, imgWidth := 1#32 } })
      (fun t => (regWord t 0x0C#8, irq t, t.regs.imgWidth)) = some (0#32, false, 1#32) := by decide
/-- HI22. -/
theorem test_writeCfg :
    look (exec (.writeCfg .config 0xFFFFFFFF#32) State.reset) (fun t => regWord t 0x08#8) = some 3#32 := by decide
/-- HI18. -/
theorem test_writeCfg_busy :
    look (exec (.writeCfg .config 0#32) (mid .litLen (grey8 1 1) [])) (fun t => regWord t 0x08#8) = some 1#32 := by decide
/-- HI1. -/
theorem test_read : look (exec (.read 0x00#8) State.reset) (fun t => t.port.rdata) = some 0x504E4707#32 := by decide
/-- R44, from the end state of P2: IMG_INFO = 0x00046302. -/
theorem test_read_info :
    look (exec (.read 0x3C#8) { State.reset with regs := { Regs.reset with
      bitDepth := 2#5, colorType := 3#3, hasPlte := true, hasTrns := true, plteEntries := 4#9 } })
      (fun t => t.port.rdata) = some 0x00046302#32 := by decide

/-- R231. -/
theorem test_sig :
    look (exec (.sig signatureBytes) (mid .signature (grey8 1 1) [])) (fun t => (t.pos, t.point))
      = some (8, .chunkFrame) := by decide
/-- CH2, CH3. -/
theorem test_sig_errors :
    look (exec (.sig [0x89#8, 0x50#8, 0x4E#8]) (mid .signature (grey8 1 1) [])) State.point = some (raised .sigShort 3) ∧
    look (exec (.sig [0x89#8, 0x50#8, 0x4E#8, 0x46#8, 0x0D#8, 0x0A#8, 0x1A#8, 0x0A#8]) (mid .signature (grey8 1 1) []))
      State.point = some (raised .sigMismatch 3) := by decide
/-- S1: the IEND chunk and its CRC AE 42 60 82. -/
theorem test_chunk :
    look (exec (.chunk 0#32 0x49454E44#32)
      { mid .chunkFrame (grey8 1 1) (cells 0x1042 [0xAE#8, 0x42#8, 0x60#8, 0x82#8]) with pos := 58 })
      (fun t => (t.pos, t.point)) = some (70, .chunkType) := by decide +kernel
/-- CH13, CH10. -/
theorem test_chunk_errors :
    look (exec (.chunk 0#32 0x49454E44#32)
      { mid .chunkFrame (grey8 1 1) (cells 0x1042 [0xAE#8, 0x42#8, 0x60#8, 0x83#8]) with pos := 58 })
      State.point = some (raised .chunkCrcMismatch 58) ∧
    look (exec (.chunk 0xFFFFFFFF#32 0x49484452#32) { mid .chunkFrame (grey8 1 1) [] with pos := 8 })
      State.point = some (raised .chunkTruncBody 8) := by decide +kernel
/-- CH7. -/
theorem test_chunkBadType :
    look (exec (.chunkBadType 13#32 0x49484400#32) { mid .chunkFrame (grey8 1 1) [] with pos := 8 }) State.point
      = some (raised .chunkBadType 8) := by decide

/-- HD17: a 2 by 2 image in exactly enough room. -/
def ihdr2x2 : List Byte := [0, 0, 0, 2, 0, 0, 0, 2, 8, 0, 0, 0, 0]
/-- HD18: 65536 by 65536 pixels of RGBA16. -/
def ihdrHuge : List Byte := [0, 1, 0, 0, 0, 1, 0, 0, 16, 6, 0, 0, 0]

/-- HD17. -/
theorem test_ihdr :
    look (exec .ihdr (ihdrAt ihdr2x2 16#32 6#32))
      (fun t => (t.regs.imgWidth, regWord t 0x3C#8, t.regs.outLen, t.regs.rawLen, t.point))
      = some (2#32, 8#32, 16#32, 6#32, .chunkFrame) := by decide +kernel
/-- HD18. -/
theorem test_ihdr_saturated :
    look (exec .ihdr (ihdrAt ihdrHuge 0#32 0#32)) (fun t => (t.regs.outLen, t.regs.rawLen, regWord t 0x3C#8, t.point))
      = some (0xFFFFFFFF#32, 0xFFFFFFFF#32, 0x610#32, raised .outCap 8) := by decide +kernel
/-- SE16's palette: two entries (46_sample_expander.md R437). -/
theorem test_plte :
    look (exec .plte (chunkAt ⟨1, 1, 1, 3, false⟩ 0x504C5445#32 [1, 2, 3, 0xFF, 0xFE, 0xFD]))
      (fun t => (t.tabs.pal, t.tabs.plteN, regWord t 0x3C#8))
      = some ([(0, ⟨1, 2, 3⟩), (1, ⟨0xFF, 0xFE, 0xFD⟩)], 2, 0x00022000#32) := by decide +kernel
/-- HD23, HD20. -/
theorem test_plte_errors :
    look (exec .plte (chunkAt ⟨1, 1, 1, 3, false⟩ 0x504C5445#32 (List.replicate 9 0#8))) State.point
      = some (raised .plteTooLong 33) ∧
    look (exec .plte (chunkAt ⟨1, 1, 8, 2, false⟩ 0x504C5445#32 [1, 2, 3])) State.point
      = some (raised .plteNotAllowed 33) := by decide +kernel
/-- HD33, R286. -/
theorem test_idat :
    look (exec .idat { chunkAt (grey8 1 1) 0x49444154#32 [0x01, 0x02] with c := [0x78] })
      (fun t => (t.c, t.parse.idat, t.parse.nchunks)) = some ([0x78, 0x01, 0x02], .inRun, 2) := by decide +kernel
/-- HD25. -/
theorem test_idat_missing_plte :
    look (exec .idat (chunkAt ⟨1, 1, 1, 3, false⟩ 0x49444154#32 [])) State.point = some (raised .missingPlte 33) := by
  decide +kernel
/-- HD31. -/
theorem test_iend_length :
    look (exec .iend (chunkAt (grey8 1 1) 0x49454E44#32 [0])) State.point = some (raised .iendLength 33) := by decide +kernel
/-- R288, 40_host_interface.md R181. -/
theorem test_iend :
    look (exec .iend { chunkAt (grey8 1 1) 0x49454E44#32 [] with
      parse := ⟨true, false, false, false, .inRun, 2, ⟨33, 0, 0x49454E44#32⟩⟩ })
      (fun t => (t.point, t.regs.phase, t.parse.idat)) = some (.zlibHeader, 2#3, .ended) := by decide +kernel
/-- HD45. -/
theorem test_trns :
    look (exec .trns (chunkAt ⟨1, 1, 8, 2, false⟩ 0x74524E53#32 [0, 1, 0, 2, 0, 3]))
      (fun t => (regWord t 0x4C#8, regWord t 0x50#8, t.regs.hasTrns, t.tabs.keyPresent))
      = some (0x00020001#32, 3#32, true, true) := by decide +kernel
/-- HD44: strict, two palette entries, three alphas. -/
theorem test_trns_length :
    look (exec .trns { chunkAt ⟨1, 1, 1, 3, false⟩ 0x74524E53#32 [1, 2, 3] with
      lat := { lat0 with strict := true }
      parse := ⟨true, true, false, false, .none, 2, ⟨51, 3, 0x74524E53#32⟩⟩
      tabs := palTabs [⟨0, 0, 0⟩, ⟨0, 0, 0⟩] [] }) State.point = some (raised .trnsLength 51) := by decide +kernel
/-- HD46. -/
theorem test_gama :
    look (exec .gama (chunkAt (grey8 1 1) 0x67414D41#32 [0x00, 0x00, 0xB1, 0x8F])) (fun t => (t.regs.gamma, t.regs.hasGama))
      = some (0xB18F#32, true) := by decide +kernel
/-- HD48: a gAMA of length 3 is skipped when STRICT = 0. -/
theorem test_gama_skipped :
    look (exec .gama (chunkAt (grey8 1 1) 0x67414D41#32 [0, 0, 1])) (fun t => (t.regs.hasGama, t.parse.seenGama, t.point))
      = some (false, false, .chunkFrame) := by decide +kernel
/-- HD51: strict, and skipped all the same. -/
theorem test_apng :
    ∀ i ∈ [Instr.actl, .fctl, .fdat],
      look (exec i { chunkAt (grey8 1 1) 0x6163544C#32 [] with lat := { lat0 with strict := true } })
        (fun t => (t.point, t.parse.nchunks)) = some (.chunkFrame, 2) := by decide +kernel
/-- HD52: fcTL ends the IDAT run. -/
theorem test_fctl_ends_run :
    look (exec .fctl { chunkAt (grey8 1 1) 0x6663544C#32 [] with
      parse := ⟨true, false, false, false, .inRun, 2, ⟨61, 0, 0x6663544C#32⟩⟩ }) (fun t => t.parse.idat)
      = some .ended := by decide +kernel
/-- CH15. -/
theorem test_unknownCritical :
    look (exec (.unknownCritical 0x41424344#32) (chunkAt (grey8 1 1) 0x41424344#32 [])) State.point
      = some (raised .unknownCritical 33) := by decide +kernel
/-- CH17. -/
theorem test_unknownAncillary_strict :
    look (exec (.unknownAncillary 0x74455874#32)
      { chunkAt (grey8 1 1) 0x74455874#32 [] with lat := { lat0 with strict := true } }) State.point
      = some (raised .unknownAncillary 33) := by decide +kernel
/-- CH16. -/
theorem test_unknownAncillary :
    look (exec (.unknownAncillary 0x74455874#32) (chunkAt (grey8 1 1) 0x74455874#32 [])) State.point = some .chunkFrame := by
  decide +kernel

/-- IF8. -/
theorem test_zhdr :
    look (exec (.zhdr 0x78#8 0xDA#8) (inflAt .zlibHeader [0x78, 0xDA] 0 2)) (fun t => (t.point, t.infl.bp))
      = some (.blockHeader, 16) := by decide
/-- IF4, IF5, IF6, IF7. -/
theorem test_zhdr_errors :
    look (exec (.zhdr 0x79#8 0x01#8) (inflAt .zlibHeader [] 0 2)) State.point = some (raised .zBadCm 0) ∧
    look (exec (.zhdr 0x88#8 0x00#8) (inflAt .zlibHeader [] 0 2)) State.point = some (raised .zBadCinfo 0) ∧
    look (exec (.zhdr 0x78#8 0x00#8) (inflAt .zlibHeader [] 0 2)) State.point = some (raised .zBadFcheck 0) ∧
    look (exec (.zhdr 0x78#8 0x20#8) (inflAt .zlibHeader [] 0 2)) State.point = some (raised .zFdict 0) := by decide
/-- IF14: three bytes; their Adler-32 is 0x00430022. -/
theorem test_blockStored :
    look (exec (.blockStored true)
      (inflAt .blockHeader [0x78, 0x01, 0x01, 0x03, 0x00, 0xFC, 0xFF, 0x0A, 0x0B, 0x0C, 0x00, 0x43, 0x00, 0x22] 19 3))
      (fun t => (rawOf 3 t, t.out.s2, t.out.s1, t.infl.bp, t.point))
      = some ([0x0A, 0x0B, 0x0C], 0x43, 0x22, 80, .adler) := by decide +kernel
/-- IF12, IF13, IF15. -/
theorem test_blockStored_errors :
    look (exec (.blockStored true) (inflAt .blockHeader [0x78, 0x01, 0x01, 0x03, 0x00, 0xFC, 0xFE, 0x0A, 0x0B, 0x0C] 19 3))
      State.point = some (raised .dStoredNlen 3) ∧
    look (exec (.blockStored true) (inflAt .blockHeader [0x78, 0x01, 0x01, 0x03, 0x00, 0xFC, 0xFF, 0x0A, 0x0B, 0x0C] 19 2))
      State.point = some (raised .dOutputOverflow 3) ∧
    look (exec (.blockStored true) (inflAt .blockHeader [0x78, 0x01, 0x01, 0x03, 0x00, 0xFC, 0xFF, 0x0A, 0x0B] 19 3))
      State.point = some (raised .zTruncated 9) := by decide +kernel
/-- R331. -/
theorem test_blockFixed :
    look (exec (.blockFixed true) (inflAt .blockHeader [0x78, 0x01, 0x63] 19 2))
      (fun t => (t.infl.ll.length, t.infl.dl.length, t.infl.llCode.length, t.infl.bfinal, t.point))
      = some (288, 32, 288, true, .litLen) := by decide +kernel
/-- IF40: HLIT = 0, HDIST = 0, lengths of 16 and 0 are 1. -/
theorem test_blockDynamic :
    look (exec (.blockDynamic true) (inflAt .blockHeader [0x78, 0x01, 0x05, 0x00, 0x02, 0x24] 19 2))
      (fun t => (t.infl.nl, t.infl.nd, t.infl.clCode, t.infl.bp, t.point))
      = some (257, 1, [⟨0, 1, 0⟩, ⟨16, 1, 1⟩], 45, .clSymbol) := by decide +kernel
/-- IF36, IF38. -/
theorem test_blockDynamic_errors :
    look (exec (.blockDynamic true)
      { inflAt .blockHeader [0x78, 0x01, 0xF5, 0x00, 0x00] 19 2 with infl := { Infl.reset with bp := 19, bstart := 16 } })
      State.point = some (raised .dTooManySymbols 2) ∧
    look (exec (.blockDynamic true)
      { inflAt .blockHeader [0x78, 0x01, 0x05, 0x00, 0x00, 0x00] 19 2 with infl := { Infl.reset with bp := 19, bstart := 16 } })
      State.point = some (raised .dBadClenCode 2) := by decide +kernel
/-- IF10. -/
theorem test_blockReserved :
    look (exec (.blockReserved true)
      { inflAt .blockHeader [0x78, 0x01, 0x07] 19 2 with infl := { Infl.reset with bp := 19, bstart := 16 } }) State.point
      = some (raised .dBadBtype 2) := by decide

/-- A state of the code-length loop with the lengths read so far. -/
def lensAt (lens : List Nat) (c : List Byte) (nl nd : Nat) : State :=
  { inflAt .clSymbol c 0 2 with infl := { Infl.reset with symStart := 45, bstart := 16, lens := lens, nl := nl, nd := nd } }

/-- R343. -/
theorem test_clLen :
    look (exec (.clLen 15#4) (lensAt [3] [] 257 1)) (fun t => (t.infl.lens, t.point)) = some ([3, 15], .clSymbol) := by
  decide +kernel
/-- R348: the last length; LL[256] = 1 alone is a single code, and no distance code at all is allowed. -/
theorem test_clLen_last :
    look (exec (.clLen 0#4) (lensAt (List.replicate 256 0 ++ [1]) [] 257 1))
      (fun t => (t.infl.llCode, t.infl.dCode, t.point)) = some ([⟨256, 1, 0⟩], [], .litLen) := by decide +kernel
/-- IF40. -/
theorem test_clRepeatPrev_none :
    look (exec .clRepeatPrev (lensAt [] [0x03] 257 1)) State.point = some (raised .dRepeatNoPrev 5) := by decide +kernel
/-- R344: extra bits 11 repeat the last length 6 times. -/
theorem test_clRepeatPrev :
    look (exec .clRepeatPrev (lensAt [4, 7] [0x03] 257 1)) (fun t => (t.infl.lens, t.infl.bp))
      = some ([4, 7, 7, 7, 7, 7, 7, 7], 2) := by decide +kernel
/-- R345: extra bits 000 give 3 zeros. -/
theorem test_clZeroShort :
    look (exec .clZeroShort (lensAt [4] [0x00] 257 1)) (fun t => (t.infl.lens, t.infl.bp)) = some ([4, 0, 0, 0], 3) := by
  decide +kernel
/-- IF41: 138 zeros twice pass the total of 258. -/
theorem test_clZeroLong :
    look (exec .clZeroLong (lensAt [] [0x7F] 257 1)) (fun t => (t.infl.lens.length, t.infl.bp)) = some (138, 7) ∧
    look (exec .clZeroLong (lensAt (List.replicate 138 0) [0x7F] 257 1)) State.point = some (raised .dRepeatOverflow 5) := by
  decide +kernel

/-- Adler-32 of 00 7F is 0x00810080 (95_test_vectors.md 2.1). -/
theorem test_lit :
    look (exec (.lit 0x7F#8) { inflAt .litLen [] 0 2 with out := ⟨[(0, 0#8)], 1, 1, 1⟩ })
      (fun t => (memAt t 0x3001, t.out)) = some (some 0x7F#8, ⟨[(0, 0#8), (1, 0x7F#8)], 2, 0x80, 0x81⟩) := by decide +kernel
/-- IF20. -/
theorem test_lit_overflow :
    look (exec (.lit 0x01#8) { inflAt .litLen [] 0 1 with
      out := ⟨[(0, 0#8)], 1, 1, 1⟩, hdr := ⟨0, 1, 8, 0, false⟩, infl := { Infl.reset with symStart := 27 } }) State.point
      = some (raised .dOutputOverflow 3) := by decide +kernel
/-- IF18: the cursor stands at bit 26. -/
theorem test_eob_short :
    look (exec .eob { inflAt .litLen [] 0 2 with infl := { Infl.reset with bfinal := true, bp := 26 } }) State.point
      = some (raised .dOutputShort 4) := by decide +kernel
/-- R351. -/
theorem test_eob :
    look (exec .eob (inflAt .litLen [] 0 2)) State.point = some .blockHeader := by decide +kernel
/-- R354: with extra bits 0 the length is the base. -/
theorem test_length_bases : ∀ row ∈ ([
    (.len257, 3), (.len258, 4), (.len259, 5), (.len260, 6), (.len261, 7), (.len262, 8), (.len263, 9),
    (.len264, 10), (.len265, 11), (.len266, 13), (.len267, 15), (.len268, 17), (.len269, 19), (.len270, 23),
    (.len271, 27), (.len272, 31), (.len273, 35), (.len274, 43), (.len275, 51), (.len276, 59), (.len277, 67),
    (.len278, 83), (.len279, 99), (.len280, 115), (.len281, 131), (.len282, 163), (.len283, 195), (.len284, 227),
    (.len285, 258)] : List (Instr × Nat)),
    look (exec row.1 (inflAt .litLen [0x00] 0 2)) (fun t => (t.infl.mlen, t.point)) = some (row.2, .distance) := by
  decide +kernel
/-- R354, IF27: with extra bits all 1 it is the top of the range. -/
theorem test_length_tops : ∀ row ∈ ([
    (.len257, 3), (.len258, 4), (.len259, 5), (.len260, 6), (.len261, 7), (.len262, 8), (.len263, 9),
    (.len264, 10), (.len265, 12), (.len266, 14), (.len267, 16), (.len268, 18), (.len269, 22), (.len270, 26),
    (.len271, 30), (.len272, 34), (.len273, 42), (.len274, 50), (.len275, 58), (.len276, 66), (.len277, 82),
    (.len278, 98), (.len279, 114), (.len280, 130), (.len281, 162), (.len282, 194), (.len283, 226), (.len284, 258),
    (.len285, 258)] : List (Instr × Nat)),
    look (exec row.1 (inflAt .litLen [0xFF] 0 2)) (fun t => t.infl.mlen) = some row.2 := by decide +kernel
/-- R353, IF28. -/
theorem test_litlenInvalid :
    look (exec (.litlenInvalid 286) { inflAt .litLen [] 0 2 with infl := { Infl.reset with symStart := 27 } }) State.point
      = some (raised .dInvalidSymbol 3) := by decide +kernel
/-- R355, R360: with extra bits 0 the distance is the base: one byte less emitted is too far, as many is not. -/
theorem test_distance_bases : ∀ row ∈ ([
    (.dist0, 1), (.dist1, 2), (.dist2, 3), (.dist3, 4), (.dist4, 5), (.dist5, 7), (.dist6, 9), (.dist7, 13),
    (.dist8, 17), (.dist9, 25), (.dist10, 33), (.dist11, 49), (.dist12, 65), (.dist13, 97), (.dist14, 129),
    (.dist15, 193), (.dist16, 257), (.dist17, 385), (.dist18, 513), (.dist19, 769), (.dist20, 1025),
    (.dist21, 1537), (.dist22, 2049), (.dist23, 3073), (.dist24, 4097), (.dist25, 6145), (.dist26, 8193),
    (.dist27, 12289), (.dist28, 16385), (.dist29, 24577)] : List (Instr × Nat)),
    look (exec row.1 { inflAt .distance [0x00, 0x00] 0 40000 with out := ⟨[], row.2 - 1, 1, 0⟩ }) State.point
      = some (raised .dDistTooFar 0) ∧
    look (exec row.1 { inflAt .distance [0x00, 0x00] 0 40000 with out := ⟨[], row.2, 1, 0⟩ }) State.point = some .litLen := by
  decide +kernel
/-- R355, IF30: with extra bits all 1 it is the top of the range. -/
theorem test_distance_tops : ∀ row ∈ ([
    (.dist0, 1), (.dist1, 2), (.dist2, 3), (.dist3, 4), (.dist4, 6), (.dist5, 8), (.dist6, 12), (.dist7, 16),
    (.dist8, 24), (.dist9, 32), (.dist10, 48), (.dist11, 64), (.dist12, 96), (.dist13, 128), (.dist14, 192),
    (.dist15, 256), (.dist16, 384), (.dist17, 512), (.dist18, 768), (.dist19, 1024), (.dist20, 1536),
    (.dist21, 2048), (.dist22, 3072), (.dist23, 4096), (.dist24, 6144), (.dist25, 8192), (.dist26, 12288),
    (.dist27, 16384), (.dist28, 24576), (.dist29, 32768)] : List (Instr × Nat)),
    look (exec row.1 { inflAt .distance [0xFF, 0xFF] 0 40000 with out := ⟨[], row.2 - 1, 1, 0⟩ }) State.point
      = some (raised .dDistTooFar 0) ∧
    look (exec row.1 { inflAt .distance [0xFF, 0xFF] 0 40000 with out := ⟨[], row.2, 1, 0⟩ }) State.point = some .litLen := by
  decide +kernel
/-- IF22: 07, then three bytes at distance 1. -/
theorem test_dist0_copies :
    look (exec .dist0 { inflAt .distance [0x00] 0 4 with
      mem := [(0x3000, 7#8)], out := ⟨[(0, 7#8)], 1, 8, 8⟩, infl := { Infl.reset with mlen := 3 } })
      (fun t => (rawOf 4 t, t.out.s2, t.out.s1)) = some ([7, 7, 7, 7], 0x4A, 0x1D) := by decide +kernel
/-- R356, IF29. -/
theorem test_distInvalid :
    look (exec (.distInvalid 30) { inflAt .distance [] 0 2 with infl := { Infl.reset with symStart := 34 } }) State.point
      = some (raised .dInvalidSymbol 4) := by decide +kernel
/-- IF17. -/
theorem test_adler :
    look (exec (.adler 0x00010001#32) { inflAt .adler [] 40 2 with out := ⟨[(0, 0#8)], 1, 1, 1⟩ })
      (fun t => (t.point, t.regs.phase)) = some (.scanline, 3#3) := by decide +kernel
/-- IF31. -/
theorem test_adler_mismatch :
    look (exec (.adler 0x00020002#32) { inflAt .adler [] 40 2 with out := ⟨[(0, 0#8)], 1, 1, 1⟩ }) State.point
      = some (raised .zAdlerMismatch 5) := by decide +kernel

/-- DF1. -/
theorem test_filtNone :
    look (exec .filtNone (rowAt 3 0 [0x00, 0x12, 0x34, 0x56])) (fun t => (rawOf 4 t, t.defl))
      = some ([0x00, 0x12, 0x34, 0x56], ⟨0, 1, 4, some 0⟩) := by decide +kernel
/-- DF2. -/
theorem test_filtSub :
    look (exec .filtSub (rowAt 3 0 [0x01, 0x10, 0xF5, 0x05])) (rawOf 4) = some [0x01, 0x10, 0x05, 0x0A] := by decide +kernel
/-- DF3. -/
theorem test_filtUp :
    look (exec .filtUp (rowAt 2 1 [0x00, 0x10, 0x20, 0x02, 0x01, 0xFF])) (fun t => (rawOf 6 t, t.point, t.regs.phase))
      = some ([0x00, 0x10, 0x20, 0x02, 0x11, 0x1F], .pixel, 4#3) := by decide +kernel
/-- DF4: the first row has zeros above it. -/
theorem test_filtUp_first :
    look (exec .filtUp (rowAt 2 0 [0x02, 0x05, 0x06])) (rawOf 3) = some [0x02, 0x05, 0x06] := by decide +kernel
/-- DF6: the sum 0x1FE does not wrap. -/
theorem test_filtAverage :
    look (exec .filtAverage (rowAt 2 1 [0x00, 0xFF, 0xFF, 0x03, 0x80, 0x00])) (rawOf 6)
      = some [0x00, 0xFF, 0xFF, 0x03, 0xFF, 0xFF] := by decide +kernel
/-- DF8. -/
theorem test_filtPaeth :
    look (exec .filtPaeth (rowAt 2 1 [0x00, 0x04, 0x0A, 0x04, 0x03, 0x01])) (rawOf 6)
      = some [0x00, 0x04, 0x0A, 0x04, 0x07, 0x0B] := by decide +kernel
/-- The predictor values of 95_test_vectors.md 2.5. -/
theorem test_paeth_values :
    [paethPredictor 3 10 4, paethPredictor 10 3 4, paethPredictor 1 2 3, paethPredictor 3 2 1, paethPredictor 255 0 255,
      paethPredictor 0 255 0, paethPredictor 100 200 150, paethPredictor 10 20 10, paethPredictor 7 7 0]
      = [10, 10, 1, 3, 0, 255, 150, 20, 7] := by decide +kernel
/-- DF13. -/
theorem test_filtInvalid :
    look (exec (.filtInvalid 5#8) (rowAt 2 1 [0x00, 0x01, 0x02, 0x05, 0x03, 0x04])) State.point
      = some (raised .badFilterType 3) := by decide +kernel

/-- SE1, its second and third pixel. -/
theorem test_g1 :
    look (exec .g1 (pixelAt ⟨8, 1, 1, 0, false⟩ 1 noTabs [0xB2])) (outPixel 1) = some [some 0, some 0, some 0, some 0xFF] ∧
    look (exec .g1 (pixelAt ⟨8, 1, 1, 0, false⟩ 2 noTabs [0xB2])) (outPixel 2)
      = some [some 0xFF, some 0xFF, some 0xFF, some 0xFF] := by decide +kernel
/-- SE6: key 2 at the third pixel. -/
theorem test_g2 :
    look (exec .g2 (pixelAt ⟨4, 1, 2, 0, false⟩ 1 (keyTabs 2 0 0) [0x1B])) (outPixel 1)
      = some [some 0x55, some 0x55, some 0x55, some 0xFF] ∧
    look (exec .g2 (pixelAt ⟨4, 1, 2, 0, false⟩ 2 (keyTabs 2 0 0) [0x1B])) (outPixel 2)
      = some [some 0xAA, some 0xAA, some 0xAA, some 0x00] := by decide +kernel
/-- SE7. -/
theorem test_g4 :
    look (exec .g4 (pixelAt ⟨2, 1, 4, 0, false⟩ 0 noTabs [0x3C])) (fun t => (outPixel 0 t, t.point, t.exp.col))
      = some ([some 0x33, some 0x33, some 0x33, some 0xFF], .pixel, 1) := by decide +kernel
/-- SE9: the last pixel of the image ends the decode. -/
theorem test_g8 :
    look (exec .g8 (pixelAt (grey8 2 1) 0 (keyTabs 0x7F 0 0) [0x7F, 0x80])) (outPixel 0)
      = some [some 0x7F, some 0x7F, some 0x7F, some 0x00] ∧
    look (exec .g8 (pixelAt (grey8 2 1) 1 (keyTabs 0x7F 0 0) [0x7F, 0x80])) (fun t => (outPixel 1 t, t.point))
      = some ([some 0x80, some 0x80, some 0x80, some 0xFF], .completing .success) := by decide +kernel
/-- SE10. -/
theorem test_g16 :
    look (exec .g16 (pixelAt ⟨2, 1, 16, 0, false⟩ 0 (keyTabs 0x1234 0 0) [0x12, 0x34, 0x12, 0x35])) (outPixel 0)
      = some [some 0x12, some 0x12, some 0x12, some 0x00] ∧
    look (exec .g16 (pixelAt ⟨2, 1, 16, 0, false⟩ 1 (keyTabs 0x1234 0 0) [0x12, 0x34, 0x12, 0x35])) (outPixel 1)
      = some [some 0x12, some 0x12, some 0x12, some 0xFF] := by decide +kernel
/-- SE12. -/
theorem test_rgb8 :
    look (exec .rgb8 (pixelAt ⟨2, 1, 8, 2, false⟩ 0 (keyTabs 1 2 3) [1, 2, 3, 1, 2, 4])) (outPixel 0)
      = some [some 1, some 2, some 3, some 0] ∧
    look (exec .rgb8 (pixelAt ⟨2, 1, 8, 2, false⟩ 1 (keyTabs 1 2 3) [1, 2, 3, 1, 2, 4])) (outPixel 1)
      = some [some 1, some 2, some 4, some 0xFF] := by decide +kernel
/-- SE14, SE15. -/
theorem test_rgb16 :
    look (exec .rgb16 (pixelAt ⟨1, 1, 16, 2, false⟩ 0 (keyTabs 0xFF01 2 0x8003) [0xFF, 0x01, 0, 2, 0x80, 3])) (outPixel 0)
      = some [some 0xFF, some 0, some 0x80, some 0] ∧
    look (exec .rgb16 (pixelAt ⟨1, 1, 16, 2, false⟩ 0 (keyTabs 0xFF00 2 0x8003) [0xFF, 0x01, 0, 2, 0x80, 3])) (outPixel 0)
      = some [some 0xFF, some 0, some 0x80, some 0xFF] := by decide +kernel
/-- SE17: index 1 with a palette of one entry. -/
theorem test_idx1 :
    look (exec .idx1 (pixelAt ⟨2, 1, 1, 3, false⟩ 1 (palTabs [⟨0x10, 0x20, 0x30⟩] []) [0x40])) State.point
      = some (raised .paletteIndex 1) := by decide +kernel
/-- SE18: index 2 with alpha 0x80, index 3 with none. -/
theorem test_idx2 :
    look (exec .idx2 (pixelAt ⟨4, 1, 2, 3, false⟩ 2
      (palTabs [⟨0xFF, 0, 0⟩, ⟨0, 0xFF, 0⟩, ⟨0, 0, 0xFF⟩, ⟨0xFF, 0xFF, 0xFF⟩] [0xFF, 0xFF, 0x80]) [0x1B])) (outPixel 2)
      = some [some 0, some 0, some 0xFF, some 0x80] ∧
    look (exec .idx2 (pixelAt ⟨4, 1, 2, 3, false⟩ 3
      (palTabs [⟨0xFF, 0, 0⟩, ⟨0, 0xFF, 0⟩, ⟨0, 0, 0xFF⟩, ⟨0xFF, 0xFF, 0xFF⟩] [0xFF, 0xFF, 0x80]) [0x1B])) (outPixel 3)
      = some [some 0xFF, some 0xFF, some 0xFF, some 0xFF] := by decide +kernel
/-- SE19. -/
theorem test_idx4 :
    look (exec .idx4 (pixelAt ⟨2, 1, 4, 3, false⟩ 0 (palTabs [⟨0, 0, 0⟩, ⟨0x11, 0x11, 0x11⟩, ⟨0x22, 0x22, 0x22⟩] [])
      [0x21])) (outPixel 0) = some [some 0x22, some 0x22, some 0x22, some 0xFF] := by decide +kernel
/-- SE20: the offset is the raw-stream index of the byte. -/
theorem test_idx8 :
    look (exec .idx8 (pixelAt ⟨2, 1, 8, 3, false⟩ 1 (palTabs (List.replicate 16 ⟨0, 1, 2⟩) []) [0x0F, 0x10])) State.point
      = some (raised .paletteIndex 2) := by decide +kernel
/-- SE22. -/
theorem test_ga8 :
    look (exec .ga8 (pixelAt ⟨1, 1, 8, 4, false⟩ 0 noTabs [0x40, 0xC0])) (outPixel 0)
      = some [some 0x40, some 0x40, some 0x40, some 0xC0] := by decide +kernel
/-- SE23. -/
theorem test_ga16 :
    look (exec .ga16 (pixelAt ⟨1, 1, 16, 4, false⟩ 0 noTabs [0x40, 0x11, 0xC0, 0x22])) (outPixel 0)
      = some [some 0x40, some 0x40, some 0x40, some 0xC0] := by decide +kernel
/-- SE24. -/
theorem test_rgba8 :
    look (exec .rgba8 (pixelAt ⟨1, 1, 8, 6, false⟩ 0 noTabs [1, 2, 3, 4])) (outPixel 0)
      = some [some 1, some 2, some 3, some 4] := by decide +kernel
/-- SE25. -/
theorem test_rgba16 :
    look (exec .rgba16 (pixelAt ⟨1, 1, 16, 6, false⟩ 0 noTabs [1, 0xFF, 2, 0xFF, 3, 0xFF, 4, 0xFF])) (outPixel 0)
      = some [some 1, some 2, some 3, some 4] := by decide +kernel
/-- IL1: pixel (1, 0) is the only pixel of pass 6, pass 7 follows. -/
theorem test_interlaced_pixel :
    look (exec .g8 { pixelAt ⟨2, 2, 8, 0, true⟩ 0 noTabs [0xA0, 0, 0xB0, 0, 0xC0, 0xD0] with exp := ⟨6, 0, 0, 2⟩ })
      (fun t => (outPixel 1 t, t.exp)) = some ([some 0xB0, some 0xB0, some 0xB0, some 0xFF], ⟨7, 0, 0, 4⟩) := by decide +kernel
/-- HD6: colour type 1. -/
theorem test_modeIllegal :
    look (exec (.modeIllegal 0x0108#16) (pixelAt ⟨1, 1, 8, 1, false⟩ 0 noTabs [0])) State.point
      = some (raised .badDepthColor 58) := by decide +kernel

/-! ## Engine steps and outside events -/

/-- HI5, HI7. -/
theorem test_configCheck :
    (configCheck { mid .configCheck (grey8 1 1) [] with
      lat := ⟨true, false, 0x1000#32, 0x100#32, 0x10F0#32, 0x40#32, 0x3000#32, 0x100#32⟩ }).point
      = raised .cfgRegionOverlap 0 ∧
    (configCheck { mid .configCheck (grey8 1 1) [] with
      lat := ⟨true, false, 0xFFFFFFC0#32, 0x41#32, 0xFFFFFFF0#32, 0x40#32, 0x3000#32, 0x100#32⟩ }).point
      = raised .cfgRegionWrap 0 ∧
    (configCheck { mid .configCheck (grey8 1 1) [] with
      lat := ⟨true, false, 0xFFFFFFC0#32, 0x40#32, 0x1100#32, 0x40#32, 0x3000#32, 0x100#32⟩ }).point = .signature := by decide
/-- P4a: STATUS 4, kind 2, detail 0x0204, offset 33, irq 1. -/
theorem test_completion :
    look (step { mid (raised .chunkCrcMismatch 33) (grey8 1 1) [] with regs := { regs0 with irqEn := true } })
      (fun t => (regWord t 0x0C#8, regWord t 0x10#8, regWord t 0x14#8, regWord t 0x18#8, irq t))
      = some (4#32, 2#32, 0x0204#32, 33#32, true) := by decide +kernel
/-- P1: STATUS 2. -/
theorem test_completion_success :
    look (step (mid (.completing .success) (grey8 1 1) [])) (fun t => (regWord t 0x0C#8, irq t)) = some (2#32, false) := by
  decide +kernel
/-- HI24: reset while BUSY = 1. -/
theorem test_reset_low :
    look (step { mid .litLen (grey8 1 1) [] with port := ⟨[.resetLow], 0, 0, true⟩ })
      (fun t => (t.regs, t.port.rstN)) = some (Regs.reset, false) := by decide +kernel
/-- HI25, HI26. -/
theorem test_busError :
    look (step { mid .chunkFrame (grey8 1 1) [] with port := ⟨[.busError false 0x1001#32], 0, 0, true⟩ }) State.point
      = some (raised .readFault 0x1001) ∧
    look (step { pixelAt (grey8 1 1) 0 noTabs [0] with port := ⟨[.busError true 0x2000#32], 0, 0, true⟩ }) State.point
      = some (raised .writeFault 0x2000) := by decide +kernel
/-- R512: an error of a prefetch of IN replaces the ConfigError that ConfigCheck has found. -/
theorem test_busError_replaces_config_error :
    look (step { mid (raised .cfgRegionWrap 0) (grey8 1 1) [] with
      lat := { lat0 with outBase := 0xFFFFFFFF#32 }, port := ⟨[.busError false 0x1000#32], 0, 0, true⟩ }) State.point
      = some (raised .readFault 0x1000) := by decide +kernel
/-- R53, U11: an access that is not 32-bit at a multiple of 4 is refused in reset too, where R550 ignores other writes. -/
theorem test_port_access_in_reset :
    let s := resetLow State.reset
    step { s with port := { s.port with inputs := [.access (.write 0x05#8 .w32 1#32)] } } = .refused .portAccess ∧
    look (step { s with port := { s.port with inputs := [.access (.write 0x08#8 .w32 2#32)] } })
      (fun t => (t.regs.validate, t.regs.strict)) = some (true, false) := ⟨rfl, by decide +kernel⟩
/-- 41_crc32.md R222: the CRCs of 95_test_vectors.md 2.1. -/
theorem test_crc :
    crc32 [] = 0#32 ∧ crc32 [0x61] = 0xE8B7BE43#32 ∧ crc32 [0x49, 0x45, 0x4E, 0x44] = 0xAE426082#32 := by decide +kernel
/-- 95_test_vectors.md 2.7: RAWLEN of G8 images, interlaced and not. -/
theorem test_raw_length :
    ([(5, 5), (9, 9), (1, 8), (8, 1), (16, 3)].map fun p =>
      (rawLength ⟨p.1, p.2, 8, 0, true⟩, rawLength ⟨p.1, p.2, 8, 0, false⟩))
      = [(36, 30), (100, 90), (16, 16), (12, 9), (55, 51)] := by decide +kernel
/-- A word of the opcode table, placed, is what the next step runs. -/
theorem test_withFetchWord :
    look (step (State.reset.withFetchWord 32 0x49454E44)) State.point = some (raised .firstNotIhdr 0) ∧
    look (step (State.reset.withFetchWord 16 284)) (fun t => (t.infl.mlen, t.point)) = some (227, .distance) ∧
    look (step (State.reset.withFetchWord 8 5)) State.point = some (raised .dDistTooFar 0) ∧
    look (step (State.reset.withFetchWord 16 0x0302)) State.point = some (raised .paletteIndex 1) := by decide +kernel

/-! ## Witnesses: concrete states and operands that meet the hypotheses of each obligation, clause by clause -/

/-- The inflater in a fixed block of a 2 by 1 G8 image, one byte emitted: every invariant holds. -/
def inflGood : State :=
  { inflAt .litLen [0x78, 0x01, 0x63, 0x00, 0x00, 0x00, 0x01, 0x00, 0x01] 27 3 with
    mem := [(0x3000, 0#8)], out := ⟨[(0, 0#8)], 1, 1, 1⟩
    infl := { Infl.reset with
      bp := 27, bstart := 16, symStart := 19, bfinal := true, btype := 1, ll := fixedLitLens, dl := fixedDistLens
      llCode := buildCode fixedLitLens, dCode := buildCode fixedDistLens } }

/-- The defilter at the second row of a 2 by 2 G8 image. -/
def scanGood : State := rowAt 2 1 [0x00, 0x10, 0x20, 0x02, 0x01, 0xFF]

/-- The expander at the last pixel of a 2 by 1 G8 image. -/
def pixelGood : State := pixelAt (grey8 2 1) 1 noTabs [0x7F, 0x80]

/-- A state with one pending input. -/
def pend (i : Input) (s : State) : State := { s with port := { s.port with inputs := [i] } }

/-- A state of an engine whose memory holds the stream's first bytes. -/
def streamAt (p : Point) (pos : Nat) (inLen : Word) (bs : List Byte) : State :=
  { mid p (grey8 1 1) (cells 0x1000 bs) with lat := { lat0 with inLen := inLen }, pos := pos }

/-- R103 item 5, R95: after a race OUT_USED is unspecified, and the byte of OUTR after it keeps its value. -/
theorem test_race_keeps_unused_bytes :
    look (step { racedWrite 0x2000#32 1#8 pixelGood with mem := [(0x2000, 1#8), (0x2008, 7#8)], point := .completing .success })
      (fun t => (memAt t 0x2008, t.regs.busy)) = some (some 7#8, false) := by decide +kernel

theorem witness_DecodeInvertsEncode : ∀ i ∈ [Instr.start 0xFFFFFFFF#32, .setIrqEn 0#32, .read 0xFC#8, .sig signatureBytes,
    .chunk 0xFFFFFFFF#32 0x20202020#32, .chunk 0#32 0x7E7E7E7E#32, .chunkBadType 0#32 0x1F202020#32,
    .chunkBadType 0#32 0x7E7E7E7F#32, .unknownCritical 0x41424344#32, .unknownAncillary 0x61424344#32, .zhdr 0x08#8 0x1D#8,
    .zhdr 0x78#8 0xDA#8, .clLen 15#4, .lit 0xFF#8, .litlenInvalid 286, .litlenInvalid 287, .distInvalid 30, .distInvalid 31,
    .filtInvalid 5#8, .filtInvalid 0xFF#8, .modeIllegal 0#16, .modeIllegal 0xFFFF#16], i.wf = true := by decide

theorem witness_EncodeInvertsDecode :
    decode (.sig []) = .ok (.sig []) ∧ decode (.sig (List.replicate 8 0#8)) = .ok (.sig (List.replicate 8 0#8)) ∧
    decode (.zhdr [0#8, 0#8]) = .ok (.zhdr 0#8 0#8) ∧ decode (.filter 0xFF#8) = .ok (.filtInvalid 0xFF#8) := by decide

theorem witness_PortTransactions :
    ((pend (.access (.write 0x04#8 .w32 1#32)) State.reset).port.inputs = .access (.write 0x04#8 .w32 1#32) :: [] ∧
      decode (.access (.write 0x04#8 .w32 1#32)) = .ok (.start 1#32) ∧ State.reset.port.rstN = true) ∧
    (let s := pend (.access (.write 0x04#8 .w32 1#32)) (resetLow State.reset)
     s.port.inputs = .access (.write 0x04#8 .w32 1#32) :: [] ∧ (0x04#8).toNat % 4 = 0 ∧ s.port.rstN = false) ∧
    (let s := pend (.access (.write 0x05#8 .w32 1#32)) (resetLow State.reset)
     s.port.inputs = .access (.write 0x05#8 .w32 1#32) :: [] ∧ (0x05#8).toNat % 4 ≠ 0 ∧ s.port.rstN = false) ∧
    (∀ off ∈ [0x00#8, 0x10#8, 0x18#8, 0x34#8, 0x54#8, 0xFC#8],
      off.toNat % 4 = 0 ∧ off.toNat ∉ [0x04, 0x08, 0x0C, 0x1C, 0x20, 0x24, 0x28, 0x2C, 0x30]) ∧
    (Width.w16 ≠ .w32 ∨ (0x04#8).toNat % 4 ≠ 0) ∧ (Width.w32 ≠ .w32 ∨ (0xFF#8).toNat % 4 ≠ 0) := by decide +kernel

theorem witness_StepRunsStreamElement :
    (inflGood.port.inputs = [] ∧ inflGood.regs.busy = true ∧
      fetch inflGood = .element (.litlen 256) { inflGood with infl := { inflGood.infl with symStart := 27, bp := 34 } } ∧
      decode (.litlen 256) = .ok .eob) ∧
    ((pend .engine inflGood).port.inputs = .engine :: [] ∧ (pend .engine inflGood).regs.busy = true) ∧
    (fetch (inflAt .zlibHeader [0x78] 0 2) = .own (truncated (inflAt .zlibHeader [0x78] 0 2)) ∧
      (inflAt .zlibHeader [0x78] 0 2).regs.busy = true) ∧
    (State.reset.regs.busy = false ∧ State.reset.port.inputs = []) := by decide +kernel

/-- Its clauses by point: a chunk's dispatch, a scanline, a pixel; two bits left of C, three bits left, and each BTYPE; each
kind of symbol, with a 1 bit under a single code, an empty distance code and C at its end. -/
theorem witness_StepRunsStreamElement_points :
    (let s := chunkAt (grey8 1 1) 0x49444154#32 []
     s.port.inputs = [] ∧ s.regs.busy = true ∧ s.point = .chunkType ∧ decode (.ctype s.parse.chunk.ty) = .ok .idat) ∧
    (scanGood.regs.busy = true ∧ scanGood.point = .scanline ∧ decode (.filter (rawByte scanGood scanGood.defl.off)) = .ok .filtUp) ∧
    (pixelGood.regs.busy = true ∧ pixelGood.point = .pixel ∧
      decode (.mode (BitVec.ofNat 16 (pixelGood.hdr.ctype * 256 + pixelGood.hdr.depth))) = .ok .g8) ∧
    (let s := inflAt .blockHeader [0x78, 0x01, 0x63] 22 2
     s.regs.busy = true ∧ s.point = .blockHeader ∧ 8 * s.c.length < s.infl.bp + 3) ∧
    (inflAt .blockHeader [0x78, 0x01, 0x63] 21 2).infl.bp + 3 = 8 * (inflAt .blockHeader [0x78, 0x01, 0x63] 21 2).c.length ∧
    (∀ p ∈ [(0x01#8, 0), (0x03#8, 1), (0x05#8, 2), (0x07#8, 3)],
      let s := inflAt .blockHeader [0x78, 0x01, p.1] 16 2
      s.infl.bp + 3 ≤ 8 * s.c.length ∧ cBit s.c s.infl.bp = true ∧
        (cBit s.c (s.infl.bp + 1)).toNat + 2 * (cBit s.c (s.infl.bp + 2)).toNat = p.2) ∧
    (inflGood.point = .litLen ∧ decodeSym inflGood.infl.llCode inflGood.c inflGood.infl.bp = .sym 256 34 ∧
      decodeSym inflGood.infl.dCode inflGood.c 40 = .sym 0 45 ∧ decode (.dist 0) = .ok .dist0 ∧
      decodeSym (buildCode placeClLens) inflGood.c 40 = .sym 0 44 ∧ decode (.clsym 0) = .ok (.clLen 0#4)) ∧
    (decodeSym [⟨256, 1, 0⟩] [0x01] 0 = .invalid ∧ decodeSym [] [] 0 = .invalid ∧
      decodeSym inflGood.infl.llCode inflGood.c 71 = .truncated) := by decide +kernel

theorem witness_StartLaunchesDecode :
    (State.reset.regs.busy = false ∧ coversDevice State.reset = false) ∧
    (let s := { State.reset with
        regs := { Regs.reset with inBase := 0x1000#32, inLen := 16#32 }, plat := { State.reset.plat with devices := [⟨0x1010, 16⟩] } }
     s.regs.busy = false ∧ coversDevice s = false) := by decide +kernel

theorem witness_ConfigWritesAndBusyStart : State.reset.regs.busy = false ∧ inflGood.regs.busy = true := by decide +kernel

theorem witness_ReadReturnsRegister :
    State.reset.regs.busy = false ∧ (inflGood.regs.busy = true ∧ inflGood.free.raced = false) ∧
    (∀ off ∈ [0x54#8, 0xFC#8], 0x54 ≤ off.toNat ∧ off.toNat % 4 = 0) := by decide +kernel

theorem witness_BusyStatusRead :
    (StatusLegal inflGood ∧ inflGood.regs.busy = true) ∧
    StatusLegal { inflGood with free := ⟨4, 0, false⟩, regs := { inflGood.regs with phase := 4#3 } } := by
  unfold StatusLegal; decide +kernel

theorem witness_IrqLevelFollowsFlags :
    (StatusLegal inflGood ∧ inflGood.regs.busy = true) ∧
    (EngineTurn (mid (.completing .success) (grey8 1 1) []) ∧
      (mid (.completing .success) (grey8 1 1) []).point = .completing .success) ∧
    (exec (.setIrqEn 4#32) State.reset = .next (setIrqEnable 4#32 State.reset) ∧
      exec (.clearStatus 6#32) State.reset = .next (State.reset.setRegs (clearStatusFlags 6#32 State.reset.regs)) ∧
      (6#32).getLsbD 1 = true ∧ (6#32).getLsbD 2 = true ∧ State.reset.regs.err = false ∧ State.reset.regs.done = false) ∧
    (State.reset.regs.busy = false ∧ exec (.start 1#32) State.reset = .next (launch 1#32 State.reset)) := by
  refine ⟨?_, ⟨⟨rfl, rfl⟩, rfl⟩, ⟨rfl, rfl, rfl, rfl, rfl, rfl⟩, rfl, rfl⟩
  unfold StatusLegal; decide +kernel

theorem witness_ResetAbandonsDecode :
    (let s := pend .resetHigh (resetLow inflGood)
     s.port.inputs = .resetHigh :: [] ∧ (s.port.rstN = false → s.regs = Regs.reset) ∧ s.port.rstN = false) ∧
    (pend .resetHigh inflGood).port.inputs = .resetHigh :: [] ∧
    ((pend .resetLow inflGood).port.inputs = .resetLow :: [] ∧ (pend .resetLow State.reset).port.inputs = .resetLow :: []) ∧
    State.reset.regs.busy = false ∧ regionError inflGood.lat = none ∧
    (∀ a ∈ [0x1FFF, 0x4000], windowHas (regionOut inflGood.lat) a = false ∧ windowHas (regionScr inflGood.lat) a = false) ∧
    (∀ a ∈ [0x1000, 0x1045], windowHas (regionIn inflGood.lat) a = true) := by decide +kernel

/-- ConfigCheck's turn with the three regions at the given places. -/
def configAt (l : Latch) : State := { mid .configCheck (grey8 1 1) [] with lat := l }

theorem witness_ConfigCheckVerdict :
    (∀ l, EngineTurn (configAt l) ∧ (configAt l).point = .configCheck) ∧
    -- one byte past the end, and the last byte of the space
    (0 < 0x41 ∧ 2 ^ 32 < (0xFFFFFFC0#32).toNat + 0x41 ∧ ¬2 ^ 32 < (0xFFFFFFC0#32).toNat + 0x40) ∧
    -- one shared byte, and regions that touch
    ((0x1000#32).toNat < (0x10FF#32).toNat + 0x40 ∧ (0x10FF#32).toNat < (0x1000#32).toNat + 0x100) ∧
    ¬((0x1100#32).toNat < (0x1000#32).toNat + 0x100) ∧
    regionError ⟨true, false, 0x1000#32, 0x100#32, 0x10FF#32, 0x40#32, 0x3000#32, 0x100#32⟩ = some .cfgRegionOverlap ∧
    regionError ⟨true, false, 0x1000#32, 0x100#32, 0x1100#32, 0x40#32, 0x3000#32, 0x100#32⟩ = none :=
  ⟨fun _ => ⟨⟨rfl, rfl⟩, rfl⟩, by decide +kernel⟩

theorem witness_CompletionReportsOutcome :
    (let s := { inflGood with point := .completing .success }
     EngineTurn s ∧ s.point = .completing .success ∧ s.free.raced = false ∧ RegionsInside s ∧
      (∀ a ∈ [0x2000, 0x2007], windowHas (usedOut s) a = true) ∧ ∀ a ∈ [0x2FFF, 0x3003], windowHas (usedScr s) a = false) ∧
    (let s := { inflGood with point := raised .dOutputShort 4 }
     EngineTurn s ∧ s.point = .completing (.error ⟨.dOutputShort, 4⟩) ∧ s.free.raced = false ∧
      ∀ a ∈ [0x1FFF, 0x2008], windowHas (usedScr s) a = false ∧ windowHas (usedOut s) a = false) := by
  unfold EngineTurn RegionsInside HeaderFits; decide +kernel

theorem witness_SignatureCompared :
    (let s := streamAt .signature 0 8#32 signatureBytes
     EngineTurn s ∧ s.point = .signature ∧ ∀ i, i < 8 → i < s.lat.inLen.toNat ∧ inByte s i = signatureBytes.getD i 0#8) ∧
    (∀ i ∈ [0, 7],
      let s := streamAt .signature 0 (BitVec.ofNat 32 i) signatureBytes
      (∀ j, j < i → j < s.lat.inLen.toNat ∧ inByte s j = signatureBytes.getD j 0#8) ∧ s.lat.inLen.toNat ≤ i) ∧
    (∀ i ∈ [0, 7],
      let s := streamAt .signature 0 8#32 (signatureBytes.set i 0xFF#8)
      (∀ j, j < i → j < s.lat.inLen.toNat ∧ inByte s j = signatureBytes.getD j 0#8) ∧ i < s.lat.inLen.toNat ∧
        inByte s i ≠ signatureBytes.getD i 0#8) ∧
    (∀ i, i < 8 → signatureBytes[i]? = some (signatureBytes.getD i 0#8)) ∧
    (∀ i ∈ [0, 7],
      (∀ j, j < i → (signatureBytes.take i)[j]? = some (signatureBytes.getD j 0#8)) ∧ (signatureBytes.take i)[i]? = none ∧
      (∀ j, j < i → (signatureBytes.set i 0xFF#8)[j]? = some (signatureBytes.getD j 0#8)) ∧
        (signatureBytes.set i 0xFF#8)[i]? = some 0xFF#8 ∧ 0xFF#8 ≠ signatureBytes.getD i 0#8) := by
  unfold EngineTurn; decide +kernel

theorem witness_ChunkHeaderRead :
    (let s := streamAt .chunkFrame 8 15#32 []
     EngineTurn s ∧ s.point = .chunkFrame ∧ s.lat.inLen.toNat < s.pos + 8) ∧
    (∀ b ∈ [0x1F#8, 0x7F#8],
      let s := streamAt .chunkFrame 0 8#32 [0, 0, 0, 0, 0x41, 0x42, 0x43, b]
      s.pos + 8 ≤ s.lat.inLen.toNat ∧
        ∃ k, k < 4 ∧ ((inByte s (s.pos + 4 + k)).toNat < 0x20 ∨ 0x7E < (inByte s (s.pos + 4 + k)).toNat)) ∧
    (∀ b ∈ [0x20#8, 0x7E#8],
      let s := streamAt .chunkFrame 0 8#32 [0, 0, 0, 0, b, b, b, b]
      s.pos + 8 ≤ s.lat.inLen.toNat ∧
        ¬∃ k, k < 4 ∧ ((inByte s (s.pos + 4 + k)).toNat < 0x20 ∨ 0x7E < (inByte s (s.pos + 4 + k)).toNat)) := by
  unfold EngineTurn; decide +kernel

/-- The frame of S1's IEND is accepted, the four CRC bytes being the last of IN. -/
def iendFrame (crc : Byte) (inLen : Word) : State :=
  streamAt .chunkFrame 0 inLen [0, 0, 0, 0, 0x49, 0x45, 0x4E, 0x44, 0xAE, 0x42, 0x60, crc]

theorem witness_ChunkBodyAndCrc :
    (let s := iendFrame 0x82 11#32
     (s.lat.inLen.toNat : Int) - s.pos - 8 < (0#32).toNat + 4) ∧
    (∀ crc ∈ [0x82#8, 0x83#8],
      let s := iendFrame crc 12#32
      ((0#32).toNat : Int) + 4 ≤ s.lat.inLen.toNat - s.pos - 8 ∧ s.lat.validate = true ∧
        (crc32 (be32Bytes 0x49454E44#32) = be32 (inByte s 8) (inByte s 9) (inByte s 10) (inByte s 11) ↔ crc = 0x82#8)) := by
  decide +kernel

theorem witness_DispatchOrderErrors :
    ((ihdrAt ihdr2x2 16#32 6#32).parse.nchunks = 0 ∧ (Instr.unknownCritical 0x41424344#32).wf = true ∧
      (Instr.unknownAncillary 0x74455874#32).wf = true ∧ Instr.plte.wf = true) ∧
    (inflGood.parse.nchunks ≠ 0 ∧ inflGood.parse.idat ≠ .none ∧ Instr.ihdr.wf = true) := by decide +kernel

theorem witness_UnknownAndSkippedChunks :
    (chunkAt (grey8 1 1) 0x41424344#32 []).parse.nchunks ≠ 0 ∧ (chunkAt (grey8 1 1) 0x41424344#32 []).parse.idat = .none ∧
    (Instr.unknownCritical 0x41424344#32).wf = true ∧ (Instr.unknownAncillary 0x74455874#32).wf = true ∧
    (chunkAt (grey8 1 1) 0x41424344#32 []).lat.strict = false ∧ { lat0 with strict := true }.strict = true := by decide +kernel

/-- The bytes of HD17 meet every bound with equality in the capacities. -/
theorem witness_IhdrAccepted :
    let s := ihdrAt ihdr2x2 16#32 6#32
    let h := grey8 2 2
    s.parse.seenIhdr = false ∧ s.parse.idat = .none ∧ s.parse.chunk.len = 13 ∧
    (h.width = (dataByte s 0).toNat * 2 ^ 24 + (dataByte s 1).toNat * 2 ^ 16 + (dataByte s 2).toNat * 2 ^ 8
      + (dataByte s 3).toNat ∧
      h.height = (dataByte s 4).toNat * 2 ^ 24 + (dataByte s 5).toNat * 2 ^ 16 + (dataByte s 6).toNat * 2 ^ 8
        + (dataByte s 7).toNat) ∧
    (h.depth = (dataByte s 8).toNat ∧ h.ctype = (dataByte s 9).toNat ∧ dataByte s 10 = 0#8 ∧ dataByte s 11 = 0#8 ∧
      (dataByte s 12).toNat = h.interlace.toNat) ∧
    (0 < h.width ∧ 0 < h.height ∧ h.width ≤ 2 ^ 31 - 1 ∧ h.height ≤ 2 ^ 31 - 1 ∧ (h.ctype, h.depth) ∈ [(0, 1), (0, 8)]) ∧
    (h.width ≤ s.plat.maxDim ∧ h.height ≤ s.plat.maxDim ∧ h.width * h.height ≤ s.plat.maxPixels) ∧
    h.width * h.height * 4 ≤ s.lat.outCap.toNat ∧ rawLength h ≤ s.lat.scrCap.toNat := by decide +kernel

/-- HD2 to HD16: one state for each check. -/
theorem witness_IhdrRejected :
    (let s := ihdrAt (List.replicate 12 0#8) 16#32 6#32
     s.parse.idat = .none ∧ s.parse.seenIhdr = false ∧ s.parse.chunk.len ≠ 13) ∧
    (let s := { ihdrAt ihdr2x2 16#32 6#32 with parse := ⟨true, false, false, false, .none, 1, ⟨33, 13, 0x49484452#32⟩⟩ }
     s.parse.idat = .none ∧ s.parse.seenIhdr = true) ∧
    (ihdrHeader (ihdrAt [0, 0, 0, 0, 0, 0, 0, 1, 8, 0, 0, 0, 0] 16#32 6#32)).width = 0 ∧
    (2 ^ 31 - 1 < (ihdrHeader (ihdrAt [0x80, 0, 0, 0, 0, 0, 0, 1, 8, 0, 0, 0, 0] 16#32 6#32)).width) ∧
    (ihdrFormatError (ihdrAt [0, 0, 0, 1, 0, 0, 0, 1, 3, 0, 0, 0, 0] 16#32 6#32) = some .badDepthColor ∧
      ihdrFormatError (ihdrAt [0, 0, 0, 1, 0, 0, 0, 1, 8, 0, 1, 0, 0] 16#32 6#32) = some .badCompressionMethod ∧
      ihdrFormatError (ihdrAt [0, 0, 0, 1, 0, 0, 0, 1, 8, 0, 0, 1, 0] 16#32 6#32) = some .badFilterMethod ∧
      ihdrFormatError (ihdrAt [0, 0, 0, 1, 0, 0, 0, 1, 8, 0, 0, 0, 2] 16#32 6#32) = some .badInterlaceMethod) ∧
    (let s := { ihdrAt ihdr2x2 16#32 6#32 with plat := ⟨1, 1, []⟩ }
     ihdrFormatError s = none ∧ s.plat.maxDim < (ihdrHeader s).width) ∧
    (let s := ihdrAt ihdr2x2 15#32 6#32
     s.lat.outCap.toNat < (ihdrHeader s).width * (ihdrHeader s).height * 4) ∧
    (let s := ihdrAt ihdr2x2 16#32 5#32
     (ihdrHeader s).width * (ihdrHeader s).height * 4 ≤ s.lat.outCap.toNat ∧ s.lat.scrCap.toNat < rawLength (ihdrHeader s)) := by
  decide +kernel

theorem witness_PlteProcessed :
    (let s := chunkAt ⟨1, 1, 1, 3, false⟩ 0x504C5445#32 [1, 2, 3, 4, 5, 6]
     s.parse.nchunks ≠ 0 ∧ s.parse.idat = .none ∧ s.hdr.ctype = 3 ∧ s.parse.seenPlte = false ∧
      ¬(s.parse.chunk.len = 0 ∨ s.parse.chunk.len % 3 ≠ 0) ∧ s.parse.chunk.len / 3 ≤ 2 ^ s.hdr.depth) ∧
    (let s := chunkAt ⟨1, 1, 1, 3, false⟩ 0x504C5445#32 (List.replicate 9 0#8)
     2 ^ s.hdr.depth < s.parse.chunk.len / 3) ∧
    (let s := chunkAt ⟨1, 1, 1, 3, false⟩ 0x504C5445#32 []
     s.parse.chunk.len = 0) ∧
    (let s := chunkAt ⟨1, 1, 8, 0, false⟩ 0x504C5445#32 [1, 2, 3]
     s.hdr.ctype ≠ 3) := by decide +kernel

theorem witness_TrnsAndGamaAccepted :
    (let s := chunkAt (grey8 1 1) 0x74524E53#32 [0, 0x7F]
     s.parse.nchunks ≠ 0 ∧ s.parse.idat = .none ∧ s.hdr.ctype = 0 ∧ s.parse.seenTrns = false ∧ s.parse.chunk.len = 2) ∧
    (let s := chunkAt ⟨1, 1, 8, 2, false⟩ 0x74524E53#32 [0, 1, 0, 2, 0, 3]
     s.hdr.ctype = 2 ∧ s.parse.seenTrns = false ∧ s.parse.chunk.len = 6) ∧
    (let s := { chunkAt ⟨1, 1, 1, 3, false⟩ 0x74524E53#32 [0, 1] with
        tabs := palTabs [⟨0, 0, 0⟩, ⟨1, 1, 1⟩] [], parse := ⟨true, true, false, false, .none, 2, ⟨51, 2, 0x74524E53#32⟩⟩ }
     s.parse.nchunks ≠ 0 ∧ s.hdr.ctype = 3 ∧ s.parse.seenPlte = true ∧ s.parse.chunk.len ≤ s.tabs.plteN) ∧
    (let s := chunkAt (grey8 1 1) 0x67414D41#32 [0, 0, 0xB1, 0x8F]
     s.parse.seenPlte = false ∧ s.parse.seenGama = false ∧ s.parse.chunk.len = 4) := by decide +kernel

theorem witness_AncillaryIllFormed :
    (inflGood.parse.nchunks ≠ 0 ∧ inflGood.parse.idat ≠ .none) ∧
    (let s := chunkAt ⟨1, 1, 1, 3, false⟩ 0x74524E53#32 []
     s.parse.nchunks ≠ 0 ∧ s.parse.idat = .none ∧ s.hdr.ctype = 3 ∧ s.parse.seenPlte = false) ∧
    (let s := chunkAt (grey8 1 1) 0x74524E53#32 [0, 0, 0]
     s.parse.seenTrns = false ∧ s.hdr.ctype = 0 ∧ s.parse.chunk.len ≠ 2 ∧ s.parse.chunk.len ≠ 4 ∧ s.parse.seenGama = false) ∧
    (chunkAt ⟨1, 1, 8, 4, false⟩ 0x74524E53#32 []).hdr.ctype = 4 ∧
    (let s := { chunkAt (grey8 1 1) 0x74524E53#32 [] with
        parse := ⟨true, false, true, true, .none, 3, ⟨60, 0, 0x74524E53#32⟩⟩ }
     s.parse.nchunks ≠ 0 ∧ s.parse.seenTrns = true ∧ s.parse.seenGama = true ∧ s.parse.seenPlte = false) ∧
    lat0.strict = false := by decide +kernel

theorem witness_IdatAndIend :
    (inflGood.parse.nchunks ≠ 0 ∧ inflGood.parse.idat = .ended ∧ inflGood.parse.chunk.len = 0) ∧
    (let s := chunkAt ⟨1, 1, 1, 3, false⟩ 0x49444154#32 []
     s.parse.nchunks ≠ 0 ∧ s.parse.idat = .none ∧ s.hdr.ctype = 3 ∧ s.parse.seenPlte = false) ∧
    (let s := chunkAt (grey8 1 1) 0x49444154#32 [0x78]
     s.parse.nchunks ≠ 0 ∧ s.parse.idat = .none ∧ ¬(s.hdr.ctype = 3 ∧ s.parse.seenPlte = false) ∧ s.parse.chunk.len ≠ 0) ∧
    (⟨true, false, false, false, .inRun, 2, ⟨33, 0, 0x49454E44#32⟩⟩ : Parse).idat = .inRun := by decide +kernel

theorem witness_ZlibHeaderChecked :
    (∀ c ∈ [[], [0x78#8]], EngineTurn (inflAt .zlibHeader c 0 2) ∧ (inflAt .zlibHeader c 0 2).c.length < 2) ∧
    (inflAt .zlibHeader [0x78, 0x01] 0 2).c = 0x78#8 :: 0x01#8 :: [] ∧
    ((0x79#8).toNat % 16 ≠ 8) ∧ ((0x88#8).toNat % 16 = 8 ∧ 7 < (0x88#8).toNat / 16) ∧
    ((0x78#8).toNat / 16 = 7 ∧ ((0x78#8).toNat * 256 + (0x00#8).toNat) % 31 ≠ 0) ∧
    (((0x78#8).toNat * 256 + (0x20#8).toNat) % 31 = 0 ∧ (0x20#8).getLsbD 5 = true) ∧
    (((0x78#8).toNat * 256 + (0xDA#8).toNat) % 31 = 0 ∧ (0xDA#8).getLsbD 5 = false) := by
  unfold EngineTurn; decide +kernel

theorem witness_EmitAppendsRawBytes :
    (List.replicate 32768 0#8).length ≤ 32768 ∧ (∀ k, k < [1#8, 2#8].length → 32767 ≠ (0 + k) % 32768) ∧
    inflGood.out.s1 < 65521 ∧ inflGood.out.s2 < 65521 :=
  ⟨by rw [List.length_replicate], by decide +kernel, by decide +kernel, by decide +kernel⟩

/-- A stored block of `data` bytes, LEN and NLEN given, at bit 19 of C. -/
def storedAt (len nlen : BitVec 16) (data : List Byte) (raw : Nat) : State :=
  inflAt .blockHeader ([0x78, 0x01, 0x01, len.extractLsb' 0 8, len.extractLsb' 8 8, nlen.extractLsb' 0 8,
    nlen.extractLsb' 8 8] ++ data) 19 raw

theorem witness_StoredBlockCopied :
    (let s := inflAt .blockHeader [0x78, 0x01, 0x01, 0x03, 0x00, 0xFC] 19 3
     s.c.length < (s.infl.bp + 7) / 8 + 4) ∧
    (let s := storedAt 3 0xFFFC [1, 2, 3] 3
     (s.infl.bp + 7) / 8 + 4 ≤ s.c.length ∧ 0xFFFC = 3 ^^^ 0xFFFF ∧ s.out.n + 3 = rawLength s.hdr ∧
      (s.infl.bp + 7) / 8 + 4 + 3 = s.c.length) ∧
    (let s := storedAt 3 0xFFFC [1, 2, 3] 2
     rawLength s.hdr < s.out.n + 3) ∧
    (let s := storedAt 3 0xFFFC [1, 2] 3
     s.c.length < (s.infl.bp + 7) / 8 + 4 + 3) ∧
    (let s := storedAt 0 0xFFFF [] 2
     s.out.n + 0 < rawLength s.hdr ∧ (s.infl.bp + 7) / 8 + 4 + 0 ≤ s.c.length) ∧
    0xFEFC ≠ 3 ^^^ 0xFFFF := by decide +kernel

/-- IF36, IF37, IF38, IF40: the heads of dynamic blocks. -/
theorem witness_HuffmanBlocksBegin :
    (8 * (inflAt .blockHeader [0x78, 0x01, 0x05, 0x00] 19 2).c.length < 19 + 14) ∧
    (bitsValue [0x78, 0x01, 0xF5, 0x00, 0x00] 19 5 = 30 ∧ bitsValue [0x78, 0x01, 0x05, 0x1E, 0x00] 24 5 = 30) ∧
    (let c : List Byte := [0x78, 0x01, 0x05, 0x00, 0x02, 0x24]
     19 + 14 ≤ 8 * c.length ∧ bitsValue c 19 5 ≤ 29 ∧ bitsValue c 24 5 ≤ 29 ∧
      19 + 14 + 3 * (bitsValue c 29 4 + 4) ≤ 8 * c.length ∧
      (let cll := [1, 0, 0, 0, 0, 0, 0, 0, 0, 0, 0, 0, 0, 0, 0, 0, 1, 0, 0]
       cll.length = 19 ∧ kraft cll = 32768 ∧
        ∀ i, i < 19 → cll.getD ([16, 17, 18, 0, 8, 7, 9, 6, 10, 5, 11, 4, 12, 3, 13, 2, 14, 1, 15].getD i 0) 0
          = if i < bitsValue c 29 4 + 4 then bitsValue c (19 + 14 + 3 * i) 3 else 0)) ∧
    (8 * [0x78#8, 0x01#8, 0x05#8, 0x00#8, 0x00#8].length < 19 + 14 + 3 * (0 + 4)) ∧
    kraft (List.replicate 19 0) ≠ 32768 := by decide +kernel

theorem witness_CodeLengthSymbols :
    -- the bits run out
    (8 * (lensAt [4] [] 257 1).c.length < (lensAt [4] [] 257 1).infl.bp + 2) ∧
    -- a repeat with no length before it, one that fits exactly, one that is one too long
    ((lensAt [] [0x03] 257 1).infl.bp + 2 ≤ 8 * (lensAt [] [0x03] 257 1).c.length ∧ (lensAt [] [0x03] 257 1).infl.lens = []) ∧
    (let s := lensAt (List.replicate 252 7) [0x03] 257 1
     s.infl.lens ≠ [] ∧ s.infl.lens.getLast? = some 7 ∧
      s.infl.lens.length + (3 + bitsValue s.c s.infl.bp 2) ≤ s.infl.nl + s.infl.nd) ∧
    (let s := lensAt (List.replicate 253 7) [0x03] 257 1
     s.infl.nl + s.infl.nd < s.infl.lens.length + (3 + bitsValue s.c s.infl.bp 2)) ∧
    -- zero runs: 138 zeros on 120 lengths fill 258, on 121 they do not fit
    (let s := lensAt (List.replicate 120 0) [0x7F] 257 1
     s.infl.lens.length + (11 + bitsValue s.c s.infl.bp 7) = s.infl.nl + s.infl.nd) ∧
    (let s := lensAt (List.replicate 121 0) [0x7F] 257 1
     s.infl.nl + s.infl.nd < s.infl.lens.length + (11 + bitsValue s.c s.infl.bp 7)) := by decide +kernel

/-- R348, IF42 to IF45: LL[256] = 0; LL[256] = 2 alone; DL[0] = 2 alone; LL single and DL empty; the largest counts. -/
theorem witness_DynamicHeaderFinished :
    (∀ s ∈ [lensAt (List.replicate 258 0) [] 257 1, lensAt (List.replicate 256 0 ++ [2, 0]) [] 257 1,
        lensAt (1 :: List.replicate 255 0 ++ [1, 2]) [] 257 1, lensAt (List.replicate 256 0 ++ [1, 0]) [] 257 1,
        lensAt (List.replicate 320 0) [] 288 32],
      s.infl.nl ≤ 288 ∧ s.infl.nd ≤ 32 ∧ s.infl.lens.length = s.infl.nl + s.infl.nd) ∧
    [lensAt (List.replicate 258 0) [] 257 1, lensAt (List.replicate 256 0 ++ [2, 0]) [] 257 1,
      lensAt (1 :: List.replicate 255 0 ++ [1, 2]) [] 257 1, lensAt (List.replicate 256 0 ++ [1, 0]) [] 257 1].map
        (fun s => look (finishDynamic s).result State.point)
      = [some (raised .dNoEob 2), some (raised .dBadLitlenCode 2), some (raised .dBadDistCode 2), some .litLen] := by
  decide +kernel

theorem witness_LiteralAndEndOfBlock :
    (inflGood.out.n < rawLength inflGood.hdr ∧ inflGood.infl.bfinal = true) ∧
    (let s := { inflGood with out := ⟨[], 3, 1, 0⟩ }
     rawLength s.hdr ≤ s.out.n) ∧
    (inflAt .litLen [] 0 2).infl.bfinal = false := by decide +kernel

theorem witness_LengthSymbolsRead :
    (let s := inflAt .litLen [0xFF] 4 2
     8 * s.c.length < s.infl.bp + 5 ∧ s.infl.bp + 4 ≤ 8 * s.c.length) ∧
    (inflAt .litLen [] 0 2).infl.bp + 0 ≤ 8 * (inflAt .litLen [] 0 2).c.length := by decide +kernel

/-- Distance 1 with one byte emitted; a match that fills the raw stream, and one byte more. -/
theorem witness_DistanceSymbolsCopy :
    (let s := inflAt .distance [0xFF] 0 2
     8 * s.c.length < s.infl.bp + 9 ∧ s.infl.bp + 8 ≤ 8 * s.c.length) ∧
    (let s := { inflGood with infl := { inflGood.infl with mlen := 2 } }
     1 + bitsValue s.c s.infl.bp 0 ≤ s.out.n ∧ s.out.n + s.infl.mlen ≤ rawLength s.hdr) ∧
    (let s := { inflGood with infl := { inflGood.infl with mlen := 3 } }
     1 + bitsValue s.c s.infl.bp 0 ≤ s.out.n ∧ rawLength s.hdr < s.out.n + s.infl.mlen) ∧
    inflGood.out.n < 2 + bitsValue inflGood.c inflGood.infl.bp 0 := by decide +kernel

theorem witness_MatchRepeatsEarlierBytes :
    inflGood.regs.busy = true ∧ inflGood.point.inflating = true ∧ WindowHolds inflGood ∧ 1 ≤ 1 ∧ 1 ≤ inflGood.out.n ∧
    1 ≤ 32768 ∧ inflGood.out.n + 258 ≤ 2 ^ 32 ∧ inflGood.out.n + (2 ^ 32 - 1) ≤ 2 ^ 32 := by
  unfold WindowHolds; decide +kernel

theorem witness_InvalidElementsRaise :
    ∀ i ∈ [Instr.litlenInvalid 286, .litlenInvalid 287, .distInvalid 30, .distInvalid 31, .filtInvalid 5#8,
      .filtInvalid 0xFF#8, .modeIllegal 0x0108#16], i.wf = true := by decide

theorem witness_AdlerTrailerChecked :
    (let s := inflAt .adler [0x78, 0x01, 0x63, 0x00, 0x00, 0x00, 0x01, 0x00] 34 2
     EngineTurn s ∧ s.point = .adler ∧ s.c.length < (s.infl.bp + 7) / 8 + 4) ∧
    (let s := inflAt .adler [0x78, 0x01, 0x63, 0x00, 0x00, 0x00, 0x01, 0x00, 0x01] 34 2
     EngineTurn s ∧ s.point = .adler ∧ (s.infl.bp + 7) / 8 + 4 ≤ s.c.length ∧ s.lat.validate = true ∧
      (0x00020002#32).toNat ≠ s.out.s2 * 65536 + s.out.s1 ∧ (0x00000001#32).toNat = s.out.s2 * 65536 + s.out.s1 ∧
      nextPass s.hdr 0 = some 0) := by
  unfold EngineTurn; decide +kernel

/-- A complete code with a word of the greatest length, fifteen ones; C ending before its last bit, and before its first; the
same code without that word, and a single code, under ones; a single code of symbol 1; an empty code. -/
theorem witness_CanonicalCodeDecodes :
    let lens := [1, 2, 3, 4, 5, 6, 7, 8, 9, 10, 11, 12, 13, 14, 15, 15]
    let w : CodeWord := ⟨15, 15, 32767⟩
    let c : List Byte := [0xFE#8, 0xFF#8]
    ((∀ l ∈ lens, l ≤ 15) ∧ w ∈ buildCode lens ∧ w.code < 2 ^ w.len ∧ 1 + w.len ≤ 8 * c.length ∧
      ∀ j, j < w.len → cBit c (1 + j) = w.code.testBit (w.len - 1 - j)) ∧
    (14 < w.len ∧ 2 + 14 = 8 * c.length ∧ (∀ j, j < 14 → cBit c (2 + j) = w.code.testBit (w.len - 1 - j)) ∧
      0 < w.len ∧ 16 + 0 = 8 * c.length) ∧
    (∀ p ∈ [(lens.take 15, 15), ([1], 1)], (∀ l ∈ p.1, l ≤ 15) ∧ 1 + p.2 ≤ 8 * c.length ∧
      ∀ v ∈ buildCode p.1, ∃ j, j < p.2 ∧ j < v.len ∧ cBit c (1 + j) ≠ v.code.testBit (v.len - 1 - j)) ∧
    ([0, 1].getD 1 0 = 1 ∧ 15 < 8 * c.length ∧ cBit c 15 = true) ∧
    ∀ l ∈ List.replicate 32 0, l = 0 := by decide +kernel

/-- The single code of symbol 1 has no other length. -/
theorem witness_CanonicalCodeDecodes_single : ∀ j, j ≠ 1 → [0, 1].getD j 0 = 0
  | 0, _ => rfl
  | 1, h => absurd rfl h
  | _ + 2, _ => rfl

theorem witness_FilterRowsReconstructed :
    (∀ s ∈ [scanGood, rowAt 2 0 [0x00, 0x10, 0x20], { rowAt 2 0 [] with defl := ⟨0, 0, 2 ^ 32 - 3, none⟩ }],
      s.defl.off + 1 + rowBytes s.hdr (passWidth s.hdr s.defl.pass) ≤ 2 ^ 32) ∧
    scanGood.defl.prev = some 0 ∧ 0 + 1 + rowBytes scanGood.hdr (passWidth scanGood.hdr scanGood.defl.pass) = scanGood.defl.off ∧
    (∀ a ∈ [0x3000, 0x3004], ∀ i, i ≤ 2 → a ≠ ((rowAt 2 0 []).lat.scrBase.toNat + (1 + i)) % 2 ^ 32) := by
  decide +kernel

/-- An interlaced 2 by 2 G8 image: passes 1, 6 and 7 are not empty. -/
theorem later_passes_2x2 (q : Nat) :
    (q ∈ passNumbers true ∧ passEmpty ⟨2, 2, 8, 0, true⟩ q = false) ↔ q = 1 ∨ q = 6 ∨ q = 7 := by
  have cases : ∀ p ∈ passNumbers true,
      (passEmpty ⟨2, 2, 8, 0, true⟩ p = false) ↔ p = 1 ∨ p = 6 ∨ p = 7 := by decide +kernel
  constructor
  · exact fun h => (cases q h.1).1 h.2
  · intro h
    have hm : q ∈ passNumbers true := by rcases h with rfl | rfl | rfl <;> decide
    exact ⟨hm, (cases q hm).2 h⟩

/-- Ties of the predictor; a row that is not the last; the last row of pass 1, after which pass 6 follows; the last row of
pass 7, after which none does and pass 1 is the first. -/
theorem witness_PaethAndRowOrder :
    ((0 : Int) ≤ 0 ∧ |(9 : Int) - 3| = 6 ∧ |(9 : Int) - 10| = 1 ∧ |(150 : Int) - 150| < |(150 : Int) - 200|) ∧
    ((rowAt 2 0 []).defl.row + 1 < passHeight (rowAt 2 0 []).hdr (rowAt 2 0 []).defl.pass) ∧
    (passHeight ⟨2, 2, 8, 0, true⟩ 1 ≤ 0 + 1 ∧ passHeight ⟨2, 2, 8, 0, true⟩ 7 ≤ 0 + 1) ∧
    (6 ∈ passNumbers true ∧ 1 + 1 ≤ 6 ∧ passEmpty ⟨2, 2, 8, 0, true⟩ 6 = false) ∧
    (∀ r, r ∈ passNumbers true ∧ 1 + 1 ≤ r ∧ passEmpty ⟨2, 2, 8, 0, true⟩ r = false → 6 ≤ r) ∧
    (∀ r, ¬(r ∈ passNumbers true ∧ 7 + 1 ≤ r ∧ passEmpty ⟨2, 2, 8, 0, true⟩ r = false)) ∧
    (∀ r, r ∈ passNumbers true ∧ 0 ≤ r ∧ passEmpty ⟨2, 2, 8, 0, true⟩ r = false → 1 ≤ r) := by
  refine ⟨by decide, by decide +kernel, by decide +kernel, by decide +kernel, ?_, ?_, ?_⟩
  · rintro r ⟨a, b, c⟩; have := (later_passes_2x2 r).1 ⟨a, c⟩; omega
  · rintro r ⟨a, b, c⟩; have := (later_passes_2x2 r).1 ⟨a, c⟩; omega
  · rintro r ⟨a, b, c⟩; have := (later_passes_2x2 r).1 ⟨a, c⟩; omega

/-- T3: an RGB8 row of two pixels and the row each filter type turns it into. -/
theorem witness_FilterInversion :
    let orig : List Byte := [0x10, 0x20, 0x30, 0x15, 0x25, 0x35]
    let sub : List Byte := [0x10, 0x20, 0x30, 0x05, 0x05, 0x05]
    ∀ row ∈ ([(orig, fun _ => 0#8), (sub, fun a => a), (orig, fun _ => 0#8),
        ([0x10, 0x20, 0x30, 0x0D, 0x15, 0x1D], fun a => BitVec.ofNat 8 (a.toNat / 2)),
        (sub, fun a => paethPredictor a 0#8 0#8)] : List (List Byte × (Byte → Byte))),
      let s := { rowAt 2 0 (0#8 :: row.1) with hdr := ⟨2, 2, 8, 2, false⟩ }
      orig.length = rowBytes s.hdr (passWidth s.hdr s.defl.pass) ∧ s.defl.prev = none ∧
      s.defl.off + 1 + orig.length ≤ 2 ^ 32 ∧
      ∀ i, i < orig.length → rawByte s (s.defl.off + 1 + i) =
        orig.getD i 0#8 - row.2 (if filterStride s.hdr ≤ i then orig.getD (i - filterStride s.hdr) 0#8 else 0#8) := by
  simp only [List.mem_cons, List.not_mem_nil, or_false, forall_eq_or_imp, forall_eq]
  decide +kernel

/-- Index 1 of two entries, and index 2. -/
theorem witness_PaletteModesExpand :
    (palTabs [⟨0, 0, 0⟩, ⟨1, 1, 1⟩] [0x80]).plteN ≤ 2 ∧ 1 < (palTabs [⟨0, 0, 0⟩, ⟨1, 1, 1⟩] [0x80]).plteN ∧
    tableGet (palTabs [⟨0, 0, 0⟩, ⟨1, 1, 1⟩] [0x80]).pal 1 = some ⟨1, 1, 1⟩ ∧
    tableGet (palTabs [⟨0, 0, 0⟩, ⟨1, 1, 1⟩] [0x80]).alpha 0 = some 0x80 := by decide +kernel

/-- The first pixel of a row, the last one of an image, and the pixel of pass 6 that pass 7 follows. -/
theorem witness_PixelWrittenInPlace :
    (0 + 1 < passWidth (grey8 2 1) 0) ∧ (passWidth (grey8 2 1) 0 ≤ 1 + 1 ∧ passHeight (grey8 2 1) 0 ≤ 0 + 1) ∧
    (0 + 1 < passHeight (grey8 2 2) 0) ∧
    (∀ q, ¬(q ∈ passNumbers false ∧ 0 < q ∧ passEmpty (grey8 2 1) q = false)) ∧
    (passWidth ⟨2, 2, 8, 0, true⟩ 6 ≤ 0 + 1 ∧ passHeight ⟨2, 2, 8, 0, true⟩ 6 ≤ 0 + 1) ∧
    (7 ∈ passNumbers true ∧ 6 < 7 ∧ passEmpty ⟨2, 2, 8, 0, true⟩ 7 = false) ∧
    (∀ r, r ∈ passNumbers true ∧ 6 < r ∧ passEmpty ⟨2, 2, 8, 0, true⟩ r = false → 7 ≤ r) := by
  refine ⟨by decide +kernel, by decide +kernel, by decide +kernel, ?_, by decide +kernel, by decide +kernel, ?_⟩
  · rintro q ⟨a, b, _⟩; simp [passNumbers] at a; omega
  · rintro r ⟨_, b, _⟩; omega

theorem witness_EveryPixelInOnePass : 7 < (⟨8, 8, 8, 0, true⟩ : Header).width ∧ 7 < (⟨8, 8, 8, 0, true⟩ : Header).height := by
  decide

/-- Every invariant holds in three states of a decode, and each takes a step. -/
theorem witness_StepKeepsInvariants :
    ∀ s ∈ [inflGood, scanGood, pixelGood],
      (StatusLegal s ∧ RegistersHeldInReset s ∧ LatchAgrees s ∧ MemoryCanonical s) ∧ RegionsInside s ∧ CursorsInRange s ∧ WindowHolds s ∧
      AdlerHolds s ∧ PassCursors s ∧ CodesInAlphabet s ∧ EngineTurn s ∧ look (step s) (fun _ => true) = some true := by
  simp only [List.mem_cons, List.not_mem_nil, or_false, forall_eq_or_imp, forall_eq]
  unfold StatusLegal RegistersHeldInReset LatchAgrees MemoryCanonical RegionsInside HeaderFits CursorsInRange NothingEmitted WindowHolds
    AdlerHolds PassCursors CodesInAlphabet EngineTurn Memory.wf tableWf
  refine ⟨?_, ?_, ?_⟩ <;> refine ⟨⟨?_, ?_, ?_, ?_⟩, ?_, ?_, ?_, ?_, ?_, ?_, ?_, ?_⟩ <;> decide +kernel

/-- The bytes around OUT_USED and SCR_USED of a decode that writes, and the ends of IN. -/
theorem witness_WritesConfinedToUsedRegions :
    (∀ a ∈ [0x1FFF, 0x2008, 0x2FFF, 0x3003], windowHas (usedOut pixelGood) a = false ∧ windowHas (usedScr pixelGood) a = false) ∧
    pixelGood.free.raced = false ∧ pixelGood.parse.seenIhdr = true ∧
    (∀ a ∈ [0x1FFF, 0x4000], windowHas (regionOut pixelGood.lat) a = false ∧ windowHas (regionScr pixelGood.lat) a = false) ∧
    (∀ a ∈ [0x1000, 0x1045], windowHas (regionIn pixelGood.lat) a = true) := by decide +kernel

theorem witness_EngineStepFrame : EngineTurn inflGood ∧ ∀ o, inflGood.point ≠ .completing o :=
  ⟨⟨rfl, rfl⟩, fun _ h => by cases h⟩

theorem witness_OnlyCompletionOrResetEndsDecode :
    (let s := { inflGood with point := .completing .success }
     s.regs.busy = true ∧ look (step s) (fun t => t.regs.busy) = some false) ∧
    (let s := pend .resetLow inflGood
     s.regs.busy = true ∧ look (step s) (fun t => t.regs.busy) = some false) := by decide +kernel

/-- A block header, a code-length symbol, a literal/length symbol and a distance symbol that do not raise. -/
theorem witness_BitCursorAdvances :
    ∀ s ∈ [inflAt .blockHeader [0x78, 0x01, 0x63] 16 2,
        { lensAt [] [0x00] 257 1 with infl := { (lensAt [] [0x00] 257 1).infl with clCode := [⟨0, 1, 0⟩, ⟨16, 1, 1⟩] } },
        { inflGood with infl := { inflGood.infl with bp := 19 } },
        { inflGood with
          point := .distance, c := [0x00], infl := { inflGood.infl with bp := 0, mlen := 2, lenStart := 0 } }],
      EngineTurn s ∧ s.point ∈ [.blockHeader, .clSymbol, .litLen, .distance] ∧
      look (step s) (fun t => decide (t.point ∈ [.blockHeader, .clSymbol, .litLen, .distance])) = some true := by
  simp only [List.mem_cons, List.not_mem_nil, or_false, forall_eq_or_imp, forall_eq]
  unfold EngineTurn
  decide +kernel

/-- Writes into IN, OUTR and SCR and next to them; reads at the last byte of OUTR and past it; errors of a read before and
after a failed ConfigCheck, of a write, and at the first byte past each window; a launch over a device. -/
theorem witness_OutsideEvents :
    (∀ a ∈ [0x1000, 0x2000, 0x2FFF, 0x3000, 0x3FFF],
      let s := pend (.memWrite (BitVec.ofNat 32 a) 1#8) inflGood
      s.port.inputs = .memWrite (BitVec.ofNat 32 a) 1#8 :: [] ∧ s.regs.busy = true ∧ (windowHas (regionIn s.lat) a = true ∨
        windowHas (regionOut s.lat) a = true ∨ windowHas (regionScr s.lat) a = true)) ∧
    (∀ a ∈ [0x1046, 0x1FFF, 0x4000], windowHas (regionIn inflGood.lat) a = false ∧
      windowHas (regionOut inflGood.lat) a = false ∧ windowHas (regionScr inflGood.lat) a = false) ∧
    (let s := pend (.memRead 0x2FFF#32) inflGood
     s.port.inputs = .memRead 0x2FFF#32 :: [] ∧ s.regs.busy = true ∧ windowHas (regionOut s.lat) 0x2FFF = true) ∧
    (∀ p ∈ [.litLen, .configCheck, raised .cfgRegionWrap 0],
      let s := pend (.busError false 0x1045#32) { inflGood with point := p }
      s.port.inputs = .busError false 0x1045#32 :: [] ∧ s.regs.busy = true ∧ s.point = p ∧
        windowHas (regionIn s.lat) 0x1045 = true) ∧
    (let s := pend (.busError true 0x2007#32) pixelGood
     s.port.inputs = .busError true 0x2007#32 :: [] ∧ s.regs.busy = true ∧ windowHas (openOut s) 0x2007 = true ∧
      windowHas (openOut s) 0x2008 = false ∧ windowHas (openScr s) 0x2008 = false ∧ windowHas (openScr s) 0x3002 = true ∧
      windowHas (openScr s) 0x3003 = false) ∧
    State.reset.regs.busy = false ∧
    (let s := { State.reset with
        regs := { Regs.reset with inBase := 0x1000#32, inLen := 17#32 }, plat := { State.reset.plat with devices := [⟨0x1010, 16⟩] } }
     s.regs.busy = false ∧ (0 < 17 ∧ 0 < 16 ∧ 0x1000 < 0x1010 + 16 ∧ 0x1010 < 0x1000 + 17) ∧ coversDevice s = true) := by
  decide +kernel

/-- The completion of a raced decode, after an accepted IHDR and before it, and with illegal regions. -/
theorem witness_OutsideEvents_raced :
    (let s := racedWrite 0x2000#32 1#8 pixelGood
     EngineTurn s ∧ s.point = .completing (Config.racedOutcome pixelGood.free.count) ∧ s.free.raced = true ∧
      s.parse.seenIhdr = true ∧ ∀ a ∈ [0x2008, 0x3003], windowHas (usedOut s) a = false ∧ windowHas (usedScr s) a = false) ∧
    (let s := racedWrite 0x2000#32 1#8 (configAt lat0)
     s.free.raced = true ∧ s.parse.seenIhdr = false ∧
      ∀ a ∈ [0x1FFF, 0x4000], windowHas (usedOut s) a = false ∧ windowHas (usedScr s) a = false ∧
        windowHas (regionOut s.lat) a = false ∧ windowHas (regionScr s.lat) a = false) ∧
    (let s := racedWrite 0x2000#32 1#8 (configAt { lat0 with outCap := 0x1001#32 })
     s.free.raced = true ∧ regionError s.lat ≠ none ∧ windowHas (usedOut s) 0x2000 = false ∧
      windowHas (usedScr s) 0x2000 = false) :=
  ⟨⟨⟨rfl, rfl⟩, rfl, rfl, by decide +kernel⟩, by decide +kernel, by decide +kernel⟩

end Sys2Proof.Tests
end

section
/-! PROOFS. The host interface (40_host_interface.md R182 to R192): commands, reads, ConfigCheck, completion, and that nothing
but completion and reset ends a decode. -/

namespace Sys2Proof.Machine

/-! ### BUSY along a step -/

theorem filterRow_busy (f : Recon) (s : State) : (filterRow f s).regs.busy = s.regs.busy := by
  rw [filterRow, nextRow_eq, reconBytes_eq]

/-- No engine move but the completion step writes BUSY (40_host_interface.md R186). -/
theorem Move.busy {s t : State} (h : Move s t) : t.regs.busy = s.regs.busy := by
  cases h with
  | raised u d off h => exact h.busy
  | configOk | sigOk | frameOk | parseEnd | zlibOk => rfl
  | ihdrOk _ _ _ _ _ hr => exact hr
  | chunkOk _ _ _ hr => exact hr
  | inflate bs i p =>
    show (bs.foldl emit s).regs.busy = s.regs.busy
    rw [(foldl_emit_eq bs s).1]
  | adlerOk _ bp => rw [enterDefilter_eq]; rfl
  | row _ f => exact filterRow_busy f s
  | pixel _ p => rw [putPixel_eq]

/-- No command clears BUSY: R182 to R192 give none that cancels a decode. -/
theorem PortCase.keeps_busy {s t : State} {r : Result} (h : PortCase s r) (hr : r = .next t)
    (hb : s.regs.busy = true) : t.regs.busy = true := by
  cases h with
  | refused | device => cases hr
  | start _ _ hidle => simp [hb] at hidle
  | cfg _ _ _ hidle => simp [hb] at hidle
  | ignored | irqEn | clear | read => rw [next_inj hr]; exact hb

theorem busError_busy (w : Bool) (a : Word) (s : State) : (busError w a s).regs.busy = s.regs.busy := by
  rw [busError]; split_ifs <;> rfl

theorem hostWrite_busy (a : Word) (b : Byte) (s : State) : (hostWrite a b s).regs.busy = s.regs.busy := by
  rw [hostWrite]; split_ifs <;> rfl

theorem hostRead_busy (a : Word) (s : State) : (hostRead a s).regs.busy = s.regs.busy := by
  rw [hostRead]; split_ifs <;> rfl

/-- Settles O58: of the things a step can do, only an engine move at the outcome and a falling rst_n write BUSY = 0. -/
theorem onlyCompletionOrResetEndsDecode : Obligations.OnlyCompletionOrResetEndsDecode := by
  intro s t hbusy hstep hidle
  by_contra hend
  obtain ⟨hdone, hlow⟩ := not_or.1 hend
  suffices h : t.regs.busy = true by simp [h] at hidle
  have hc := step_cases s
  rw [hstep] at hc
  generalize hr : (Host.Outcome.next t : Result) = r at hc
  cases hc with
  | engine u r hu hub he =>
    have hpoint : u.point = s.point := by rcases hu with ⟨-, rfl⟩ | ⟨_, -, rfl⟩ <;> rfl
    have hrun : ∀ o, u.point ≠ .completing o := fun o ho =>
      hdone ⟨⟨o, hpoint ▸ ho⟩, hu.imp (·.1) fun ⟨rest, hi, _⟩ => ⟨rest, hi⟩⟩
    exact (engine_moves he hrun hr.symm).busy.trans hub
  | idle u hu hub => rcases hu with ⟨-, rfl⟩ | ⟨_, -, rfl⟩ <;> exact absurd hbusy (by simpa using hub)
  | port a rest hi r hp => exact hp.keeps_busy hr.symm hbusy
  | busError w a => rw [next_inj hr.symm]; exact (busError_busy ..).trans hbusy
  | memWrite a b => rw [next_inj hr.symm]; exact (hostWrite_busy ..).trans hbusy
  | memRead a => rw [next_inj hr.symm]; exact (hostRead_busy ..).trans hbusy
  | resetLow rest hi => exact absurd ⟨rest, hi⟩ hlow
  | resetHigh => rw [next_inj hr.symm]; exact hbusy

/-! ### Commands -/

theorem clearStatusFlags_eq (v : Word) (r : Regs) :
    clearStatusFlags v r = { r with
      done := if v.getLsbD 1 then false else r.done
      err := if v.getLsbD 2 then false else r.err } := by
  have flag (c b : Bool) : (b && !c) = if c then false else b := by cases c <;> simp
  rw [clearStatusFlags, flag, flag]

theorem exec_start_idle {v : Word} {s : State} (hb : s.regs.busy = false) (hd : coversDevice s = false) :
    exec (.start v) s = .next (launch v s) := by
  show execStart v s = _
  simp [execStart, hb, hd]

theorem exec_start_busy {v : Word} {s : State} (hb : s.regs.busy = true) :
    exec (.start v) s = .next (setIrqEnable v s) := if_pos hb

theorem exec_writeCfg_idle {r : CfgReg} {v : Word} {s : State} (hb : s.regs.busy = false) :
    exec (.writeCfg r v) s = .next (s.setRegs (writeCfgReg r v s.regs)) := if_neg (by simp [hb])

theorem exec_writeCfg_busy {r : CfgReg} {v : Word} {s : State} (hb : s.regs.busy = true) :
    exec (.writeCfg r v) s = .next s := if_pos hb

/-- Settles O6: an accepted START is `launch`, whose fields are those of R182, R183 and R185. -/
theorem startLaunchesDecode : Obligations.StartLaunchesDecode := fun v s hb hd =>
  ⟨launch v s, exec_start_idle hb hd, rfl⟩

/-- Settles O7: the busy and the idle branch of WRITE_CFG, register by register, and the busy one of START. -/
theorem configWritesAndBusyStart : Obligations.ConfigWritesAndBusyStart := fun _ _ =>
  ⟨fun hb => ⟨exec_writeCfg_idle hb, exec_writeCfg_idle hb, exec_writeCfg_idle hb, exec_writeCfg_idle hb,
      exec_writeCfg_idle hb, exec_writeCfg_idle hb, exec_writeCfg_idle hb⟩,
    fun hb => ⟨fun _ => exec_writeCfg_busy hb, exec_start_busy hb⟩⟩

/-- Settles O8: a flag cleared by a written 1 is the flag or 0, by the written bit. -/
theorem irqEnableAndStatusClear : Obligations.IrqEnableAndStatusClear := fun v s =>
  ⟨rfl, congrArg (fun r => Host.Outcome.next (s.setRegs r)) (clearStatusFlags_eq v s.regs)⟩

/-! ### The register words (10_state.md R32 to R48) -/

theorem toNat_append_eq_add {m n : Nat} (x : BitVec m) (y : BitVec n) : (x ++ y).toNat = x.toNat * 2 ^ n + y.toNat := by
  rw [BitVec.toNat_append, ← Nat.shiftLeft_add_eq_or_of_lt y.isLt, Nat.shiftLeft_eq]

theorem ctrlWord_toNat (r : Regs) : (ctrlWord r).toNat = 4 * r.irqEn.toNat := by
  simp only [ctrlWord, toNat_append_eq_add, BitVec.toNat_ofBool, BitVec.toNat_ofNat]
  omega

theorem configWord_toNat (r : Regs) : (configWord r).toNat = r.validate.toNat + 2 * r.strict.toNat := by
  simp only [configWord, toNat_append_eq_add, BitVec.toNat_ofBool, BitVec.toNat_ofNat]
  omega

theorem statusWord_toNat (r : Regs) (phase : BitVec 3) :
    (statusWord r phase).toNat = r.busy.toNat + 2 * r.done.toNat + 4 * r.err.toNat + 256 * phase.toNat := by
  simp only [statusWord, toNat_append_eq_add, BitVec.toNat_ofBool, BitVec.toNat_ofNat]
  omega

theorem errKindWord_toNat (r : Regs) : (errKindWord r).toNat = r.errKind.toNat := by
  simp only [errKindWord, toNat_append_eq_add, BitVec.toNat_ofNat]
  omega

theorem errDetailWord_toNat (r : Regs) : (errDetailWord r).toNat = r.errDetail.toNat := by
  simp only [errDetailWord, toNat_append_eq_add, BitVec.toNat_ofNat]
  omega

theorem imgInfoWord_toNat (r : Regs) :
    (imgInfoWord r).toNat =
      r.bitDepth.toNat + 2 ^ 8 * r.colorType.toNat + 2 ^ 12 * r.interlace.toNat + 2 ^ 13 * r.hasPlte.toNat
        + 2 ^ 14 * r.hasTrns.toNat + 2 ^ 15 * r.hasGama.toNat + 2 ^ 16 * r.plteEntries.toNat := by
  simp only [imgInfoWord, toNat_append_eq_add, BitVec.toNat_ofBool, BitVec.toNat_ofNat]
  omega

theorem trnsKey0Word_toNat (r : Regs) :
    (trnsKey0Word r).toNat = r.trnsKey0.toNat + 2 ^ 16 * r.trnsKey1.toNat := by
  simp only [trnsKey0Word, toNat_append_eq_add]
  omega

theorem trnsKey1Word_toNat (r : Regs) :
    (trnsKey1Word r).toNat = r.trnsKey2.toNat + 2 ^ 16 * r.trnsEntries.toNat := by
  simp only [trnsKey1Word, toNat_append_eq_add, BitVec.toNat_ofNat]
  omega

/-! ### Reads (R192) -/

theorem noteRead_eq_free {off : BitVec 8} {s : State}
    (h : s.regs.busy = false ∨ (off ≠ 0x0C#8 ∧ s.free.raced = false)) : noteRead off s = s.free := by
  rcases h with hb | ⟨ho, hr⟩
  · exact if_pos hb
  · simp [noteRead, ho, hr]

/-- An idle block, and a decode into whose regions the host has not written, show the registers as they stand. -/
theorem shownRegs_eq_regs {s : State} (h : s.regs.busy = false ∨ s.free.raced = false) : shownRegs s = s.regs :=
  if_neg (by rcases h with h | h <;> simp [h])

theorem regWord_status_idle {s : State} (hb : s.regs.busy = false) :
    (regWord s 0x0C#8).toNat = 2 * s.regs.done.toNat + 4 * s.regs.err.toNat + 256 * s.regs.phase.toNat := by
  have hphase : BitVec.ofNat 3 (phaseShown s) = s.regs.phase := by simp [phaseShown, hb]
  show (statusWord s.regs (BitVec.ofNat 3 (phaseShown s))).toNat = _
  rw [hphase, statusWord_toNat, hb]
  simp

/-- The register map ends at 0x50 (10_state.md R49). -/
theorem regWord_reserved (s : State) {off : BitVec 8} (h : 0x54 ≤ off.toNat) : regWord s off = 0#32 := by
  unfold regWord
  split <;> try omega
  rfl

/-- Settles O9: the word of a read is `regWord`, whose fields the register words' values give. -/
theorem readReturnsRegister : Obligations.ReadReturnsRegister := by
  intro off s
  refine ⟨(s.setPort { s.port with rdata := regWord s off }).setFree (noteRead off s), rfl, rfl, noteRead_eq_free, ?_⟩
  simp only [State.setFree_port, State.setPort_port]
  refine ⟨?_, ?_, ?_, ?_, ?_, ?_, ?_, ?_, ?_, ?_, ?_, ?_, ?_, fun hshown => ?_, fun h _ => regWord_reserved s h⟩
  · rintro rfl; rfl
  · rintro rfl; exact ctrlWord_toNat s.regs
  · rintro rfl; exact configWord_toNat s.regs
  · rintro rfl; exact regWord_status_idle
  · rintro rfl; exact errKindWord_toNat s.regs
  · rintro rfl; exact errDetailWord_toNat s.regs
  iterate 7 rintro rfl; rfl
  · rw [← shownRegs_eq_regs hshown]
    refine ⟨?_, ?_, ?_, ?_, ?_, ?_, ?_, ?_⟩
    · rintro rfl; rfl
    · rintro rfl; rfl
    · rintro rfl; exact imgInfoWord_toNat (shownRegs s)
    · rintro rfl; rfl
    · rintro rfl; rfl
    · rintro rfl; rfl
    · rintro rfl; exact trnsKey0Word_toNat (shownRegs s)
    · rintro rfl; exact trnsKey1Word_toNat (shownRegs s)

/-! ### ConfigCheck (R184) -/

theorem windowWraps_iff {w : Window} : windowWraps w = true ↔ 0 < w.size ∧ 2 ^ 32 < w.base + w.size := by
  rw [windowWraps, Bool.and_eq_true, decide_eq_true_eq, decide_eq_true_eq]; rfl

theorem windowsOverlap_iff {v w : Window} :
    windowsOverlap v w = true ↔ 0 < v.size ∧ 0 < w.size ∧ v.base < w.base + w.size ∧ w.base < v.base + v.size := by
  simp [windowsOverlap, and_assoc]

/-- Settles O15: at ConfigCheck a step is `configCheck`, which goes by `regionError`: wrap first, then overlap. -/
theorem configCheckVerdict : Obligations.ConfigCheckVerdict := by
  intro s hturn hpoint inR outR scrR wraps overlap
  have hstep : step s = .next (configCheck s) := by rw [step_engine hturn, fetch, hpoint]; rfl
  have hwraps : wraps ↔ (windowWraps (regionIn s.lat) || windowWraps (regionOut s.lat)
      || windowWraps (regionScr s.lat)) = true := by
    simp [wraps, inR, outR, scrR, List.exists_mem_cons_iff, windowWraps_iff, regionIn, regionOut, regionScr, or_assoc,
      -List.mem_cons]
  have hoverlap : overlap ↔ (windowsOverlap (regionIn s.lat) (regionOut s.lat)
      || windowsOverlap (regionIn s.lat) (regionScr s.lat) || windowsOverlap (regionOut s.lat) (regionScr s.lat)) = true := by
    simp [overlap, inR, outR, scrR, List.exists_mem_cons_iff, windowsOverlap_iff, regionIn, regionOut, regionScr, or_assoc,
      -List.mem_cons]
  rw [hstep, configCheck, regionError, hwraps, hoverlap]
  refine ⟨fun hw => ?_, fun hw ho => ?_, fun hw ho => ?_⟩
  · rw [if_pos hw]
  · rw [if_neg hw, if_pos ho]
  · rw [if_neg hw, if_neg ho]; rfl

/-! ### Completion (R190) -/

/-- ERR_KIND is the high byte of the detail's code (60_exceptions.md R501, R502). -/
theorem Detail.kind_toNat (d : Detail) : d.kind.toNat = d.code.toNat / 256 := by
  cases d <;> rfl

/-- An accepted header's output lies in OUTR, apart from SCR and so from SCR_USED (20_memory.md R94). -/
theorem usedOut_disjoint_usedScr {s : State} (h : RegionsInside s) {a : Nat} (ha : windowHas (usedOut s) a = true) :
    windowHas (usedScr s) a = false := by
  obtain ⟨hfits, -⟩ := h
  rw [windowHas_iff] at ha
  cases hseen : s.parse.seenIhdr with
  | false =>
    simp only [usedOut, hseen, Bool.false_eq_true, if_false] at ha
    omega
  | true =>
    obtain ⟨hregions, -, -, -, -, -, hout, hscr⟩ := hfits hseen
    obtain ⟨-, -, -, hdisj⟩ := regionError_none hregions
    simp only [usedOut, hseen, if_true] at ha
    have hin : windowHas (regionOut s.lat) a = true := windowHas_iff.2 ⟨ha.1, by simp only [regionOut]; omega⟩
    have hnot := windowHas_false.1 (windowsOverlap_false hdisj hin)
    simp only [regionScr] at hnot
    rw [windowHas_false]
    simp only [usedScr, hseen, if_true]
    omega

/-- Settles O16: at the outcome a step is `complete`, which in a decode without a race leaves SCR_USED, and after an error
OUT_USED, unspecified. -/
theorem completionReportsOutcome : Obligations.CompletionReportsOutcome := by
  intro s o hturn hpoint hquiet
  have hstep : step s = .next (complete o s) := by rw [step_engine hturn, fetch, hpoint]; rfl
  obtain ⟨m, n, hfields⟩ := complete_eq o s
  rw [hquiet, if_neg (by decide)] at hfields
  have hregs : (complete o s).regs = completeRegs o s.regs := by rw [hfields]
  have hmem := memAt_complete o s
  rw [openScr, openOut, openWindow_quiet hquiet, openWindow_quiet hquiet] at hmem
  refine ⟨complete o s, hstep, by rw [hfields], by rw [hfields], ?_, ?_⟩
  · rintro rfl
    exact ⟨hregs, fun a hs => hmem a hs (.inl ⟨rfl, hquiet⟩),
      fun hin a ho => hmem a (usedOut_disjoint_usedScr hin ho) (.inl ⟨rfl, hquiet⟩)⟩
  · rintro e rfl
    exact ⟨by rw [hregs]; exact e.detail.kind_toNat, by rw [hregs]; rfl, fun a hs ho => hmem a hs (.inr ho)⟩

end Sys2Proof.Machine
end

section
/-! PROOFS. The chunk reader (42_chunk_reader.md R231 to R242): the signature, the chunk frame, the chunk's body and CRC, and the
chunks that are skipped or unknown. -/

namespace Sys2Proof.Machine

/-! ### Bytes of IN (20_memory.md R98) and big-endian words (00_scope.md R10) -/

theorem getElem?_inBytes (s : State) (i n k : Nat) :
    (inBytes s i n)[k]? = if k < n then some (inByte s (i + k)) else none := by
  rw [inBytes, List.getElem?_map]
  split_ifs with h
  · rw [List.getElem?_range h]; rfl
  · rw [List.getElem?_eq_none (by simpa using h)]; rfl

theorem be32_toNat (b0 b1 b2 b3 : Byte) :
    (be32 b0 b1 b2 b3).toNat = b0.toNat * 2 ^ 24 + b1.toNat * 2 ^ 16 + b2.toNat * 2 ^ 8 + b3.toNat := by
  simp only [be32, toNat_append_eq_add]
  omega

/-! ### The signature (R231) -/

/-- The compare loop passes over a prefix whose bytes are there and right. -/
theorem signatureError_skip (k i : Nat) {xs bs : List Byte} (hk : k ≤ xs.length)
    (h : ∀ j, j < k → bs[j]? = some (xs.getD j 0#8)) :
    signatureError i xs bs = signatureError (i + k) (xs.drop k) (bs.drop k) := by
  induction k generalizing i xs bs with
  | zero => rfl
  | succ k ih =>
    cases xs with
    | nil => simp at hk
    | cons x xs =>
      cases bs with
      | nil => simpa using h 0 (by omega)
      | cons b bs =>
        have hb : b = x := by simpa using h 0 (by omega)
        rw [signatureError, if_pos hb, ih (i + 1) (by simpa using hk) fun j hj => by simpa using h (j + 1) (by omega)]
        rw [Nat.add_right_comm, Nat.add_assoc i k 1]; rfl

theorem signatureError_none {xs bs : List Byte} (h : ∀ j, j < xs.length → bs[j]? = some (xs.getD j 0#8)) (i : Nat) :
    signatureError i xs bs = none := by
  rw [signatureError_skip xs.length i le_rfl h, List.drop_length]; rfl

section FirstFailure

variable {xs bs : List Byte} {k : Nat} (hk : k < xs.length) (h : ∀ j, j < k → bs[j]? = some (xs.getD j 0#8))
include hk h

theorem signatureError_short (hb : bs[k]? = none) (i : Nat) : signatureError i xs bs = some ⟨.sigShort, i + k⟩ := by
  rw [signatureError_skip k i hk.le h, List.drop_eq_getElem_cons hk, List.drop_eq_nil_of_le (List.getElem?_eq_none_iff.1 hb)]
  rfl

theorem signatureError_mismatch {b : Byte} (hb : bs[k]? = some b) (hne : b ≠ xs.getD k 0#8) (i : Nat) :
    signatureError i xs bs = some ⟨.sigMismatch, i + k⟩ := by
  obtain ⟨hlen, rfl⟩ := List.getElem?_eq_some_iff.1 hb
  rw [List.getD_eq_getElem _ _ hk] at hne
  rw [signatureError_skip k i hk.le h, List.drop_eq_getElem_cons hk, List.drop_eq_getElem_cons hlen, signatureError, if_neg hne]

end FirstFailure

theorem exec_sig_of_none {bs : List Byte} (h : signatureError 0 signatureBytes bs = none) (s : State) :
    exec (.sig bs) s = .next { s with pos := 8, point := .chunkFrame } := by
  show (checkSignature bs s).result = _
  rw [checkSignature, h]; rfl

theorem exec_sig_of_some {bs : List Byte} {e : Raise} (h : signatureError 0 signatureBytes bs = some e) (s : State) :
    exec (.sig bs) s = .next (raise s e.detail e.offset) := by
  show (checkSignature bs s).result = _
  rw [checkSignature, h]; rfl

/-- SIG on any bytes: the answer goes by the first index whose byte is missing or wrong. -/
theorem exec_sig (bs : List Byte) (s : State) :
    ((∀ i, i < 8 → bs[i]? = some (signatureBytes.getD i 0#8)) →
      exec (.sig bs) s = .next { s with pos := 8, point := .chunkFrame }) ∧
    ∀ i, i < 8 → (∀ j, j < i → bs[j]? = some (signatureBytes.getD j 0#8)) →
      (bs[i]? = none → exec (.sig bs) s = .next (raise s .sigShort i)) ∧
      ∀ b, bs[i]? = some b → b ≠ signatureBytes.getD i 0#8 → exec (.sig bs) s = .next (raise s .sigMismatch i) := by
  refine ⟨fun h => exec_sig_of_none (signatureError_none (xs := signatureBytes) h 0) s,
    fun i hi h => ⟨fun hb => ?_, fun b hb hne => ?_⟩⟩
  · rw [exec_sig_of_some (signatureError_short hi h hb 0), Nat.zero_add]
  · rw [exec_sig_of_some (signatureError_mismatch hi h hb hne 0), Nat.zero_add]

theorem step_signature {s : State} (hturn : EngineTurn s) (hpoint : s.point = .signature) :
    step s = exec (.sig (inBytes s 0 (min 8 s.lat.inLen.toNat))) s := by
  rw [step_engine hturn, fetch, hpoint]
  exact run_sig _ (by rw [inBytes_length]; omega) s

/-- Settles O17: the loop of R231 stops at the first index that is missing or wrong, and at the signature it compares the first
bytes of IN, of which there are at most eight. -/
theorem signatureCompared : Obligations.SignatureCompared := by
  intro s
  refine ⟨fun bs => exec_sig bs s, fun hturn hpoint => ?_⟩
  rw [step_signature hturn hpoint]
  set bs := inBytes s 0 (min 8 s.lat.inLen.toNat)
  have hbyte : ∀ i, i < 8 → i < s.lat.inLen.toNat → bs[i]? = some (inByte s i) := fun i h8 hi => by
    rw [getElem?_inBytes, if_pos (by omega), Nat.zero_add]
  have hright : ∀ j, j < 8 → j < s.lat.inLen.toNat ∧ inByte s j = signatureBytes.getD j 0#8 →
      bs[j]? = some (signatureBytes.getD j 0#8) := fun j h8 ⟨hj, hb⟩ => (hbyte j h8 hj).trans (congrArg some hb)
  obtain ⟨hok, hbad⟩ := exec_sig bs s
  refine ⟨fun h => hok fun i hi => hright i hi (h i hi), fun i hi h => ?_⟩
  obtain ⟨hshort, hmismatch⟩ := hbad i hi fun j hj => hright j (by omega) (h j hj)
  exact ⟨fun hlen => hshort (by rw [getElem?_inBytes, if_neg (by omega)]), fun hlen hne => hmismatch _ (hbyte i hi hlen) hne⟩

/-! ### The chunk header (R232) -/

theorem typeByteOk_eq_false {b : Byte} : typeByteOk b = false ↔ b.toNat < 0x20 ∨ 0x7E < b.toNat := by
  simp [typeByteOk, Classical.or_iff_not_imp_left]

/-- All four bytes of TYPE of a chunk at `p` are printable, as the decoder tests them. -/
def frameTypeOk (s : State) (p : Nat) : Bool :=
  typeByteOk (inByte s (p + 4)) && typeByteOk (inByte s (p + 5)) && typeByteOk (inByte s (p + 6))
    && typeByteOk (inByte s (p + 7))

theorem frameTypeOk_eq_false {s : State} {p : Nat} : frameTypeOk s p = false ↔
    ∃ k, k < 4 ∧ ((inByte s (p + 4 + k)).toNat < 0x20 ∨ 0x7E < (inByte s (p + 4 + k)).toNat) := by
  simp only [frameTypeOk, Bool.and_eq_false_iff, typeByteOk_eq_false, Nat.exists_lt_succ_right, Nat.not_lt_zero, false_and,
    exists_false, false_or]

/-- LENGTH and TYPE of a chunk at `p`, big-endian. -/
def frameLen (s : State) (p : Nat) : Word := be32 (inByte s p) (inByte s (p + 1)) (inByte s (p + 2)) (inByte s (p + 3))
def frameType (s : State) (p : Nat) : Word :=
  be32 (inByte s (p + 4)) (inByte s (p + 5)) (inByte s (p + 6)) (inByte s (p + 7))

/-- Eight bytes of IN decode to a frame whatever they are. -/
theorem decode_frame_inBytes (s : State) (p : Nat) :
    decode (.frame (inBytes s p 8)) = .ok
      (if frameTypeOk s p then .chunk (frameLen s p) (frameType s p)
        else .chunkBadType (frameLen s p) (frameType s p)) := by
  rw [apply_ite (f := Except.ok)]; rfl

theorem fetch_chunkFrame {s : State} (hpoint : s.point = .chunkFrame) : fetch s = fetchFrame s := by
  rw [fetch, hpoint]

theorem step_chunkFrame_short {s : State} (hturn : EngineTurn s) (hpoint : s.point = .chunkFrame)
    (hlen : s.lat.inLen.toNat < s.pos + 8) : step s = .next (raise s .chunkTruncHeader s.pos) := by
  rw [step_engine hturn, fetch_chunkFrame hpoint, fetchFrame, if_pos hlen, runFetched]

theorem step_chunkFrame {s : State} (hturn : EngineTurn s) (hpoint : s.point = .chunkFrame)
    (hlen : s.pos + 8 ≤ s.lat.inLen.toNat) :
    step s = exec (if frameTypeOk s s.pos then .chunk (frameLen s s.pos) (frameType s s.pos)
      else .chunkBadType (frameLen s s.pos) (frameType s s.pos)) s := by
  rw [step_engine hturn, fetch_chunkFrame hpoint, fetchFrame, if_neg (by omega), runFetched, decode_frame_inBytes]

/-- Settles O18: the frame's type bytes are judged before the chunk's body, and CHUNK_BAD_TYPE does not use LENGTH. -/
theorem chunkHeaderRead : Obligations.ChunkHeaderRead := by
  intro s
  refine ⟨fun _ _ => rfl, fun hturn hpoint => ?_⟩
  intro p badByte
  refine ⟨step_chunkFrame_short hturn hpoint, fun hlen hbad => ?_,
    fun hlen hgood => ⟨frameLen s p, frameType s p, be32_toNat .., be32_toNat .., ?_⟩⟩
  · rw [step_chunkFrame hturn hpoint hlen, frameTypeOk_eq_false.2 hbad]; rfl
  · have hok : frameTypeOk s p = true := by simpa using mt frameTypeOk_eq_false.1 hgood
    rw [step_chunkFrame hturn hpoint hlen, if_pos hok]

/-! ### The chunk's body and CRC (R233 to R235) -/

/-- Settles O19: the three outcomes of `readChunk`, the bound of R233 read in the integers. -/
theorem chunkBodyAndCrc : Obligations.ChunkBodyAndCrc := by
  intro len ty s p crc stored
  have hexec : exec (.chunk len ty) s = (readChunk len ty s).result := rfl
  rw [hexec, readChunk]
  refine ⟨fun hbig => ?_, fun hfits => ?_⟩
  · rw [if_pos (by omega)]; rfl
  · rw [if_neg (by omega)]
    refine ⟨fun hv hne => ?_, fun hok => ?_⟩
    · exact congrArg Flow.result (if_pos ⟨hv, hne⟩)
    · have hpass : ¬(s.lat.validate = true ∧ crc ≠ stored) := fun ⟨hv, hne⟩ => hok.elim (by simp [hv]) hne
      exact congrArg Flow.result (if_neg hpass)

/-! ### Unknown and skipped chunks (R237, R238, R242, R284) -/

/-- idat_state after step 2 of Dispatch, at a chunk that is not IDAT (43_header_interpreter.md R272). -/
def runEnded (x : IdatState) : IdatState := if x = .inRun then .ended else x

theorem endIdatRun_eq {ty : Word} (hty : ty ≠ 0x49444154#32) (s : State) :
    endIdatRun ty s = { s with parse := { s.parse with idat := runEnded s.parse.idat } } := by
  rw [endIdatRun, runEnded]
  by_cases h : s.parse.idat = .inRun
  · rw [if_pos ⟨hty, h⟩, if_pos h]; rfl
  · rw [if_neg fun hr => h hr.2, if_neg h]

/-- After the first chunk Dispatch lets every ancillary chunk through, its IDAT run ended. -/
theorem dispatch_ancillary {ty : Word} {s : State} (hn : s.parse.nchunks ≠ 0) (hanc : criticalTag ty = false)
    (body : State → Flow) :
    dispatch ty body s = body { s with parse := { s.parse with idat := runEnded s.parse.idat } } := by
  have hidat : ty ≠ 0x49444154#32 := by rintro rfl; simp [criticalTag] at hanc
  rw [dispatch, if_neg fun h => hn h.1, endIdatRun_eq hidat]
  simp only [hanc, Bool.false_eq_true, false_and, if_false]

/-- After the first chunk and before image data Dispatch leaves every chunk to the rule of its type. -/
theorem dispatch_before_idat {ty : Word} {s : State} (hn : s.parse.nchunks ≠ 0) (hx : s.parse.idat = .none)
    (body : State → Flow) : dispatch ty body s = body s := by
  have hrun : endIdatRun ty s = s := by rw [endIdatRun, if_neg (by simp [hx])]
  rw [dispatch, if_neg fun h => hn h.1, hrun]
  simp only [hx, ne_eq, not_true, and_false, if_false]

/-- Settles O21: the rules of R237 and R238, reached through the dispatch order of R272. -/
theorem unknownAndSkippedChunks : Obligations.UnknownAndSkippedChunks := by
  intro s hn runEnded skipped
  have hskip (ty : Word) (hanc : criticalTag ty = false) : (dispatch ty skipChunk s).result = .next skipped := by
    rw [dispatch_ancillary hn hanc]; rfl
  refine ⟨fun ty _ hx => ?_, fun ty hwf => ?_, hskip _ (by decide), hskip _ (by decide), hskip _ (by decide)⟩
  · show (dispatch ty _ s).result = _
    rw [dispatch_before_idat hn hx]; rfl
  · have hanc : criticalTag ty = false := by
      simp only [Instr.wf, Bool.and_eq_true, Bool.not_eq_true'] at hwf
      exact hwf.2
    have hexec : exec (.unknownAncillary ty) s = (dispatch ty unknownAncillary s).result := rfl
    rw [hexec, dispatch_ancillary hn hanc, unknownAncillary]
    exact ⟨fun hs => by rw [if_pos hs]; rfl, fun hs => by rw [if_neg (by simp [hs])]; rfl⟩

end Sys2Proof.Machine
end

section
/-! PROOFS. The header interpreter (43_header_interpreter.md R271 to R288): IHDR, PLTE, ill-formed tRNS and gAMA, IDAT and
IEND, each reached through the dispatch order of R272. -/

namespace Sys2Proof.Machine

/-! ### IHDR (R273 to R277) -/

/-- IHDR may be the first chunk: before image data Dispatch leaves it to its rule whatever nchunks is. -/
theorem exec_ihdr {s : State} (hx : s.parse.idat = .none) : exec .ihdr s = (processIhdr s).result := by
  have hrun : endIdatRun 0x49484452#32 s = s := by rw [endIdatRun, if_neg (by simp [hx])]
  show (dispatch _ processIhdr s).result = _
  rw [dispatch, if_neg (by simp), hrun]
  simp only [hx, ne_eq, not_true, and_false, if_false]

/-- The header registers shown, and then the lengths: the two parts of R277. -/
def showHeader (h : Header) (s : State) : State := (s.setHdr h).setRegs (headerRegs h s.regs)
def showLengths (h : Header) (s : State) : State := (showHeader h s).setRegs (lengthRegs h (headerRegs h s.regs))

theorem overCeiling_eq_true {p : Platform} {h : Header} :
    overCeiling p h = true ↔ p.maxDim < h.width ∨ p.maxDim < h.height ∨ p.maxPixels < h.width * h.height := by
  simp [overCeiling, or_assoc]

theorem exec_ihdr_duplicate {s : State} (hx : s.parse.idat = .none) (hseen : s.parse.seenIhdr = true) :
    exec .ihdr s = .next (raise s .duplicateIhdr s.parse.chunk.p) := by
  rw [exec_ihdr hx, processIhdr, if_pos hseen]; rfl

section FirstIhdr

variable {s : State} (hx : s.parse.idat = .none) (hseen : s.parse.seenIhdr = false)
include hx hseen

theorem exec_ihdr_formatError {d : Detail} (hf : ihdrFormatError s = some d) :
    exec .ihdr s = .next (raise s d s.parse.chunk.p) := by
  rw [exec_ihdr hx, processIhdr, if_neg (by simp [hseen]), hf]; rfl

/-- The checks that follow CheckIHDRFormat, in their order (R275 to R277). -/
theorem exec_ihdr_wellFormed (hf : ihdrFormatError s = none) {h : Header} (hh : ihdrHeader s = h) :
    exec .ihdr s = .next
      (if s.plat.maxDim < h.width ∨ s.plat.maxDim < h.height ∨ s.plat.maxPixels < h.width * h.height then
        raise (showHeader h s) .dimCeiling s.parse.chunk.p
      else if s.lat.outCap.toNat < h.width * h.height * 4 then raise (showLengths h s) .outCap s.parse.chunk.p
      else if s.lat.scrCap.toNat < rawLength h then raise (showLengths h s) .scrCap s.parse.chunk.p
      else nextChunk ((showLengths h s).setParse { s.parse with seenIhdr := true })) := by
  rw [exec_ihdr hx, processIhdr, if_neg (by simp [hseen]), hf, hh]
  simp only [overCeiling_eq_true, outLength, apply_ite Flow.result, apply_ite Host.Outcome.next]
  rfl

end FirstIhdr

/-- The checks of CheckIHDRFormat after the length, in their order (R274). -/
theorem ihdrFormatError_of_length {s : State} (hlen : s.parse.chunk.len = 13) :
    ihdrFormatError s =
      if (ihdrHeader s).width = 0 ∨ (ihdrHeader s).height = 0 then some .zeroDimension
      else if 2 ^ 31 - 1 < (ihdrHeader s).width ∨ 2 ^ 31 - 1 < (ihdrHeader s).height then some .dimensionRange
      else if dataByte s 9 ++ dataByte s 8 ∉ legalModes then some .badDepthColor
      else if dataByte s 10 ≠ 0#8 then some .badCompressionMethod
      else if dataByte s 11 ≠ 0#8 then some .badFilterMethod
      else if 1 < (dataByte s 12).toNat then some .badInterlaceMethod
      else none := by
  simp [ihdrFormatError, hlen]

/-- Settles O23: the format checks are a cascade, and a header that passes them meets the ceiling, then the capacities. -/
theorem ihdrRejected : Obligations.IhdrRejected := by
  intro s hx h p withHeader withLengths zero range mode rejects ceiling
  refine ⟨exec_ihdr_duplicate hx, fun hseen =>
    ⟨fun hlen => exec_ihdr_formatError hx hseen (if_pos hlen), fun hlen => ?_⟩⟩
  have reject {d : Detail} (hf : ihdrFormatError s = some d) : rejects d := ⟨s.hdr, exec_ihdr_formatError hx hseen hf⟩
  have hcheck := ihdrFormatError_of_length hlen
  refine ⟨fun hz => reject ?_, fun hz hr => reject ?_, fun hz hr hm => reject ?_, fun hz hr hm h10 => reject ?_,
    fun hz hr hm h10 => ?_⟩
  · rw [hcheck, if_pos hz]
  · rw [hcheck, if_neg hz, if_pos hr]
  · rw [hcheck, if_neg hz, if_neg hr, if_pos hm]
  · rw [hcheck, if_neg hz, if_neg hr, if_neg (not_not.2 hm), if_pos h10]
  rw [if_neg hz, if_neg hr, if_neg (not_not.2 hm), if_neg (not_not.2 h10)] at hcheck
  refine ⟨fun h11 => reject ?_, fun h11 h12 => reject ?_, fun h11 h12 => ?_⟩
  · rw [hcheck, if_pos h11]
  · rw [hcheck, if_neg (not_not.2 h11), if_pos h12]
  rw [if_neg (not_not.2 h11), if_neg (Nat.not_lt.2 h12)] at hcheck
  rw [exec_ihdr_wellFormed hx hseen hcheck rfl]
  refine ⟨fun hc => ?_, fun hc hout => ?_, fun hc hout hscr => ?_⟩
  · rw [if_pos hc]; rfl
  · rw [if_neg hc, if_pos hout]; rfl
  · rw [if_neg hc, if_neg (Nat.not_lt.2 hout), if_pos hscr]; rfl

/-- The fifteen legal modes of R126 as pairs of COLOR_TYPE and BIT_DEPTH. -/
def legalPairs : List (Nat × Nat) :=
  [(0, 1), (0, 2), (0, 4), (0, 8), (0, 16), (2, 8), (2, 16), (3, 1), (3, 2), (3, 4), (3, 8), (4, 8), (4, 16), (6, 8),
    (6, 16)]

/-- A mode's code in the opcode table is COLOR_TYPE * 256 + BIT_DEPTH. -/
theorem legalModes_eq_map : legalModes = legalPairs.map fun m => BitVec.ofNat 16 (m.1 * 256 + m.2) := rfl

theorem ofNat_mem_legalModes {ctype depth : Nat} (h : (ctype, depth) ∈ legalPairs) :
    BitVec.ofNat 16 (ctype * 256 + depth) ∈ legalModes :=
  legalModes_eq_map ▸ List.mem_map.2 ⟨(ctype, depth), h, rfl⟩

theorem legalPairs_bounds : ∀ m ∈ legalPairs, m.1 < 8 ∧ m.2 < 32 := by decide

/-- A length that fits the register is shown as it is (R277). -/
theorem saturate32_toNat {n : Nat} (h : n < 2 ^ 32) : (saturate32 n).toNat = n := by
  rw [saturate32, BitVec.toNat_ofNat]; omega

/-- Settles O22: the data's header passes every check of R274 to R276, and the registers it is shown in are wide enough. -/
theorem ihdrAccepted : Obligations.IhdrAccepted := by
  intro s h hseen hx hlen hw hh hd hc h10 h11 h12 hw0 hh0 hwmax hhmax hmode hcw hch hcp hout hscr
  have hheader : ihdrHeader s = h := by
    have hlace : decide (dataByte s 12 = 1#8) = h.interlace := by
      simp only [← BitVec.toNat_inj, h12]; cases h.interlace <;> rfl
    rw [ihdrHeader, dataBe32, dataBe32, be32_toNat, be32_toNat, ← hw, ← hh, ← hd, ← hc, hlace]
  obtain ⟨hctype, hdepth⟩ := legalPairs_bounds _ hmode
  have hlegal : dataByte s 9 ++ dataByte s 8 ∈ legalModes := by
    rw [append_ofNat, ← hc, ← hd]
    exact ofNat_mem_legalModes hmode
  have hformat : ihdrFormatError s = none := by
    have hlace : ¬1 < (dataByte s 12).toNat := by rw [h12]; exact Nat.not_lt.2 (Bool.toNat_le _)
    rw [ihdrFormatError_of_length hlen, hheader, if_neg (by omega), if_neg (by omega), if_neg (not_not.2 hlegal),
      if_neg (not_not.2 h10), if_neg (not_not.2 h11), if_neg hlace]
  rw [exec_ihdr_wellFormed hx hseen hformat hheader, if_neg (by omega), if_neg (Nat.not_lt.2 hout),
    if_neg (Nat.not_lt.2 hscr)]
  have hword (n : Nat) (hn : n ≤ 2 ^ 31 - 1) : (BitVec.ofNat 32 n).toNat = n := Nat.mod_eq_of_lt (by omega)
  exact ⟨_, rfl, rfl, hword _ hwmax, hword _ hhmax, Nat.mod_eq_of_lt hdepth, Nat.mod_eq_of_lt hctype,
    saturate32_toNat (hout.trans_lt s.lat.outCap.isLt), saturate32_toNat (hscr.trans_lt s.lat.scrCap.isLt)⟩

/-! ### PLTE (R280) -/

theorem exec_plte {s : State} (hn : s.parse.nchunks ≠ 0) (hx : s.parse.idat = .none) :
    exec .plte s = (processPlte s).result := congrArg Flow.result (dispatch_before_idat hn hx processPlte)

theorem processPlte_of_some {s : State} {d : Detail} (h : plteError s = some d) :
    processPlte s = stopAtChunk s d := by rw [processPlte, h]

theorem processPlte_of_none {s : State} (h : plteError s = none) :
    processPlte s = .go (nextChunk (acceptPlte s)) := by rw [processPlte, h]

theorem tableGet_acceptPlte (s : State) (i : Nat) :
    tableGet (acceptPlte s).tabs.pal i =
      if i < s.parse.chunk.len / 3 then some ⟨dataByte s (3 * i), dataByte s (3 * i + 1), dataByte s (3 * i + 2)⟩
      else tableGet s.tabs.pal i := by
  simp [acceptPlte, tableGet_fill]

/-- Settles O24: the errors are the cascade of `plteError`, and what an accepted PLTE leaves in PAL is `tableGet_acceptPlte`. -/
theorem plteProcessed : Obligations.PlteProcessed := by
  intro s hn hx p len lenBad
  rw [exec_plte hn hx]
  have stops {d : Detail} (h : plteError s = some d) : (processPlte s).result = .next (raise s d p) := by
    rw [processPlte_of_some h]; rfl
  refine ⟨fun hc => stops (if_pos hc), fun hc => ?_⟩
  have hcheck : plteError s =
      if s.parse.seenPlte then some .duplicatePlte
      else if lenBad then some .plteLength
      else if 2 ^ s.hdr.depth < len / 3 then some .plteTooLong
      else none := if_neg (not_not.2 hc)
  refine ⟨fun hd => stops ?_, fun hd hl => stops ?_, fun hd hl hlong => stops ?_, fun hd hl hfits => ?_⟩
  · rw [hcheck, if_pos hd]
  · rw [hcheck, if_neg (by simp [hd]), if_pos hl]
  · rw [hcheck, if_neg (by simp [hd]), if_neg hl, if_pos hlong]
  · have hok : plteError s = none := by
      rw [hcheck, if_neg (by simp [hd]), if_neg hl, if_neg (Nat.not_lt.2 hfits)]
    rw [processPlte_of_none hok]
    exact ⟨_, rfl, rfl, fun i hi => (tableGet_acceptPlte s i).trans (if_pos hi),
      fun i hi => (tableGet_acceptPlte s i).trans (if_neg (Nat.not_lt.2 hi))⟩

/-! ### Ill-formed tRNS and gAMA (R271, R281, R283) -/

@[simp] theorem runEnded_eq_none {x : IdatState} : runEnded x = .none ↔ x = .none := by
  cases x <;> simp [runEnded]

/-- The state in which the rule of a chunk other than IDAT begins: an IDAT run is over (R272). -/
def endRun (s : State) : State := { s with parse := { s.parse with idat := runEnded s.parse.idat } }

@[simp] theorem endRun_hdr (s : State) : (endRun s).hdr = s.hdr := rfl
@[simp] theorem endRun_lat (s : State) : (endRun s).lat = s.lat := rfl
@[simp] theorem endRun_parse (s : State) : (endRun s).parse = { s.parse with idat := runEnded s.parse.idat } := rfl

/-- AncBad (R271), reached through Dispatch: fatal under STRICT, else the chunk is skipped. -/
theorem exec_ancBad {i : Instr} {s : State} {d : Detail} (h : exec i s = (ancBad d (endRun s)).result) :
    (s.lat.strict = true → exec i s = .next (raise (endRun s) d s.parse.chunk.p)) ∧
    (s.lat.strict = false → exec i s = .next (nextChunk (endRun s))) :=
  ⟨fun hs => h.trans (congrArg Flow.result (if_pos hs)),
    fun hs => h.trans (congrArg Flow.result (if_neg (by simp [hs])))⟩

theorem exec_trns_of_some {s : State} {d : Detail} (hn : s.parse.nchunks ≠ 0) (h : trnsError (endRun s) = some d) :
    exec .trns s = (ancBad d (endRun s)).result := by
  show (dispatch _ processTrns s).result = _
  rw [dispatch_ancillary hn (by decide), ← endRun, processTrns, h]

theorem exec_gama_of_some {s : State} {d : Detail} (hn : s.parse.nchunks ≠ 0) (h : gamaError (endRun s) = some d) :
    exec .gama s = (ancBad d (endRun s)).result := by
  show (dispatch _ processGama s).result = _
  rw [dispatch_ancillary hn (by decide), ← endRun, processGama, h]

theorem trnsLengthBad_iff {s : State} : trnsLengthBad s = true ↔
    (s.hdr.ctype = 0 ∧ s.parse.chunk.len ≠ 2) ∨ (s.hdr.ctype = 2 ∧ s.parse.chunk.len ≠ 6)
      ∨ (s.hdr.ctype = 3 ∧ s.tabs.plteN < s.parse.chunk.len) := by
  rw [trnsLengthBad]
  split <;> simp_all

/-- tRNS stands before image data, and after PLTE where there is a palette (R281). -/
def trnsInPlace (s : State) : Prop := s.parse.idat = .none ∧ (s.hdr.ctype = 3 → s.parse.seenPlte = true)

/-- A run that has just ended is as much image data as one that goes on. -/
theorem trnsInPlace_endRun {s : State} : trnsInPlace (endRun s) ↔ trnsInPlace s :=
  and_congr_left' runEnded_eq_none

theorem trnsError_misplaced {s : State} (h : ¬trnsInPlace s) : trnsError s = some .ancMisplaced := by
  rw [trnsError]
  by_cases hx : s.parse.idat = .none
  · have hp : s.hdr.ctype = 3 ∧ s.parse.seenPlte = false := by simpa [trnsInPlace, hx] using h
    rw [if_neg (not_not.2 hx), if_pos hp]
  · rw [if_pos hx]

theorem trnsError_inPlace {s : State} (h : trnsInPlace s) :
    trnsError s =
      if s.parse.seenTrns then some .ancDuplicate
      else if s.hdr.ctype = 4 ∨ s.hdr.ctype = 6 then some .trnsNotAllowed
      else if trnsLengthBad s then some .trnsLength
      else none := by
  obtain ⟨hx, hp⟩ := h
  rw [trnsError, if_neg (not_not.2 hx), if_neg fun hc => by simp [hp hc.1] at hc]

/-- gAMA stands before image data and before PLTE (R283). -/
def gamaInPlace (s : State) : Prop := s.parse.idat = .none ∧ s.parse.seenPlte = false

theorem gamaInPlace_endRun {s : State} : gamaInPlace (endRun s) ↔ gamaInPlace s :=
  and_congr_left' runEnded_eq_none

theorem gamaError_misplaced {s : State} (h : ¬gamaInPlace s) : gamaError s = some .ancMisplaced :=
  if_pos (by simpa [gamaInPlace, Classical.or_iff_not_imp_left] using h)

theorem gamaError_inPlace {s : State} (h : gamaInPlace s) :
    gamaError s =
      if s.parse.seenGama then some .ancDuplicate
      else if s.parse.chunk.len ≠ 4 then some .gamaLength
      else none := if_neg (by simp [h.1, h.2])

/-- Settles O26: an ill-formed tRNS or gAMA is AncBad with the first failing check of `trnsError` or `gamaError`. -/
theorem ancillaryIllFormed : Obligations.AncillaryIllFormed := by
  intro s hn runEnded len bad lenBad trnsPlace gamaPlace
  have trns {d : Detail} (h : trnsError (endRun s) = some d) : bad .trns d := exec_ancBad (exec_trns_of_some hn h)
  have gama {d : Detail} (h : gamaError (endRun s) = some d) : bad .gama d := exec_ancBad (exec_gama_of_some hn h)
  refine ⟨fun hp => trns (trnsError_misplaced (mt trnsInPlace_endRun.1 hp)), fun hp hd => trns ?_,
    fun hp hd hc => trns ?_, fun hp hd hl => trns ?_,
    fun hp => gama (gamaError_misplaced (mt gamaInPlace_endRun.1 hp)), fun hp hd => gama ?_, fun hp hd hl => gama ?_⟩
  · rw [trnsError_inPlace (trnsInPlace_endRun.2 hp)]
    exact if_pos hd
  · rw [trnsError_inPlace (trnsInPlace_endRun.2 hp), if_neg (by simp [hd])]
    exact if_pos hc
  · have hc : ¬((endRun s).hdr.ctype = 4 ∨ (endRun s).hdr.ctype = 6) := by simp only [endRun_hdr]; omega
    rw [trnsError_inPlace (trnsInPlace_endRun.2 hp), if_neg (by simp [hd]), if_neg hc]
    exact if_pos (trnsLengthBad_iff.2 hl)
  · rw [gamaError_inPlace (gamaInPlace_endRun.2 hp)]
    exact if_pos hd
  · rw [gamaError_inPlace (gamaInPlace_endRun.2 hp), if_neg (by simp [hd])]
    exact if_pos hl

/-! ### IDAT and IEND (R286 to R288) -/

/-- After the first chunk Dispatch leaves IDAT to its rule in every idat_state. -/
theorem exec_idat {s : State} (hn : s.parse.nchunks ≠ 0) : exec .idat s = (processIdat s).result := by
  show (dispatch _ processIdat s).result = _
  have hrun : endIdatRun 0x49444154#32 s = s := if_neg fun h => h.1 rfl
  rw [dispatch, if_neg fun h => hn h.1, hrun]
  exact congrArg Flow.result (if_neg (by simp))

/-- IEND is let through after image data, the IDAT run ended. -/
theorem exec_iend {s : State} (hn : s.parse.nchunks ≠ 0) : exec .iend s = (processIend (endRun s)).result := by
  show (dispatch _ processIend s).result = _
  rw [dispatch, if_neg fun h => hn h.1, endIdatRun_eq (by decide)]
  exact congrArg Flow.result (if_neg (by simp))

/-- Settles O27: IDAT goes by idat_state, IEND by its length and then by whether an IDAT was seen. -/
theorem idatAndIend : Obligations.IdatAndIend := by
  intro s hn p appended runEnded noPalette out
  rw [exec_idat hn, exec_iend hn, processIdat, processIend]
  refine ⟨fun hx => ?_, fun hx hp => ?_, fun hx hp => ?_, fun hx => ?_, fun hl => ?_, fun hl hx => ?_, fun hl hx => ?_⟩
  · rw [hx]; rfl
  · rw [hx]; exact congrArg Flow.result (if_pos hp)
  · rw [hx]; exact congrArg Flow.result (if_neg hp)
  · rw [hx]; exact congrArg Host.Outcome.next (by simp only [appended, ← hx]; rfl)
  · exact congrArg Flow.result (if_pos hl)
  · exact congrArg Flow.result ((if_neg (not_not.2 hl)).trans (if_pos (runEnded_eq_none.2 hx)))
  · exact congrArg Flow.result ((if_neg (not_not.2 hl)).trans (if_neg (runEnded_eq_none.not.2 hx)))

end Sys2Proof.Machine
end

section
/-! PROOFS. The Inflator (44_inflate.md R325 to R371): the zlib header, emission, stored blocks, code-length symbols, the end of a
dynamic header, match copies and the Adler-32 trailer. -/

namespace Sys2Proof.Machine

/-! ### The zlib header (R325, R326) -/

theorem step_zlibHeader {s : State} (hturn : EngineTurn s) (hpoint : s.point = .zlibHeader) :
    step s = runFetched (fetchZlib s) := by rw [step_engine hturn, fetch, hpoint]

theorem fetchZlib_short {s : State} (h : s.c.length < 2) : fetchZlib s = .own (truncated s) := by
  rw [fetchZlib]
  match hc : s.c with
  | [] | [_] => rfl
  | _ :: _ :: _ => simp [hc] at h

theorem exec_zhdr_of_some {cmf flg : Byte} {d : Detail} (h : zlibError cmf flg = some d) (s : State) :
    exec (.zhdr cmf flg) s = .next (raise s d 0) := by
  show (zlibHeader cmf flg s).result = _
  rw [zlibHeader, h]; rfl

theorem exec_zhdr_of_none {cmf flg : Byte} (h : zlibError cmf flg = none) (s : State) :
    exec (.zhdr cmf flg) s = .next { s with infl := { s.infl with bp := 16 }, point := .blockHeader } := by
  show (zlibHeader cmf flg s).result = _
  rw [zlibHeader, h]; rfl

/-- Settles O28: the header is two bytes of C, judged by the cascade of `zlibError`, which looks at neither FLEVEL nor the
value of a CINFO up to 7. -/
theorem zlibHeaderChecked : Obligations.ZlibHeaderChecked := by
  intro s
  refine ⟨fun hturn hpoint hlen => ?_, fun hturn hpoint cmf flg r hc => ?_, fun cmf flg => ?_⟩
  · rw [step_zlibHeader hturn hpoint, fetchZlib_short hlen]; rfl
  · rw [step_zlibHeader hturn hpoint, fetchZlib, hc]; rfl
  · intro badCm badCinfo badFcheck
    refine ⟨fun hm => exec_zhdr_of_some ?_ s, fun hm hi => exec_zhdr_of_some ?_ s, fun hm hi hf => exec_zhdr_of_some ?_ s,
      fun hm hi hf hd => exec_zhdr_of_some ?_ s, fun hm hi hf hd => exec_zhdr_of_none ?_ s⟩
    · rw [zlibError, if_pos hm]
    · rw [zlibError, if_neg hm, if_pos hi]
    · rw [zlibError, if_neg hm, if_neg hi, if_pos hf]
    · rw [zlibError, if_neg hm, if_neg hi, if_neg hf, if_pos hd]
    · rw [zlibError, if_neg hm, if_neg hi, if_neg hf, if_neg (Bool.eq_false_iff.1 hd)]

/-! ### Emission (R363, R371) -/

/-- Write bytes at consecutive indices from `i` on, modulo `m`: what a list emitted does to WIN and to the address space. -/
def ringPut (m : Nat) : Table Byte → Nat → List Byte → Table Byte
  | t, _, [] => t
  | t, i, b :: r => ringPut m (tablePut t (i % m) b) (i + 1) r

theorem tableGet_ringPut_other {m : Nat} {bs : List Byte} {i j : Nat} (h : ∀ k, k < bs.length → j ≠ (i + k) % m)
    (t : Table Byte) : tableGet (ringPut m t i bs) j = tableGet t j := by
  induction bs generalizing i t with
  | nil => rfl
  | cons b r ih =>
    rw [ringPut, ih, tableGet_put_other _ _ _ _ (by simpa using h 0 (by simp))]
    intro k hk
    rw [Nat.add_assoc, Nat.add_comm 1 k]
    exact h (k + 1) (by simpa using hk)

/-- At most `m` bytes do not overwrite each other. -/
theorem tableGet_ringPut_same {m : Nat} {bs : List Byte} (hm : bs.length ≤ m) {k : Nat} (hk : k < bs.length) (i : Nat)
    (t : Table Byte) : tableGet (ringPut m t i bs) ((i + k) % m) = some (bs.getD k 0#8) := by
  induction bs generalizing i k t with
  | nil => simp at hk
  | cons b r ih =>
    rw [List.length_cons] at hm hk
    rw [ringPut]
    cases k with
    | zero =>
      have hother : ∀ k, k < r.length → i % m ≠ (i + 1 + k) % m := by
        intro k hk he
        have hdvd : m ∣ i + 1 + k - i := (Nat.modEq_iff_dvd' (by omega)).1 he
        have := Nat.le_of_dvd (by omega) hdvd
        omega
      change tableGet _ (i % m) = some b
      rw [tableGet_ringPut_other hother, tableGet_put_same]
    | succ k =>
      rw [show i + (k + 1) = i + 1 + k by omega, ih (by omega) (by omega), List.getD_cons_succ]

theorem foldl_emit_win (bs : List Byte) (s : State) :
    (bs.foldl emit s).out.win = ringPut 32768 s.out.win s.out.n bs := by
  induction bs generalizing s with
  | nil => rfl
  | cons b r ih => exact ih (emit s b)

theorem foldl_emit_mem (bs : List Byte) (s : State) :
    (bs.foldl emit s).mem = ringPut (2 ^ 32) s.mem (s.lat.scrBase.toNat + s.out.n) bs := by
  induction bs generalizing s with
  | nil => rfl
  | cons b r ih =>
    rw [List.foldl_cons, ih, ringPut, ← busAt_toNat]; rfl

theorem foldl_emit_lat (bs : List Byte) (s : State) : (bs.foldl emit s).lat = s.lat := by rw [(foldl_emit_eq bs s).1]

theorem rawByte_of_memAt {s : State} {k : Nat} {b : Byte} (h : memAt s ((s.lat.scrBase.toNat + k) % 2 ^ 32) = some b) :
    rawByte s k = b := by
  rw [← busAt_toNat] at h
  rw [rawByte, busRead, show tableGet s.mem (busAt s.lat.scrBase k).toNat = some b from h]

theorem rawByte_foldl_emit {bs : List Byte} (hlen : bs.length ≤ 2 ^ 32) {k : Nat} (hk : k < bs.length) (s : State) :
    rawByte (bs.foldl emit s) (s.out.n + k) = bs.getD k 0#8 := by
  apply rawByte_of_memAt
  rw [memAt, foldl_emit_mem, foldl_emit_lat, ← Nat.add_assoc, tableGet_ringPut_same hlen hk]

theorem emit_s1 (s : State) (b : Byte) : (emit s b).out.s1 = (s.out.s1 + b.toNat) % 65521 := rfl
theorem emit_s2 (s : State) (b : Byte) :
    (emit s b).out.s2 = (s.out.s2 + (s.out.s1 + b.toNat) % 65521) % 65521 := rfl

/-- The accumulators are the running sums of R371, each reduced at every byte. -/
theorem foldl_emit_adler (bs : List Byte) {s : State} (h1 : s.out.s1 < 65521) (h2 : s.out.s2 < 65521) :
    (bs.foldl emit s).out.s1 = (s.out.s1 + (bs.map BitVec.toNat).sum) % 65521 ∧
    (bs.foldl emit s).out.s2 = (s.out.s2 + ((List.range bs.length).map fun k =>
      (s.out.s1 + ((bs.take (k + 1)).map BitVec.toNat).sum) % 65521).sum) % 65521 := by
  induction bs generalizing s with
  | nil => exact ⟨(Nat.mod_eq_of_lt h1).symm, (Nat.mod_eq_of_lt h2).symm⟩
  | cons b r ih =>
    obtain ⟨i1, i2⟩ := ih (s := emit s b) (Nat.mod_lt _ (by decide)) (Nat.mod_lt _ (by decide))
    simp only [emit_s1, emit_s2, Nat.mod_add_mod, Nat.add_assoc] at i1 i2
    rw [List.foldl_cons, i1, i2, List.length_cons, List.range_succ_eq_map]
    refine ⟨rfl, ?_⟩
    rw [List.map_cons, List.map_map]; rfl

/-- Settles O29: the list is written to two rings, WIN of 32768 bytes and memory of 2^32, and the accumulators are sums. -/
theorem emitAppendsRawBytes : Obligations.EmitAppendsRawBytes := by
  intro bs s hlen t
  obtain ⟨hfields, hn⟩ := foldl_emit_eq bs s
  refine ⟨hfields, hn, fun k hk => rawByte_foldl_emit (by omega) hk s, fun a ha => memAt_foldl_emit bs s a ha,
    fun k hk => ?_, fun j hj => ?_, foldl_emit_adler bs⟩
  · rw [foldl_emit_win]; exact tableGet_ringPut_same hlen hk ..
  · rw [foldl_emit_win]; exact tableGet_ringPut_other hj _

/-! ### Bytes of C as bits (30_encoding.md R132, R134) -/

theorem bitsValue_add (c : List Byte) (bp m n : Nat) :
    bitsValue c bp (m + n) = bitsValue c bp m + 2 ^ m * bitsValue c (bp + m) n := by
  induction m generalizing bp with
  | zero => simp [bitsValue]
  | succ m ih =>
    rw [Nat.add_right_comm, bitsValue, bitsValue, ih, pow_succ, Nat.add_assoc bp 1 m, Nat.add_comm 1 m]
    ring

theorem bitsValue_in_byte (c : List Byte) (q : Nat) {m : Nat} (h : m ≤ 8) :
    bitsValue c (8 * q) m = (c.getD q 0#8).toNat % 2 ^ m := by
  induction m with
  | zero => simp [bitsValue, Nat.mod_one]
  | succ m ih =>
    have hbit : cBit c (8 * q + m) = (c.getD q 0#8).toNat.testBit m := by
      rw [cBit, show (8 * q + m) / 8 = q by omega, show (8 * q + m) % 8 = m by omega, BitVec.testBit_toNat]
    rw [bitsValue_add, ih (by omega), Nat.mod_pow_succ, ← Nat.toNat_testBit, ← hbit]
    simp [bitsValue]

theorem bitsValue_byte (c : List Byte) (q : Nat) : bitsValue c (8 * q) 8 = (c.getD q 0#8).toNat :=
  (bitsValue_in_byte c q le_rfl).trans (Nat.mod_eq_of_lt (c.getD q 0#8).isLt)

theorem bitsValue_two_bytes (c : List Byte) (q : Nat) :
    bitsValue c (8 * q) 16 = (c.getD q 0#8).toNat + 256 * (c.getD (q + 1) 0#8).toNat := by
  rw [bitsValue_add c (8 * q) 8 8, bitsValue_byte, show 8 * q + 8 = 8 * (q + 1) by omega, bitsValue_byte]; rfl

/-! ### Stored blocks (R330) -/

/-- The `m` bytes of C from byte `p` on. -/
def cBytes (c : List Byte) (p m : Nat) : List Byte := (List.range m).map fun k => c.getD (p + k) 0#8

theorem cBytes_succ (c : List Byte) (p m : Nat) : cBytes c p (m + 1) = c.getD p 0#8 :: cBytes c (p + 1) m := by
  simp [cBytes, List.range_succ_eq_map, Function.comp_def, Nat.add_assoc, Nat.add_comm 1]

/-- The state once `m` bytes of C from byte `p` on are emitted, the cursor after them. -/
def copied (p m : Nat) (s : State) : State := ((cBytes s.c p m).foldl emit s).setBp (8 * (p + m))

theorem copied_setBp (p m bp : Nat) (s : State) : copied p m (s.setBp bp) = copied p m s := by
  rw [copied, copied, State.setBp_c, foldl_emit_setBp]; rfl

theorem copied_eq (p m : Nat) (s : State) :
    copied p m s = { (cBytes s.c p m).foldl emit s with infl := { s.infl with bp := 8 * (p + m) } } := by
  have hinfl : ((cBytes s.c p m).foldl emit s).infl = s.infl := by rw [(foldl_emit_eq _ s).1]
  rw [copied, State.setBp, State.setInfl, hinfl]

@[simp] theorem copied_c (p m : Nat) (s : State) : (copied p m s).c = s.c := by
  rw [copied_eq, (foldl_emit_eq _ s).1]

@[simp] theorem copied_hdr (p m : Nat) (s : State) : (copied p m s).hdr = s.hdr := by
  rw [copied_eq, (foldl_emit_eq _ s).1]

@[simp] theorem copied_n (p m : Nat) (s : State) : (copied p m s).out.n = s.out.n + m := by
  rw [copied_eq]
  show ((cBytes s.c p m).foldl emit s).out.n = _
  rw [(foldl_emit_eq _ s).2, cBytes, List.length_map, List.length_range]

@[simp] theorem copied_infl (p m : Nat) (s : State) : (copied p m s).infl = { s.infl with bp := 8 * (p + m) } := by
  rw [copied_eq]

/-- One round of the copy loop. -/
theorem storedCopy_succ {s : State} {p : Nat} (hp : s.infl.bp = 8 * p) (h : p < s.c.length) (k : Nat) :
    storedCopy (k + 1) s = storedCopy k ((emit s (s.c.getD p 0#8)).setBp (8 * (p + 1))) := by
  rw [storedCopy, hp, getBits_some (by omega), bitsValue_byte, withBits, BitVec.ofNat_toNat, BitVec.setWidth_eq,
    Nat.mul_add]

theorem storedCopy_add (m k : Nat) {s : State} {p : Nat} (hp : s.infl.bp = 8 * p) (h : p + m ≤ s.c.length) :
    storedCopy (m + k) s = storedCopy k (copied p m s) := by
  induction m generalizing s p with
  | zero =>
    have hs : copied p 0 s = s := by rw [copied, Nat.add_zero, ← hp]; rfl
    rw [Nat.zero_add, hs]
  | succ m ih =>
    rw [Nat.add_right_comm, storedCopy_succ hp (by omega), ih rfl (by rw [State.setBp_c, emit_c]; omega), copied_setBp,
      copied, copied, cBytes_succ, List.foldl_cons, emit_c, Nat.add_right_comm]
    rfl

/-- The data is there: its bytes are emitted, and the block ends. -/
theorem storedCopy_enough {len p : Nat} {s : State} (h : p + len ≤ s.c.length) :
    storedCopy len (s.setBp (8 * p)) = endBlock (copied p len s) := by
  rw [← copied_setBp p len (8 * p) s]
  exact storedCopy_add len 0 rfl h

/-- The data runs out: the bytes that are there are emitted, and the next read fails. -/
theorem storedCopy_short {len p : Nat} {s : State} (hp : p ≤ s.c.length) (h : s.c.length < p + len) :
    storedCopy len (s.setBp (8 * p)) = .stop (copied p (s.c.length - p) s) ⟨.zTruncated, s.c.length⟩ := by
  obtain ⟨k, rfl⟩ : ∃ k, len = s.c.length - p + (k + 1) := ⟨len - (s.c.length - p) - 1, by omega⟩
  have hnone : getBits s.c (8 * (p + (s.c.length - p))) 8 = none := getBits_none (by omega)
  have hfits : p + (s.c.length - p) ≤ (s.setBp (8 * p)).c.length := by rw [State.setBp_c]; omega
  rw [storedCopy_add _ _ rfl hfits, copied_setBp, storedCopy, copied_c, copied_infl, hnone, withBits, copied_c]

section StoredBlock

variable {s : State} {q : Nat} (hq : (s.infl.bp + 7) / 8 = q)
include hq

/-- A header that is not there stops at its first field or at its second. -/
theorem storedBlock_short (h : s.c.length < q + 4) : storedBlock s = .stop s ⟨.zTruncated, s.c.length⟩ := by
  rw [storedBlock, alignBits_eq, hq]
  by_cases hlen : 8 * q + 16 ≤ 8 * s.c.length
  · rw [getBits_some hlen, withBits, getBits_none (by omega), withBits]
  · rw [getBits_none (by omega), withBits]

/-- LEN and NLEN read, low byte first, then the two checks in their order. -/
theorem storedBlock_header (h : q + 4 ≤ s.c.length) :
    let len := (s.c.getD q 0#8).toNat + 256 * (s.c.getD (q + 1) 0#8).toNat
    let nlen := (s.c.getD (q + 2) 0#8).toNat + 256 * (s.c.getD (q + 3) 0#8).toNat
    storedBlock s =
      if nlen ≠ len ^^^ 0xFFFF then .stop s ⟨.dStoredNlen, q⟩
      else if rawLength s.hdr < s.out.n + len then .stop s ⟨.dOutputOverflow, q⟩
      else storedCopy len (s.setBp (8 * (q + 4))) := by
  intro len nlen
  rw [storedBlock, alignBits_eq, hq, getBits_some (by omega), withBits, getBits_some (by omega), withBits,
    show 8 * q + 16 = 8 * (q + 2) by omega, bitsValue_two_bytes, bitsValue_two_bytes, Nat.mul_div_cancel_left _ (by decide)]
  rfl

end StoredBlock

theorem endBlock_more {s : State} (h : s.infl.bfinal = false) : endBlock s = .go (s.setPoint .blockHeader) := by
  rw [endBlock, if_neg (by simp [h])]

theorem endBlock_short {s : State} (h : s.infl.bfinal = true) (hn : s.out.n < rawLength s.hdr) :
    endBlock s = .stop s ⟨.dOutputShort, (s.infl.bp + 7) / 8⟩ := by
  rw [endBlock, if_pos h, if_pos hn]; rfl

theorem endBlock_done {s : State} (h : s.infl.bfinal = true) (hn : rawLength s.hdr ≤ s.out.n) :
    endBlock s = .go (s.setPoint .adler) := by
  rw [endBlock, if_pos h, if_neg (Nat.not_lt.2 hn)]

/-- Settles O30: the header of a stored block is judged in order, and its data is copied byte by byte as far as C goes. -/
theorem storedBlockCopied : Obligations.StoredBlockCopied := by
  intro fin s q byte len nlen s1 emitted
  have hemitted (m : Nat) : emitted m = copied (q + 4) m s1 := (copied_eq (q + 4) m s1).symm
  have hexec : exec (.blockStored fin) s = (storedBlock s1).result := rfl
  have hq : (s1.infl.bp + 7) / 8 = q := rfl
  rw [hexec]
  refine ⟨fun h => ⟨s.infl.bp, by rw [storedBlock_short hq h]; rfl⟩, fun h => ?_⟩
  have hheader : storedBlock s1 =
      if nlen ≠ len ^^^ 0xFFFF then .stop s1 ⟨.dStoredNlen, q⟩
      else if rawLength s.hdr < s.out.n + len then .stop s1 ⟨.dOutputOverflow, q⟩
      else storedCopy len (s1.setBp (8 * (q + 4))) := storedBlock_header hq h
  rw [hheader]
  refine ⟨fun hn => ⟨s.infl.bp, by rw [if_pos hn]; rfl⟩, fun hn ho => ⟨s.infl.bp, ?_⟩, fun hn ho => ?_⟩
  · rw [if_neg (not_not.2 hn), if_pos ho]; rfl
  rw [if_neg (not_not.2 hn), if_neg (Nat.not_lt.2 ho)]
  refine ⟨fun hc => ?_, fun hc => ?_⟩
  · rw [storedCopy_short (s := s1) h hc, hemitted]; rfl
  rw [storedCopy_enough (s := s1) hc, hemitted]
  refine ⟨fun hf => ?_, fun hf hn => ?_, fun hf hn => ?_⟩
  · rw [endBlock_more (by simpa using hf)]; rfl
  · rw [endBlock_done (by simpa using hf) (by simpa using hn.ge)]; rfl
  · rw [endBlock_short (by simpa using hf) (by simpa using hn), copied_infl]
    show Host.Outcome.next (raise _ _ ((8 * (q + 4 + len) + 7) / 8)) = _
    rw [show (8 * (q + 4 + len) + 7) / 8 = q + 4 + len by omega]

/-! ### Code-length symbols (R343 to R346) -/

/-- The lengths a symbol appends, and what follows by the loop condition of R340. -/
theorem afterLens_appendLens (r v bp : Nat) (s : State) :
    let grown := { s with infl := { s.infl with bp := bp, lens := s.infl.lens ++ List.replicate r v } }
    let have' := s.infl.lens.length + (List.replicate r v).length
    (have' < s.infl.nl + s.infl.nd →
      (afterLens (appendLens r v bp s)).result = .next { grown with point := .clSymbol }) ∧
    (s.infl.nl + s.infl.nd ≤ have' → (afterLens (appendLens r v bp s)).result = (finishDynamic grown).result) := by
  intro grown have'
  have hlen : (appendLens r v bp s).infl.lens.length = have' := List.length_append
  rw [afterLens, hlen]
  refine ⟨fun h => ?_, fun h => ?_⟩
  · exact congrArg Flow.result (if_pos h)
  · exact congrArg Flow.result (if_neg (Nat.not_lt.2 h))

/-- What CL_REPEAT_PREV and the runs of zeros share: `base` plus `extra` bits of a value, once the extra bits are read
(R344 to R346). -/
def repeatValue (v : Option Nat) (base extra : Nat) (s : State) : Flow :=
  withBits (getBits s.c s.infl.bp extra) s fun e =>
    match v with
    | none => .stop s ⟨.dRepeatNoPrev, s.infl.symStart / 8⟩
    | some v =>
      if s.infl.nl + s.infl.nd < s.infl.lens.length + (base + e) then .stop s ⟨.dRepeatOverflow, s.infl.symStart / 8⟩
      else afterLens (appendLens (base + e) v (s.infl.bp + extra) s)

theorem exec_clRepeatPrev (s : State) :
    exec .clRepeatPrev s = (repeatValue s.infl.lens.getLast? 3 2 s).result := rfl

/-- The two rows of zeros, each with its base and extra bits. -/
theorem exec_zeroRow {row : Instr × Nat × Nat} (h : row ∈ [(Instr.clZeroShort, 3, 3), (Instr.clZeroLong, 11, 7)])
    (s : State) :
    row.1 ≠ .clRepeatPrev ∧ exec row.1 s = (repeatValue (some 0) row.2.1 row.2.2 s).result := by
  simp only [List.mem_cons, List.not_mem_nil, or_false] at h
  rcases h with rfl | rfl <;> exact ⟨by simp, rfl⟩

section RepeatValue

variable {base extra : Nat} {s : State}

theorem repeatValue_truncated (v : Option Nat) (h : 8 * s.c.length < s.infl.bp + extra) :
    repeatValue v base extra s = .stop s ⟨.zTruncated, s.c.length⟩ := by rw [repeatValue, getBits_none h, withBits]

variable (h : s.infl.bp + extra ≤ 8 * s.c.length)
include h

theorem repeatValue_none : repeatValue none base extra s = .stop s ⟨.dRepeatNoPrev, s.infl.symStart / 8⟩ := by
  rw [repeatValue, getBits_some h, withBits]

theorem repeatValue_overflow {v : Nat}
    (hover : s.infl.nl + s.infl.nd < s.infl.lens.length + (base + bitsValue s.c s.infl.bp extra)) :
    repeatValue (some v) base extra s = .stop s ⟨.dRepeatOverflow, s.infl.symStart / 8⟩ := by
  rw [repeatValue, getBits_some h, withBits]; exact if_pos hover

theorem repeatValue_fits {v : Nat}
    (hfits : s.infl.lens.length + (base + bitsValue s.c s.infl.bp extra) ≤ s.infl.nl + s.infl.nd) :
    repeatValue (some v) base extra s =
      afterLens (appendLens (base + bitsValue s.c s.infl.bp extra) v (s.infl.bp + extra) s) := by
  rw [repeatValue, getBits_some h, withBits]; exact if_neg (Nat.not_lt.2 hfits)

end RepeatValue

/-- Settles O32: a repeat reads its extra bits, is checked, and appends its lengths as `afterLens_appendLens` says. -/
theorem codeLengthSymbols : Obligations.CodeLengthSymbols := by
  intro s total have' grown after off
  refine ⟨fun l => afterLens_appendLens 1 l.toNat s.infl.bp s, fun row hrow => ?_⟩
  rcases List.mem_cons.1 hrow with rfl | hzero
  · rw [exec_clRepeatPrev]
    refine ⟨fun h => by rw [repeatValue_truncated _ h]; rfl, fun h => ⟨fun _ hl => ⟨s.infl.bp, ?_⟩,
      fun _ hl hover => ⟨s.infl.bp, ?_⟩, fun he => absurd rfl he, fun _ v hv hfits => ?_, fun he => absurd rfl he⟩⟩
    · rw [hl, List.getLast?_nil, repeatValue_none h]; rfl
    · rw [List.getLast?_eq_some_getLast hl, repeatValue_overflow h hover]; rfl
    · simp only [after, exec_clRepeatPrev, hv, repeatValue_fits h hfits]
      exact afterLens_appendLens ..
  · obtain ⟨hne, hexec⟩ := exec_zeroRow hzero s
    rw [hexec]
    refine ⟨fun h => by rw [repeatValue_truncated _ h]; rfl, fun h => ⟨fun he => absurd he hne, fun he => absurd he hne,
      fun _ hover => ⟨s.infl.bp, ?_⟩, fun he => absurd he hne, fun _ hfits => ?_⟩⟩
    · rw [repeatValue_overflow h hover]; rfl
    · simp only [after, hexec, repeatValue_fits h hfits]
      exact afterLens_appendLens ..

/-! ### The end of a dynamic header (R340, R342, R348) -/

theorem forall_mem_eq_zero_iff {xs : List Nat} : (∀ x ∈ xs, x = 0) ↔ ∀ i, xs.getD i 0 = 0 := by
  refine ⟨fun h i => ?_, fun h x hx => ?_⟩
  · by_cases hi : i < xs.length
    · rw [List.getD_eq_getElem _ _ hi]; exact h _ (List.getElem_mem hi)
    · exact List.getD_eq_default _ _ (Nat.le_of_not_lt hi)
  · obtain ⟨i, hi, rfl⟩ := List.getElem_of_mem hx
    rw [← List.getD_eq_getElem _ 0 hi]; exact h i

theorem getD_take_append_zeros {xs : List Nat} {n : Nat} (h : n ≤ xs.length) (m i : Nat) :
    (xs.take n ++ List.replicate m 0).getD i 0 = if i < n then xs.getD i 0 else 0 := by
  have hlen : (xs.take n).length = n := List.length_take_of_le h
  split_ifs with hi
  · rw [List.getD_append _ _ _ _ (by omega), List.getD_eq_getElem?_getD, List.getElem?_take_of_lt hi,
      ← List.getD_eq_getElem?_getD]
  · rw [List.getD_append_right _ _ _ _ (by omega)]
    exact forall_mem_eq_zero_iff.1 (fun x hx => List.eq_of_mem_replicate hx) _

theorem codeEmpty_iff {xs : List Nat} : codeEmpty xs = true ↔ ∀ i, xs.getD i 0 = 0 := by
  rw [← forall_mem_eq_zero_iff]; simp [codeEmpty]

theorem forall_ne_getD_eq_zero_iff (xs : List Nat) (i : Nat) : (∀ j, j ≠ i → xs.getD j 0 = 0) ↔
    (∀ x ∈ xs.take i, x = 0) ∧ ∀ x ∈ xs.drop (i + 1), x = 0 := by
  rw [forall_mem_eq_zero_iff, forall_mem_eq_zero_iff]
  simp only [List.getD_eq_getElem?_getD, List.getElem?_drop, List.getElem?_take]
  refine ⟨fun h => ⟨fun j => ?_, fun j => h _ (by omega)⟩, fun ⟨hl, hr⟩ j hj => ?_⟩
  · split_ifs with hj
    · exact h j (by omega)
    · rfl
  · rcases Nat.lt_or_gt_of_ne hj with hlt | hgt
    · simpa [hlt] using hl j
    · simpa [show i + 1 + (j - (i + 1)) = j by omega] using hr (j - (i + 1))

theorem codeSingle_iff {xs : List Nat} :
    codeSingle xs = true ↔ ∃ i, i < xs.length ∧ xs.getD i 0 = 1 ∧ ∀ j, j ≠ i → xs.getD j 0 = 0 := by
  simp only [codeSingle, beq_iff_eq, List.filter_eq_cons_iff, List.filter_eq_nil_iff, forall_ne_getD_eq_zero_iff]
  constructor
  · rintro ⟨l, r, rfl, hl, -, hr⟩
    exact ⟨l.length, by simp, by simp, by simpa using hl, by simpa using hr⟩
  · rintro ⟨i, hi, h1, hl, hr⟩
    rw [List.getD_eq_getElem _ _ hi] at h1
    refine ⟨xs.take i, xs.drop (i + 1), ?_, by simpa using hl, by simp, by simpa using hr⟩
    calc xs = xs.take i ++ xs.drop i := (List.take_append_drop i xs).symm
      _ = xs.take i ++ 1 :: xs.drop (i + 1) := by rw [List.drop_eq_getElem_cons hi, h1]

/-- LL and DL of a finished header: from LENS, and zeros (R340). -/
def headerLL (i : Infl) : List Nat := i.lens.take i.nl ++ List.replicate (288 - i.nl) 0
def headerDL (i : Infl) : List Nat := (i.lens.drop i.nl).take i.nd ++ List.replicate (32 - i.nd) 0

theorem finishDynamic_of_some {s : State} {d : Detail} (h : codesError (headerLL s.infl) (headerDL s.infl) = some d) :
    finishDynamic s = .stop { s with infl := { s.infl with ll := headerLL s.infl, dl := headerDL s.infl } }
      ⟨d, s.infl.bstart / 8⟩ := by
  rw [headerLL, headerDL] at h
  rw [finishDynamic, h]; rfl

theorem finishDynamic_of_none {s : State} (h : codesError (headerLL s.infl) (headerDL s.infl) = none) :
    finishDynamic s = .go { s with
      infl := { s.infl with
        ll := headerLL s.infl, dl := headerDL s.infl
        llCode := buildCode (headerLL s.infl), dCode := buildCode (headerDL s.infl) }
      point := .litLen } := by
  rw [headerLL, headerDL] at h
  rw [finishDynamic, h]; rfl

/-- Settles O33: LL and DL are `headerLL` and `headerDL`, judged by the cascade of `codesError`. -/
theorem dynamicHeaderFinished : Obligations.DynamicHeaderFinished := by
  intro s hnl hnd hlens
  have hdrop : (s.infl.lens.drop s.infl.nl).length = s.infl.nd := by rw [List.length_drop]; omega
  refine ⟨headerLL s.infl, headerDL s.infl, ?_, ?_, fun i => getD_take_append_zeros (by omega) _ i, fun i => ?_, ?_⟩
  · rw [headerLL, List.length_append, List.length_take, List.length_replicate]; omega
  · rw [headerDL, List.length_append, List.length_take, List.length_replicate]; omega
  · rw [headerDL, getD_take_append_zeros hdrop.ge, List.getD_eq_getElem?_getD, List.getElem?_drop,
      ← List.getD_eq_getElem?_getD]
  intro single t off llBad dlBad
  have hll : llBad ↔ (!(codeComplete (headerLL s.infl) || codeSingle (headerLL s.infl))) = true := by
    simp only [Bool.not_eq_true', ← Bool.not_eq_true, Bool.or_eq_true, not_or, codeComplete, beq_iff_eq, codeSingle_iff]
    rfl
  have hdl : dlBad ↔
      (!(codeComplete (headerDL s.infl) || codeSingle (headerDL s.infl) || codeEmpty (headerDL s.infl))) = true := by
    simp only [Bool.not_eq_true', ← Bool.not_eq_true, Bool.or_eq_true, not_or, codeComplete, beq_iff_eq, codeSingle_iff,
      codeEmpty_iff, not_forall, and_assoc]
    rfl
  rw [hll, hdl]
  refine ⟨fun he => finishDynamic_of_some ?_, fun he hl => finishDynamic_of_some ?_,
    fun he hl hd => finishDynamic_of_some ?_, fun he hl hd => finishDynamic_of_none ?_⟩
  · rw [codesError, if_pos he]
  · rw [codesError, if_neg he, if_pos hl]
  · rw [codesError, if_neg he, if_neg hl, if_pos hd]
  · rw [codesError, if_neg he, if_neg hl, if_neg hd]

/-! ### Match copies (R357, R361) -/

theorem winByte_of_windowHolds {s : State} (hw : WindowHolds s) (hb : s.regs.busy = true) (hi : s.point.inflating = true)
    {j : Nat} (hj : j < s.out.n) (hnear : s.out.n ≤ j + 32768) : winByte s (j % 32768) = rawByte s j := by
  rw [winByte, show tableGet s.out.win (j % 32768) = some (rawByte s j) from hw hb hi j hj hnear]

/-- An emitted byte takes the place in WIN of the one that leaves it. -/
theorem windowHolds_emit {s : State} (hw : WindowHolds s) (hn : s.out.n < 2 ^ 32) (b : Byte) : WindowHolds (emit s b) := by
  intro hb hi j hj hnear
  rw [emit_n] at hj hnear
  change s.out.n + 1 ≤ j + 32768 at hnear
  rw [rawByte_emit s b j hn (by omega)]
  change tableGet (tablePut s.out.win (s.out.n % 32768) b) (j % 32768) = _
  by_cases h : j = s.out.n
  · rw [h, tableGet_put_same, if_pos rfl]
  · rw [tableGet_put_other _ _ _ _ (by omega), if_neg h]
    exact hw hb hi j (by omega) (show s.out.n ≤ j + 32768 by omega)

theorem windowHolds_foldl_emit {s : State} (hw : WindowHolds s) {bs : List Byte} (hn : s.out.n + bs.length ≤ 2 ^ 32) :
    WindowHolds (bs.foldl emit s) := by
  induction bs generalizing s with
  | nil => exact hw
  | cons b r ih =>
    rw [List.length_cons] at hn
    exact ih (windowHolds_emit hw (by omega) b) (by rw [emit_n]; omega)

/-- An emission leaves the raw bytes before it. -/
theorem rawByte_foldl_emit_before {bs : List Byte} {s : State} (hn : s.out.n + bs.length ≤ 2 ^ 32) {j : Nat}
    (hj : j < s.out.n) : rawByte (bs.foldl emit s) j = rawByte s j := by
  refine rawByte_eq s _ j (foldl_emit_lat bs s) (memAt_foldl_emit bs s _ fun k hk => ?_)
  rw [busAt_toNat]
  omega

theorem rawByte_copyMatch_before (dist : Nat) {k : Nat} {s : State} (hn : s.out.n + k ≤ 2 ^ 32) {j : Nat}
    (hj : j < s.out.n) : rawByte (copyMatch dist k s) j = rawByte s j := by
  obtain ⟨bs, rfl, hcopy⟩ := copyMatch_foldl dist k s
  rw [hcopy, rawByte_foldl_emit_before hn hj]

/-- Each byte of a match is the one `dist` before it, whether it stood before the match or is one of the match's own. -/
theorem rawByte_copyMatch {dist : Nat} (hd : 1 ≤ dist) (hwin : dist ≤ 32768) {k : Nat} {s : State}
    (hb : s.regs.busy = true) (hi : s.point.inflating = true) (hw : WindowHolds s) (hdn : dist ≤ s.out.n)
    (hn : s.out.n + k ≤ 2 ^ 32) {j : Nat} (hj : j < k) :
    rawByte (copyMatch dist k s) (s.out.n + j) = rawByte (copyMatch dist k s) (s.out.n + j - dist) := by
  induction k generalizing s j with
  | zero => omega
  | succ k ih =>
    rw [copyMatch]
    set b := winByte s ((s.out.n - dist) % Config.windowSize)
    have hbyte : b = rawByte s (s.out.n - dist) := winByte_of_windowHolds hw hb hi (by omega) (by omega)
    have hnext : (emit s b).out.n + k ≤ 2 ^ 32 := by rw [emit_n]; omega
    cases j with
    | zero =>
      rw [Nat.add_zero, rawByte_copyMatch_before dist hnext (by rw [emit_n]; omega),
        rawByte_copyMatch_before dist hnext (by rw [emit_n]; omega), rawByte_emit _ _ _ (by omega) (by omega),
        rawByte_emit _ _ _ (by omega) (by omega), if_pos rfl, if_neg (by omega), hbyte]
    | succ j =>
      have hlater := ih (s := emit s b) hb hi (windowHolds_emit hw (by omega) b) (by rw [emit_n]; omega) hnext
        (Nat.lt_of_succ_lt_succ hj)
      rwa [emit_n, show s.out.n + 1 + j = s.out.n + (j + 1) by omega] at hlater

/-- Settles O37: a match is an emission, which keeps the bytes before it and what WIN holds; `rawByte_copyMatch` says which
bytes it emits. -/
theorem matchRepeatsEarlierBytes : Obligations.MatchRepeatsEarlierBytes := by
  intro s dist mlen hb hi hw hd hdn hwin hn t
  have hrepeat : ∀ k, k < mlen → rawByte t (s.out.n + k) = rawByte t (s.out.n + k - dist) := fun k hk =>
    rawByte_copyMatch hd hwin hb hi hw hdn hn hk
  obtain ⟨bs, rfl, hcopy⟩ := copyMatch_foldl dist mlen s
  obtain ⟨hfields, hcount⟩ := foldl_emit_eq bs s
  rw [← hcopy] at hfields hcount
  refine ⟨hfields, hcount, hrepeat, fun k hk => rawByte_copyMatch_before dist hn hk, fun a ha => ?_, ?_⟩
  · exact (congrArg (memAt · a) hcopy).trans (memAt_foldl_emit bs s a ha)
  · exact (congrArg WindowHolds hcopy).mpr (windowHolds_foldl_emit hw hn)

/-! ### The trailer (R370) -/

theorem step_adler {s : State} (hturn : EngineTurn s) (hpoint : s.point = .adler) :
    step s = runFetched (fetchAdler s) := by rw [step_engine hturn, fetch, hpoint]

theorem alignBits_div (bp : Nat) : alignBits bp / 8 = (bp + 7) / 8 := by
  rw [alignBits_eq]; omega

theorem take_four_drop {c : List Byte} {q : Nat} (h : q + 4 ≤ c.length) :
    (c.drop q).take 4 = [c.getD q 0#8, c.getD (q + 1) 0#8, c.getD (q + 2) 0#8, c.getD (q + 3) 0#8] := by
  rw [List.getD_eq_getElem _ _ (by omega), List.getD_eq_getElem _ _ (by omega), List.getD_eq_getElem _ _ (by omega),
    List.getD_eq_getElem _ _ (by omega), List.drop_eq_getElem_cons (by omega), List.drop_eq_getElem_cons (by omega),
    List.drop_eq_getElem_cons (by omega), List.drop_eq_getElem_cons (by omega)]
  rfl

theorem fetchAdler_short {s : State} (h : s.c.length < (s.infl.bp + 7) / 8 + 4) : fetchAdler s = .own (truncated s) := by
  rw [fetchAdler, alignBits_div, if_pos h]

theorem fetchAdler_enough {s : State} (h : (s.infl.bp + 7) / 8 + 4 ≤ s.c.length) :
    fetchAdler s = .element
      (.adler [s.c.getD ((s.infl.bp + 7) / 8) 0#8, s.c.getD ((s.infl.bp + 7) / 8 + 1) 0#8,
        s.c.getD ((s.infl.bp + 7) / 8 + 2) 0#8, s.c.getD ((s.infl.bp + 7) / 8 + 3) 0#8])
      (s.setBp (8 * ((s.infl.bp + 7) / 8))) := by
  rw [fetchAdler, alignBits_div, if_neg (Nat.not_lt.2 h), take_four_drop h, alignBits_eq]

theorem enterDefilter_of_some {s : State} {p : Nat} (h : nextPass s.hdr 0 = some p) :
    enterDefilter s = ((s.setPhase 3).setDefl ⟨p, 0, 0, none⟩).setPoint .scanline := by
  simp only [enterDefilter, h]

/-- Settles O39: the trailer is four bytes of C from a byte boundary on, and only a checked sum that differs stops. -/
theorem adlerTrailerChecked : Obligations.AdlerTrailerChecked := by
  intro s q
  refine ⟨fun hturn hpoint => ⟨fun hlen => ⟨s.infl.bp, ?_⟩, fun hlen => ⟨be32 .., be32_toNat .., ?_⟩⟩,
    fun a => ⟨fun hv hne => ?_, fun hok p hp => ?_⟩⟩
  · rw [step_adler hturn hpoint, fetchAdler_short hlen]; rfl
  · rw [step_adler hturn hpoint, fetchAdler_enough hlen]; rfl
  · exact congrArg Flow.result (if_pos ⟨hv, hne⟩)
  · have hpass : ¬(s.lat.validate = true ∧ a.toNat ≠ adlerValue s.out) := fun ⟨hv, hne⟩ =>
      hok.elim (by simp [hv]) hne
    have hexec : exec (.adler a) s = .next (enterDefilter s) := congrArg Flow.result (if_neg hpass)
    rw [hexec, enterDefilter_of_some hp]; rfl

end Sys2Proof.Machine
end

section
/-! PROOFS. The defilterer (45_defilter.md R400 to R411): the bytes each filter type leaves, the Paeth predictor, and the order
of rows and passes. -/

namespace Sys2Proof.Machine

/-! ### One scanline (R400 to R407) -/

/-- The five filter types with their reconstruction functions. -/
def filterTypes : List (Instr × Recon) :=
  [(.filtNone, reconNone), (.filtSub, reconSub), (.filtUp, reconUp), (.filtAverage, reconAverage), (.filtPaeth, reconPaeth)]

theorem exec_filterType {row : Instr × Recon} (h : row ∈ filterTypes) (s : State) :
    exec row.1 s = .next (filterRow row.2 s) := by
  simp only [filterTypes, List.mem_cons, List.not_mem_nil, or_false] at h
  obtain rfl | rfl | rfl | rfl | rfl := h <;> rfl

/-- The data bytes of the scanline at the defilter cursors (R279). -/
def scanlineBytes (s : State) : Nat := rowBytes s.hdr (passWidth s.hdr s.defl.pass)

/-- The state with the scanline reconstructed, before the cursors move on. -/
def reconRow (f : Recon) (s : State) : State :=
  reconBytes f s.defl.off s.defl.prev (filterStride s.hdr) (scanlineBytes s) 0 s

theorem filterRow_eq (f : Recon) (s : State) : filterRow f s = nextRow (reconRow f s) := rfl

theorem reconRow_eq (f : Recon) (s : State) : reconRow f s = { s with mem := (reconRow f s).mem } :=
  reconBytes_eq ..

/-- The cursors move on without touching the raw stream. -/
theorem rawByte_nextRow (s : State) (k : Nat) : rawByte (nextRow s) k = rawByte s k := by
  rw [nextRow_eq]; rfl

/-- The recurrence of R400 for the scanline at the defilter cursors. -/
theorem rawByte_reconRow (f : Recon) {s : State} (hoff : s.defl.off + 1 + scanlineBytes s ≤ 2 ^ 32)
    (hprev : ∀ p, s.defl.prev = some p → p + 1 + scanlineBytes s ≤ s.defl.off) {i : Nat} (hi : i < scanlineBytes s) :
    rawByte (reconRow f s) (s.defl.off + 1 + i) =
      f (rawByte s (s.defl.off + 1 + i)) (leftByte (reconRow f s) s.defl.off (filterStride s.hdr) i)
        (upByte (reconRow f s) s.defl.prev i) (upLeftByte (reconRow f s) s.defl.prev (filterStride s.hdr) i) :=
  (reconBytes_recurrence f s.defl.off s.defl.prev (filterStride s.hdr) (scanlineBytes s) 0 s (le_max_left ..) hoff hprev).1
    i (Nat.zero_le i) (by omega)

/-- Reconstruction leaves memory outside the scanline. -/
theorem memAt_reconRow (f : Recon) {s : State} {a : Nat}
    (ha : ∀ i, i ≤ scanlineBytes s → a ≠ (s.lat.scrBase.toNat + (s.defl.off + i)) % 2 ^ 32) :
    memAt (reconRow f s) a = memAt s a :=
  memAt_reconBytes _ _ _ _ _ _ _ _ fun k _ hk => by
    rw [Nat.add_assoc, Nat.add_comm 1]
    exact ha (k + 1) (by omega)

/-- Settles O41: the row is reconstructed by the recurrence of R400, each neighbour a byte of the result, and only the row's
own addresses are written. -/
theorem filterRowsReconstructed : Obligations.FilterRowsReconstructed := by
  intro row hrow s rb off bpp hoff hprev
  refine ⟨(reconRow row.2 s).mem, ?_⟩
  rw [← reconRow_eq]
  refine ⟨exec_filterType hrow s, fun i hi => ?_, fun a ha => memAt_reconRow row.2 ha⟩
  rw [rawByte_reconRow row.2 hoff hprev hi]
  cases s.defl.prev <;> rfl

/-! ### Filtering a single row and back (R411) -/

/-- On the first row of a pass, where b and c are 0, each filter type adds its predictor of the left byte. -/
theorem filterType_of_predictor {row : Instr × (Byte → Byte)}
    (h : row ∈ [(Instr.filtNone, fun _ => 0#8), (.filtSub, fun a => a), (.filtUp, fun _ => 0#8),
      (.filtAverage, fun a => BitVec.ofNat 8 (a.toNat / 2)), (.filtPaeth, fun a => paethPredictor a 0#8 0#8)]) :
    ∃ f, (row.1, f) ∈ filterTypes ∧ ∀ x a, f x a 0#8 0#8 = x + row.2 a := by
  simp only [List.mem_cons, List.not_mem_nil, or_false] at h
  obtain rfl | rfl | rfl | rfl | rfl := h
  · exact ⟨reconNone, by simp [filterTypes], fun x _ => (BitVec.add_zero x).symm⟩
  · exact ⟨reconSub, by simp [filterTypes], fun _ _ => rfl⟩
  · exact ⟨reconUp, by simp [filterTypes], fun _ _ => rfl⟩
  · exact ⟨reconAverage, by simp [filterTypes], fun _ _ => rfl⟩
  · exact ⟨reconPaeth, by simp [filterTypes], fun _ _ => rfl⟩

/-- Settles O43, by strong induction along the row: the left byte is already original, so adding the predictor undoes the
filter's subtraction. -/
theorem filterInversion : Obligations.FilterInversion := by
  intro row hrow s orig hlen hprev hoff hfilt
  obtain ⟨f, hmem, hf⟩ := filterType_of_predictor hrow
  refine ⟨_, exec_filterType hmem s, fun i hi => ?_⟩
  rw [filterRow_eq, rawByte_nextRow]
  change orig.length = scanlineBytes s at hlen
  induction i using Nat.strong_induction_on with
  | _ i ih =>
    have hbpp : 1 ≤ filterStride s.hdr := le_max_left ..
    have left : leftByte (reconRow f s) s.defl.off (filterStride s.hdr) i =
        if filterStride s.hdr ≤ i then orig.getD (i - filterStride s.hdr) 0#8 else 0#8 := by
      rw [leftByte]
      split_ifs with h
      · rw [Nat.add_sub_assoc h]
        exact ih _ (by omega) (by omega)
      · rfl
    rw [rawByte_reconRow f (hlen ▸ hoff) (by simp [hprev]) (hlen ▸ hi), hprev, upByte_none, upLeftByte_none, hf, left,
      hfilt i hi, BitVec.sub_add_cancel]

/-! ### The Paeth predictor (R408) -/

/-- The predictor with the distances of R408 as integers. -/
theorem paethPredictor_eq (a b c : Byte) :
    let pp : Int := (a.toNat : Int) + b.toNat - c.toNat
    paethPredictor a b c =
      if |pp - a.toNat| ≤ |pp - b.toNat| ∧ |pp - a.toNat| ≤ |pp - c.toNat| then a
      else if |pp - b.toNat| ≤ |pp - c.toNat| then b else c := by
  simp only [paethPredictor, Int.abs_eq_natAbs, Nat.cast_le]

/-! ### The order of rows and passes (R410) -/

/-- The least pass that qualifies is the one nextPass finds. -/
theorem nextPass_of_least {h : Header} {first q : Nat}
    (hq : q ∈ passNumbers h.interlace ∧ first ≤ q ∧ passEmpty h q = false)
    (hleast : ∀ r, r ∈ passNumbers h.interlace ∧ first ≤ r ∧ passEmpty h r = false → q ≤ r) :
    nextPass h first = some q :=
  nextPass_some.2 ⟨hq, fun r hr hle he => hleast r ⟨hr, hle, he⟩⟩

theorem nextRow_samePass {s : State} (h : s.defl.row + 1 < passHeight s.hdr s.defl.pass) :
    nextRow s = (s.setDefl ⟨s.defl.pass, s.defl.row + 1, s.defl.off + 1 + scanlineBytes s, some s.defl.off⟩).setPoint
      .scanline := if_pos h

theorem nextRow_nextPass {s : State} (h : passHeight s.hdr s.defl.pass ≤ s.defl.row + 1) {q : Nat}
    (hq : nextPass s.hdr (s.defl.pass + 1) = some q) :
    nextRow s = (s.setDefl ⟨q, 0, s.defl.off + 1 + scanlineBytes s, none⟩).setPoint .scanline := by
  simp only [nextRow, if_neg (Nat.not_lt.2 h), hq]; rfl

theorem nextRow_lastPass {s : State} (h : passHeight s.hdr s.defl.pass ≤ s.defl.row + 1)
    (hq : nextPass s.hdr (s.defl.pass + 1) = none) :
    nextRow s = enterExpand
      (s.setDefl { s.defl with
        row := s.defl.row + 1, off := s.defl.off + 1 + scanlineBytes s, prev := some s.defl.off }) := by
  simp only [nextRow, if_neg (Nat.not_lt.2 h), hq]; rfl

theorem enterExpand_of_some {s : State} {q : Nat} (hq : nextPass s.hdr 0 = some q) :
    enterExpand s = ((s.setPhase 4).setExp ⟨q, 0, 0, 0⟩).setPoint .pixel := by
  simp only [enterExpand, hq]

/-- Settles O42: the branches of the predictor, and the three ways the cursors move after a row. -/
theorem paethAndRowOrder : Obligations.PaethAndRowOrder := by
  refine ⟨fun a b c => ⟨fun hab hac => ?_, fun hna hbc => ?_, fun hna hcb => ?_⟩,
    fun s => ⟨fun hrow => nextRow_samePass hrow, fun hrow => ⟨fun q hq => ?_, fun hnone q hq => ?_⟩⟩⟩
  · rw [paethPredictor_eq, if_pos ⟨hab, hac⟩]
  · rw [paethPredictor_eq, if_neg hna, if_pos hbc]
  · rw [paethPredictor_eq, if_neg hna, if_neg (not_le.2 hcb)]
  · exact nextRow_nextPass hrow (nextPass_of_least hq.1 hq.2)
  · have hlast : nextPass s.hdr (s.defl.pass + 1) = none :=
      nextPass_none.2 fun r hr hle => by simpa using fun he => hnone r ⟨hr, hle, he⟩
    have hfirst : nextPass s.hdr 0 = some q := nextPass_of_least hq.1 hq.2
    exact ⟨_, (nextRow_lastPass hrow hlast).trans (enterExpand_of_some hfirst)⟩

end Sys2Proof.Machine
end

section
/-! PROOFS. The sample expander (46_sample_expander.md R431 to R459): the samples of a pixel, the direct modes and the indexed
modes. -/

namespace Sys2Proof.Machine

/-! ### Samples (R431, R432) -/

/-- Data byte `k` of the scanline the expander stands in. -/
def pixelByte (s : State) (k : Nat) : Byte := rawByte s (pixelRow s + k)

/-- The big-endian 16-bit number its bytes `k` and `k + 1` hold (R431). -/
def pixelWide (s : State) (k : Nat) : Nat := (pixelByte s k).toNat * 256 + (pixelByte s (k + 1)).toNat

theorem sample8_pixelRow (s : State) (x ch c : Nat) : sample8 s (pixelRow s) x ch c = pixelByte s (x * ch + c) := by
  rw [sample8, Nat.add_assoc]; rfl

theorem sample16_pixelRow (s : State) (x ch c : Nat) :
    sample16 s (pixelRow s) x ch c = pixelByte s (2 * ch * x + 2 * c) ++ pixelByte s (2 * ch * x + 2 * c + 1) := by
  have hk : 2 * (x * ch + c) = 2 * ch * x + 2 * c := by ring
  rw [sample16, hk]; rfl

theorem highByte_append (a b : Byte) : highByte (a ++ b) = a := BitVec.extractLsb'_append_eq_left

theorem highByte_sample16 (s : State) (x ch c : Nat) :
    highByte (sample16 s (pixelRow s) x ch c) = pixelByte s (2 * ch * x + 2 * c) := by
  rw [sample16_pixelRow, highByte_append]

theorem sample16_toNat (s : State) (x ch c : Nat) :
    (sample16 s (pixelRow s) x ch c).toNat = pixelWide s (2 * ch * x + 2 * c) := by
  rw [sample16_pixelRow, toNat_append_eq_add]; rfl

/-! ### The direct modes (R445 to R451, R456 to R459) -/

theorem pixelG8_eq (s : State) :
    let y := pixelByte s s.exp.col
    pixelG8 s = ⟨y, y, y, greyAlpha s y.toNat⟩ := by
  simp only [pixelG8, sample8_pixelRow, Nat.mul_one, Nat.add_zero]

theorem pixelG16_eq (s : State) :
    let y := pixelByte s (2 * s.exp.col)
    pixelG16 s = ⟨y, y, y, greyAlpha s (pixelWide s (2 * s.exp.col))⟩ := by
  simp only [pixelG16, highByte_sample16, sample16_toNat, Nat.reduceMul, Nat.add_zero]

theorem pixelRgb8_eq (s : State) :
    let byte := fun c => pixelByte s (s.exp.col * 3 + c)
    pixelRgb8 s = ⟨byte 0, byte 1, byte 2, rgbAlpha s (byte 0).toNat (byte 1).toNat (byte 2).toNat⟩ := by
  simp only [pixelRgb8, sample8_pixelRow]

theorem pixelRgb16_eq (s : State) :
    let k := 6 * s.exp.col
    pixelRgb16 s = ⟨pixelByte s k, pixelByte s (k + 2), pixelByte s (k + 4),
      rgbAlpha s (pixelWide s k) (pixelWide s (k + 2)) (pixelWide s (k + 4))⟩ := by
  simp only [pixelRgb16, highByte_sample16, sample16_toNat, Nat.reduceMul, Nat.add_zero]

theorem pixelGa8_eq (s : State) :
    let y := pixelByte s (2 * s.exp.col)
    pixelGa8 s = ⟨y, y, y, pixelByte s (2 * s.exp.col + 1)⟩ := by
  simp only [pixelGa8, sample8_pixelRow, Nat.mul_comm, Nat.add_zero]

theorem pixelGa16_eq (s : State) :
    let y := pixelByte s (4 * s.exp.col)
    pixelGa16 s = ⟨y, y, y, pixelByte s (4 * s.exp.col + 2)⟩ := by
  simp only [pixelGa16, highByte_sample16, Nat.reduceMul, Nat.add_zero]

theorem pixelRgba8_eq (s : State) :
    let k := 4 * s.exp.col
    pixelRgba8 s = ⟨pixelByte s k, pixelByte s (k + 1), pixelByte s (k + 2), pixelByte s (k + 3)⟩ := by
  simp only [pixelRgba8, sample8_pixelRow, Nat.mul_comm, Nat.add_zero]

theorem pixelRgba16_eq (s : State) :
    let k := 8 * s.exp.col
    pixelRgba16 s = ⟨pixelByte s k, pixelByte s (k + 2), pixelByte s (k + 4), pixelByte s (k + 6)⟩ := by
  simp only [pixelRgba16, highByte_sample16, Nat.reduceMul, Nat.add_zero]

theorem exec_of_pixel {i : Instr} {s : State} {p q : Rgba} (hexec : exec i s = .next (putPixel p s)) (hp : p = q) :
    exec i s = .next (putPixel q s) := hp ▸ hexec

/-- Settles O44: a sub-byte grey mode is `greySub` as it stands, and each other mode puts the bytes its samples are. -/
theorem pixelModesExpand : Obligations.PixelModesExpand := fun s =>
  ⟨rfl, rfl, rfl, exec_of_pixel rfl (pixelG8_eq s), exec_of_pixel rfl (pixelG16_eq s), exec_of_pixel rfl (pixelRgb8_eq s),
    exec_of_pixel rfl (pixelRgb16_eq s), exec_of_pixel rfl (pixelGa8_eq s), exec_of_pixel rfl (pixelGa16_eq s),
    exec_of_pixel rfl (pixelRgba8_eq s), exec_of_pixel rfl (pixelRgba16_eq s)⟩

/-! ### The indexed modes (R437, R452 to R455) -/

theorem indexPixel_of_le {s : State} {i : Nat} (h : s.tabs.plteN ≤ i) (k : Nat) :
    indexPixel i k s = .stop s ⟨.paletteIndex, k⟩ := if_pos h

theorem indexPixel_of_lt {s : State} {i : Nat} (h : i < s.tabs.plteN) (k : Nat) :
    indexPixel i k s = .go (putPixel ⟨(palEntry s i).r, (palEntry s i).g, (palEntry s i).b,
      if i < s.tabs.trnsN then alphaEntry s i else 0xFF#8⟩ s) := if_neg (Nat.not_le.2 h)

theorem palEntry_of_some {s : State} {i : Nat} {v : Rgb} (h : tableGet s.tabs.pal i = some v) : palEntry s i = v := by
  rw [palEntry, h]

theorem alphaEntry_of_some {s : State} {i : Nat} {v : Byte} (h : tableGet s.tabs.alpha i = some v) :
    alphaEntry s i = v := by
  rw [alphaEntry, h]

/-- A sample of 8 bits is its whole byte. -/
theorem subSample_eight (s : State) (row x : Nat) : subSample s row x 8 = (sample8 s row x 1 0).toNat := by
  rw [subSample, sample8, Nat.mul_div_cancel x (by decide), Nat.mul_one, Nat.add_zero, Nat.sub_self, Nat.zero_sub,
    Nat.pow_zero, Nat.div_one, Nat.mod_eq_of_lt (rawByte s (row + x)).isLt]

theorem exec_idx8 (s : State) : exec .idx8 s = (indexSub 8 s).result := by
  rw [indexSub, subSample_eight, Nat.mul_div_cancel s.exp.col (by decide)]; rfl

/-- The four indexed modes with their depths. -/
theorem exec_indexed {row : Instr × Nat} (h : row ∈ [(Instr.idx1, 1), (.idx2, 2), (.idx4, 4), (.idx8, 8)]) (s : State) :
    exec row.1 s = (indexSub row.2 s).result := by
  simp only [List.mem_cons, List.not_mem_nil, or_false] at h
  obtain rfl | rfl | rfl | rfl := h
  · rfl
  · rfl
  · rfl
  · exact exec_idx8 s

/-- Settles O45: the four modes are `indexSub` at their depth, IDX8 being depth 8, and the lookup of R437 goes by plte_n. -/
theorem paletteModesExpand : Obligations.PaletteModesExpand := fun _ hrow s =>
  ⟨fun h => (exec_indexed hrow s).trans (congrArg Flow.result (indexPixel_of_le h _)),
    fun h => (exec_indexed hrow s).trans (congrArg Flow.result (indexPixel_of_lt h _)),
    fun _ => palEntry_of_some, fun _ => alphaEntry_of_some⟩

end Sys2Proof.Machine
end

section
/-! PROOFS. The interlace reassembler (47_interlace.md R470 to R475): an image pixel belongs to exactly one pass pixel. -/

namespace Sys2Proof.Machine

/-! ### One axis of a pass (R470, R471) -/

theorem lt_ceilDiv {k a b : Nat} (hb : 0 < b) : k < ceilDiv a b ↔ k * b < a := by
  rw [ceilDiv, Nat.lt_iff_add_one_le, Nat.le_div_iff_mul_le hb, Nat.add_mul]; omega

/-- The positions of a pass along one axis are those whose image coordinate is below the image's size. -/
theorem lt_axisSize {start step size k : Nat} (hstep : 0 < step) :
    k < (if start < size then ceilDiv (size - start) step else 0) ↔ start + k * step < size := by
  split_ifs
  · rw [lt_ceilDiv hstep]; omega
  · omega

/-- A coordinate is a position of the axis exactly when it has the remainder of the start, and division finds which. -/
theorem eq_start_add_mul_iff {start step X k : Nat} (hstart : start < step) :
    X = start + k * step ↔ X % step = start ∧ k = (X - start) / step := by
  constructor
  · rintro rfl
    rw [Nat.add_mul_mod_self_right, Nat.mod_eq_of_lt hstart, Nat.add_sub_cancel_left,
      Nat.mul_div_cancel k (Nat.zero_lt_of_lt hstart)]
    exact ⟨rfl, rfl⟩
  · rintro ⟨rfl, rfl⟩
    rw [Nat.div_mul_cancel (Nat.dvd_sub_mod X), Nat.add_sub_cancel' (Nat.mod_le X step)]

/-- Every pass starts inside its first step, in both axes (R472). -/
theorem passGrid_start_lt_step (p : Nat) : (passGrid p).c0 < (passGrid p).dc ∧ (passGrid p).r0 < (passGrid p).dr := by
  unfold passGrid; split <;> decide

/-! ### The pass of an image pixel (R473) -/

/-- The tile of R473, its rows top to bottom. -/
def adam7Tile : List (List Nat) :=
  [[1, 6, 4, 6, 2, 6, 4, 6], [7, 7, 7, 7, 7, 7, 7, 7], [5, 6, 5, 6, 5, 6, 5, 6], [7, 7, 7, 7, 7, 7, 7, 7],
    [3, 6, 4, 6, 3, 6, 4, 6], [7, 7, 7, 7, 7, 7, 7, 7], [5, 6, 5, 6, 5, 6, 5, 6], [7, 7, 7, 7, 7, 7, 7, 7]]

/-- The pass of the image pixel (X, Y): the tile's entry when interlaced, and pass 0 otherwise. -/
def passOf (interlace : Bool) (X Y : Nat) : Nat :=
  if interlace then (adam7Tile.getD (Y % 8) []).getD (X % 8) 0 else 0

/-- The pass grid `p` has a row and a column through the image pixel (X, Y). -/
def OnGrid (p X Y : Nat) : Prop := X % (passGrid p).dc = (passGrid p).c0 ∧ Y % (passGrid p).dr = (passGrid p).r0

/-- The steps of R472 divide 8, so the tile repeats. -/
theorem onGrid_mod_eight (p X Y : Nat) : OnGrid p (X % 8) (Y % 8) ↔ OnGrid p X Y := by
  obtain ⟨hdc, hdr⟩ : (passGrid p).dc ∣ 8 ∧ (passGrid p).dr ∣ 8 := by unfold passGrid; split <;> decide
  rw [OnGrid, OnGrid, Nat.mod_mod_of_dvd X hdc, Nat.mod_mod_of_dvd Y hdr]

/-- The tile of R473 follows from the table of R472: its 64 entries, one by one. -/
theorem onGrid_iff_adam7Tile : ∀ Y < 8, ∀ X < 8, ∀ p ∈ passNumbers true,
    OnGrid p X Y ↔ p = (adam7Tile.getD Y []).getD X 0 := by
  unfold OnGrid; decide

theorem adam7Tile_mem_passNumbers : ∀ Y < 8, ∀ X < 8, (adam7Tile.getD Y []).getD X 0 ∈ passNumbers true := by decide

theorem passOf_mem_passNumbers (interlace : Bool) (X Y : Nat) : passOf interlace X Y ∈ passNumbers interlace := by
  cases interlace with
  | false => exact List.mem_singleton_self 0
  | true => exact adam7Tile_mem_passNumbers _ (Nat.mod_lt Y (by decide)) _ (Nat.mod_lt X (by decide))

/-- Of an image's passes, one grid goes through the pixel (X, Y). -/
theorem onGrid_iff_eq_passOf {interlace : Bool} {p : Nat} (hp : p ∈ passNumbers interlace) (X Y : Nat) :
    OnGrid p X Y ↔ p = passOf interlace X Y := by
  cases interlace with
  | false =>
    obtain rfl : p = 0 := List.mem_singleton.1 hp
    exact iff_of_true ⟨Nat.mod_one X, Nat.mod_one Y⟩ rfl
  | true =>
    rw [← onGrid_mod_eight]
    exact onGrid_iff_adam7Tile _ (Nat.mod_lt Y (by decide)) _ (Nat.mod_lt X (by decide)) p hp

/-! ### Coverage (R475) -/

/-- The pass `q.1` has the pass pixel (`q.2.1`, `q.2.2`), and R470 maps it to the image pixel (X, Y). -/
def MapsTo (h : Header) (X Y : Nat) (q : Nat × Nat × Nat) : Prop :=
  q.1 ∈ passNumbers h.interlace ∧ q.2.1 < passWidth h q.1 ∧ q.2.2 < passHeight h q.1 ∧
    X = (passGrid q.1).c0 + q.2.1 * (passGrid q.1).dc ∧ Y = (passGrid q.1).r0 + q.2.2 * (passGrid q.1).dr

/-- The pass pixel of R475. -/
def passPixelOf (h : Header) (X Y : Nat) : Nat × Nat × Nat :=
  let p := passOf h.interlace X Y
  (p, (X - (passGrid p).c0) / (passGrid p).dc, (Y - (passGrid p).r0) / (passGrid p).dr)

theorem mapsTo_iff_eq_passPixelOf {h : Header} {X Y : Nat} (hX : X < h.width) (hY : Y < h.height) (q : Nat × Nat × Nat) :
    MapsTo h X Y q ↔ q = passPixelOf h X Y := by
  obtain ⟨p, x, y⟩ := q
  obtain ⟨hc, hr⟩ := passGrid_start_lt_step p
  calc MapsTo h X Y (p, x, y)
    _ ↔ p ∈ passNumbers h.interlace ∧ X = (passGrid p).c0 + x * (passGrid p).dc ∧
          Y = (passGrid p).r0 + y * (passGrid p).dr := by
      rw [MapsTo, passWidth, passHeight, lt_axisSize (Nat.zero_lt_of_lt hc), lt_axisSize (Nat.zero_lt_of_lt hr)]
      exact ⟨fun ⟨hp, _, _, hx, hy⟩ => ⟨hp, hx, hy⟩, fun ⟨hp, hx, hy⟩ => ⟨hp, hx ▸ hX, hy ▸ hY, hx, hy⟩⟩
    _ ↔ p ∈ passNumbers h.interlace ∧ OnGrid p X Y ∧
          x = (X - (passGrid p).c0) / (passGrid p).dc ∧ y = (Y - (passGrid p).r0) / (passGrid p).dr := by
      rw [eq_start_add_mul_iff hc, eq_start_add_mul_iff hr, and_and_and_comm]; rfl
    _ ↔ (p, x, y) = passPixelOf h X Y := by
      simp only [passPixelOf, Prod.mk.injEq]
      constructor
      · rintro ⟨hp, hgrid, hx, hy⟩
        obtain rfl := (onGrid_iff_eq_passOf hp X Y).1 hgrid
        exact ⟨rfl, hx, hy⟩
      · rintro ⟨rfl, hx, hy⟩
        have hp := passOf_mem_passNumbers h.interlace X Y
        exact ⟨hp, (onGrid_iff_eq_passOf hp X Y).2 rfl, hx, hy⟩

/-- Settles O47: the one pass pixel that maps to (X, Y) is `passPixelOf`, whose pass is the tile's entry when interlaced. -/
theorem everyPixelInOnePass : Obligations.EveryPixelInOnePass := by
  intro h X Y hX hY
  have hunique := mapsTo_iff_eq_passPixelOf hX hY
  refine ⟨⟨passPixelOf h X Y, (hunique _).2 rfl, fun q hq => (hunique q).1 hq⟩, fun hinterlace q hq => ?_⟩
  obtain rfl := (hunique q).1 hq
  exact ⟨if_pos hinterlace, rfl, rfl⟩

end Sys2Proof.Machine
end

section
/-! PROOFS. The interrupt (60_exceptions.md R520): the level of `irq`, and what raises and lowers it. -/

namespace Sys2Proof.Machine

/-! ### The level -/

theorem irq_eq_true_iff (s : State) :
    irq s = true ↔ s.regs.irqEn = true ∧ (s.regs.done = true ∨ s.regs.err = true) := by
  rw [irq, Bool.and_eq_true, Bool.or_eq_true]

theorem irq_eq_false_of_flags {s : State} (hdone : s.regs.done = false) (herr : s.regs.err = false) : irq s = false := by
  rw [irq, hdone, herr]; exact Bool.and_false _

/-- In a legal state DONE and ERR are 0 while BUSY = 1 (60_exceptions.md R520, 10_state.md R35). -/
theorem irq_eq_false_of_busy {s : State} (h : StatusLegal s) (hb : s.regs.busy = true) : irq s = false := by
  obtain ⟨hbusy, -, -⟩ := h
  obtain ⟨hdone, herr, -⟩ := hbusy hb
  exact irq_eq_false_of_flags hdone herr

/-! ### What raises it -/

/-- Either outcome sets one of the flags, and neither it nor a race writes IRQ_EN (R190). -/
theorem completeRegs_level (o : DecodeResult) (r : Regs) :
    ((completeRegs o r).irqEn && ((completeRegs o r).done || (completeRegs o r).err)) = r.irqEn := by
  cases o with
  | success => show (r.irqEn && (true || r.err)) = _; rw [Bool.true_or, Bool.and_true]
  | error e => show (r.irqEn && (r.done || true)) = _; rw [Bool.or_true, Bool.and_true]

theorem irq_complete (o : DecodeResult) (s : State) : irq (complete o s) = s.regs.irqEn := by
  obtain ⟨m, n, hfields⟩ := complete_eq o s
  rw [hfields, irq, completeRegs_level]
  split_ifs <;> rfl

theorem step_completing {s : State} {o : DecodeResult} (hturn : EngineTurn s) (hpoint : s.point = .completing o) :
    step s = .next (complete o s) := by
  rw [step_engine hturn, fetch, hpoint]; rfl

/-! ### What lowers it -/

theorem exec_start_idle_inv {v : Word} {s t : State} (hb : s.regs.busy = false) (h : exec (.start v) s = .next t) :
    t = launch v s := by
  cases hd : coversDevice s with
  | false => exact next_inj ((exec_start_idle hb hd).symm.trans h)
  | true =>
    have hrefused : exec (.start v) s = .refused .regionCoversDevice := by
      show execStart v s = _
      simp [execStart, hb, hd]
    cases hrefused.symm.trans h

/-- A STATUS write leaves `irq` 0 when each flag is 0 already or written 1 (R191). -/
theorem irq_clearStatus {v : Word} {s t : State} (h : exec (.clearStatus v) s = .next t)
    (hdone : s.regs.done = false ∨ v.getLsbD 1 = true) (herr : s.regs.err = false ∨ v.getLsbD 2 = true) : irq t = false := by
  have ht : t = s.setRegs (clearStatusFlags v s.regs) := next_inj h
  rw [ht]
  refine irq_eq_false_of_flags ?_ ?_
  · show (s.regs.done && !v.getLsbD 1) = false
    rcases hdone with h | h <;> simp [h]
  · show (s.regs.err && !v.getLsbD 2) = false
    rcases herr with h | h <;> simp [h]

/-- Settles O11: `irq` reads three register bits, and the completion, each command and reset give their values. -/
theorem irqLevelFollowsFlags : Obligations.IrqLevelFollowsFlags := by
  intro s
  refine ⟨irq_eq_true_iff s, irq_eq_false_of_busy, ?completion, ?enable, ?clearBoth, ?clearDone, ?clearErr, ?start, rfl, rfl⟩
  case completion => exact fun o hturn hpoint => ⟨complete o s, step_completing hturn hpoint, irq_complete o s⟩
  case enable =>
    intro v t h
    have ht : t = setIrqEnable v s := next_inj h
    rw [ht]; rfl
  case clearBoth => exact fun v t h h1 h2 => irq_clearStatus h (.inr h1) (.inr h2)
  case clearDone => exact fun v t h herr h1 => irq_clearStatus h (.inr h1) (.inl herr)
  case clearErr => exact fun v t h hdone h2 => irq_clearStatus h (.inl hdone) (.inr h2)
  case start =>
    intro v t hb h
    rw [exec_start_idle_inv hb h]
    exact irq_eq_false_of_flags rfl rfl

end Sys2Proof.Machine
end

section
/-! PROOFS. The machine right after reset (70_reset_and_hazards.md R552 to R556): the register values, and a START with no
region set. -/

namespace Sys2Proof.Machine

/-! ### The register values -/

/-- The reset column of the register map: outside ID and CONFIG every field is 0 (R552). -/
theorem regWord_reset_eq_zero {off : BitVec 8} (hid : off.toNat ≠ 0x00) (hconfig : off.toNat ≠ 0x08) :
    regWord State.reset off = 0#32 := by
  rw [regWord]
  split
  case h_1 h => exact absurd h hid
  case h_3 h => exact absurd h hconfig
  all_goals rfl

/-- Settles O12: ID and CONFIG are the two offsets whose word after reset is not 0, and DONE and ERR are 0. -/
theorem resetRegisterValues : Obligations.ResetRegisterValues := by
  refine ⟨rfl, rfl, fun off hid hconfig => ?_, irq_eq_false_of_flags rfl rfl⟩
  exact regWord_reset_eq_zero (fun h => hid (BitVec.eq_of_toNat_eq h)) fun h => hconfig (BitVec.eq_of_toNat_eq h)

/-! ### A decode of an empty IN -/

theorem run_succ_of_step {M : Host.Core} {s t : M.State} (h : M.step s = .next t) (k : Nat) :
    M.run (k + 1) s = M.run k t := by rw [Host.Core.run, h]

/-- ConfigCheck passes legal regions on to the signature (40_host_interface.md R184). -/
theorem step_configCheck_ok {s : State} (hturn : EngineTurn s) (hpoint : s.point = .configCheck)
    (hregions : regionError s.lat = none) : step s = .next ((s.setPhase 1).setPoint .signature) := by
  rw [step_engine hturn, fetch, hpoint]
  show Host.Outcome.next (configCheck s) = _
  rw [configCheck, hregions]

/-- An empty IN lacks the signature's first byte (42_chunk_reader.md R231). -/
theorem step_signature_empty {s : State} (hturn : EngineTurn s) (hpoint : s.point = .signature)
    (hempty : s.lat.inLen.toNat = 0) : step s = .next (raise s .sigShort 0) := by
  obtain ⟨-, hfirst⟩ := (signatureCompared s).2 hturn hpoint
  exact (hfirst 0 (by decide) fun j hj => absurd hj j.not_lt_zero).1 hempty.le

/-- From ConfigCheck with legal regions and an empty IN, the decode completes in three steps with SIG_SHORT at 0. -/
theorem run_emptyInput {s : State} (hturn : EngineTurn s) (hpoint : s.point = .configCheck)
    (hregions : regionError s.lat = none) (hempty : s.lat.inLen.toNat = 0) :
    Host.Core.run Sys2Proof.core 3 s = .next
      (complete (.error ⟨.sigShort, 0⟩) (raise ((s.setPhase 1).setPoint .signature) .sigShort 0)) := by
  have hconfig := step_configCheck_ok hturn hpoint hregions
  have hsignature := step_signature_empty (s := (s.setPhase 1).setPoint .signature) hturn rfl hempty
  have hcompletion :=
    step_completing (s := raise ((s.setPhase 1).setPoint .signature) .sigShort 0) (o := .error ⟨.sigShort, 0⟩) hturn rfl
  exact (run_succ_of_step (M := Sys2Proof.core) hconfig 2).trans <|
    (run_succ_of_step (M := Sys2Proof.core) hsignature 1).trans (run_succ_of_step (M := Sys2Proof.core) hcompletion 0)

/-- An accepted START written to an idle block out of reset launches the decode (R182). -/
theorem step_start {s : State} {v : Word} {rest : List Input} (hi : s.port.inputs = .access (.write 0x04#8 .w32 v) :: rest)
    (hv : v.getLsbD 0 = true) (hrst : s.port.rstN = true) (hb : s.regs.busy = false) (hd : coversDevice s = false) :
    step s = .next (launch v (popInput s)) := by
  have hdecode : decode (.access (.write 0x04#8 .w32 v)) = .ok (.start v) :=
    (decode_aligned_write v (by decide)).trans (if_pos hv)
  rw [step, hi]
  show portMove _ (popInput s) = _
  rw [portMove_ok hdecode, if_neg (by simp [hrst]), exec_start_idle (s := popInput s) hb hd]

/-- Where no host write raced the decode, the completion writes the registers of the decode itself (R190). -/
theorem complete_regs_quiet {s : State} (o : DecodeResult) (hquiet : s.free.raced = false) :
    (complete o s).regs = completeRegs o s.regs := by
  obtain ⟨m, n, hfields⟩ := complete_eq o s
  rw [hfields, hquiet]; rfl

/-- STATUS and the error registers after an error without a race (R190). -/
theorem regWord_complete_error {s : State} (e : Raise) (hquiet : s.free.raced = false) :
    regWord (complete (.error e) s) 0x0C#8 = statusWord { s.regs with err := true, busy := false } 0#3 ∧
    regWord (complete (.error e) s) 0x10#8 = 0#28 ++ e.detail.kind ∧
    regWord (complete (.error e) s) 0x14#8 = 0#16 ++ e.detail.code ∧
    regWord (complete (.error e) s) 0x18#8 = BitVec.ofNat 32 e.offset := by
  have hregs := complete_regs_quiet (.error e) hquiet
  refine ⟨?_, congrArg errKindWord hregs, congrArg errDetailWord hregs, congrArg Regs.errOffset hregs⟩
  show statusWord (complete (.error e) s).regs (BitVec.ofNat 3 (phaseShown (complete (.error e) s))) = _
  rw [phaseShown, hregs]; rfl

/-- Settles O14: regions of size 0 pass ConfigCheck, so the decode of the empty IN completes with SIG_SHORT at 0, and the
completion writes STATUS and the error registers. -/
theorem startStraightAfterReset : Obligations.StartStraightAfterReset := by
  have hdecode := run_emptyInput (s := launch 1#32 State.reset) ⟨rfl, rfl⟩ rfl rfl rfl
  exact ⟨_, (run_succ_of_step (M := Sys2Proof.core) (step_start rfl rfl rfl rfl rfl) 3).trans hdecode,
    regWord_complete_error ⟨.sigShort, 0⟩ rfl⟩

end Sys2Proof.Machine
end

section
/-! PROOFS. The decoder and the encoder (30_encoding.md R120 to R150): each inverts the other, operand by operand. -/

namespace Sys2Proof

/-! ### Big-endian words (00_scope.md R10) and type tags (R123) -/

theorem be32_be32Bytes (w : Word) :
    be32 (w.extractLsb' 24 8) (w.extractLsb' 16 8) (w.extractLsb' 8 8) (w.extractLsb' 0 8) = w := by
  apply BitVec.eq_of_toNat_eq
  have hw := w.isLt
  rw [Machine.be32_toNat]
  simp only [BitVec.extractLsb'_toNat, Nat.shiftRight_eq_div_pow]
  omega

theorem be32Bytes_be32 (b0 b1 b2 b3 : Byte) : be32Bytes (be32 b0 b1 b2 b3) = [b0, b1, b2, b3] := by
  have hb0 := b0.isLt
  have hb1 := b1.isLt
  have hb2 := b2.isLt
  have hb3 := b3.isLt
  have hbyte (k : Nat) (b : Byte) (h : (be32 b0 b1 b2 b3).toNat / 2 ^ k % 2 ^ 8 = b.toNat) :
      (be32 b0 b1 b2 b3).extractLsb' k 8 = b :=
    BitVec.eq_of_toNat_eq (by rw [BitVec.extractLsb'_toNat, Nat.shiftRight_eq_div_pow, h])
  rw [Machine.be32_toNat] at hbyte
  rw [be32Bytes, hbyte 24 b0 (by omega), hbyte 16 b1 (by omega), hbyte 8 b2 (by omega), hbyte 0 b3 (by omega)]

/-- The framing step's test of a type byte is the range of R123. -/
theorem typeByteOk_eq_printableByte (b : Byte) : typeByteOk b = printableByte b := by
  rw [Bool.eq_iff_iff]
  simp only [typeByteOk, printableByte, Bool.not_eq_true', Bool.or_eq_false_iff, decide_eq_false_iff_not, Nat.not_lt,
    Bool.and_eq_true, decide_eq_true_eq]

theorem printableTag_eq (t : Word) :
    printableTag t = (typeByteOk (t.extractLsb' 24 8) && typeByteOk (t.extractLsb' 16 8)
      && typeByteOk (t.extractLsb' 8 8) && typeByteOk (t.extractLsb' 0 8)) := by
  simp only [typeByteOk_eq_printableByte]; rfl

/-- A frame written from LENGTH and TYPE decodes by TYPE's four bytes (R122, R150). -/
theorem decodeFrame_be32Bytes (len ty : Word) :
    decodeFrame (be32Bytes len ++ be32Bytes ty) =
      if printableTag ty then .ok (.chunk len ty) else .ok (.chunkBadType len ty) := by
  show (if _ then Except.ok (Instr.chunk (be32 ..) (be32 ..)) else .ok (.chunkBadType (be32 ..) (be32 ..))) = _
  rw [printableTag_eq, be32_be32Bytes, be32_be32Bytes]

theorem decodeFrame_bytes (l0 l1 l2 l3 t0 t1 t2 t3 : Byte) :
    decodeFrame [l0, l1, l2, l3, t0, t1, t2, t3] =
      if printableTag (be32 t0 t1 t2 t3) then .ok (.chunk (be32 l0 l1 l2 l3) (be32 t0 t1 t2 t3))
      else .ok (.chunkBadType (be32 l0 l1 l2 l3) (be32 t0 t1 t2 t3)) := by
  rw [← decodeFrame_be32Bytes, be32Bytes_be32, be32Bytes_be32]; rfl

/-- A type that is none of the nine known ones decodes by its class bit (R124, 42_chunk_reader.md R236). -/
theorem decodeType_unknown {t : Word} (h : t ∉ knownTags) :
    decodeType t = if t.getLsbD 29 then .unknownAncillary t else .unknownCritical t := by
  simp only [knownTags, List.mem_cons, List.not_mem_nil, or_false, not_or] at h
  obtain ⟨h1, h2, h3, h4, h5, h6, h7, h8, h9⟩ := h
  rw [decodeType, if_neg h1, if_neg h2, if_neg h3, if_neg h4, if_neg h5, if_neg h6, if_neg h7, if_neg h8, if_neg h9]

theorem toNat_ofNat_of_lt {w n : Nat} (h : n < 2 ^ w) : (BitVec.ofNat w n).toNat = n := by
  rw [BitVec.toNat_ofNat, Nat.mod_eq_of_lt h]

theorem mem_legalModes_of_toNat {v : BitVec 16} {k : Nat} (h : v.toNat = k) (hk : BitVec.ofNat 16 k ∈ legalModes) :
    v ∈ legalModes := by
  rwa [← h, BitVec.ofNat_toNat, BitVec.setWidth_eq] at hk

theorem decodeMode_illegal {v : BitVec 16} (hv : v ∉ legalModes) : decodeMode v = .modeIllegal v := by
  rw [decodeMode]
  split
  iterate 15 next h => exact absurd (mem_legalModes_of_toNat h (by decide)) hv
  rfl

theorem decodeFilter_invalid {b : Byte} (hb : 5 ≤ b.toNat) : decodeFilter b = .filtInvalid b := by
  rw [decodeFilter]
  split
  iterate 5 next h => exact absurd hb (by omega)
  rfl

/-! ### From an instruction to its element and back -/

/-- Settles O1: an instruction without operands is a row of its decoder's table; each of the others is read back from the bits
its operands were written to, the class and range of the operand being what `Instr.wf` says. -/
theorem decodeInvertsEncode : Obligations.DecodeInvertsEncode := by
  intro i hwf
  cases i with
  | start v => exact if_pos hwf
  | setIrqEn v =>
    have hv : ¬v.getLsbD 0 = true := by simpa [Instr.wf] using hwf
    exact if_neg hv
  | clearStatus v => rfl
  | writeCfg r v => cases r <;> rfl
  | read off => exact if_pos ⟨rfl, by simpa [Instr.wf] using hwf⟩
  | sig bs =>
    have hbs : bs = signatureBytes := by simpa [Instr.wf] using hwf
    rw [hbs]; rfl
  | chunk len ty =>
    change printableTag ty = true at hwf
    exact (decodeFrame_be32Bytes len ty).trans (if_pos hwf)
  | chunkBadType len ty =>
    have hty : ¬printableTag ty = true := by simpa [Instr.wf] using hwf
    exact (decodeFrame_be32Bytes len ty).trans (if_neg hty)
  | unknownCritical ty =>
    obtain ⟨hty, hclass⟩ : ty ∉ knownTags ∧ ¬ty.getLsbD 29 = true := by simpa [Instr.wf, criticalTag] using hwf
    exact congrArg Except.ok ((decodeType_unknown hty).trans (if_neg hclass))
  | unknownAncillary ty =>
    obtain ⟨hty, hclass⟩ : ty ∉ knownTags ∧ ty.getLsbD 29 = true := by simpa [Instr.wf, criticalTag] using hwf
    exact congrArg Except.ok ((decodeType_unknown hty).trans (if_pos hclass))
  | blockStored fin | blockFixed fin | blockDynamic fin | blockReserved fin => cases fin <;> rfl
  | clLen l =>
    refine (if_pos l.isLt).trans ?_
    rw [BitVec.ofNat_toNat, BitVec.setWidth_eq]
  | lit b =>
    refine (if_pos b.isLt).trans ?_
    rw [BitVec.ofNat_toNat, BitVec.setWidth_eq]
  | litlenInvalid sym =>
    obtain rfl | rfl : sym = 286 ∨ sym = 287 := by simpa [Instr.wf] using hwf
    · rfl
    · rfl
  | distInvalid sym =>
    obtain rfl | rfl : sym = 30 ∨ sym = 31 := by simpa [Instr.wf] using hwf
    · rfl
    · rfl
  | adler a => exact congrArg (fun w => Except.ok (Instr.adler w)) (be32_be32Bytes a)
  | filtInvalid b => exact congrArg Except.ok (decodeFilter_invalid (by simpa [Instr.wf] using hwf))
  | modeIllegal v => exact congrArg Except.ok (decodeMode_illegal (by simpa [Instr.wf] using hwf))
  | _ => rfl

/-! ### From an element to its instruction and back -/

theorem decodeAccess_sound {a : Access} {i : Instr} (h : decodeAccess a = .ok i) :
    encode i = .access a ∧ i.wf = true := by
  cases a with
  | read off width =>
    rw [decodeAccess] at h
    split_ifs at h with hport
    cases h
    exact ⟨by rw [hport.1]; rfl, by simpa [Instr.wf] using hport.2⟩
  | write off width v =>
    rw [decodeAccess] at h
    have offset {k : BitVec 8} (hk : off.toNat = k.toNat) : off = k := BitVec.eq_of_toNat_eq hk
    split_ifs at h with hport h4 hv hC
    · cases h; exact ⟨by rw [hport.1, offset (k := 0x04#8) h4]; rfl, hv⟩
    · cases h; exact ⟨by rw [hport.1, offset (k := 0x04#8) h4]; rfl, by simpa [Instr.wf] using hv⟩
    · cases h; exact ⟨by rw [hport.1, offset (k := 0x0C#8) hC]; rfl, rfl⟩
    · split at h
      · next r hr =>
        cases h
        refine ⟨?_, rfl⟩
        have hoff : off = cfgRegOffset r := by
          rw [cfgRegAt] at hr
          split at hr <;> cases hr <;> exact offset ‹_›
        rw [hport.1, hoff]; rfl
      · cases h

theorem decodeFrame_sound {bs : List Byte} {i : Instr} (h : decodeFrame bs = .ok i) :
    encode i = .frame bs ∧ i.wf = true := by
  match bs with
  | [l0, l1, l2, l3, t0, t1, t2, t3] =>
    rw [decodeFrame_bytes] at h
    have hbytes : be32Bytes (be32 l0 l1 l2 l3) ++ be32Bytes (be32 t0 t1 t2 t3) = [l0, l1, l2, l3, t0, t1, t2, t3] := by
      rw [be32Bytes_be32, be32Bytes_be32]; rfl
    split_ifs at h with hty
    · cases h; exact ⟨congrArg Element.frame hbytes, hty⟩
    · cases h; exact ⟨congrArg Element.frame hbytes, by simpa [Instr.wf] using hty⟩
  | [] | [_] | [_, _] | [_, _, _] | [_, _, _, _] | [_, _, _, _, _] | [_, _, _, _, _, _] | [_, _, _, _, _, _, _] => cases h
  | _ :: _ :: _ :: _ :: _ :: _ :: _ :: _ :: _ :: _ => cases h

theorem decodeType_known : ∀ t ∈ knownTags, encode (decodeType t) = .ctype t ∧ (decodeType t).wf = true := by
  intro t ht
  fin_cases ht <;> exact ⟨rfl, rfl⟩

theorem decodeType_sound (t : Word) : encode (decodeType t) = .ctype t ∧ (decodeType t).wf = true := by
  by_cases hknown : t ∈ knownTags
  · exact decodeType_known t hknown
  · rw [decodeType_unknown hknown]
    split_ifs with hclass
    · exact ⟨rfl, by simpa [Instr.wf, criticalTag, hknown] using hclass⟩
    · exact ⟨rfl, by simpa [Instr.wf, criticalTag, hknown] using hclass⟩

theorem decodeClSym_sound {sym : Nat} {i : Instr} (h : decodeClSym sym = .ok i) :
    encode i = .clsym sym ∧ i.wf = true := by
  unfold decodeClSym at h
  split_ifs at h with hlen
  · cases h; exact ⟨congrArg Element.clsym (toNat_ofNat_of_lt hlen), rfl⟩
  · split at h <;> cases h <;> exact ⟨rfl, rfl⟩

theorem decodeLitLen_sound {sym : Nat} {i : Instr} (h : decodeLitLen sym = .ok i) :
    encode i = .litlen sym ∧ i.wf = true := by
  unfold decodeLitLen at h
  split_ifs at h with hlit
  · cases h; exact ⟨congrArg Element.litlen (toNat_ofNat_of_lt hlit), rfl⟩
  · split at h <;> cases h <;> exact ⟨rfl, rfl⟩

theorem decodeDist_sound {sym : Nat} {i : Instr} (h : decodeDist sym = .ok i) :
    encode i = .dist sym ∧ i.wf = true := by
  unfold decodeDist at h
  split at h <;> cases h <;> exact ⟨rfl, rfl⟩

theorem decodeFilter_sound (b : Byte) : encode (decodeFilter b) = .filter b ∧ (decodeFilter b).wf = true := by
  by_cases hb : 5 ≤ b.toNat
  · rw [decodeFilter_invalid hb]
    exact ⟨rfl, by simpa [Instr.wf] using hb⟩
  · have hb4 : b ∈ [0#8, 1#8, 2#8, 3#8, 4#8] := by
      simp only [List.mem_cons, List.not_mem_nil, or_false, ← BitVec.toNat_inj, BitVec.toNat_ofNat]
      omega
    revert b; decide

theorem decodeMode_legal : ∀ v ∈ legalModes, encode (decodeMode v) = .mode v ∧ (decodeMode v).wf = true := by
  intro v hv
  fin_cases hv <;> exact ⟨rfl, rfl⟩

theorem decodeMode_sound (v : BitVec 16) : encode (decodeMode v) = .mode v ∧ (decodeMode v).wf = true := by
  by_cases hv : v ∈ legalModes
  · exact decodeMode_legal v hv
  · rw [decodeMode_illegal hv]
    exact ⟨rfl, by simpa [Instr.wf] using hv⟩

theorem decodeBlock_sound (bits : BitVec 3) : encode (decodeBlock bits) = .bhdr bits ∧ (decodeBlock bits).wf = true := by
  revert bits; decide

/-- Settles O2, format by format: each decoder answers only what encodes back to its element, and only what `Instr.wf` admits,
but for the two formats whose bytes the instruction judges itself. -/
theorem encodeInvertsDecode : Obligations.EncodeInvertsDecode := by
  intro e i h
  have sound (hs : encode i = e ∧ i.wf = true) :
      encode i = e ∧ (i.wf = true ∨ (∃ bs, i = .sig bs ∧ bs.length ≤ 8) ∨ ∃ cmf flg, i = .zhdr cmf flg) :=
    ⟨hs.1, .inl hs.2⟩
  cases e with
  | access a => exact sound (decodeAccess_sound h)
  | sig bs =>
    rw [decode] at h
    split_ifs at h with hlen
    cases h
    exact ⟨rfl, .inr (.inl ⟨bs, rfl, hlen⟩)⟩
  | frame bs => exact sound (decodeFrame_sound h)
  | ctype t => cases h; exact sound (decodeType_sound t)
  | zhdr bs =>
    match bs with
    | [cmf, flg] => cases h; exact ⟨rfl, .inr (.inr ⟨cmf, flg, rfl⟩)⟩
    | [] | [_] | _ :: _ :: _ :: _ => cases h
  | bhdr bits => cases h; exact sound (decodeBlock_sound bits)
  | clsym sym => exact sound (decodeClSym_sound h)
  | litlen sym => exact sound (decodeLitLen_sound h)
  | dist sym => exact sound (decodeDist_sound h)
  | adler bs =>
    match bs with
    | [b0, b1, b2, b3] => cases h; exact sound ⟨congrArg Element.adler (be32Bytes_be32 b0 b1 b2 b3), rfl⟩
    | [] | [_] | [_, _] | [_, _, _] | _ :: _ :: _ :: _ :: _ :: _ => cases h
  | filter b => cases h; exact sound (decodeFilter_sound b)
  | mode v => cases h; exact sound (decodeMode_sound v)

/-- Settles O3: the elements of O3 are written-out values, and the decoder is run on each. -/
theorem decodesWrittenOutWords : Obligations.DecodesWrittenOutWords := by
  unfold Obligations.DecodesWrittenOutWords
  decide

end Sys2Proof
end

section
/-! PROOFS. DecodeSym on a canonical code (44_inflate.md R322, R341, R342, 30_encoding.md R139): code words found, cut off and
missing, and the code words of the fixed lengths. -/

namespace Sys2Proof.Machine

/-! ### Code words found and cut off (R322) -/

theorem mem_buildCode_len {lens : List Nat} (hl : ∀ l ∈ lens, l ≤ 15) {w : CodeWord} (hw : w ∈ buildCode lens) :
    1 ≤ w.len ∧ w.len ≤ 15 := by
  obtain ⟨h1, h15, -, -⟩ := assignCodes_range _ _ _ (by simp [nextCodes_length]) hl w hw
  exact ⟨h1, h15⟩

/-- Of a value that fits its length, no bit is read before the first round. -/
theorem decodeSym_eq_from {w : CodeWord} (hcode : w.code < 2 ^ w.len) (h : List CodeWord) (c : List Byte) (bp : Nat) :
    decodeSym h c bp = decodeSymFrom h c 16 (bp + 0) 0 (w.code / 2 ^ (w.len - 0)) := by
  rw [decodeSym, Nat.sub_zero, Nat.div_eq_of_lt hcode]; rfl

section Word

variable {lens : List Nat} {c : List Byte} {bp : Nat} {w : CodeWord}

/-- Where C ends while the bits read are a beginning of a word, the next bit cannot be read (R321). -/
theorem decodeSymFrom_truncated (hw : w ∈ buildCode lens) {k : Nat} (hk : k < w.len) (hb : 8 * c.length ≤ bp) (fuel : Nat) :
    decodeSymFrom (buildCode lens) c (fuel + 1) bp k (w.code / 2 ^ (w.len - k)) = .truncated := by
  have hany : (buildCode lens).any (fun u => decide (k < u.len) && u.code / 2 ^ (u.len - k) == w.code / 2 ^ (w.len - k))
      = true := List.any_eq_true.2 ⟨w, hw, by simpa using hk⟩
  rw [decodeSymFrom, if_pos hany, getBits_none (by omega)]

variable (hl : ∀ l ∈ lens, l ≤ 15) (hw : w ∈ buildCode lens)
include hl hw

/-- As long as the bits of C are a beginning of the word, the rounds go on. -/
theorem decodeSymFrom_prefix {k : Nat} (hk : k < w.len) (hb : bp + k ≤ 8 * c.length)
    (hbits : ∀ j, j < k → cBit c (bp + j) = w.code.testBit (w.len - 1 - j)) (fuel : Nat) :
    decodeSymFrom (buildCode lens) c (fuel + k) (bp + 0) 0 (w.code / 2 ^ (w.len - 0)) =
      decodeSymFrom (buildCode lens) c fuel (bp + k) k (w.code / 2 ^ (w.len - k)) := by
  induction k generalizing fuel with
  | zero => rfl
  | succ k ih =>
    rw [show fuel + (k + 1) = fuel + 1 + k by omega, ih (by omega) (by omega) (fun j hj => hbits j (by omega)),
      decodeSymFrom_inside hl hw c bp k fuel hk (by omega) (hbits k (by omega))]
    rfl

theorem decodeSym_word (hcode : w.code < 2 ^ w.len) (hb : bp + w.len ≤ 8 * c.length)
    (hbits : ∀ j, j < w.len → cBit c (bp + j) = w.code.testBit (w.len - 1 - j)) :
    decodeSym (buildCode lens) c bp = .sym w.sym (bp + w.len) := by
  obtain ⟨h1, h15⟩ := mem_buildCode_len hl hw
  rw [decodeSym_eq_from hcode]
  exact decodeSymFrom_word lens c bp w hl hw hb hbits (w.len - 1) 0 16 (by omega) (by omega)

theorem decodeSym_truncated (hcode : w.code < 2 ^ w.len) {k : Nat} (hk : k < w.len) (hb : bp + k = 8 * c.length)
    (hbits : ∀ j, j < k → cBit c (bp + j) = w.code.testBit (w.len - 1 - j)) :
    decodeSym (buildCode lens) c bp = .truncated := by
  obtain ⟨-, h15⟩ := mem_buildCode_len hl hw
  rw [decodeSym_eq_from hcode, show 16 = 15 - k + 1 + k by omega, decodeSymFrom_prefix hl hw hk hb.le hbits,
    decodeSymFrom_truncated hw hk hb.ge]

end Word

/-! ### Bits that lead to no code word (R322) -/

/-- While the bits read can still begin a code word, the one that differs from C is further on, so the next bit is there and
ends no word; otherwise the round finds none. -/
theorem decodeSymFrom_mismatch {h : List CodeWord} {c : List Byte} {bp k : Nat} (hb : bp + k ≤ 8 * c.length)
    (hne : ∀ w ∈ h, ∃ j, j < k ∧ j < w.len ∧ cBit c (bp + j) ≠ w.code.testBit (w.len - 1 - j)) (fuel l : Nat) :
    decodeSymFrom h c fuel (bp + l) l (codeBits c bp l) = .invalid := by
  induction fuel generalizing l with
  | zero => rfl
  | succ fuel ih =>
    by_cases hext : ∃ w ∈ h, l < w.len ∧ w.code / 2 ^ (w.len - l) = codeBits c bp l
    · obtain ⟨w, hw, hlen, hcode⟩ := hext
      have hlk : l < k := by
        obtain ⟨j, hjk, -, hdiff⟩ := hne w hw
        by_contra hkl
        exact hdiff (codeBits_agree c bp w l hlen.le hcode j (by omega))
      have hany : h.any (fun u => decide (l < u.len) && u.code / 2 ^ (u.len - l) == codeBits c bp l) = true :=
        List.any_eq_true.2 ⟨w, hw, by simp [hlen, hcode]⟩
      have hbit : bitsValue c (bp + l) 1 = (cBit c (bp + l)).toNat := by simp [bitsValue]
      have hnone : h.find? (fun u => u.len == l + 1 && u.code == codeBits c bp (l + 1)) = none := by
        rw [List.find?_eq_none]
        intro u hu hx
        simp only [Bool.and_eq_true, beq_iff_eq] at hx
        obtain ⟨hulen, hucode⟩ := hx
        obtain ⟨j, -, hju, hdiff⟩ := hne u hu
        refine hdiff (codeBits_agree c bp u (l + 1) hulen.ge ?_ j (by omega))
        rw [hulen, Nat.sub_self, Nat.pow_zero, Nat.div_one, hucode]
      have hround : decodeSymFrom h c (fuel + 1) (bp + l) l (codeBits c bp l) =
          match h.find? (fun u => u.len == l + 1 && u.code == codeBits c bp (l + 1)) with
          | some u => .sym u.sym (bp + l + 1)
          | none => decodeSymFrom h c fuel (bp + l + 1) (l + 1) (codeBits c bp (l + 1)) := by
        rw [decodeSymFrom, if_pos hany, getBits_some (by omega), hbit]; rfl
      rw [hround, hnone]
      exact ih (l + 1)
    · exact decodeSymFrom_invalid h c _ _ _ _ fun w hw hx => hext ⟨w, hw, hx⟩

/-- A single code has one code word: one bit, of value 0 (R342). -/
theorem buildCode_single {lens : List Nat} (hsingle : codeSingle lens = true) {w : CodeWord} (hw : w ∈ buildCode lens) :
    w.len = 1 ∧ w.code = 0 := by
  have hfilter : lens.filter (fun l => l != 0) = [1] := by simpa [codeSingle] using hsingle
  have hone : ∀ l ∈ lens, l ≠ 0 → l = 1 := fun l hl h0 => by
    have hmem : l ∈ lens.filter (fun l => l != 0) := List.mem_filter.2 ⟨hl, by simpa using h0⟩
    rw [hfilter] at hmem
    simpa using hmem
  have hbound : ∀ l ∈ lens, l ≤ 15 := fun l hl => by
    have := hone l hl
    omega
  obtain ⟨h1, h15, hge, hlt⟩ := assignCodes_range _ _ _ (by simp [nextCodes_length]) hbound w hw
  obtain ⟨hsym, h0, hget⟩ := mem_buildCode hw
  have hlen : w.len = 1 := hone _ (by rw [← hget, List.getD_eq_getElem _ _ hsym]; exact List.getElem_mem hsym) h0
  have hcount : lens.count 1 = 1 := by
    rw [← List.count_filter (p := fun l => l != 0) (by decide), hfilter]; rfl
  have hfirst : (0 :: nextCodes lens 15 1 0).getD 1 0 = 0 := rfl
  rw [hlen, hfirst, hcount] at hlt
  exact ⟨hlen, by omega⟩

theorem buildCode_empty {lens : List Nat} (h : ∀ l ∈ lens, l = 0) (w : CodeWord) : w ∉ buildCode lens := fun hw => by
  obtain ⟨hsym, h0, hget⟩ := mem_buildCode hw
  exact h0 (by rw [← hget, List.getD_eq_getElem _ _ hsym]; exact h _ (List.getElem_mem hsym))

/-! ### The fixed codes (30_encoding.md R139) -/

/-- A run of symbols of one length takes the codes from next_code of it on, in symbol order (R341). -/
theorem assignCodes_replicate {l : Nat} (hl : l ≠ 0) (k s : Nat) {next : List Nat} (hn : l < next.length) (r : List Nat) :
    assignCodes s next (List.replicate k l ++ r) =
      (List.range k).map (fun i => ⟨s + i, l, next.getD l 0 + i⟩) ++
        assignCodes (s + k) (next.set l (next.getD l 0 + k)) r := by
  induction k generalizing s next with
  | zero =>
    have hset : next.set l (next.getD l 0 + 0) = next := by
      rw [Nat.add_zero, List.getD_eq_getElem _ _ hn, List.set_getElem_self]
    rw [hset]; rfl
  | succ k ih =>
    have hget : (next.set l (next.getD l 0 + 1)).getD l 0 = next.getD l 0 + 1 := by
      rw [List.getD_eq_getElem _ _ (by simpa using hn), List.getElem_set_self]
    rw [List.replicate_succ, List.cons_append, assignCodes, if_neg hl, ih (s + 1) (by simpa using hn), hget, List.set_set,
      List.range_succ_eq_map, List.map_cons, List.map_map]
    simp only [Function.comp_def, Nat.add_zero, Nat.add_assoc, Nat.add_comm 1, Nat.succ_eq_add_one, List.cons_append]

theorem buildCode_fixedLitLens :
    buildCode fixedLitLens =
      (List.range 144).map (fun i => ⟨0 + i, 8, 0x30 + i⟩) ++ ((List.range 112).map (fun i => ⟨144 + i, 9, 0x190 + i⟩) ++
        ((List.range 24).map (fun i => ⟨256 + i, 7, 0 + i⟩) ++ (List.range 8).map (fun i => ⟨280 + i, 8, 0xC0 + i⟩))) := by
  have hnext : 0 :: nextCodes fixedLitLens 15 1 0 =
      [0, 0, 0, 0, 0, 0, 0, 0, 0x30, 0x190, 1024, 2048, 4096, 8192, 16384, 32768] := by decide +kernel
  rw [buildCode, hnext, fixedLitLens, List.append_assoc, List.append_assoc,
    ← List.append_nil (List.replicate 8 8), assignCodes_replicate (by decide) _ _ (by decide),
    assignCodes_replicate (by decide) _ _ (by decide), assignCodes_replicate (by decide) _ _ (by decide),
    assignCodes_replicate (by decide) _ _ (by decide)]
  simp [assignCodes]

theorem buildCode_fixedDistLens : buildCode fixedDistLens = (List.range 32).map fun i => ⟨0 + i, 5, 0 + i⟩ := by
  have hnext : 0 :: nextCodes fixedDistLens 15 1 0 =
      [0, 0, 0, 0, 0, 0, 64, 128, 256, 512, 1024, 2048, 4096, 8192, 16384, 32768] := by decide +kernel
  rw [buildCode, hnext, fixedDistLens, ← List.append_nil (List.replicate 32 5),
    assignCodes_replicate (by decide) _ _ (by decide)]
  simp [assignCodes]

theorem mem_buildCode_fixedLitLens {sym : Nat} (h : sym < 288) :
    (⟨sym, if sym < 144 then 8 else if sym < 256 then 9 else if sym < 280 then 7 else 8,
      if sym < 144 then 0x30 + sym else if sym < 256 then 0x190 + (sym - 144)
        else if sym < 280 then sym - 256 else 0xC0 + (sym - 280)⟩ : CodeWord) ∈ buildCode fixedLitLens := by
  rw [buildCode_fixedLitLens]
  simp only [List.mem_append, List.mem_map, List.mem_range, CodeWord.mk.injEq]
  by_cases h1 : sym < 144
  · exact .inl ⟨sym, h1, by simp [h1]⟩
  by_cases h2 : sym < 256
  · exact .inr (.inl ⟨sym - 144, by omega, by simp [h1, h2]; omega⟩)
  by_cases h3 : sym < 280
  · exact .inr (.inr (.inl ⟨sym - 256, by omega, by simp [h1, h2, h3]; omega⟩))
  · exact .inr (.inr (.inr ⟨sym - 280, by omega, by simp [h1, h2, h3]; omega⟩))

/-- Settles O40: a code word is found because none begins another; its beginnings go on to the end of C; and
where every code word differs from C in some bit, no round ends one. -/
theorem canonicalCodeDecodes : Obligations.CanonicalCodeDecodes := by
  refine ⟨fun lens c bp w hl hw hcode hb hbits => decodeSym_word hl hw hcode hb hbits,
    fun lens c bp k w hl hw hcode hk hb hbits => decodeSym_truncated hl hw hcode hk hb hbits,
    fun lens c bp k _ hb hne => decodeSymFrom_mismatch hb hne 16 0, fun lens c bp i hi hz hb hbit => ?_,
    fun lens c bp h => decodeSymFrom_invalid _ _ _ _ _ _ fun w hw => absurd hw (buildCode_empty h w),
    fun sym h => mem_buildCode_fixedLitLens h, fun sym h => ?_⟩
  · have hlen : i < lens.length := by
      by_contra h
      rw [List.getD_eq_default _ _ (by omega)] at hi
      omega
    refine decodeSymFrom_mismatch (k := 1) (by omega) (fun w hw => ?_) 16 0
    obtain ⟨hwlen, hwcode⟩ := buildCode_single (codeSingle_iff.2 ⟨i, hlen, hi, hz⟩) hw
    exact ⟨0, by omega, by omega, by simp [hbit, hwcode]⟩
  · rw [buildCode_fixedDistLens]
    exact List.mem_map.2 ⟨sym, List.mem_range.2 h, by simp⟩

end Sys2Proof.Machine
end

section
/-! PROOFS. What an engine step leaves alone (40_host_interface.md R180 to R188): the registers of the host, the latched copies,
the platform, the port and the free-value bookkeeping; and PHASE stays one of a running decode. -/

namespace Sys2Proof.Machine

/-! ### The frame of an engine step -/

/-- The registers no engine step before the completion writes; the ones it may write are set to 0. -/
def hostRegs (r : Regs) : Regs :=
  { r with
    phase := 0, imgWidth := 0, imgHeight := 0, bitDepth := 0, colorType := 0, interlace := false, hasPlte := false
    hasTrns := false, hasGama := false, plteEntries := 0, gamma := 0, outLen := 0, rawLen := 0, trnsKey0 := 0
    trnsKey1 := 0, trnsKey2 := 0, trnsEntries := 0 }

/-- A PHASE of a running decode (10_state.md R36). -/
def phaseRuns (r : Regs) : Prop := 1 ≤ r.phase.toNat ∧ r.phase.toNat ≤ 4

/-- From `s` to `t` nothing changes that an engine step before the completion must leave. -/
structure EngineFrame (s t : State) : Prop where
  lat : t.lat = s.lat
  plat : t.plat = s.plat
  port : t.port = s.port
  free : t.free = s.free
  regs : hostRegs t.regs = hostRegs s.regs
  phase : phaseRuns s.regs → phaseRuns t.regs

theorem EngineFrame.trans {s t u : State} (h1 : EngineFrame s t) (h2 : EngineFrame t u) : EngineFrame s u :=
  ⟨h2.lat.trans h1.lat, h2.plat.trans h1.plat, h2.port.trans h1.port, h2.free.trans h1.free, h2.regs.trans h1.regs,
    fun h => h2.phase (h1.phase h)⟩

/-- A step that writes internal state and memory only. -/
theorem EngineFrame.of_eq {s t : State} (hlat : t.lat = s.lat) (hplat : t.plat = s.plat) (hport : t.port = s.port)
    (hfree : t.free = s.free) (hregs : t.regs = s.regs) : EngineFrame s t :=
  ⟨hlat, hplat, hport, hfree, by rw [hregs], by rw [hregs]; exact id⟩

theorem EngineFrame.refl (s : State) : EngineFrame s s := .of_eq rfl rfl rfl rfl rfl

theorem EngineFrame.internal {s : State} {pos : Nat} {hdr : Header} {parse : Parse} {tabs : Tables} {c : List Byte}
    {infl : Infl} {out : Out} {defl : Defl} {exp : Expand} {point : Point} {mem : Memory} :
    EngineFrame s { s with
      pos := pos, hdr := hdr, parse := parse, tabs := tabs, c := c, infl := infl, out := out, defl := defl, exp := exp
      point := point, mem := mem } := .of_eq rfl rfl rfl rfl rfl

/-- A write of registers a decode writes, PHASE not among them. -/
theorem EngineFrame.setRegs {s : State} {r : Regs} (hr : hostRegs r = hostRegs s.regs) (hp : r.phase = s.regs.phase) :
    EngineFrame s (s.setRegs r) := ⟨rfl, rfl, rfl, rfl, hr, by rw [phaseRuns, phaseRuns]; simp [hp]⟩

theorem EngineFrame.setPhase {s : State} {p : BitVec 3} (hp : 1 ≤ p.toNat ∧ p.toNat ≤ 4) : EngineFrame s (s.setPhase p) :=
  ⟨rfl, rfl, rfl, rfl, rfl, fun _ => hp⟩

/-! ### The frame of each flow -/

/-- The flow goes on, or stops, in a state within the frame. -/
def FlowFrame (s : State) (f : Flow) : Prop := EngineFrame s f.state

theorem FlowFrame.next {s t : State} {f : Flow} (h : FlowFrame s f) (hr : f.result = .next t) : EngineFrame s t := by
  rcases result_next hr with ⟨e, -, rfl⟩ | ⟨-, rfl⟩
  · exact h.trans .internal
  · exact h

theorem FlowFrame.of_frame {s u : State} {f : Flow} (h1 : EngineFrame s u) (h2 : FlowFrame u f) : FlowFrame s f := h1.trans h2

theorem foldl_emit_frame (bs : List Byte) (s : State) : EngineFrame s (bs.foldl emit s) := by
  rw [(foldl_emit_eq bs s).1]; exact .internal

theorem endBlock_frame (s : State) : FlowFrame s (endBlock s) := by
  rw [endBlock]
  split_ifs
  · exact .refl s
  · exact .internal
  · exact .internal

theorem withBits_frame {s u : State} {o : Option Nat} {k : Nat → Flow} (hu : EngineFrame s u) (h : ∀ v, FlowFrame s (k v)) :
    FlowFrame s (withBits o u k) := by
  cases o with
  | none => exact hu
  | some v => exact h v

theorem storedCopy_frame (len : Nat) (s : State) : FlowFrame s (storedCopy len s) := by
  rcases storedCopy_cases len s with ⟨bs, -, -, h⟩ | ⟨bs, -, h⟩ <;> rw [h]
  · exact .of_frame (foldl_emit_frame bs s) (.of_frame .internal (endBlock_frame _))
  · exact (foldl_emit_frame bs s).trans .internal

theorem storedBlock_frame (s : State) : FlowFrame s (storedBlock s) := by
  refine withBits_frame (.refl s) fun len => withBits_frame (.refl s) fun nlen => ?_
  split_ifs
  · exact .refl s
  · exact .refl s
  · exact .of_frame .internal (storedCopy_frame len _)

theorem dynamicHeader_frame (s : State) : FlowFrame s (dynamicHeader s) := by
  refine withBits_frame (.refl s) fun hlit => withBits_frame (.refl s) fun hdist => withBits_frame (.refl s) fun hclen => ?_
  split_ifs
  · exact .refl s
  · split
    · exact .refl s
    · split_ifs
      · exact .internal
      · exact .refl s

theorem afterLens_frame (s : State) : FlowFrame s (afterLens s) := by
  rw [afterLens]
  split_ifs
  · exact .internal
  · rw [finishDynamic]
    split
    · exact .internal
    · exact .internal

theorem repeatPrev_frame (s : State) : FlowFrame s (repeatPrev s) := by
  refine withBits_frame (.refl s) fun e => ?_
  split
  · exact .refl s
  · split_ifs
    · exact .refl s
    · exact .of_frame .internal (afterLens_frame _)

theorem zeroRun_frame (base extra : Nat) (s : State) : FlowFrame s (zeroRun base extra s) := by
  refine withBits_frame (.refl s) fun e => ?_
  split_ifs
  · exact .refl s
  · exact .of_frame .internal (afterLens_frame _)

theorem literal_frame (b : Byte) (s : State) : FlowFrame s (literal b s) := by
  rw [literal]
  split_ifs
  · exact .refl s
  · exact .internal

theorem matchLength_frame (base extra : Nat) (s : State) : FlowFrame s (matchLength base extra s) :=
  withBits_frame (.refl s) fun _ => .internal

theorem matchDistance_frame (base extra : Nat) (s : State) : FlowFrame s (matchDistance base extra s) := by
  refine withBits_frame (.refl s) fun e => ?_
  split_ifs
  · exact .refl s
  · exact .refl s
  · obtain ⟨bs, -, hcopy⟩ := copyMatch_foldl (base + e) s.infl.mlen (s.setBp (s.infl.bp + extra))
    rw [hcopy]
    exact EngineFrame.internal.trans ((foldl_emit_frame bs _).trans .internal)

theorem enterExpand_frame (s : State) : EngineFrame s (enterExpand s) := by
  rw [enterExpand]
  split
  · exact (EngineFrame.setPhase (by decide)).trans .internal
  · exact (EngineFrame.setPhase (by decide)).trans .internal

theorem enterDefilter_frame (s : State) : EngineFrame s (enterDefilter s) := by
  rw [enterDefilter]
  split
  · exact (EngineFrame.setPhase (by decide)).trans .internal
  · exact (EngineFrame.setPhase (p := 3) (by decide)).trans (enterExpand_frame _)

theorem adlerTrailer_frame (a : Word) (s : State) : FlowFrame s (adlerTrailer a s) := by
  rw [adlerTrailer]
  split_ifs
  · exact .refl s
  · exact enterDefilter_frame s

theorem nextRow_frame (s : State) : EngineFrame s (nextRow s) := by
  rw [nextRow]
  split_ifs
  · exact .internal
  · split
    · exact .internal
    · exact EngineFrame.internal.trans (enterExpand_frame _)

theorem filterRow_frame (f : Recon) (s : State) : EngineFrame s (filterRow f s) := by
  rw [filterRow_eq, reconRow_eq]
  exact EngineFrame.internal.trans (nextRow_frame _)

theorem putPixel_frame (p : Rgba) (s : State) : EngineFrame s (putPixel p s) := by
  rw [putPixel_eq]; exact .internal

theorem configCheck_frame (s : State) : EngineFrame s (configCheck s) := by
  rw [configCheck]
  split
  · exact .internal
  · exact (EngineFrame.setPhase (by decide)).trans .internal

theorem checkSignature_frame (bs : List Byte) (s : State) : FlowFrame s (checkSignature bs s) := by
  rw [checkSignature]
  split
  · exact .refl s
  · exact .internal

theorem readChunk_frame (len ty : Word) (s : State) : FlowFrame s (readChunk len ty s) := by
  simp only [readChunk]
  split_ifs
  · exact .refl s
  · exact .internal
  · exact .internal

theorem zlibHeader_frame (cmf flg : Byte) (s : State) : FlowFrame s (zlibHeader cmf flg s) := by
  rw [zlibHeader]
  split
  · exact .refl s
  · exact .internal

theorem skipChunk_frame (s : State) : FlowFrame s (skipChunk s) := .internal

theorem ancBad_frame (d : Detail) (s : State) : FlowFrame s (ancBad d s) := by
  rw [ancBad]
  split_ifs
  · exact .refl s
  · exact skipChunk_frame s

theorem trnsRegs_frame (ctype : Nat) (t : Tables) (r : Regs) :
    hostRegs (trnsRegs ctype t r) = hostRegs r ∧ (trnsRegs ctype t r).phase = r.phase := by
  unfold trnsRegs
  split <;> exact ⟨rfl, rfl⟩

theorem processIhdr_frame (s : State) : FlowFrame s (processIhdr s) := by
  have shown (h : Header) : EngineFrame s (showHeader h s) := EngineFrame.internal.trans (.setRegs rfl rfl)
  have lengths (h : Header) : EngineFrame s (showLengths h s) := (shown h).trans (.setRegs rfl rfl)
  rw [processIhdr]
  split_ifs
  · exact .refl s
  · split
    · exact .refl s
    · dsimp only
      split_ifs
      · exact shown _
      · exact lengths _
      · exact lengths _
      · exact (lengths _).trans .internal

/-- The rule Dispatch runs for a chunk type stays within the frame. -/
theorem ChunkRule.frame {ty : Word} {body : State → Flow} (h : ChunkRule ty body) (s : State) : FlowFrame s (body s) := by
  cases h with
  | ihdr => exact processIhdr_frame s
  | plte =>
    rw [processPlte]
    split
    · exact .refl s
    · exact (EngineFrame.setRegs (r := { s.regs with hasPlte := true, plteEntries := _ }) rfl rfl).trans .internal
  | idat =>
    rw [processIdat]
    split
    · exact .refl s
    · exact .internal
    · split_ifs
      · exact .refl s
      · exact .internal
  | iend =>
    rw [processIend]
    split_ifs
    · exact .refl s
    · exact .refl s
    · exact EngineFrame.internal.trans ((EngineFrame.setPhase (p := 2) (by decide)).trans .internal)
  | trns =>
    rw [processTrns]
    split
    · exact ancBad_frame _ s
    · obtain ⟨hregs, hphase⟩ := trnsRegs_frame s.hdr.ctype (trnsTables s) s.regs
      exact (EngineFrame.setRegs hregs hphase).trans .internal
  | gama =>
    rw [processGama]
    split
    · exact ancBad_frame _ s
    · exact (EngineFrame.setRegs (r := { s.regs with gamma := _, hasGama := true }) rfl rfl).trans .internal
  | skip => exact skipChunk_frame s
  | critical => exact .refl s
  | ancillary => exact ancBad_frame .unknownAncillary s

theorem dispatch_frame {ty : Word} {body : State → Flow} (h : ChunkRule ty body) (s : State) :
    FlowFrame s (dispatch ty body s) := by
  have hrun : EngineFrame s (endIdatRun ty s) := by
    rw [endIdatRun]
    split_ifs
    · exact .internal
    · exact .refl s
  rw [dispatch]
  dsimp only
  split_ifs
  · exact .refl s
  · exact hrun
  · exact .of_frame hrun (h.frame _)

/-- Every engine move but the completion step stays within the frame. -/
theorem EngineCase.engineFrame {s t : State} {r : Result} (hc : EngineCase s r) (hp : ∀ o, s.point ≠ .completing o)
    (hr : r = .next t) : EngineFrame s t := by
  cases hc with
  | configCheck => rw [next_inj hr]; exact configCheck_frame s
  | signature _ bs => exact (checkSignature_frame bs s).next hr
  | frame _ len ty => exact (readChunk_frame len ty s).next hr
  | chunk _ body hb => exact (dispatch_frame hb s).next hr
  | zlib _ cmf flg => exact (zlibHeader_frame cmf flg s).next hr
  | stored _ _ fin => exact (FlowFrame.of_frame .internal (storedBlock_frame _)).next hr
  | fixed => rw [next_inj hr]; exact .internal
  | dynamic _ _ fin => exact (FlowFrame.of_frame .internal (dynamicHeader_frame _)).next hr
  | clLen _ e => exact (FlowFrame.of_frame .internal (afterLens_frame _)).next hr
  | clPrev _ e => exact (FlowFrame.of_frame .internal (repeatPrev_frame _)).next hr
  | clZero _ e _ _ base extra => exact (FlowFrame.of_frame .internal (zeroRun_frame base extra _)).next hr
  | lit _ e _ _ b => exact (FlowFrame.of_frame .internal (literal_frame b _)).next hr
  | eob _ e => exact (FlowFrame.of_frame .internal (endBlock_frame _)).next hr
  | length _ e _ _ base extra => exact (FlowFrame.of_frame .internal (matchLength_frame base extra _)).next hr
  | distance _ e _ _ base extra => exact (FlowFrame.of_frame .internal (matchDistance_frame base extra _)).next hr
  | adler _ _ a => exact (FlowFrame.of_frame .internal (adlerTrailer_frame a _)).next hr
  | row _ f => rw [next_inj hr]; exact filterRow_frame f s
  | pixel _ p => rw [next_inj hr]; exact putPixel_frame p s
  | frameBad | zlibShort | blockShort | reserved | symbolBad | symbolInvalid | adlerShort | rowBad | pixelBad =>
    rw [next_inj hr]; exact .internal
  | strayCl | strayLit | strayDist => cases hr
  | completing o h => exact absurd h (hp o)

/-- Settles O57: the registers of the host are those `hostRegs` keeps. -/
theorem engineStepFrame : Obligations.EngineStepFrame := by
  intro s t hturn hpoint hstep
  obtain ⟨hlat, hplat, hport, hfree, hregs, -⟩ := (engine_cases s).engineFrame hpoint ((step_engine hturn).symm.trans hstep)
  refine ⟨hlat, hplat, hport, hfree, ?_⟩
  generalize t.regs = r at hregs
  generalize s.regs = q at hregs
  obtain ⟨⟩ := r
  obtain ⟨⟩ := q
  simpa [hostRegs] using hregs

/-! ### STATUS, the registers in reset, the latched copies and memory (10_state.md R35, R71, 20_memory.md R90) -/

theorem latchOf_hostRegs (r : Regs) : latchOf (hostRegs r) = latchOf r := rfl

/-- A completion leaves a legal idle STATUS: one flag set, the other as it was while BUSY, that is 0. -/
theorem completeRegs_flags (o : DecodeResult) (r : Regs) :
    (completeRegs o r).busy = false ∧ (completeRegs o r).phase = 0#3 ∧
      (r.done = false → r.err = false → ¬((completeRegs o r).done = true ∧ (completeRegs o r).err = true)) := by
  cases o with
  | success => exact ⟨rfl, rfl, fun _ herr h => by simp [completeRegs, herr] at h⟩
  | error e => exact ⟨rfl, rfl, fun hdone _ h => by simp [completeRegs, hdone] at h⟩

theorem complete_idle (o : DecodeResult) (s : State) : (complete o s).regs.busy = false := by
  obtain ⟨m, n, hfields⟩ := complete_eq o s
  rw [hfields]
  exact (completeRegs_flags o _).1

theorem statusLegal_complete {s : State} (o : DecodeResult) (hb : s.regs.busy = true) (h : StatusLegal s) :
    StatusLegal (complete o s) := by
  obtain ⟨hdone, herr, -⟩ := h.1 hb
  obtain ⟨m, n, hfields⟩ := complete_eq o s
  have hflags : (if s.free.raced then racedRegs s.free.count s.regs else s.regs).done = false ∧
      (if s.free.raced then racedRegs s.free.count s.regs else s.regs).err = false := by
    split_ifs
    · exact ⟨hdone, herr⟩
    · exact ⟨hdone, herr⟩
  rw [hfields]
  obtain ⟨hidle, hphase, hexcl⟩ := completeRegs_flags o (if s.free.raced then racedRegs s.free.count s.regs else s.regs)
  exact ⟨fun hb' => by simp [hidle] at hb', fun _ => hphase, hexcl hflags.1 hflags.2⟩

/-- Within the frame of a running engine STATUS stays legal. -/
theorem EngineFrame.statusLegal {s t : State} (h : EngineFrame s t) (hb : s.regs.busy = true) (hs : StatusLegal s) :
    StatusLegal t := by
  obtain ⟨hdone, herr, hlow, hhigh, hfloor⟩ := hs.1 hb
  have hbusy : t.regs.busy = true := (congrArg Regs.busy h.regs).trans hb
  have hdone' : t.regs.done = false := (congrArg Regs.done h.regs).trans hdone
  have herr' : t.regs.err = false := (congrArg Regs.err h.regs).trans herr
  obtain ⟨hlow', hhigh'⟩ := h.phase ⟨hlow, hhigh⟩
  exact ⟨fun _ => ⟨hdone', herr', hlow', hhigh', by rw [h.free]; exact hfloor⟩, fun hidle => by simp [hbusy] at hidle,
    fun hflags => by simp [hdone'] at hflags⟩

/-- An engine move stays within the frame or is the completion step. -/
theorem EngineCase.frame_or_complete {s t : State} {r : Result} (hc : EngineCase s r) (hr : r = .next t) :
    EngineFrame s t ∨ ∃ o, t = complete o s := by
  by_cases hp : ∃ o, s.point = .completing o
  · obtain ⟨o, ho⟩ := hp
    cases hc
    case completing o' ho' => exact .inr ⟨o', next_inj hr⟩
    all_goals simp_all
  · exact .inl (hc.engineFrame (fun o ho => hp ⟨o, ho⟩) hr)

/-- A read of STATUS while BUSY shows a PHASE from the lowest one still allowed up to 4 (10_state.md R36). -/
theorem phaseShown_busy {s : State} (h : StatusLegal s) (hb : s.regs.busy = true) :
    s.free.phaseFloor ≤ phaseShown s ∧ 1 ≤ phaseShown s ∧ phaseShown s ≤ 4 := by
  obtain ⟨-, -, -, -, hlow, hhigh⟩ := h.1 hb
  have hdraw : Config.phaseDraw s.free.count % (5 - s.free.phaseFloor) < 5 - s.free.phaseFloor := Nat.mod_lt _ (by omega)
  rw [phaseShown, if_pos hb]
  omega

theorem statusLegal_read {s : State} (off : BitVec 8) (h : StatusLegal s) :
    StatusLegal ((s.setPort { s.port with rdata := regWord s off }).setFree (noteRead off s)) := by
  obtain ⟨hbusy, hidle, hexcl⟩ := h
  refine ⟨fun hb => ?_, hidle, hexcl⟩
  obtain ⟨hdone, herr, hlow, hhigh, hfloor⟩ := hbusy hb
  obtain ⟨-, hshown⟩ := phaseShown_busy ⟨hbusy, hidle, hexcl⟩ hb
  refine ⟨hdone, herr, hlow, hhigh, ?_⟩
  show 1 ≤ (noteRead off s).phaseFloor ∧ (noteRead off s).phaseFloor ≤ 4
  rw [noteRead]
  split_ifs
  · exact hfloor
  · exact hshown
  · exact hfloor
  · exact hfloor

/-- A STATUS write clears flags and sets none (R191). -/
theorem statusLegal_clear {s : State} (v : Word) (h : StatusLegal s) :
    StatusLegal (s.setRegs (clearStatusFlags v s.regs)) := by
  obtain ⟨hbusy, hidle, hexcl⟩ := h
  refine ⟨fun hb => ?_, hidle, fun ⟨hdone, herr⟩ => hexcl ⟨?_, ?_⟩⟩
  · obtain ⟨hdone, herr, hrest⟩ := hbusy hb
    exact ⟨by simp [clearStatusFlags, hdone], by simp [clearStatusFlags, herr], hrest⟩
  · simp only [clearStatusFlags, State.setRegs_regs, Bool.and_eq_true] at hdone
    exact hdone.1
  · simp only [clearStatusFlags, State.setRegs_regs, Bool.and_eq_true] at herr
    exact herr.1

theorem statusLegal_launch (v : Word) (s : State) : StatusLegal (launch v s) := by
  have hphase : (launch v s).regs.phase = 1#3 := rfl
  have hfloor : (launch v s).free.phaseFloor = 1 := rfl
  refine ⟨fun _ => ⟨rfl, rfl, ?_⟩, fun hb => (by cases hb), fun hflags => (by cases hflags.1)⟩
  rw [hphase, hfloor]
  decide

theorem statusLegal_resetLow (s : State) : StatusLegal (resetLow s) :=
  ⟨fun hb => (by cases hb), fun _ => rfl, fun hflags => (by cases hflags.1)⟩

theorem PortCase.statusLegal {s t : State} {r : Result} (hc : PortCase s r) (hr : r = .next t) (h : StatusLegal s) :
    StatusLegal t := by
  cases hc with
  | refused | device => cases hr
  | start v =>
    rw [next_inj hr]
    exact statusLegal_launch v s
  | cfg _ reg => rw [next_inj hr]; cases reg <;> exact h
  | clear _ v => rw [next_inj hr]; exact statusLegal_clear v h
  | read off => rw [next_inj hr]; exact statusLegal_read off h
  | ignored | irqEn => rw [next_inj hr]; exact h

theorem step_keeps_statusLegal {s t : State} (hstep : step s = .next t) (h : StatusLegal s) : StatusLegal t := by
  have hpop : StatusLegal (popInput s) := h
  have hc := step_cases s
  rw [hstep] at hc
  generalize hr : (Host.Outcome.next t : Result) = r at hc
  cases hc with
  | engine u r hu hb he =>
    have hlegal : StatusLegal u := by rcases hu with ⟨-, rfl⟩ | ⟨_, -, rfl⟩ <;> exact h
    rcases he.frame_or_complete hr.symm with hframe | ⟨o, rfl⟩
    · exact hframe.statusLegal hb hlegal
    · exact statusLegal_complete o hb hlegal
  | idle u hu => rw [next_inj hr.symm]; rcases hu with ⟨-, rfl⟩ | ⟨_, -, rfl⟩ <;> exact h
  | port a rest hi r hp => exact hp.statusLegal hr.symm hpop
  | busError w a => rw [next_inj hr.symm, busError]; split_ifs <;> exact h
  | memWrite a b => rw [next_inj hr.symm, hostWrite]; split_ifs <;> exact h
  | memRead a => rw [next_inj hr.symm, hostRead]; split_ifs <;> exact h
  | resetLow =>
    rw [next_inj hr.symm]
    exact statusLegal_resetLow _
  | resetHigh => rw [next_inj hr.symm]; exact h

/-- While rst_n = 0 no write runs, and no decode does (70_reset_and_hazards.md R550). -/
theorem PortCase.heldInReset {s t : State} {r : Result} (hc : PortCase s r) (hr : r = .next t)
    (h : RegistersHeldInReset s) : RegistersHeldInReset t := by
  cases hc with
  | refused | device => cases hr
  | start _ hn | irqEn hn | clear hn | cfg hn =>
    rw [next_inj hr]
    exact fun hlow => by simp [launch, initInternal, setIrqEnable, hn] at hlow
  | ignored | read => rw [next_inj hr]; exact h

theorem step_keeps_heldInReset {s t : State} (hstep : step s = .next t) (h : RegistersHeldInReset s) :
    RegistersHeldInReset t := by
  have hpop : RegistersHeldInReset (popInput s) := h
  have hc := step_cases s
  rw [hstep] at hc
  generalize hr : (Host.Outcome.next t : Result) = r at hc
  cases hc with
  | engine u r hu hb he =>
    have hheld : RegistersHeldInReset u := by rcases hu with ⟨-, rfl⟩ | ⟨_, -, rfl⟩ <;> exact h
    have hport : t.port = u.port := by
      rcases he.frame_or_complete hr.symm with hframe | ⟨o, rfl⟩
      · exact hframe.port
      · obtain ⟨m, n, hfields⟩ := complete_eq o u
        rw [hfields]
    intro hlow
    rw [hport] at hlow
    rw [hheld hlow] at hb
    cases hb
  | idle u hu => rw [next_inj hr.symm]; rcases hu with ⟨-, rfl⟩ | ⟨_, -, rfl⟩ <;> exact h
  | port a rest hi r hp => exact hp.heldInReset hr.symm hpop
  | busError w a => rw [next_inj hr.symm, busError]; split_ifs <;> exact h
  | memWrite a b => rw [next_inj hr.symm, hostWrite]; split_ifs <;> exact h
  | memRead a => rw [next_inj hr.symm, hostRead]; split_ifs <;> exact h
  | resetLow => rw [next_inj hr.symm]; exact fun _ => rfl
  | resetHigh => rw [next_inj hr.symm]; exact fun hlow => by cases hlow

theorem PortCase.latchAgrees {s t : State} {r : Result} (hc : PortCase s r) (hr : r = .next t) (h : LatchAgrees s) :
    LatchAgrees t := by
  cases hc with
  | refused | device => cases hr
  | start => rw [next_inj hr]; exact fun _ => rfl
  | cfg _ reg v hidle =>
    rw [next_inj hr]
    have hbusy : (s.setRegs (writeCfgReg reg v s.regs)).regs.busy = s.regs.busy := by cases reg <;> rfl
    exact fun hb => by rw [hbusy, hidle] at hb; cases hb
  | ignored | irqEn | clear | read => rw [next_inj hr]; exact h

theorem step_keeps_latchAgrees {s t : State} (hstep : step s = .next t) (h : LatchAgrees s) : LatchAgrees t := by
  have hpop : LatchAgrees (popInput s) := h
  have hc := step_cases s
  rw [hstep] at hc
  generalize hr : (Host.Outcome.next t : Result) = r at hc
  cases hc with
  | engine u r hu hb he =>
    have hagree : LatchAgrees u := by rcases hu with ⟨-, rfl⟩ | ⟨_, -, rfl⟩ <;> exact h
    intro hb'
    rcases he.frame_or_complete hr.symm with hframe | ⟨o, rfl⟩
    · rw [hframe.lat, hagree hb, ← latchOf_hostRegs, ← hframe.regs, latchOf_hostRegs]
    · rw [complete_idle] at hb'; cases hb'
  | idle u hu => rw [next_inj hr.symm]; rcases hu with ⟨-, rfl⟩ | ⟨_, -, rfl⟩ <;> exact h
  | port a rest hi r hp => exact hp.latchAgrees hr.symm hpop
  | busError w a => rw [next_inj hr.symm, busError]; split_ifs <;> exact h
  | memWrite a b => rw [next_inj hr.symm, hostWrite]; split_ifs <;> exact h
  | memRead a => rw [next_inj hr.symm, hostRead]; split_ifs <;> exact h
  | resetLow => rw [next_inj hr.symm]; exact fun hb => by cases hb
  | resetHigh => rw [next_inj hr.symm]; exact h

theorem foldl_emit_canonical (bs : List Byte) {s : State} (h : MemoryCanonical s) : MemoryCanonical (bs.foldl emit s) := by
  induction bs generalizing s with
  | nil => exact h
  | cons b r ih => exact ih (busWrite_canonical (busAt s.lat.scrBase s.out.n) b h)

theorem reconBytes_canonical (f : Recon) (off : Nat) (prev : Option Nat) (bpp n i : Nat) {s : State} (h : MemoryCanonical s) :
    MemoryCanonical (reconBytes f off prev bpp n i s) := by
  induction n generalizing i s with
  | zero => exact h
  | succ n ih => exact ih (i + 1) (busWrite_canonical _ _ h)

theorem writePixel_canonical (p : Rgba) {s : State} (h : MemoryCanonical s) : MemoryCanonical (writePixel p s) :=
  busWrite_canonical _ _ (busWrite_canonical _ _ (busWrite_canonical _ _ (busWrite_canonical _ _ h)))

/-- The engine writes memory byte by byte only (20_memory.md R97). -/
theorem Move.canonical {s t : State} (hm : Move s t) (h : MemoryCanonical s) : MemoryCanonical t := by
  cases hm with
  | raised u d off hr =>
    rcases hr.mem with hmem | ⟨bs, -, -, hmem⟩
    · exact (congrArg Memory.wf hmem).mpr h
    · exact (congrArg Memory.wf hmem).mpr (foldl_emit_canonical bs h)
  | inflate bs => exact foldl_emit_canonical bs h
  | adlerOk => rw [enterDefilter_eq]; exact h
  | row _ f =>
    rw [filterRow_eq, nextRow_eq]
    exact reconBytes_canonical f _ _ _ _ _ h
  | pixel _ p => rw [putPixel_eq]; exact writePixel_canonical p h
  | configOk | sigOk | frameOk | ihdrOk | chunkOk | parseEnd | zlibOk => exact h

theorem abandon_canonical {s : State} (h : MemoryCanonical s) : MemoryCanonical (abandon s) := by
  rw [abandon]
  split_ifs
  · exact spoil_canonical _ _ (spoil_canonical _ _ h)
  · exact h

theorem step_keeps_canonical {s t : State} (hstep : step s = .next t) (h : MemoryCanonical s) : MemoryCanonical t :=
  step_preserves hstep h
    (hport := fun _ _ _ h => h)
    (hmove := fun _ _ _ hm h => hm.canonical h)
    (hdone := fun _ o _ _ h => complete_canonical o h)
    (hlaunch := fun _ _ _ h => h)
    (hregs := fun _ _ _ h => h)
    (hbus := fun _ _ _ _ h => h)
    (hmem := fun _ a b _ h => busWrite_canonical a b h)
    (hrace := fun _ a b _ h => racedWrite_canonical a b h)
    (hreset := fun _ h => abandon_canonical h)

/-- Settles O50: the four invariants, each kept by every kind of step. -/
theorem stepKeepsStatusLatchAndMemory : Obligations.StepKeepsStatusLatchAndMemory := fun _ _ hstep =>
  ⟨step_keeps_statusLegal hstep, step_keeps_heldInReset hstep, step_keeps_latchAgrees hstep, step_keeps_canonical hstep⟩

end Sys2Proof.Machine
end

section
/-! PROOFS. The invariants of a decode along every step (20_memory.md, 43_header_interpreter.md, 44_inflate.md, 45_defilter.md,
47_interlace.md): regions, cursors, window and checksum, pass cursors, codes; and where the engine writes. -/

namespace Sys2Proof.Machine

/-! ### Invariants along a step -/

/-- A predicate kept by each of the things a step is made of (`step_preserves`). -/
structure KeptBySteps (P : State → Prop) : Prop where
  port : ∀ s p f, P s → P ((s.setPort p).setFree f)
  move : ∀ s t, s.regs.busy = true → Move s t → P s → P t
  done : ∀ s o, s.regs.busy = true → s.point = .completing o → P s → P (complete o s)
  launch : ∀ s v, s.regs.busy = false → P s → P (launch v s)
  regs : ∀ s r, r.busy = s.regs.busy → P s → P (s.setRegs r)
  fault : ∀ s d a, s.regs.busy = true → P s → P (raise s d a)
  mem : ∀ s a b, (s.regs.busy = true → inRegions s a.toNat = false) → P s → P (busWrite s a b)
  race : ∀ s a b, s.regs.busy = true → P s → P (racedWrite a b s)
  reset : ∀ s, P s → P (resetLow s)

theorem KeptBySteps.step {P : State → Prop} (h : KeptBySteps P) {s t : State} (hstep : step s = .next t) (hs : P s) : P t :=
  step_preserves hstep hs h.port h.move h.done h.launch h.regs h.fault h.mem h.race h.reset

theorem KeptBySteps.and {P Q : State → Prop} (hP : KeptBySteps P) (hQ : KeptBySteps Q) : KeptBySteps fun s => P s ∧ Q s where
  port s p f h := ⟨hP.port s p f h.1, hQ.port s p f h.2⟩
  move s t hb hm h := ⟨hP.move s t hb hm h.1, hQ.move s t hb hm h.2⟩
  done s o hb hp h := ⟨hP.done s o hb hp h.1, hQ.done s o hb hp h.2⟩
  launch s v hb h := ⟨hP.launch s v hb h.1, hQ.launch s v hb h.2⟩
  regs s r hr h := ⟨hP.regs s r hr h.1, hQ.regs s r hr h.2⟩
  fault s d a hb h := ⟨hP.fault s d a hb h.1, hQ.fault s d a hb h.2⟩
  mem s a b hr h := ⟨hP.mem s a b hr h.1, hQ.mem s a b hr h.2⟩
  race s a b hb h := ⟨hP.race s a b hb h.1, hQ.race s a b hb h.2⟩
  reset s h := ⟨hP.reset s h.1, hQ.reset s h.2⟩

/-- A predicate about a decode between ConfigCheck and its outcome, under an invariant `P`. -/
structure KeptWhileRunning (P Q : State → Prop) : Prop where
  idle : ∀ s, s.regs.busy = false → Q s
  outcome : ∀ s o, s.point = .completing o → Q s
  start : ∀ s, s.point = .configCheck → Q s
  port : ∀ s p f, Q s → Q ((s.setPort p).setFree f)
  regs : ∀ s r, r.busy = s.regs.busy → Q s → Q (s.setRegs r)
  mem : ∀ s a b, P s → s.regs.busy = true → inRegions s a.toNat = false → Q s → Q (busWrite s a b)
  move : ∀ s t, P s → s.regs.busy = true → Move s t → Q s → Q t

theorem KeptWhileRunning.and {P Q : State → Prop} (hP : KeptBySteps P) (hQ : KeptWhileRunning P Q) :
    KeptBySteps fun s => P s ∧ Q s where
  port s p f h := ⟨hP.port s p f h.1, hQ.port s p f h.2⟩
  move s t hb hm h := ⟨hP.move s t hb hm h.1, hQ.move s t h.1 hb hm h.2⟩
  done s o hb hp h := ⟨hP.done s o hb hp h.1, hQ.idle _ (complete_idle o s)⟩
  launch s v hb h := ⟨hP.launch s v hb h.1, hQ.start _ rfl⟩
  regs s r hr h := ⟨hP.regs s r hr h.1, hQ.regs s r hr h.2⟩
  fault s d a hb h := ⟨hP.fault s d a hb h.1, hQ.outcome _ _ rfl⟩
  mem s a b hr h := by
    refine ⟨hP.mem s a b hr h.1, ?_⟩
    by_cases hb : s.regs.busy = true
    · exact hQ.mem s a b h.1 hb (hr hb) h.2
    · exact hQ.idle _ (by simpa using hb)
  race s a b hb h := ⟨hP.race s a b hb h.1, hQ.outcome _ _ rfl⟩
  reset s h := ⟨hP.reset s h.1, hQ.idle _ rfl⟩

theorem keptBySteps_true : KeptBySteps fun _ => True := by
  constructor <;> intros <;> trivial

theorem KeptWhileRunning.kept {Q : State → Prop} (hQ : KeptWhileRunning (fun _ => True) Q) {s t : State}
    (hstep : step s = .next t) (hs : Q s) : Q t := ((hQ.and keptBySteps_true).step hstep ⟨trivial, hs⟩).2

/-! ### Moves in turn -/

theorem move_of_step {s t : State} (hturn : EngineTurn s) (hp : ∀ o, s.point ≠ .completing o) (hstep : step s = .next t) :
    Move s t := engine_moves (engine_cases s) hp ((step_engine hturn).symm.trans hstep)

/-! ### Regions (20_memory.md R94, 43_header_interpreter.md R274 to R276) -/

theorem HeaderFits.congr {s t : State} (h : HeaderFits s) (hlat : t.lat = s.lat) (hhdr : t.hdr = s.hdr) : HeaderFits t := by
  rw [HeaderFits, hlat, hhdr]; exact h

theorem RegionsInside.of_fits {t : State} (hseen : t.parse.seenIhdr = true) (hfits : HeaderFits t)
    (hp : t.point.beforeChunks = false) : RegionsInside t :=
  ⟨fun _ => hfits, fun _ _ => hfits.1, fun _ h => by simp [hp] at h, fun _ _ _ => hseen, fun _ _ => hseen⟩

/-- At the decode's outcome only the accepted header matters. -/
theorem RegionsInside.of_outcome {s t : State} (h : RegionsInside s) (hlat : t.lat = s.lat)
    (hseen : t.parse.seenIhdr = s.parse.seenIhdr) (hhdr : s.parse.seenIhdr = true → t.hdr = s.hdr) {o : DecodeResult}
    (hp : t.point = .completing o) : RegionsInside t := by
  obtain ⟨hfits, -⟩ := h
  refine ⟨fun hs => ?_, ?_, ?_, ?_, ?_⟩
  · rw [hseen] at hs
    exact (hfits hs).congr hlat (hhdr hs)
  all_goals rw [hp]; simp [Point.running, Point.beforeChunks, Point.betweenChunks, Point.afterParse, Point.inflating,
    Point.inBlocks]

theorem RegionsInside.of_idle {s t : State} (h : RegionsInside s) (hlat : t.lat = s.lat)
    (hseen : t.parse.seenIhdr = s.parse.seenIhdr) (hhdr : t.hdr = s.hdr) (hidle : t.regs.busy = false) : RegionsInside t := by
  obtain ⟨hfits, -⟩ := h
  refine ⟨fun hs => (hfits (hseen ▸ hs)).congr hlat hhdr, ?_, ?_, ?_, ?_⟩ <;> simp [hidle]

theorem beforeChunks_nextRow (s : State) : (nextRow s).point.beforeChunks = false := by
  rcases nextRow_point s with h | h | h <;> rw [h] <;> rfl

theorem beforeChunks_nextPixel (s : State) : (nextPixel s).point.beforeChunks = false := by
  rcases nextPixel_point s with h | h <;> rw [h] <;> rfl

theorem beforeChunks_enterDefilter (s : State) : (enterDefilter s).point.beforeChunks = false := by
  rcases enterDefilter_point s with h | h | h <;> rw [h] <;> rfl

theorem beforeChunks_of_inBlocks {p : Point} (h : p.inBlocks = true) : p.beforeChunks = false := by
  cases p <;> simp_all [Point.inBlocks, Point.beforeChunks]

theorem afterParse_of_inBlocks {p : Point} (h : p.inBlocks = true) : p.afterParse = true := by
  cases p <;> simp_all [Point.inBlocks, Point.afterParse, Point.inflating]

theorem Move.regionsInside {s t : State} (hb : s.regs.busy = true) (hm : Move s t) (h : RegionsInside s) :
    RegionsInside t := by
  obtain ⟨hfits, hrun, hbefore, hbetween, hafter⟩ := id h
  have after (hp : s.point.afterParse = true) : s.parse.seenIhdr = true ∧ HeaderFits s :=
    ⟨hafter hb hp, hfits (hafter hb hp)⟩
  have between (hp : s.point.betweenChunks = true) (hn : s.parse.nchunks ≠ 0) : s.parse.seenIhdr = true ∧ HeaderFits s :=
    ⟨hbetween hb hp hn, hfits (hbetween hb hp hn)⟩
  cases hm with
  | raised u d off hr => exact h.of_outcome hr.lat hr.seen hr.hdr rfl
  | configOk hp hr =>
    exact ⟨hfits, fun _ _ => hr, fun _ _ => hbefore hb (by rw [hp]; rfl), fun _ h => (by cases h), fun _ h => (by cases h)⟩
  | sigOk hp =>
    have hn : s.parse.nchunks = 0 := hbefore hb (by rw [hp]; rfl)
    exact ⟨hfits, fun _ _ => hrun hb (by rw [hp]; rfl), fun _ h => (by cases h), fun _ _ hn' => absurd hn hn', fun _ h => (by cases h)⟩
  | frameOk hp =>
    exact ⟨hfits, fun _ _ => hrun hb (by rw [hp]; rfl), fun _ h => (by cases h),
      fun _ _ hn => (between (by rw [hp]; rfl) hn).1, fun _ h => (by cases h)⟩
  | ihdrOk hp _ hd _ _ _ hmode hw hh hout hscr =>
    exact .of_fits rfl ⟨hrun hb (by rw [hp]; rfl), hmode.1, hmode.2.1, hmode.2.2, hw, hh, hout, hscr⟩ rfl
  | chunkOk hp hn _ _ _ hs =>
    obtain ⟨hseen, hfit⟩ := between (by rw [hp]; rfl) hn
    exact .of_fits (hs.trans hseen) (hfit.congr rfl rfl) rfl
  | parseEnd hp hn _ hs =>
    obtain ⟨hseen, hfit⟩ := between (by rw [hp]; rfl) hn
    exact .of_fits (hs.trans hseen) (hfit.congr rfl rfl) rfl
  | zlibOk hp =>
    obtain ⟨hseen, hfit⟩ := after (by rw [hp]; rfl)
    exact .of_fits hseen (hfit.congr rfl rfl) rfl
  | inflate bs i p hi =>
    obtain ⟨hseen, hfit⟩ := after (afterParse_of_inBlocks hi.from_blocks)
    rw [(foldl_emit_eq bs s).1]
    exact .of_fits hseen (hfit.congr rfl rfl) (beforeChunks_of_inBlocks hi.to_blocks)
  | adlerOk hp bp =>
    obtain ⟨hseen, hfit⟩ := after (by rw [hp]; rfl)
    have hpoint := beforeChunks_enterDefilter (s.setBp bp)
    rw [enterDefilter_eq]
    exact .of_fits hseen (hfit.congr rfl rfl) hpoint
  | row hp f =>
    obtain ⟨hseen, hfit⟩ := after (by rw [hp]; rfl)
    have hpoint := beforeChunks_nextRow (reconRow f s)
    rw [filterRow_eq, nextRow_eq]
    rw [reconRow_eq] at hpoint ⊢
    exact .of_fits hseen (hfit.congr rfl rfl) hpoint
  | pixel hp p =>
    obtain ⟨hseen, hfit⟩ := after (by rw [hp]; rfl)
    rw [putPixel_eq]
    exact .of_fits hseen (hfit.congr rfl rfl) (beforeChunks_nextPixel _)

theorem regionsInside_kept : KeptBySteps RegionsInside where
  port _ _ _ h := h
  move _ _ hb hm h := hm.regionsInside hb h
  done s o hb _ h := by
    obtain ⟨m, n, hfields⟩ := complete_eq o s
    exact h.of_idle (by rw [hfields]) (by rw [hfields]) (by rw [hfields]) (complete_idle o s)
  launch s v _ _ :=
    ⟨fun h => (by cases h), fun _ h => (by cases h), fun _ _ => rfl, fun _ h => (by cases h), fun _ h => (by cases h)⟩
  regs s r hr h := by
    obtain ⟨hfits, hrun, hbefore, hbetween, hafter⟩ := h
    rw [← hr] at hrun hbefore hbetween hafter
    exact ⟨hfits, hrun, hbefore, hbetween, hafter⟩
  fault _ _ _ _ h := h.of_outcome rfl rfl (fun _ => rfl) rfl
  mem _ _ _ _ h := h
  race _ _ _ _ h := h.of_outcome rfl rfl (fun _ => rfl) rfl
  reset _ _ := ⟨fun h => (by cases h), fun h => (by cases h), fun h => (by cases h), fun h => (by cases h), fun h => (by cases h)⟩

/-- Settles O51: an accepted IHDR has passed the checks that HeaderFits states, and no later move changes the header. -/
theorem stepKeepsRegionsInside : Obligations.StepKeepsRegionsInside := fun _ _ h hstep => regionsInside_kept.step hstep h

/-! ### Cursors (10_state.md R60, R66, 44_inflate.md R362) -/

/-- The points at which only pos matters to CursorsInRange. -/
def Point.pastInflate : Point → Bool
  | .scanline | .pixel | .completing _ => true
  | _ => false

theorem CursorsInRange.of_pastInflate {t : State} (hpos : t.pos ≤ t.lat.inLen.toNat) (hp : t.point.pastInflate = true) :
    CursorsInRange t := by
  refine fun _ => ⟨hpos, ?_⟩
  cases h : t.point <;> simp_all [Point.pastInflate, Point.beforeChunks, Point.inBlocks]

/-- At a block, a symbol or the trailer, what CursorsInRange says. -/
theorem CursorsInRange.of_inBlocks {t : State} (hpos : t.pos ≤ t.lat.inLen.toNat) (hp : t.point.inBlocks = true)
    (hc : t.c.length ≤ t.pos) (hbp : t.infl.bp ≤ 8 * t.c.length) (hn : t.out.n ≤ rawLength t.hdr)
    (h1 : t.out.s1 < Config.adlerMod) (h2 : t.out.s2 < Config.adlerMod) : CursorsInRange t := by
  refine fun _ => ⟨hpos, ?_, ?_, ?_, ?_, fun _ => ⟨hc, hbp, hn, h1, h2⟩⟩ <;>
    cases h : t.point <;> simp_all [Point.beforeChunks, Point.inBlocks]

theorem pastInflate_nextRow (s : State) : (nextRow s).point.pastInflate = true := by
  rcases nextRow_point s with h | h | h <;> rw [h] <;> rfl

theorem pastInflate_nextPixel (s : State) : (nextPixel s).point.pastInflate = true := by
  rcases nextPixel_point s with h | h <;> rw [h] <;> rfl

theorem pastInflate_enterDefilter (s : State) : (enterDefilter s).point.pastInflate = true := by
  rcases enterDefilter_point s with h | h | h <;> rw [h] <;> rfl

theorem foldl_emit_sums_lt (bs : List Byte) {s : State} (h1 : s.out.s1 < Config.adlerMod) (h2 : s.out.s2 < Config.adlerMod) :
    (bs.foldl emit s).out.s1 < Config.adlerMod ∧ (bs.foldl emit s).out.s2 < Config.adlerMod := by
  induction bs generalizing s with
  | nil => exact ⟨h1, h2⟩
  | cons b r ih => exact ih (Nat.mod_lt _ (by decide)) (Nat.mod_lt _ (by decide))

theorem Move.cursorsInRange {s t : State} (hb : s.regs.busy = true) (hm : Move s t) (h : CursorsInRange s) :
    CursorsInRange t := by
  obtain ⟨hpos, hbefore, hframe, htype, hzlib, hblocks⟩ := h hb
  cases hm with
  | raised u d off hr =>
    refine .of_pastInflate ?_ rfl
    show u.pos ≤ u.lat.inLen.toNat
    rw [hr.lat]
    exact hr.pos_in hpos
  | configOk hp => exact fun _ => ⟨hpos, fun _ => hbefore (by rw [hp]; rfl), nofun, nofun, nofun, nofun⟩
  | sigOk hp hlen =>
    obtain ⟨-, hc, hnone⟩ := hbefore (by rw [hp]; rfl)
    exact fun _ => ⟨hlen, nofun, fun _ => ⟨by show s.c.length ≤ 8; simp [hc], hnone⟩, nofun, nofun, nofun⟩
  | frameOk hp len ty hlen =>
    obtain ⟨hc, hnone⟩ := hframe hp
    exact fun _ => ⟨hlen, nofun, nofun, fun _ => ⟨hc, rfl, hnone⟩, nofun, nofun⟩
  | ihdrOk hp =>
    obtain ⟨hc, hend, hnone⟩ := htype hp
    exact fun _ => ⟨hpos, nofun, fun _ => ⟨by show s.c.length ≤ s.pos; omega, hnone⟩, nofun, nofun, nofun⟩
  | chunkOk hp _ _ _ _ _ _ hch _ c hcc =>
    obtain ⟨hc, hend, hnone⟩ := htype hp
    refine fun _ => ⟨hpos, nofun, fun _ => ⟨?_, hnone⟩, nofun, nofun, nofun⟩
    show c.length ≤ s.pos
    rcases hcc with rfl | hcc
    · omega
    · omega
  | parseEnd hp =>
    obtain ⟨hc, hend, hnone⟩ := htype hp
    exact fun _ => ⟨hpos, nofun, nofun, nofun, fun _ => ⟨by show s.c.length ≤ s.pos; omega, hnone⟩, nofun⟩
  | zlibOk hp hlen =>
    obtain ⟨hc, hn, h1, h2⟩ := hzlib hp
    refine .of_inBlocks hpos rfl hc ?_ ?_ ?_ ?_
    · show 16 ≤ 8 * s.c.length
      omega
    · show s.out.n ≤ rawLength s.hdr
      omega
    · show s.out.s1 < 65521
      omega
    · show s.out.s2 < 65521
      omega
  | inflate bs i p hi hlen =>
    obtain ⟨hc, -, hn, h1, h2⟩ := hblocks hi.from_blocks
    obtain ⟨hfields, hcount⟩ := foldl_emit_eq bs s
    obtain ⟨h1', h2'⟩ := foldl_emit_sums_lt bs h1 h2
    refine .of_inBlocks ?_ hi.to_blocks ?_ ?_ ?_ h1' h2'
    · rw [hfields]; exact hpos
    · rw [hfields]; exact hc
    · rw [hfields]; exact hi.inside
    · rw [hfields]
      show (bs.foldl emit s).out.n ≤ rawLength s.hdr
      rw [hcount]
      rcases hlen with rfl | hlen
      · exact hn
      · omega
  | adlerOk _ bp =>
    have hpoint := pastInflate_enterDefilter (s.setBp bp)
    rw [enterDefilter_eq]
    exact .of_pastInflate hpos hpoint
  | row _ f =>
    have hpoint := pastInflate_nextRow (reconRow f s)
    rw [filterRow_eq, nextRow_eq]
    rw [reconRow_eq] at hpoint ⊢
    exact .of_pastInflate hpos hpoint
  | pixel _ p =>
    rw [putPixel_eq]
    exact .of_pastInflate hpos (pastInflate_nextPixel _)

theorem cursorsInRange_kept : KeptBySteps CursorsInRange where
  port _ _ _ h := h
  move _ _ hb hm h := hm.cursorsInRange hb h
  done s o _ _ _ hb := by rw [complete_idle] at hb; cases hb
  launch _ _ _ _ _ := ⟨Nat.zero_le _, fun _ => ⟨rfl, rfl, rfl, rfl, rfl⟩, nofun, nofun, nofun, nofun⟩
  regs s r hr h hb := h (hr ▸ hb)
  fault _ _ _ hb h := .of_pastInflate (h hb).1 rfl
  mem _ _ _ _ h := h
  race _ _ _ hb h := .of_pastInflate (h hb).1 rfl
  reset _ _ hb := by cases hb

/-- The engine reads IN forwards (10_state.md R60). -/
theorem Move.pos_le {s t : State} (hb : s.regs.busy = true) (h : CursorsInRange s) (hm : Move s t) : s.pos ≤ t.pos := by
  cases hm with
  | raised u d off hr => exact hr.pos_le
  | sigOk hp =>
    obtain ⟨-, hbefore, -⟩ := h hb
    obtain ⟨hpos, -⟩ := hbefore (by rw [hp]; rfl)
    exact hpos ▸ Nat.zero_le _
  | frameOk _ len => exact Nat.le_add_right_of_le (Nat.le_add_right ..)
  | inflate bs => rw [(foldl_emit_eq bs s).1]
  | adlerOk => rw [enterDefilter_eq]; exact le_refl s.pos
  | row _ f => rw [filterRow_eq, nextRow_eq, reconRow_eq]
  | pixel => rw [putPixel_eq]
  | configOk | ihdrOk | chunkOk | parseEnd | zlibOk => exact le_refl s.pos

/-- Settles O52: each move takes the cursors from one phase's bounds to the next one's, and none moves pos back. -/
theorem stepKeepsCursorsInRange : Obligations.StepKeepsCursorsInRange := by
  refine fun s t h hstep => ⟨cursorsInRange_kept.step hstep h, fun hturn => ?_⟩
  by_cases hp : ∃ o, s.point = .completing o
  · obtain ⟨o, ho⟩ := hp
    obtain ⟨m, n, hfields⟩ := complete_eq o s
    rw [next_inj ((step_completing hturn ho).symm.trans hstep), hfields]
  · exact (move_of_step hturn (fun o ho => hp ⟨o, ho⟩) hstep).pos_le hturn.1 h

/-! ### Window and checksum (44_inflate.md R361, R371) -/

/-- A raw byte of an accepted header has its own address, inside SCR (20_memory.md R99). -/
theorem scrAddress_inside {s : State} (hfits : HeaderFits s) {k : Nat} (hk : k < rawLength s.hdr) :
    (s.lat.scrBase.toNat + k) % 2 ^ 32 = s.lat.scrBase.toNat + k ∧
      windowHas (regionScr s.lat) (s.lat.scrBase.toNat + k) = true := by
  obtain ⟨hregions, -, -, -, -, -, -, hscr⟩ := hfits
  obtain ⟨⟨-, -, hwrap⟩, -⟩ := regionError_none hregions
  have hsize : k < (regionScr s.lat).size := lt_of_lt_of_le hk hscr
  exact ⟨Nat.mod_eq_of_lt (windowWraps_false hwrap hsize), windowHas_iff.2 ⟨Nat.le_add_right .., Nat.add_lt_add_left hsize _⟩⟩

/-- While Inflate runs, the header is accepted and no more than RAWLEN bytes are emitted. -/
theorem inflating_fits {s : State} (hin : RegionsInside s) (hcur : CursorsInRange s) (hb : s.regs.busy = true)
    (hp : s.point.inflating = true) : HeaderFits s ∧ s.out.n ≤ rawLength s.hdr := by
  obtain ⟨hfits, -, -, -, hafter⟩ := hin
  obtain ⟨-, -, -, -, hzlib, hblocks⟩ := hcur hb
  have hparse : s.point.afterParse = true := by
    cases h : s.point <;> simp_all [Point.inflating, Point.afterParse, Point.inBlocks]
  refine ⟨hfits (hafter hb hparse), ?_⟩
  by_cases hz : s.point = .zlibHeader
  · obtain ⟨-, hn, -⟩ := hzlib hz
    omega
  · have hin : s.point.inBlocks = true := by cases h : s.point <;> simp_all [Point.inflating]
    obtain ⟨-, -, hn, -⟩ := hblocks hin
    exact hn

theorem rawLength_lt {s : State} (hfits : HeaderFits s) : rawLength s.hdr < 2 ^ 32 := by
  obtain ⟨-, -, -, -, -, -, -, hscr⟩ := hfits
  exact lt_of_le_of_lt hscr s.lat.scrCap.isLt

/-- What the inflater keeps of the bytes it has emitted: the window and the checksum. -/
def OutputHolds (s : State) : Prop := WindowHolds s ∧ AdlerHolds s

theorem OutputHolds.of_not_inflating {s : State} (hp : s.point.inflating = false) : OutputHolds s :=
  ⟨fun _ h => (by simp [hp] at h), fun _ h => (by simp [hp] at h)⟩

/-- It depends on the counters, the window and the raw bytes emitted so far. -/
theorem OutputHolds.congr {s t : State} (h : OutputHolds s) (hb : s.regs.busy = true) (hp : s.point.inflating = true)
    (hout : t.out = s.out) (hraw : ∀ j, j < s.out.n → rawByte t j = rawByte s j) : OutputHolds t := by
  obtain ⟨hwin, hadler⟩ := h
  refine ⟨fun _ _ j hj hnear => ?_, fun _ _ => ?_⟩
  · rw [hout] at hj hnear ⊢
    rw [hraw j hj]
    exact hwin hb hp j hj hnear
  · rw [hout, hadler hb hp]
    congr 1
    exact List.map_congr_left fun j hj => (hraw j (List.mem_range.1 hj)).symm

theorem OutputHolds.of_nothing {s : State} (h : NothingEmitted s) : OutputHolds s := by
  obtain ⟨hn, h1, h2⟩ := h
  exact ⟨fun _ _ j hj => by omega, fun _ _ => by rw [hn, h1, h2]; rfl⟩

theorem adlerSums_append (xs : List Byte) (b : Byte) :
    adlerSums (xs ++ [b]) =
      (((adlerSums xs).1 + b.toNat) % Config.adlerMod,
        ((adlerSums xs).2 + ((adlerSums xs).1 + b.toNat) % Config.adlerMod) % Config.adlerMod) := by
  rw [adlerSums, List.foldl_append]; rfl

theorem adlerHolds_emit {s : State} (h : AdlerHolds s) (hn : s.out.n < 2 ^ 32) (b : Byte) : AdlerHolds (emit s b) := by
  intro hb hp
  have hsums := h hb hp
  have hbytes : (List.range (emit s b).out.n).map (rawByte (emit s b)) = (List.range s.out.n).map (rawByte s) ++ [b] := by
    rw [emit_n, List.range_succ, List.map_append, List.map_singleton, rawByte_emit s b _ hn hn, if_pos rfl]
    congr 1
    refine List.map_congr_left fun j hj => ?_
    have hj := List.mem_range.1 hj
    rw [rawByte_emit s b j hn (by omega), if_neg (by omega)]
  rw [hbytes, adlerSums_append, ← hsums]; rfl

theorem adlerHolds_foldl_emit {s : State} (h : AdlerHolds s) {bs : List Byte} (hn : s.out.n + bs.length ≤ 2 ^ 32) :
    AdlerHolds (bs.foldl emit s) := by
  induction bs generalizing s with
  | nil => exact h
  | cons b r ih =>
    rw [List.length_cons] at hn
    exact ih (adlerHolds_emit h (by omega) b) (by rw [emit_n]; omega)

theorem Move.outputHolds {s t : State} (hin : RegionsInside s) (hcur : CursorsInRange s) (hb : s.regs.busy = true)
    (hm : Move s t) (h : OutputHolds s) : OutputHolds t := by
  cases hm with
  | raised | configOk | sigOk | frameOk | ihdrOk | chunkOk => exact .of_not_inflating rfl
  | parseEnd hp =>
    obtain ⟨-, -, -, htype, -⟩ := hcur hb
    obtain ⟨-, -, hnone⟩ := htype hp
    exact .of_nothing hnone
  | zlibOk hp => exact h.congr hb (by rw [hp]; rfl) rfl fun _ _ => rfl
  | inflate bs i p hi hlen =>
    have hp : s.point.inflating = true := by
      have := hi.from_blocks
      cases hs : s.point <;> simp_all [Point.inflating]
    obtain ⟨hfits, hcount⟩ := inflating_fits hin hcur hb hp
    have hlast := rawLength_lt hfits
    have hn : s.out.n + bs.length ≤ 2 ^ 32 := by
      rcases hlen with rfl | hlen
      · simp only [List.length_nil]; omega
      · omega
    have hall : OutputHolds (bs.foldl emit s) := ⟨windowHolds_foldl_emit h.1 hn, adlerHolds_foldl_emit h.2 hn⟩
    refine hall.congr ?_ ?_ rfl fun _ _ => rfl
    · rw [(foldl_emit_eq bs s).1]; exact hb
    · rw [(foldl_emit_eq bs s).1]; exact hp
  | adlerOk _ bp =>
    refine .of_not_inflating ?_
    rcases enterDefilter_point (s.setBp bp) with hp | hp | hp <;> rw [hp] <;> rfl
  | row _ f =>
    refine .of_not_inflating ?_
    rw [filterRow_eq]
    rcases nextRow_point (reconRow f s) with hp | hp | hp <;> rw [hp] <;> rfl
  | pixel _ p =>
    refine .of_not_inflating ?_
    rw [putPixel]
    rcases nextPixel_point (writePixel p s) with hp | hp <;> rw [hp] <;> rfl

theorem outputHolds_kept : KeptWhileRunning (fun s => RegionsInside s ∧ CursorsInRange s) OutputHolds where
  idle s hb := ⟨fun h => by simp [hb] at h, fun h => by simp [hb] at h⟩
  outcome s o hp := .of_not_inflating (by rw [hp]; rfl)
  start s hp := .of_not_inflating (by rw [hp]; rfl)
  port _ _ _ h := h
  regs s r hr h := ⟨fun hb => h.1 (hr ▸ hb), fun hb => h.2 (hr ▸ hb)⟩
  mem s a b hinv hb hout h := by
    by_cases hp : s.point.inflating = true
    · obtain ⟨hfits, hcount⟩ := inflating_fits hinv.1 hinv.2 hb hp
      refine h.congr hb hp rfl fun j hj => rawByte_eq s _ j rfl ?_
      obtain ⟨haddr, hinside⟩ := scrAddress_inside hfits (lt_of_lt_of_le hj hcount)
      rw [memAt_busWrite, busAt_toNat, haddr, if_neg]
      rintro hja
      rw [hja] at hinside
      simp [inRegions, hinside] at hout
    · exact .of_not_inflating (by simpa using hp)
  move _ _ hinv hb hm h := hm.outputHolds hinv.1 hinv.2 hb h

/-- Settles O53: an emission keeps both, a host write elsewhere than into the regions does not reach the raw stream, and one
into them ends the decode's run. -/
theorem stepKeepsWindowAndAdler : Obligations.StepKeepsWindowAndAdler := by
  intro s t hin hcur hwin hadler hstep
  have hinv := regionsInside_kept.and cursorsInRange_kept
  exact ((outputHolds_kept.and hinv).step hstep ⟨⟨hin, hcur⟩, hwin, hadler⟩).2

/-! ### Pass cursors (10_state.md R69, R70, 47_interlace.md R474, R478) -/

/-- The defilter cursors stand at a scanline, as PassCursors says of them. -/
def AtScanline (h : Header) (d : Defl) : Prop :=
  d.pass ∈ passNumbers h.interlace ∧ passEmpty h d.pass = false ∧ d.row < passHeight h d.pass ∧
    d.off = passStart h d.pass + d.row * lineBytes h d.pass ∧
    d.prev = if d.row = 0 then none else some (d.off - lineBytes h d.pass)

/-- The expander cursors stand at a pixel, as PassCursors says of them. -/
def AtPixel (h : Header) (e : Expand) : Prop :=
  e.pass ∈ passNumbers h.interlace ∧ passEmpty h e.pass = false ∧ e.row < passHeight h e.pass ∧
    e.col < passWidth h e.pass ∧ e.off = passStart h e.pass

theorem passCursors_iff {s : State} : PassCursors s ↔
    (s.regs.busy = true → (s.point = .scanline → AtScanline s.hdr s.defl) ∧ (s.point = .pixel → AtPixel s.hdr s.exp)) :=
  Iff.rfl

theorem PassCursors.of_scanline {t : State} (hp : t.point = .scanline) (h : AtScanline t.hdr t.defl) : PassCursors t :=
  fun _ => ⟨fun _ => h, fun hp' => by rw [hp] at hp'; cases hp'⟩

theorem PassCursors.of_pixel {t : State} (hp : t.point = .pixel) (h : AtPixel t.hdr t.exp) : PassCursors t :=
  fun _ => ⟨fun hp' => (by rw [hp] at hp'; cases hp'), fun _ => h⟩

theorem PassCursors.of_other {t : State} (h1 : t.point ≠ .scanline) (h2 : t.point ≠ .pixel) : PassCursors t :=
  fun _ => ⟨fun h => absurd h h1, fun h => absurd h h2⟩

/-- A pass that is next begins at its first row and column. -/
theorem atScanline_first {h : Header} {first p off : Nat} (hp : nextPass h first = some p) (hoff : off = passStart h p) :
    AtScanline h ⟨p, 0, off, none⟩ := by
  obtain ⟨⟨hmem, -, hfull⟩, -⟩ := nextPass_some.1 hp
  exact ⟨hmem, hfull, (passEmpty_false.1 hfull).2, by simp [hoff], rfl⟩

theorem atPixel_first {h : Header} {first p off : Nat} (hp : nextPass h first = some p) (hoff : off = passStart h p) :
    AtPixel h ⟨p, 0, 0, off⟩ := by
  obtain ⟨⟨hmem, -, hfull⟩, -⟩ := nextPass_some.1 hp
  obtain ⟨hwidth, hheight⟩ := passEmpty_false.1 hfull
  exact ⟨hmem, hfull, hheight, hwidth, hoff⟩

theorem passCursors_enterExpand (s : State) : PassCursors (enterExpand s) := by
  rw [enterExpand]
  split
  · next p hp => exact .of_pixel rfl (atPixel_first hp (passStart_first hp).symm)
  · exact .of_other nofun nofun

theorem passCursors_enterDefilter (s : State) : PassCursors (enterDefilter s) := by
  rw [enterDefilter]
  split
  · next p hp => exact .of_scanline rfl (atScanline_first hp (passStart_first hp).symm)
  · exact passCursors_enterExpand _

/-- The row after one of a pass stands a line further, and the pass after its last row where the pass ends. -/
theorem passCursors_nextRow {s : State} (h : AtScanline s.hdr s.defl) : PassCursors (nextRow s) := by
  obtain ⟨hmem, hfull, hrow, hoff, -⟩ := h
  rw [nextRow]
  have hline : s.defl.off + 1 + rowBytes s.hdr (passWidth s.hdr s.defl.pass) =
      passStart s.hdr s.defl.pass + (s.defl.row + 1) * lineBytes s.hdr s.defl.pass := by
    rw [hoff, Nat.succ_mul, lineBytes]; omega
  split_ifs with hnext
  · refine .of_scanline rfl ⟨hmem, hfull, hnext, hline, ?_⟩
    have hback : s.defl.off + 1 + rowBytes s.hdr (passWidth s.hdr s.defl.pass) - lineBytes s.hdr s.defl.pass = s.defl.off := by
      rw [lineBytes]; omega
    exact congrArg some hback.symm
  · split
    · next p hp =>
      refine .of_scanline rfl (atScanline_first hp (hline.trans ?_))
      rw [show s.defl.row + 1 = passHeight s.hdr s.defl.pass by omega, ← passBytes_full hfull]
      exact (passStart_next hmem hp).symm
    · exact passCursors_enterExpand _

theorem passCursors_nextPixel {s : State} (h : AtPixel s.hdr s.exp) : PassCursors (nextPixel s) := by
  obtain ⟨hmem, hfull, hrow, hcol, hoff⟩ := h
  obtain ⟨hwidth, -⟩ := passEmpty_false.1 hfull
  rw [nextPixel]
  split_ifs with hnextCol hnextRow
  · exact .of_pixel rfl ⟨hmem, hfull, hrow, hnextCol, hoff⟩
  · exact .of_pixel rfl ⟨hmem, hfull, hnextRow, hwidth, hoff⟩
  · split
    · next p hp =>
      refine .of_pixel rfl (atPixel_first hp ?_)
      rw [hoff]
      exact (passStart_next hmem hp).symm
    · exact .of_other nofun nofun

theorem Move.passCursors {s t : State} (hb : s.regs.busy = true) (hm : Move s t) (h : PassCursors s) : PassCursors t := by
  obtain ⟨hscan, hpixel⟩ := passCursors_iff.1 h hb
  cases hm with
  | raised | configOk | sigOk | frameOk | ihdrOk | chunkOk | parseEnd | zlibOk => exact .of_other nofun nofun
  | inflate bs i p hi =>
    have hp := hi.to_blocks
    exact .of_other (fun he => by change p = _ at he; rw [he] at hp; cases hp)
      (fun he => by change p = _ at he; rw [he] at hp; cases hp)
  | adlerOk => exact passCursors_enterDefilter _
  | row hp f =>
    rw [filterRow_eq]
    refine passCursors_nextRow ?_
    rw [reconRow_eq]
    exact hscan hp
  | pixel hp p => exact passCursors_nextPixel (s := writePixel p s) (hpixel hp)

theorem passCursors_kept : KeptWhileRunning (fun _ => True) PassCursors where
  idle s hb h := by simp [hb] at h
  outcome s o hp := .of_other (by simp [hp]) (by simp [hp])
  start s hp := .of_other (by simp [hp]) (by simp [hp])
  port _ _ _ h := h
  regs s r hr h hb := h (hr ▸ hb)
  mem _ _ _ _ _ _ h := h
  move _ _ _ hb hm h := hm.passCursors hb h

/-- Settles O54: a row or a pixel is followed by the next one of its pass or the first one of the next pass, whose start in the
raw stream is the end of this one's. -/
theorem stepKeepsPassCursors : Obligations.StepKeepsPassCursors := fun _ _ h hstep => passCursors_kept.kept hstep h

/-! ### Codes (30_encoding.md R136 to R138) -/

theorem CodesInAlphabet.of_other {t : State} (h1 : t.point ≠ .clSymbol) (h2 : t.point ≠ .litLen) (h3 : t.point ≠ .distance) :
    CodesInAlphabet t := fun _ => ⟨fun h => absurd h h1, fun h => absurd h (by simp [h2, h3])⟩

theorem Move.codesInAlphabet {s t : State} (hb : s.regs.busy = true) (hm : Move s t) (h : CodesInAlphabet s) :
    CodesInAlphabet t := by
  obtain ⟨hcl, hlit⟩ := h hb
  cases hm with
  | raised | configOk | sigOk | frameOk | ihdrOk | chunkOk | parseEnd | zlibOk => exact .of_other nofun nofun nofun
  | inflate bs i p hi =>
    refine fun _ => ⟨fun hp => ?_, fun hp => ?_⟩
    · rcases hi.clCode hp with ⟨hs, hcode, hnl, hnd⟩ | ⟨hcode, hnl, hnd⟩
      · show i.nl ≤ 286 ∧ i.nd ≤ 30 ∧ ∀ w ∈ i.clCode, w.sym < 19
        rw [hcode, hnl, hnd]
        exact hcl hs
      · exact ⟨hnl, hnd, hcode⟩
    · rcases hi.litCode hp with ⟨hs, hll, hd⟩ | hcodes
      · show (∀ w ∈ i.llCode, w.sym < 288) ∧ ∀ w ∈ i.dCode, w.sym < 32
        rw [hll, hd]
        exact hlit hs
      · refine hcodes fun hs => ?_
        obtain ⟨hnl, hnd, -⟩ := hcl hs
        exact ⟨hnl, hnd⟩
  | adlerOk _ bp =>
    rcases enterDefilter_point (s.setBp bp) with hp | hp | hp <;> exact .of_other (by simp [hp]) (by simp [hp]) (by simp [hp])
  | row _ f =>
    rcases nextRow_point (reconRow f s) with hp | hp | hp <;>
      exact .of_other (by simp [filterRow_eq, hp]) (by simp [filterRow_eq, hp]) (by simp [filterRow_eq, hp])
  | pixel _ p =>
    rcases nextPixel_point (writePixel p s) with hp | hp <;>
      exact .of_other (by simp [putPixel, hp]) (by simp [putPixel, hp]) (by simp [putPixel, hp])

theorem codesInAlphabet_kept : KeptWhileRunning (fun _ => True) CodesInAlphabet where
  idle s hb h := by simp [hb] at h
  outcome s o hp := .of_other (by simp [hp]) (by simp [hp]) (by simp [hp])
  start s hp := .of_other (by simp [hp]) (by simp [hp]) (by simp [hp])
  port _ _ _ h := h
  regs s r hr h hb := h (hr ▸ hb)
  mem _ _ _ _ _ _ h := h
  move _ _ _ hb hm h := hm.codesInAlphabet hb h

theorem exists_next_result (f : Flow) : ∃ t, f.result = .next t := by
  cases f <;> exact ⟨_, rfl⟩

/-- An engine move faults at a symbol outside its alphabet only, and is never refused (60_exceptions.md R500). -/
theorem EngineCase.exists_next {s : State} {r : Result} (hc : EngineCase s r) (hb : s.regs.busy = true)
    (h : CodesInAlphabet s) : ∃ t, r = .next t := by
  obtain ⟨hcl, hlit⟩ := h hb
  cases hc with
  | strayCl hp w hw hs =>
    obtain ⟨-, -, hsym⟩ := hcl hp
    have := hsym w hw
    omega
  | strayLit hp w hw hs =>
    obtain ⟨hsym, -⟩ := hlit (.inl hp)
    have := hsym w hw
    omega
  | strayDist hp w hw hs =>
    obtain ⟨-, hsym⟩ := hlit (.inr hp)
    have := hsym w hw
    omega
  | signature | frame | chunk | zlib | stored | dynamic | clLen | clPrev | clZero | lit | eob | length | distance | adler =>
    exact exists_next_result _
  | configCheck | frameBad | zlibShort | blockShort | fixed | reserved | symbolBad | symbolInvalid | adlerShort | row | rowBad
  | pixel | pixelBad | completing => exact ⟨_, rfl⟩

/-- Settles O55: only a stray symbol stops the engine, and the codes a block uses are built from as many lengths as their
alphabets have symbols. -/
theorem engineNeverStops : Obligations.EngineNeverStops := by
  refine ⟨fun s h hturn => ?_, fun s t h hstep => codesInAlphabet_kept.kept hstep h⟩
  rw [step_engine hturn]
  exact (engine_cases s).exists_next hturn.1 h

/-- Settles O59: a move inside Inflate advances the bit cursor, and at these points every move but a raise is one. -/
theorem bitCursorAdvances : Obligations.BitCursorAdvances := by
  intro s t hturn hpoint hstep hgoes
  have hblocks : s.point = .blockHeader ∨ s.point = .clSymbol ∨ s.point = .litLen ∨ s.point = .distance := by
    simpa using hpoint
  have hrun : ∀ o, s.point ≠ .completing o := by rcases hblocks with hp | hp | hp | hp <;> simp [hp]
  cases move_of_step hturn hrun hstep with
  | raised u d off => exact absurd rfl (hgoes _)
  | inflate bs i p hi => exact hi.advances
  | configOk hp | sigOk hp | frameOk hp | ihdrOk hp | chunkOk hp | parseEnd hp | zlibOk hp | adlerOk hp | row hp | pixel hp =>
    simp [hp] at hblocks

/-! ### Where the engine writes (20_memory.md R95, R99, R100) -/

theorem usedScr_of_seen {s : State} (h : s.parse.seenIhdr = true) : usedScr s = ⟨s.lat.scrBase.toNat, rawLength s.hdr⟩ := by
  rw [usedScr, if_pos h]

theorem usedOut_of_seen {s : State} (h : s.parse.seenIhdr = true) : usedOut s = ⟨s.lat.outBase.toNat, outLength s.hdr⟩ := by
  rw [usedOut, if_pos h]

/-- The address of a raw byte lies in SCR_USED. -/
theorem ne_rawAddress {s : State} (hseen : s.parse.seenIhdr = true) (hfits : HeaderFits s) {a : Nat}
    (ha : windowHas (usedScr s) a = false) {k : Nat} (hk : k < rawLength s.hdr) :
    a ≠ (s.lat.scrBase.toNat + k) % 2 ^ 32 := by
  rintro rfl
  obtain ⟨haddr, -⟩ := scrAddress_inside hfits hk
  rw [haddr, usedScr_of_seen hseen, windowHas_false] at ha
  exact ha ⟨Nat.le_add_right .., Nat.add_lt_add_left hk _⟩

/-- The address of an output byte lies in OUT_USED. -/
theorem ne_outAddress {s : State} (hseen : s.parse.seenIhdr = true) (hfits : HeaderFits s) {a : Nat}
    (ha : windowHas (usedOut s) a = false) {k : Nat} (hk : k < outLength s.hdr) :
    a ≠ (s.lat.outBase.toNat + k) % 2 ^ 32 := by
  rintro rfl
  obtain ⟨hregions, -, -, -, -, -, hout, -⟩ := hfits
  obtain ⟨⟨-, hwrap, -⟩, -⟩ := regionError_none hregions
  have hsize : k < (regionOut s.lat).size := lt_of_lt_of_le hk hout
  have haddr : s.lat.outBase.toNat + k < 2 ^ 32 := windowWraps_false hwrap hsize
  rw [Nat.mod_eq_of_lt haddr, usedOut_of_seen hseen, windowHas_false] at ha
  exact ha ⟨Nat.le_add_right .., Nat.add_lt_add_left hk _⟩

/-- A scanline of a pass lies in the raw stream. -/
theorem scanline_inside {h : Header} {d : Defl} (hd : AtScanline h d) {i : Nat} (hi : i < lineBytes h d.pass) :
    d.off + i < rawLength h := by
  obtain ⟨hmem, hfull, hrow, hoff, -⟩ := hd
  have hend := passEnd_le hmem
  rw [passBytes_full hfull] at hend
  have hrows : (d.row + 1) * lineBytes h d.pass ≤ passHeight h d.pass * lineBytes h d.pass := Nat.mul_le_mul_right _ hrow
  rw [Nat.succ_mul] at hrows
  omega

/-- A pass pixel lies in the image, and its four bytes in the output. -/
theorem pixelOffset_inside {s : State} (hp : AtPixel s.hdr s.exp) {k : Nat} (hk : k < 4) :
    pixelOffset s + k < outLength s.hdr := by
  obtain ⟨-, -, hrow, hcol, -⟩ := hp
  obtain ⟨hdc, hdr⟩ := passGrid_start_lt_step s.exp.pass
  have hX : imageX s < s.hdr.width := (lt_axisSize (Nat.zero_lt_of_lt hdc)).1 hcol
  have hY : imageY s < s.hdr.height := (lt_axisSize (Nat.zero_lt_of_lt hdr)).1 hrow
  have hlines : (imageY s + 1) * s.hdr.width ≤ s.hdr.height * s.hdr.width := Nat.mul_le_mul_right _ hY
  rw [Nat.succ_mul, Nat.mul_comm s.hdr.height] at hlines
  rw [pixelOffset, outLength]
  omega

theorem memAt_emitted {s : State} (hseen : s.parse.seenIhdr = true) (hfits : HeaderFits s) {a : Nat}
    (ha : windowHas (usedScr s) a = false) {bs : List Byte} (hlen : s.out.n + bs.length ≤ rawLength s.hdr) :
    memAt (bs.foldl emit s) a = memAt s a := by
  refine memAt_foldl_emit bs s a fun k hk => ?_
  rw [Nat.add_assoc]
  exact ne_rawAddress hseen hfits ha (by omega)

theorem Move.memAt_outside {s t : State} (hin : RegionsInside s) (hcur : PassCursors s) (hb : s.regs.busy = true)
    (hm : Move s t) {a : Nat} (hout : windowHas (usedOut s) a = false) (hscr : windowHas (usedScr s) a = false) :
    memAt t a = memAt s a := by
  obtain ⟨hfits, -, -, -, hafter⟩ := hin
  obtain ⟨hscan, hpixel⟩ := passCursors_iff.1 hcur hb
  have emitted {bs : List Byte} (hp : s.point.inBlocks = true) (hlen : s.out.n + bs.length ≤ rawLength s.hdr) :
      memAt (bs.foldl emit s) a = memAt s a :=
    have hseen := hafter hb (afterParse_of_inBlocks hp)
    memAt_emitted hseen (hfits hseen) hscr hlen
  cases hm with
  | configOk | sigOk | frameOk | ihdrOk | chunkOk | parseEnd | zlibOk => rfl
  | raised u d off hr =>
    rcases hr.mem with hmem | ⟨bs, hp, hlen, hmem⟩
    · exact congrArg (tableGet · a) hmem
    · exact (congrArg (tableGet · a) hmem).trans (emitted hp hlen)
  | inflate bs i p hi hlen =>
    rcases hlen with rfl | hlen
    · rfl
    · exact emitted hi.from_blocks hlen
  | adlerOk => rw [enterDefilter_eq]; rfl
  | row hp f =>
    have hseen := hafter hb (by rw [hp]; rfl)
    rw [filterRow_eq, nextRow_eq]
    refine memAt_reconRow f fun i hi => ne_rawAddress hseen (hfits hseen) hscr (scanline_inside (hscan hp) ?_)
    rw [lineBytes]
    exact Nat.lt_one_add_iff.2 hi
  | pixel hp p =>
    have hseen := hafter hb (by rw [hp]; rfl)
    rw [putPixel_eq]
    exact memAt_writePixel p s a fun k hk => ne_outAddress hseen (hfits hseen) hout (pixelOffset_inside (hpixel hp) hk)

/-- What a completion leaves unspecified lies in the used part, or in the whole region after a race before IHDR. -/
theorem openWindow_outside {s : State} {used whole : Window} {a : Nat} (hused : windowHas used a = false)
    (h : s.free.raced = false ∨ s.parse.seenIhdr = true ∨ regionError s.lat ≠ none ∨ windowHas whole a = false) :
    windowHas (openWindow s used whole) a = false := by
  rw [openWindow]
  split_ifs with hopen
  · simp only [Bool.and_eq_true, Bool.not_eq_true', beq_iff_eq] at hopen
    obtain ⟨⟨hraced, hseen⟩, hregions⟩ := hopen
    simpa [hraced, hseen, hregions] using h
  · exact hused

theorem memAt_complete_outside (o : DecodeResult) {s : State} {a : Nat} (hout : windowHas (usedOut s) a = false)
    (hscr : windowHas (usedScr s) a = false)
    (h : s.free.raced = false ∨ s.parse.seenIhdr = true ∨ regionError s.lat ≠ none ∨
      (windowHas (regionOut s.lat) a = false ∧ windowHas (regionScr s.lat) a = false)) :
    memAt (complete o s) a = memAt s a :=
  memAt_complete o s a (openWindow_outside hscr (h.imp_right (.imp_right (.imp_right And.right))))
    (.inr (openWindow_outside hout (h.imp_right (.imp_right (.imp_right And.left)))))

theorem step_memAt_outside {s t : State} (hin : RegionsInside s) (hcur : PassCursors s) (hturn : EngineTurn s)
    (hstep : step s = .next t) {a : Nat} (hout : windowHas (usedOut s) a = false) (hscr : windowHas (usedScr s) a = false)
    (h : s.free.raced = false ∨ s.parse.seenIhdr = true ∨ regionError s.lat ≠ none ∨
      (windowHas (regionOut s.lat) a = false ∧ windowHas (regionScr s.lat) a = false)) :
    memAt t a = memAt s a := by
  by_cases hp : ∃ o, s.point = .completing o
  · obtain ⟨o, ho⟩ := hp
    rw [next_inj ((step_completing hturn ho).symm.trans hstep)]
    exact memAt_complete_outside o hout hscr h
  · exact (move_of_step hturn (fun o ho => hp ⟨o, ho⟩) hstep).memAt_outside hin hcur hturn.1 hout hscr

/-- IN shares no byte with the used parts, which lie in OUTR and SCR (R184). -/
theorem regionIn_outside_used {s : State} (hin : RegionsInside s) {a : Nat} (ha : windowHas (regionIn s.lat) a = true) :
    windowHas (usedOut s) a = false ∧ windowHas (usedScr s) a = false := by
  obtain ⟨hfits, -⟩ := hin
  cases hseen : s.parse.seenIhdr with
  | false =>
    have hempty (base : Nat) : windowHas ⟨base, 0⟩ a = false := windowHas_false.2 (by dsimp only; omega)
    simp only [usedOut, usedScr, hseen, Bool.false_eq_true, if_false]
    exact ⟨hempty _, hempty _⟩
  | true =>
    obtain ⟨hregions, -, -, -, -, -, hout, hscr⟩ := hfits hseen
    obtain ⟨-, hinOut, hinScr, -⟩ := regionError_none hregions
    have hnotOut := windowHas_false.1 (windowsOverlap_false hinOut ha)
    have hnotScr := windowHas_false.1 (windowsOverlap_false hinScr ha)
    simp only [regionOut] at hnotOut
    simp only [regionScr] at hnotScr
    rw [usedOut_of_seen hseen, usedScr_of_seen hseen, windowHas_false, windowHas_false]
    dsimp only
    omega

/-- Settles O56: every byte the engine writes is one of the raw stream or of the output, each inside its used part, and the
completion leaves unspecified what `openWindow` says. -/
theorem writesConfinedToUsedRegions : Obligations.WritesConfinedToUsedRegions := by
  refine fun s t hin hcur hturn hstep => ⟨fun a hout hscr h => ?_, fun a ha => ?_⟩
  · exact step_memAt_outside hin hcur hturn hstep hout hscr (h.imp_right (.imp_right .inr))
  · obtain ⟨hout, hscr⟩ := regionIn_outside_used hin ha
    refine step_memAt_outside hin hcur hturn hstep hout hscr (.inr (.inr ?_))
    by_cases hregions : regionError s.lat = none
    · obtain ⟨-, hinOut, hinScr, -⟩ := regionError_none hregions
      exact .inr ⟨windowsOverlap_false hinOut ha, windowsOverlap_false hinScr ha⟩
    · exact .inl hregions

/-! ### The reset state (70_reset_and_hazards.md R552, R553) -/

/-- Settles O49: in the reset state BUSY is 0, so of each invariant only what it says of an idle block is left. -/
theorem invariantsHoldAtReset : Obligations.InvariantsHoldAtReset :=
  ⟨⟨nofun, fun _ => rfl, nofun⟩, fun _ => rfl, nofun, ⟨List.Pairwise.nil, nofun⟩, ⟨nofun, nofun, nofun, nofun, nofun⟩, nofun,
    nofun, nofun, nofun, nofun⟩

end Sys2Proof.Machine
end

section
/-! PROOFS. The outside world (20_memory.md R101, R103, 60_exceptions.md R512, 70_reset_and_hazards.md R550, R551): port
transactions, reads of a busy block, reset, host accesses to memory, bus errors; and that an engine slot runs the element that
fetch finds. -/

namespace Sys2Proof.Machine

/-! ### Taking an input (40_host_interface.md R180) -/

theorem step_input {s : State} {i : Input} {rest : List Input} (h : s.port.inputs = i :: rest) :
    step s = inputMove i { s with port := { s.port with inputs := rest } } := by
  have hpop : popInput s = { s with port := { s.port with inputs := rest } } := by
    rw [popInput, h]; rfl
  rw [step, h]
  exact congrArg (inputMove i) hpop

/-! ### Port transactions (30_encoding.md R144, 10_state.md R53) -/

theorem decode_misaligned_write {off : BitVec 8} {w : Width} (v : Word) (h : w ≠ .w32 ∨ off.toNat % 4 ≠ 0) :
    decode (.access (.write off w v)) = .error .portAccess := by
  rw [decode, decodeAccess, if_neg (by tauto)]

theorem decode_misaligned_read {off : BitVec 8} {w : Width} (h : w ≠ .w32 ∨ off.toNat % 4 ≠ 0) :
    decode (.access (.read off w)) = .error .portAccess := by
  rw [decode, decodeAccess, if_neg (by tauto)]

/-- Of the offsets a command names, seven are WRITE_CFG's. -/
theorem cfgRegAt_none {off : BitVec 8} (h : off.toNat ∉ [0x04, 0x08, 0x0C, 0x1C, 0x20, 0x24, 0x28, 0x2C, 0x30]) :
    cfgRegAt off = none := by
  simp only [List.mem_cons, List.not_mem_nil, or_false, not_or] at h
  unfold cfgRegAt
  split
  case h_8 => rfl
  all_goals omega

theorem decode_unnamed_write {off : BitVec 8} (v : Word) (ha : off.toNat % 4 = 0)
    (h : off.toNat ∉ [0x04, 0x08, 0x0C, 0x1C, 0x20, 0x24, 0x28, 0x2C, 0x30]) :
    decode (.access (.write off .w32 v)) = .error .ignoredWrite := by
  have hcfg := cfgRegAt_none h
  simp only [List.mem_cons, List.not_mem_nil, or_false, not_or] at h
  rw [decode_aligned_write v ⟨rfl, ha⟩, if_neg (by omega), if_neg (by omega), hcfg]

/-- A 32-bit write at a multiple of 4 is a command or names none. -/
theorem decode_aligned_write_cases {off : BitVec 8} (v : Word) (ha : off.toNat % 4 = 0) :
    (∃ i, decode (.access (.write off .w32 v)) = .ok i) ∨ decode (.access (.write off .w32 v)) = .error .ignoredWrite := by
  rw [decode_aligned_write v ⟨rfl, ha⟩]
  split_ifs
  · exact .inl ⟨_, rfl⟩
  · exact .inl ⟨_, rfl⟩
  · exact .inl ⟨_, rfl⟩
  · cases cfgRegAt off with
    | some r => exact .inl ⟨_, rfl⟩
    | none => exact .inr rfl

/-- Settles O4: an access goes by what it decodes to, and in reset every write is ignored. -/
theorem portTransactions : Obligations.PortTransactions := by
  intro s a rest hi
  rw [step_input hi]
  refine ⟨fun i hd hrst => ?_, ?_, ?_, ?_, ?_⟩
  · refine (portMove_ok hd _).trans (if_neg ?_)
    cases hw : accessWrites a with
    | false => simp
    | true => simp [hrst hw]
  · rintro off v rfl ha hrst
    rcases decode_aligned_write_cases v ha with ⟨i, hd⟩ | hd
    · exact (portMove_ok hd _).trans (if_pos (by simp [accessWrites, hrst]))
    · exact portMove_ignored hd _
  · rintro off v rfl ha h
    exact portMove_ignored (decode_unnamed_write v ha h) _
  · rintro off w v rfl h
    exact portMove_refused (decode_misaligned_write v h) _
  · rintro off w rfl h
    exact portMove_refused (decode_misaligned_read h) _

/-! ### STATUS while BUSY (10_state.md R36) -/

theorem regWord_status_busy {s : State} (h : StatusLegal s) (hb : s.regs.busy = true) :
    regWord s 0x0C#8 = BitVec.ofNat 32 (1 + 256 * phaseShown s) := by
  obtain ⟨hdone, herr, -⟩ := h.1 hb
  obtain ⟨-, -, hhigh⟩ := phaseShown_busy h hb
  apply BitVec.eq_of_toNat_eq
  show (statusWord s.regs (BitVec.ofNat 3 (phaseShown s))).toNat = _
  rw [statusWord_toNat, hb, hdone, herr, BitVec.toNat_ofNat, BitVec.toNat_ofNat]
  simp only [Bool.toNat_true, Bool.toNat_false]
  omega

/-- Settles O10: the word shows BUSY and the PHASE drawn, which becomes the lowest one allowed. -/
theorem busyStatusRead : Obligations.BusyStatusRead := by
  intro s h hb
  obtain ⟨hfloor, hlow, hhigh⟩ := phaseShown_busy h hb
  refine ⟨phaseShown s, hfloor, hlow, hhigh, ?_⟩
  have hnote : noteRead 0x0C#8 s = { s.free with phaseFloor := phaseShown s, count := s.free.count + 1 } := by
    rw [noteRead, if_neg (by simp [hb]), if_pos rfl]
  show Host.Outcome.next ((s.setPort { s.port with rdata := regWord s 0x0C#8 }).setFree (noteRead 0x0C#8 s)) = _
  rw [hnote, regWord_status_busy h hb]
  rfl

/-! ### Reset (70_reset_and_hazards.md R550, R551) -/

theorem resetLow_mem_idle {s : State} (hb : s.regs.busy = false) : (resetLow s).mem = s.mem := by
  have habandon : abandon s = s := if_neg (by simp [hb])
  show (abandon s).mem = s.mem
  rw [habandon]

/-- A decode abandoned leaves bytes of OUTR and SCR unspecified and no others. -/
theorem memAt_resetLow {s : State} {a : Nat} (hout : windowHas (regionOut s.lat) a = false)
    (hscr : windowHas (regionScr s.lat) a = false) : memAt (resetLow s) a = memAt s a := by
  show memAt (abandon s) a = memAt s a
  rw [abandon]
  split_ifs
  · exact (memAt_spoil _ _ _ a (windowHas_false.1 hscr)).trans (memAt_spoil _ _ _ a (windowHas_false.1 hout))
  · rfl

/-- Settles O13: a rising rst_n sets its level only; a falling one restores the reset state but for memory, the platform and
the port, and memory is that of an abandoned decode. -/
theorem resetAbandonsDecode : Obligations.ResetAbandonsDecode := by
  refine ⟨fun s rest hi => ⟨_, step_input hi, rfl, fun hheld hlow => ?_⟩, fun s rest hi => ?_⟩
  · have hregs : (resetHigh { s with port := { s.port with inputs := rest } }).regs = Regs.reset := hheld hlow
    exact ⟨hregs, congrArg Regs.busy hregs, irq_eq_false_of_flags (congrArg Regs.done hregs) (congrArg Regs.err hregs)⟩
  · have houtside {a : Nat} : windowHas (regionOut s.lat) a = false → windowHas (regionScr s.lat) a = false →
        memAt (resetLow { s with port := { s.port with inputs := rest } }) a = memAt s a :=
      memAt_resetLow (s := { s with port := { s.port with inputs := rest } })
    refine ⟨_, step_input hi, rfl, rfl, rfl, rfl, fun hb => resetLow_mem_idle hb, fun a => houtside, fun hregions a ha => ?_⟩
    · obtain ⟨-, hinOut, hinScr, -⟩ := regionError_none hregions
      exact houtside (windowsOverlap_false hinOut ha) (windowsOverlap_false hinScr ha)

/-! ### Host accesses, bus errors and refused launches (20_memory.md R101, R103, 60_exceptions.md R512) -/

theorem inRegions_iff {s : State} {a : Nat} : inRegions s a = true ↔
    windowHas (regionIn s.lat) a = true ∨ windowHas (regionOut s.lat) a = true ∨ windowHas (regionScr s.lat) a = true := by
  simp [inRegions, or_assoc]

theorem racedRead_iff {s : State} {a : Nat} : racedRead s a = true ↔
    s.regs.busy = true ∧ (windowHas (regionOut s.lat) a = true ∨ windowHas (regionScr s.lat) a = true) := by
  simp [racedRead]

theorem transferPossible_iff {w : Bool} {a : Nat} {s : State} : transferPossible w a s = true ↔
    s.regs.busy = true ∧ (windowHas (openScr s) a = true ∨ (w = true ∧ windowHas (openOut s) a = true) ∨
      (w = false ∧ windowHas (regionIn s.lat) a = true)) := by
  cases w <;> simp [transferPossible]

theorem coversDevice_iff {s : State} : coversDevice s = true ↔
    ∃ d ∈ s.plat.devices, ∃ r ∈ [regionIn (latchOf s.regs), regionOut (latchOf s.regs), regionScr (latchOf s.regs)],
      0 < r.size ∧ 0 < d.size ∧ r.base < d.base + d.size ∧ d.base < r.base + r.size := by
  simp [coversDevice, windowsOverlap_iff, or_assoc]

theorem hostWrite_race {a : Word} {b : Byte} {s : State} (h : s.regs.busy = true ∧ inRegions s a.toNat = true) :
    hostWrite a b s = racedWrite a b s := if_pos (by simp [h])

theorem hostWrite_plain {a : Word} {b : Byte} {s : State} (h : ¬(s.regs.busy = true ∧ inRegions s a.toNat = true)) :
    hostWrite a b s = busWrite s a b := if_neg (by simpa using h)

theorem busRead_of_memAt {s : State} {a : Word} {v : Byte} (h : memAt s a.toNat = some v) : busRead s a = v := by
  rw [busRead, show tableGet s.mem a.toNat = some v from h]

/-- A host read takes one free value where it is raced, and else none, returning the byte memory holds. -/
theorem hostRead_eq (a : Word) (s : State) : ∃ b k,
    hostRead a s = { s with port := { s.port with hostByte := b }, free := { s.free with count := s.free.count + k } } ∧
      (racedRead s a.toNat = false → k = 0 ∧ b = busRead s a) := by
  rw [hostRead]
  split_ifs with hraced
  · exact ⟨_, 1, rfl, fun h => by simp [hraced] at h⟩
  · exact ⟨_, 0, rfl, fun _ => ⟨rfl, rfl⟩⟩

/-- The registers of a raced completion: the outcome's, but for those a decode writes. -/
theorem completeRegs_racedRegs (o : DecodeResult) (n : Nat) (r : Regs) :
    let q := completeRegs o (racedRegs n r)
    q = { completeRegs o r with
      imgWidth := q.imgWidth, imgHeight := q.imgHeight, bitDepth := q.bitDepth, colorType := q.colorType
      interlace := q.interlace, hasPlte := q.hasPlte, hasTrns := q.hasTrns, hasGama := q.hasGama
      plteEntries := q.plteEntries, gamma := q.gamma, outLen := q.outLen, rawLen := q.rawLen, trnsKey0 := q.trnsKey0
      trnsKey1 := q.trnsKey1, trnsKey2 := q.trnsKey2, trnsEntries := q.trnsEntries } := by
  cases o <;> rfl

/-- Settles O60: each event goes by one test, and the completion of a raced decode by what `openWindow` leaves open. -/
theorem outsideEvents : Obligations.OutsideEvents := by
  intro s a rest u inIn inOut inScr inside
  have hinside : inRegions u a.toNat = true ↔ inside := inRegions_iff
  refine ⟨fun b hi => ?_, fun o hturn hpoint hraced => ?_, fun v t hb hstart => ?_, fun hi => ?_, fun w hi => ?_,
    fun v hb hdev => ?_⟩
  · rw [step_input hi]
    refine ⟨fun hb hin => ⟨Config.racedOutcome s.free.count, ?_⟩, fun hout => ?_⟩
    · exact congrArg Host.Outcome.next (hostWrite_race (s := u) ⟨hb, hinside.2 hin⟩)
    · refine congrArg Host.Outcome.next (hostWrite_plain (s := u) fun ⟨hb, hin⟩ => ?_)
      exact hout.elim (fun hidle => by rw [show u.regs.busy = false from hidle] at hb; cases hb) fun h => h (hinside.1 hin)
  · obtain ⟨m, n, hfields⟩ := complete_eq o s
    rw [if_pos hraced] at hfields
    have hregs : (complete o s).regs = completeRegs o (racedRegs s.free.count s.regs) := by rw [hfields]
    refine ⟨complete o s, step_completing hturn hpoint, by rw [hfields], ?_,
      fun c hout hscr h => memAt_complete_outside o hout hscr (.inr h)⟩
    rw [hregs]
    exact completeRegs_racedRegs o s.free.count s.regs
  · rw [exec_start_idle_inv hb hstart]; rfl
  · rw [step_input hi]
    obtain ⟨b, k, hread, hquiet⟩ := hostRead_eq a u
    refine ⟨b, k, congrArg Host.Outcome.next hread, fun h => ?_⟩
    have hnot : racedRead u a.toNat = false := by
      rw [← Bool.not_eq_true, racedRead_iff]
      rintro ⟨hb, hin⟩
      rcases h with hidle | ⟨hnout, hnscr⟩
      · rw [show u.regs.busy = false from hidle] at hb; cases hb
      · exact hin.elim hnout hnscr
    obtain ⟨hk, hbyte⟩ := hquiet hnot
    exact ⟨hk, fun v hv => hbyte.trans (busRead_of_memAt hv)⟩
  · rw [step_input hi]
    intro mine
    have hpossible : transferPossible w a.toNat u = true ↔ s.regs.busy = true ∧ mine := transferPossible_iff
    refine ⟨fun hb hm => congrArg Host.Outcome.next (if_pos (hpossible.2 ⟨hb, hm⟩)), fun h => ?_⟩
    refine congrArg Host.Outcome.next (if_neg fun hp => ?_)
    obtain ⟨hb, hm⟩ := hpossible.1 hp
    exact h.elim (fun hidle => by simp [hb] at hidle) fun hn => hn hm
  · show execStart v s = _
    rw [execStart, if_neg (by simp [hb]), if_pos (coversDevice_iff.2 hdev)]

/-! ### The engine's slot (40_host_interface.md R180, R181) -/

/-- With no pending input, or at an engine slot, which is taken off, a step is an engine move. -/
theorem step_engineSlot {s u : State} (hu : (s.port.inputs = [] ∧ u = s) ∨
    ∃ rest, s.port.inputs = .engine :: rest ∧ u = { s with port := { s.port with inputs := rest } }) :
    step s = engineMove u ∧ u.regs.busy = s.regs.busy := by
  rcases hu with ⟨hi, rfl⟩ | ⟨rest, hi, rfl⟩
  · exact ⟨by rw [step, hi], rfl⟩
  · exact ⟨step_input hi, rfl⟩

/-- The block whose BTYPE has the bits `b1` and, above it, `b2` (30_encoding.md R133). -/
def blockOf (fin b1 b2 : Bool) : Instr :=
  if b2 then if b1 then .blockReserved fin else .blockDynamic fin else if b1 then .blockFixed fin else .blockStored fin

/-- Three bits of a block header, read as a number, decode to the block of their BTYPE. -/
theorem decodeBlock_bits (fin b1 b2 : Bool) :
    decodeBlock (BitVec.ofNat 3 (fin.toNat + 2 * (b1.toNat + 2 * (b2.toNat + 2 * 0)))) = blockOf fin b1 b2 := by
  cases fin <;> cases b1 <;> cases b2 <;> rfl

theorem blockOf_btype (fin b1 b2 : Bool) :
    (b1.toNat + 2 * b2.toNat = 0 → blockOf fin b1 b2 = .blockStored fin) ∧
    (b1.toNat + 2 * b2.toNat = 1 → blockOf fin b1 b2 = .blockFixed fin) ∧
    (b1.toNat + 2 * b2.toNat = 2 → blockOf fin b1 b2 = .blockDynamic fin) ∧
    (b1.toNat + 2 * b2.toNat = 3 → blockOf fin b1 b2 = .blockReserved fin) := by
  cases b1 <;> cases b2 <;> simp [blockOf]

theorem fetch_blockHeader {u : State} (hp : u.point = .blockHeader) : fetch u = fetchBlock u := by rw [fetch, hp]

theorem run_blockHeader {u : State} (hp : u.point = .blockHeader) (h : u.infl.bp + 3 ≤ 8 * u.c.length) :
    runFetched (fetch u) = exec (blockOf (cBit u.c u.infl.bp) (cBit u.c (u.infl.bp + 1)) (cBit u.c (u.infl.bp + 2)))
      { u with infl := { u.infl with bstart := u.infl.bp, bp := u.infl.bp + 3 } } := by
  rw [fetch_blockHeader hp, fetchBlock, getBits_some h, ← decodeBlock_bits]
  rfl

theorem run_blockHeader_short {u : State} (hp : u.point = .blockHeader) (h : 8 * u.c.length < u.infl.bp + 3) :
    runFetched (fetch u) = .next (raise u .zTruncated u.c.length) := by
  rw [fetch_blockHeader hp, fetchBlock, getBits_none h]
  rfl

/-- What a symbol's code word, or its lack, makes of an engine move (44_inflate.md R322). -/
theorem run_fetchSymbol (h : List CodeWord) (mk : Nat → Element) (u : State) :
    (∀ x e, decodeSym h u.c u.infl.bp = .sym x e → ∀ i, decode (mk x) = .ok i →
      runFetched (fetchSymbol h mk u) = exec i { u with infl := { u.infl with symStart := u.infl.bp, bp := e } }) ∧
    (decodeSym h u.c u.infl.bp = .invalid →
      runFetched (fetchSymbol h mk u) = .next (raise u .dInvalidCode (u.infl.bp / 8))) ∧
    (decodeSym h u.c u.infl.bp = .truncated →
      runFetched (fetchSymbol h mk u) = .next (raise u .zTruncated u.c.length)) := by
  refine ⟨fun x e hd i hi => ?_, fun hd => ?_, fun hd => ?_⟩
  · rw [fetchSymbol, hd, runFetched, hi]; rfl
  · rw [fetchSymbol, hd]; rfl
  · rw [fetchSymbol, hd]; rfl

/-- The three alphabets, each read at its own point with its own code. -/
theorem fetch_symbolRow {u : State} {row : Point × List CodeWord × (Nat → Element)}
    (hrow : row ∈ [(Point.clSymbol, u.infl.clCode, Element.clsym), (.litLen, u.infl.llCode, .litlen),
      (.distance, u.infl.dCode, .dist)]) (hp : u.point = row.1) : fetch u = fetchSymbol row.2.1 row.2.2 u := by
  simp only [List.mem_cons, List.not_mem_nil, or_false] at hrow
  rcases hrow with rfl | rfl | rfl <;> rw [fetch, hp]

/-- Settles O5: a step in the engine's slot runs what fetch finds at the point, and at each point fetch is one definition. -/
theorem stepRunsStreamElement : Obligations.StepRunsStreamElement := by
  intro s u hu
  obtain ⟨hstep, hbusy⟩ := step_engineSlot hu
  have run (hb : s.regs.busy = true) : step s = runFetched (fetch u) := hstep.trans (if_pos (hbusy.trans hb))
  have runElement (hb : s.regs.busy = true) {e : Element} {t : State} {i : Instr} (hf : fetch u = .element e t)
      (hi : decode e = .ok i) : step s = exec i t := by rw [run hb, hf, runFetched, hi]
  refine ⟨fun hb e t i hf hi => runElement hb hf hi, fun hb t hf => ?_, fun hb => ?_, fun hb hp i hi => ?_,
    fun hb hp i hi => ?_, fun hb hp i hi => ?_, fun hb hp => ?_, fun hb row hrow hp => ?_⟩
  · rw [run hb, hf]; rfl
  · exact hstep.trans (if_neg (by simp [hbusy, hb]))
  · exact runElement hb (by rw [fetch, hp]) hi
  · exact runElement hb (by rw [fetch, hp]) hi
  · exact runElement hb (by rw [fetch, hp]) hi
  · rw [run hb]
    intro bp
    refine ⟨run_blockHeader_short hp, fun h => ?_⟩
    rw [run_blockHeader hp h]
    intro bfinal btype t
    obtain ⟨hstored, hfixed, hdynamic, hreserved⟩ := blockOf_btype bfinal (cBit u.c (bp + 1)) (cBit u.c (bp + 2))
    exact ⟨fun h => congrArg (exec · t) (hstored h), fun h => congrArg (exec · t) (hfixed h),
      fun h => congrArg (exec · t) (hdynamic h), fun h => congrArg (exec · t) (hreserved h)⟩
  · rw [run hb, fetch_symbolRow hrow hp]
    exact run_fetchSymbol row.2.1 row.2.2 u

end Sys2Proof.Machine
end

section
/-! PROOFS. The CRC (41_crc32.md R220), the dispatch order and the accepted ancillary chunks (43_header_interpreter.md R272, R281,
R283). -/

namespace Sys2Proof.Machine

/-! ### The table-driven CRC step -/

/-- A bit of the loop is the shift on what bit 0 does not see. -/
theorem crcBit_xor {u v : Word} (hv : v.getLsbD 0 = false) : crcBit (u ^^^ v) = crcBit u ^^^ (v >>> 1) := by
  have hbit : (u ^^^ v).getLsbD 0 = u.getLsbD 0 := by rw [BitVec.getLsbD_xor, hv, Bool.xor_false]
  rw [crcBit, crcBit, hbit, BitVec.ushiftRight_xor_distrib]
  split_ifs
  · rw [BitVec.xor_assoc, BitVec.xor_assoc, BitVec.xor_comm (v >>> 1)]
  · rfl

/-- So `k` bits of the loop shift out what has its low `k` bits 0. -/
theorem crcBits_xor (k : Nat) {u v : Word} (hv : ∀ i, i < k → v.getLsbD i = false) :
    crcBits k (u ^^^ v) = crcBits k u ^^^ (v >>> k) := by
  induction k generalizing u v with
  | zero => rw [BitVec.ushiftRight_zero]; rfl
  | succ k ih =>
    rw [crcBits, crcBit_xor (hv 0 (by omega)), ih, crcBits, Nat.add_comm k 1, BitVec.shiftRight_add]
    intro i hi
    rw [BitVec.getLsbD_ushiftRight]
    exact hv (1 + i) (by omega)

theorem getLsbD_0xFF (i : Nat) : (0xFF#32).getLsbD i = decide (i < 8) := by
  rw [BitVec.getLsbD_ofNat, show 0xFF = 2 ^ 8 - 1 by rfl, Nat.testBit_two_pow_sub_one]
  by_cases h : i < 8
  · simp [h, show i < 32 by omega]
  · simp [h]

/-- Settles O48: the low byte of `c XOR b` goes through the table, and the rest, which is that of `c`, is shifted down. -/
theorem crcTableStep : Obligations.CrcTableStep := by
  refine ⟨fun c b => ?_, by decide +kernel⟩
  have hrest : ∀ i, i < 32 → (c >>> 8 <<< 8).getLsbD i = (!decide (i < 8) && c.getLsbD i) := by
    intro i hi
    rw [BitVec.getLsbD_shiftLeft, BitVec.getLsbD_ushiftRight]
    by_cases h : i < 8
    · simp [h]
    · simp [h, hi, show 8 + (i - 8) = i by omega]
  have hlow : ∀ i, i < 8 → (c >>> 8 <<< 8).getLsbD i = false := fun i hi => by simp [hrest i (by omega), hi]
  have hsplit : c ^^^ b.setWidth 32 = ((c ^^^ b.setWidth 32) &&& 0xFF#32) ^^^ (c >>> 8 <<< 8) := by
    apply BitVec.eq_of_getLsbD_eq
    intro i hi
    simp only [BitVec.getLsbD_xor, BitVec.getLsbD_and, hrest i hi, getLsbD_0xFF, BitVec.getLsbD_setWidth]
    by_cases h : i < 8
    · simp [h]
    · simp [h, BitVec.getLsbD_of_ge b i (by omega)]
  have hshift : c >>> 8 <<< 8 >>> 8 = c >>> 8 := by
    apply BitVec.eq_of_getLsbD_eq
    intro i hi
    rw [BitVec.getLsbD_ushiftRight, BitVec.getLsbD_ushiftRight]
    by_cases h : 8 + i < 32
    · simp [hrest (8 + i) h]
    · rw [BitVec.getLsbD_of_ge _ _ (by omega), BitVec.getLsbD_of_ge _ _ (by omega)]
  rw [crcUpdate, hsplit, crcBits_xor 8 hlow, hshift, ← hsplit]

/-! ### The dispatch order (R272) -/

/-- The first chunk must be IHDR. -/
theorem dispatch_first {t : Word} {s : State} (hn : s.parse.nchunks = 0) (ht : t ≠ 0x49484452#32) (body : State → Flow) :
    dispatch t body s = stopAtChunk s .firstNotIhdr := if_pos ⟨hn, ht⟩

/-- After image data no critical chunk but IDAT and IEND may come; an IDAT run is over then. -/
theorem dispatch_afterIdat {t : Word} {s : State} (hn : s.parse.nchunks ≠ 0) (hx : s.parse.idat ≠ .none)
    (hcrit : criticalTag t = true) (hidat : t ≠ 0x49444154#32) (hiend : t ≠ 0x49454E44#32) (body : State → Flow) :
    (dispatch t body s).result =
      .next (raise { s with parse := { s.parse with idat := .ended } } .chunkAfterIdat s.parse.chunk.p) := by
  have hended : runEnded s.parse.idat = .ended := by
    cases h : s.parse.idat <;> simp_all [runEnded]
  rw [dispatch, if_neg fun h => hn h.1, endIdatRun_eq hidat, hended]
  exact congrArg Flow.result (if_pos ⟨hcrit, hidat, hiend, nofun⟩)

/-- The class and the type of an unknown chunk (R124, 42_chunk_reader.md R236). -/
theorem unknownCritical_wf {ty : Word} (h : (Instr.unknownCritical ty).wf = true) :
    ty ∉ knownTags ∧ criticalTag ty = true := by simpa [Instr.wf] using h

theorem unknownAncillary_wf {ty : Word} (h : (Instr.unknownAncillary ty).wf = true) : ty ∉ knownTags := by
  have : ty ∉ knownTags ∧ criticalTag ty = false := by simpa [Instr.wf] using h
  exact this.1

theorem ne_of_unknown {ty t : Word} (h : ty ∉ knownTags) (ht : t ∈ knownTags) : ty ≠ t := fun he => h (he ▸ ht)

/-- Settles O20: every chunk's rule is reached through Dispatch, which stops before it in both cases. -/
theorem dispatchOrderErrors : Obligations.DispatchOrderErrors := by
  intro s
  refine ⟨fun hn i hwf hi => ?_, fun hn hx i hwf hi => ?_⟩
  · have first {t : Word} (ht : t ≠ 0x49484452#32) (body : State → Flow) :
        (dispatch t body s).result = .next (raise s .firstNotIhdr s.parse.chunk.p) :=
      congrArg Flow.result (dispatch_first hn ht body)
    rcases hi with hi | ⟨ty, rfl⟩ | ⟨ty, rfl⟩
    · simp only [List.mem_cons, List.not_mem_nil, or_false] at hi
      rcases hi with rfl | rfl | rfl | rfl | rfl | rfl | rfl | rfl <;> exact first (by decide) _
    · exact first (ne_of_unknown (unknownCritical_wf hwf).1 (by decide)) _
    · exact first (ne_of_unknown (unknownAncillary_wf hwf) (by decide)) _
  · rcases hi with hi | ⟨ty, rfl⟩
    · simp only [List.mem_cons, List.not_mem_nil, or_false] at hi
      rcases hi with rfl | rfl <;> exact dispatch_afterIdat hn hx (by decide) (by decide) (by decide) _
    · obtain ⟨hty, hcrit⟩ := unknownCritical_wf hwf
      exact dispatch_afterIdat hn hx hcrit (ne_of_unknown hty (by decide)) (ne_of_unknown hty (by decide)) _

/-! ### Accepted tRNS and gAMA (R281, R283) -/

theorem exec_trns_accepted {s : State} (hn : s.parse.nchunks ≠ 0) (hx : s.parse.idat = .none) (h : trnsError s = none) :
    exec .trns s = .next (nextChunk (acceptTrns s)) := by
  show (dispatch _ processTrns s).result = _
  rw [dispatch_before_idat hn hx, processTrns, h]; rfl

theorem exec_gama_accepted {s : State} (hn : s.parse.nchunks ≠ 0) (hx : s.parse.idat = .none) (h : gamaError s = none) :
    exec .gama s = .next (nextChunk (acceptGama s)) := by
  show (dispatch _ processGama s).result = _
  rw [dispatch_before_idat hn hx, processGama, h]; rfl

/-- A tRNS of a colour type that may have one passes the checks once its place, count and length are right. -/
theorem trnsError_none {s : State} (hplace : trnsInPlace s) (hseen : s.parse.seenTrns = false)
    (hc : s.hdr.ctype ≠ 4 ∧ s.hdr.ctype ≠ 6) (hlen : trnsLengthBad s = false) : trnsError s = none := by
  rw [trnsError_inPlace hplace, if_neg (by simp [hseen]), if_neg (by omega), if_neg (by simp [hlen])]

theorem trnsLengthBad_false {s : State}
    (h : ¬((s.hdr.ctype = 0 ∧ s.parse.chunk.len ≠ 2) ∨ (s.hdr.ctype = 2 ∧ s.parse.chunk.len ≠ 6)
      ∨ (s.hdr.ctype = 3 ∧ s.tabs.plteN < s.parse.chunk.len))) : trnsLengthBad s = false := by
  rw [← Bool.not_eq_true, trnsLengthBad_iff]; exact h

section AcceptTrns

variable {s : State}

theorem acceptTrns_grey (hc : s.hdr.ctype = 0) :
    acceptTrns s = { s with
      tabs := { s.tabs with key0 := dataBe16 s 0, key1 := 0#16, key2 := 0#16, keyPresent := true }
      regs := { s.regs with
        hasTrns := true, trnsKey0 := dataBe16 s 0, trnsKey1 := 0#16, trnsKey2 := 0#16, trnsEntries := 0#9 }
      parse := { s.parse with seenTrns := true } } := by
  rw [acceptTrns, trnsTables, hc]; rfl

theorem acceptTrns_rgb (hc : s.hdr.ctype = 2) :
    acceptTrns s = { s with
      tabs := { s.tabs with key0 := dataBe16 s 0, key1 := dataBe16 s 2, key2 := dataBe16 s 4, keyPresent := true }
      regs := { s.regs with
        hasTrns := true, trnsKey0 := dataBe16 s 0, trnsKey1 := dataBe16 s 2, trnsKey2 := dataBe16 s 4, trnsEntries := 0#9 }
      parse := { s.parse with seenTrns := true } } := by
  rw [acceptTrns, trnsTables, hc]; rfl

theorem acceptTrns_indexed (hc : s.hdr.ctype = 3) :
    acceptTrns s = { s with
      tabs := { s.tabs with
        alpha := tableFill s.tabs.alpha 0 s.parse.chunk.len (dataByte s), trnsN := s.parse.chunk.len }
      regs := { s.regs with
        hasTrns := true, trnsKey0 := 0#16, trnsKey1 := 0#16, trnsKey2 := 0#16
        trnsEntries := BitVec.ofNat 9 s.parse.chunk.len }
      parse := { s.parse with seenTrns := true } } := by
  rw [acceptTrns, trnsTables, hc]; rfl

end AcceptTrns

/-- Settles O25: the checks pass, and what is written goes by the colour type. -/
theorem trnsAndGamaAccepted : Obligations.TrnsAndGamaAccepted := by
  intro s hn hx be16
  refine ⟨fun hc hseen hlen => ?_, fun hc hseen hlen => ?_, fun hc hplte hseen hlen => ?_, fun hplte hseen hlen => ?_⟩
  · have hok : trnsError s = none :=
      trnsError_none ⟨hx, by omega⟩ hseen (by omega) (trnsLengthBad_false (by omega))
    rw [exec_trns_accepted hn hx hok, acceptTrns_grey hc]; rfl
  · have hok : trnsError s = none :=
      trnsError_none ⟨hx, by omega⟩ hseen (by omega) (trnsLengthBad_false (by omega))
    rw [exec_trns_accepted hn hx hok, acceptTrns_rgb hc]; rfl
  · have hok : trnsError s = none :=
      trnsError_none ⟨hx, fun _ => hplte⟩ hseen (by omega) (trnsLengthBad_false (by omega))
    rw [exec_trns_accepted hn hx hok, acceptTrns_indexed hc]
    refine ⟨_, rfl, rfl, fun i hi => ?_, fun i hi => ?_⟩
    · exact (tableGet_fill ..).trans (if_pos (by omega))
    · exact (tableGet_fill ..).trans (if_neg (by omega))
  · have hok : gamaError s = none := by
      rw [gamaError_inPlace ⟨hx, hplte⟩, if_neg (by simp [hseen]), if_neg (by simp [hlen])]
    rw [exec_gama_accepted hn hx hok]; rfl

end Sys2Proof.Machine
end

section
/-! PROOFS. The symbols of an inflate block (44_inflate.md R331, R340, R350 to R362) and the place of a pixel (47_interlace.md
R474, R476). -/

namespace Sys2Proof.Machine

/-- Settles O38: each of these elements is the error itself. -/
theorem invalidElementsRaise : Obligations.InvalidElementsRaise :=
  fun _ => ⟨fun _ => rfl, fun _ _ => rfl, fun _ _ => rfl, fun _ _ => rfl, fun _ _ => rfl⟩

/-! ### Reads of a fixed number of bits -/

theorem withBits_some {c : List Byte} {bp m : Nat} (h : bp + m ≤ 8 * c.length) (s : State) (f : Nat → Flow) :
    withBits (getBits c bp m) s f = f (bitsValue c bp m) := by rw [getBits_some h]; rfl

theorem withBits_none {c : List Byte} {bp m : Nat} (h : 8 * c.length < bp + m) (s : State) (f : Nat → Flow) :
    withBits (getBits c bp m) s f = .stop s ⟨.zTruncated, s.c.length⟩ := by rw [getBits_none h]; rfl

/-! ### Literals and the end of a block (R350, R351) -/

theorem literal_full {b : Byte} {s : State} (h : rawLength s.hdr ≤ s.out.n) :
    literal b s = .stop s ⟨.dOutputOverflow, s.infl.symStart / 8⟩ := if_pos h

theorem literal_emits {b : Byte} {s : State} (h : s.out.n < rawLength s.hdr) :
    literal b s = .go ((emit s b).setPoint .litLen) := if_neg (Nat.not_le.2 h)

/-- Settles O34: the branches of a literal and of the end of a block. -/
theorem literalAndEndOfBlock : Obligations.LiteralAndEndOfBlock := by
  intro s
  refine ⟨fun b => ⟨fun hfull => ?_, fun hroom => ?_⟩, fun hmore => ?_, fun hfin hshort => ?_, fun hfin hdone => ?_⟩
  · show (literal b s).result = _
    rw [literal_full hfull]; rfl
  · show (literal b s).result = _
    rw [literal_emits hroom, emit_eq, busAt_toNat]; rfl
  · show (endBlock s).result = _
    rw [endBlock_more hmore]; rfl
  · show (endBlock s).result = _
    rw [endBlock_short hfin hshort]; rfl
  · show (endBlock s).result = _
    rw [endBlock_done hfin hdone]; rfl

/-! ### Length symbols (R354) -/

/-- The length symbols with the base and the extra bits of 30_encoding.md R137. -/
def lengthTable : List (Instr × Nat × Nat) :=
  [(.len257, 3, 0), (.len258, 4, 0), (.len259, 5, 0), (.len260, 6, 0), (.len261, 7, 0), (.len262, 8, 0), (.len263, 9, 0),
   (.len264, 10, 0), (.len265, 11, 1), (.len266, 13, 1), (.len267, 15, 1), (.len268, 17, 1), (.len269, 19, 2),
   (.len270, 23, 2), (.len271, 27, 2), (.len272, 31, 2), (.len273, 35, 3), (.len274, 43, 3), (.len275, 51, 3),
   (.len276, 59, 3), (.len277, 67, 4), (.len278, 83, 4), (.len279, 99, 4), (.len280, 115, 4), (.len281, 131, 5),
   (.len282, 163, 5), (.len283, 195, 5), (.len284, 227, 5), (.len285, 258, 0)]

theorem exec_lengthSymbol {row : Instr × Nat × Nat} (h : row ∈ lengthTable) (s : State) :
    exec row.1 s = (matchLength row.2.1 row.2.2 s).result := by
  fin_cases h <;> rfl

/-- A match is 3 to 258 bytes long. -/
theorem lengthTable_bounds : ∀ row ∈ lengthTable, 3 ≤ row.2.1 ∧ row.2.1 + 2 ^ row.2.2 ≤ 259 := by decide

/-- Settles O35: every row runs the length half of a match with its base and extra bits. -/
theorem lengthSymbolsRead : Obligations.LengthSymbolsRead := by
  intro row hrow s
  rw [exec_lengthSymbol hrow, matchLength]
  refine ⟨fun hshort => by rw [withBits_none hshort]; rfl, fun hbits => ?_⟩
  obtain ⟨hlow, hhigh⟩ := lengthTable_bounds row hrow
  have hvalue := bitsValue_lt s.c s.infl.bp row.2.2
  refine ⟨by omega, by omega, ?_⟩
  rw [withBits_some hbits]; rfl

/-! ### Distance symbols (R355, R360, R362) -/

/-- The distance symbols with the base and the extra bits of 30_encoding.md R138. -/
def distanceTable : List (Instr × Nat × Nat) :=
  [(.dist0, 1, 0), (.dist1, 2, 0), (.dist2, 3, 0), (.dist3, 4, 0), (.dist4, 5, 1), (.dist5, 7, 1), (.dist6, 9, 2),
   (.dist7, 13, 2), (.dist8, 17, 3), (.dist9, 25, 3), (.dist10, 33, 4), (.dist11, 49, 4), (.dist12, 65, 5),
   (.dist13, 97, 5), (.dist14, 129, 6), (.dist15, 193, 6), (.dist16, 257, 7), (.dist17, 385, 7), (.dist18, 513, 8),
   (.dist19, 769, 8), (.dist20, 1025, 9), (.dist21, 1537, 9), (.dist22, 2049, 10), (.dist23, 3073, 10),
   (.dist24, 4097, 11), (.dist25, 6145, 11), (.dist26, 8193, 12), (.dist27, 12289, 12), (.dist28, 16385, 13),
   (.dist29, 24577, 13)]

theorem exec_distanceSymbol {row : Instr × Nat × Nat} (h : row ∈ distanceTable) (s : State) :
    exec row.1 s = (matchDistance row.2.1 row.2.2 s).result := by
  fin_cases h <;> rfl

/-- A match goes 1 to 32768 bytes back. -/
theorem distanceTable_bounds : ∀ row ∈ distanceTable, 1 ≤ row.2.1 ∧ row.2.1 + 2 ^ row.2.2 ≤ 32769 := by decide

/-- One byte of a copy, from the window as it stands. -/
def copyByte (dist : Nat) (u : State) : State := emit u (winByte u ((u.out.n - dist) % 32768))

theorem copyMatch_eq_iterate (dist k : Nat) (s : State) : copyMatch dist k s = (copyByte dist)^[k] s := by
  induction k generalizing s with
  | zero => rfl
  | succ k ih => rw [Function.iterate_succ_apply]; exact ih _

section MatchDistance

variable {base extra : Nat} {s : State} (hbits : s.infl.bp + extra ≤ 8 * s.c.length)
include hbits

theorem matchDistance_tooFar (h : s.out.n < base + bitsValue s.c s.infl.bp extra) :
    matchDistance base extra s = .stop s ⟨.dDistTooFar, s.infl.lenStart / 8⟩ := by
  rw [matchDistance, withBits_some hbits, if_pos h]

theorem matchDistance_overflow (h : base + bitsValue s.c s.infl.bp extra ≤ s.out.n)
    (hfull : rawLength s.hdr < s.out.n + s.infl.mlen) :
    matchDistance base extra s = .stop s ⟨.dOutputOverflow, s.infl.lenStart / 8⟩ := by
  rw [matchDistance, withBits_some hbits, if_neg (Nat.not_lt.2 h), if_pos hfull]

theorem matchDistance_copies (h : base + bitsValue s.c s.infl.bp extra ≤ s.out.n)
    (hroom : s.out.n + s.infl.mlen ≤ rawLength s.hdr) :
    matchDistance base extra s = .go (((copyByte (base + bitsValue s.c s.infl.bp extra))^[s.infl.mlen]
      (s.setBp (s.infl.bp + extra))).setPoint .litLen) := by
  rw [matchDistance, withBits_some hbits, if_neg (Nat.not_lt.2 h), if_neg (Nat.not_lt.2 hroom), copyMatch_eq_iterate]

end MatchDistance

/-- Settles O36: every row runs the distance half of a match with its base and extra bits. -/
theorem distanceSymbolsCopy : Obligations.DistanceSymbolsCopy := by
  intro row hrow s dist read
  rw [exec_distanceSymbol hrow]
  refine ⟨fun hshort => by rw [matchDistance, withBits_none hshort]; rfl, fun hbits => ?_⟩
  obtain ⟨hlow, hhigh⟩ := distanceTable_bounds row hrow
  have hvalue := bitsValue_lt s.c s.infl.bp row.2.2
  refine ⟨by omega, by omega, fun hfar => ?_, fun hnear hfull => ?_, fun hnear hroom => ?_⟩
  · rw [matchDistance_tooFar hbits hfar]; rfl
  · rw [matchDistance_overflow hbits hnear hfull]; rfl
  · rw [matchDistance_copies hbits hnear hroom]; rfl

/-! ### The head of a dynamic block (R340, R347, R349) -/

/-- With the bits there, each listed symbol gets its three bits and every other one keeps its length. -/
theorem readClLens_of_bits {c : List Byte} {ks : List Nat} {bp : Nat} {cll : List Nat} (hnodup : ks.Nodup)
    (hrange : ∀ k ∈ ks, k < cll.length) (hbits : bp + 3 * ks.length ≤ 8 * c.length) :
    ∃ out, readClLens c ks bp cll = some out ∧
      (∀ i, i < ks.length → out.getD (ks.getD i 0) 0 = bitsValue c (bp + 3 * i) 3) ∧
      ∀ j, j ∉ ks → out.getD j 0 = cll.getD j 0 := by
  induction ks generalizing bp cll with
  | nil => exact ⟨cll, rfl, nofun, fun _ _ => rfl⟩
  | cons k ks ih =>
    obtain ⟨hk, hnodup'⟩ := List.nodup_cons.1 hnodup
    rw [List.length_cons] at hbits
    obtain ⟨out, hread, hlisted, hother⟩ := ih (bp := bp + 3) (cll := cll.set k (bitsValue c bp 3)) hnodup'
      (fun j hj => by rw [List.length_set]; exact hrange j (List.mem_cons_of_mem _ hj)) (by omega)
    refine ⟨out, by rw [readClLens, getBits_some (by omega)]; exact hread, fun i hi => ?_, fun j hj => ?_⟩
    · cases i with
      | zero =>
        have hklt : k < cll.length := hrange k (by simp)
        show out.getD k 0 = _
        rw [hother k hk, List.getD_eq_getElem _ _ (by rwa [List.length_set]), List.getElem_set_self]; rfl
      | succ i =>
        rw [List.getD_cons_succ, hlisted i (by simpa using hi)]
        congr 1; omega
    · obtain ⟨hne, hj'⟩ := not_or.1 (List.mem_cons.not.1 hj)
      rw [hother j hj']
      simp [List.getD_eq_getElem?_getD, List.getElem?_set_ne (Ne.symm hne)]

/-- ORDER lists every code-length symbol once. -/
theorem clOrder_nodup : clOrder.Nodup := by decide

theorem clOrder_lt : ∀ i, i < 19 → clOrder.getD i 0 < 19 := by decide

theorem clOrder_surjective : ∀ j, j < 19 → ∃ i, i < 19 ∧ clOrder.getD i 0 = j := by decide

theorem clOrder_not_mem_take {i k : Nat} (hi : i < 19) (hk : k ≤ i) : clOrder.getD i 0 ∉ clOrder.take k := by
  rw [List.getD_eq_getElem _ _ (show i < clOrder.length from hi)]
  intro hmem
  obtain ⟨j, hj, he⟩ := List.mem_take_iff_getElem.1 hmem
  have : j = i := (clOrder_nodup.getElem_inj_iff).1 he
  omega

/-- The code-length lengths read are those the rule gives, symbol by symbol. -/
theorem readClLens_clOrder {c : List Byte} {bp k : Nat} {cll : List Nat} (hk : k ≤ 19) (hbits : bp + 3 * k ≤ 8 * c.length)
    (hlen : cll.length = 19)
    (hcll : ∀ i, i < 19 → cll.getD (clOrder.getD i 0) 0 = if i < k then bitsValue c (bp + 3 * i) 3 else 0) :
    readClLens c (clOrder.take k) bp (List.replicate 19 0) = some cll := by
  have hlength : (clOrder.take k).length = k := List.length_take_of_le hk
  obtain ⟨out, hread, hlisted, hother⟩ := readClLens_of_bits (c := c) (bp := bp) (cll := List.replicate 19 0)
    (clOrder_nodup.sublist (List.take_sublist k _))
    (fun j hj => (by decide : ∀ j ∈ clOrder, j < 19) j (List.mem_of_mem_take hj)) (by rwa [hlength])
  have hout : out.length = cll.length := (readClLens_length hread).1.trans hlen.symm
  have hsame : ∀ i, i < 19 → out.getD (clOrder.getD i 0) 0 = cll.getD (clOrder.getD i 0) 0 := by
    intro i hi
    rw [hcll i hi]
    by_cases h : i < k
    · rw [if_pos h, ← hlisted i (by rwa [hlength])]
      congr 1
      simp [List.getD_eq_getElem?_getD, h]
    · rw [if_neg h, hother _ (clOrder_not_mem_take hi (by omega)), List.getD_replicate _ (clOrder_lt i hi)]
  rw [hread]
  refine congrArg some (List.ext_getElem hout fun j hj hj' => ?_)
  obtain ⟨i, hi, rfl⟩ := clOrder_surjective j (by omega)
  rw [← List.getD_eq_getElem _ 0, ← List.getD_eq_getElem _ 0]
  exact hsame i hi

section DynamicHeader

variable {s : State} (hbits : s.infl.bp + 14 ≤ 8 * s.c.length)

theorem dynamicHeader_short (h : 8 * s.c.length < s.infl.bp + 14) :
    dynamicHeader s = .stop s ⟨.zTruncated, s.c.length⟩ := by
  rw [dynamicHeader]
  by_cases h5 : s.infl.bp + 5 ≤ 8 * s.c.length
  · rw [withBits_some h5]
    by_cases h10 : s.infl.bp + 5 + 5 ≤ 8 * s.c.length
    · rw [withBits_some h10, withBits_none (by omega)]
    · rw [withBits_none (by omega)]
  · rw [withBits_none (by omega)]

include hbits

theorem dynamicHeader_tooMany (h : 29 < bitsValue s.c s.infl.bp 5 ∨ 29 < bitsValue s.c (s.infl.bp + 5) 5) :
    dynamicHeader s = .stop s ⟨.dTooManySymbols, s.infl.bstart / 8⟩ := by
  rw [dynamicHeader, withBits_some (by omega), withBits_some (by omega), withBits_some (by omega), if_pos h]

variable (hcounts : ¬(29 < bitsValue s.c s.infl.bp 5 ∨ 29 < bitsValue s.c (s.infl.bp + 5) 5))
include hcounts

theorem dynamicHeader_clShort
    (h : readClLens s.c (clOrder.take (bitsValue s.c (s.infl.bp + 10) 4 + 4)) (s.infl.bp + 14) (List.replicate 19 0) = none) :
    dynamicHeader s = .stop s ⟨.zTruncated, s.c.length⟩ := by
  rw [dynamicHeader, withBits_some (by omega), withBits_some (by omega), withBits_some (by omega), if_neg hcounts]
  simp only [h]

theorem dynamicHeader_clRead {cll : List Nat}
    (h : readClLens s.c (clOrder.take (bitsValue s.c (s.infl.bp + 10) 4 + 4)) (s.infl.bp + 14) (List.replicate 19 0)
      = some cll) :
    dynamicHeader s =
      if codeComplete cll then .go (beginSymbols (bitsValue s.c s.infl.bp 5) (bitsValue s.c (s.infl.bp + 5) 5)
        (s.infl.bp + 14 + 3 * (bitsValue s.c (s.infl.bp + 10) 4 + 4)) cll s)
      else .stop s ⟨.dBadClenCode, s.infl.bstart / 8⟩ := by
  rw [dynamicHeader, withBits_some (by omega), withBits_some (by omega), withBits_some (by omega), if_neg hcounts]
  simp only [h]

end DynamicHeader

/-- Settles O31: the counts are judged before the code-length lengths are read, and these before a symbol. -/
theorem huffmanBlocksBegin : Obligations.HuffmanBlocksBegin := by
  intro fin s
  refine ⟨rfl, ?_⟩
  intro bp hlit hdist k order s1
  have hexec : exec (.blockDynamic fin) s = (dynamicHeader s1).result := rfl
  have hk : k ≤ 19 := by have := bitsValue_lt s.c (bp + 10) 4; omega
  rw [hexec]
  refine ⟨fun hshort => by rw [dynamicHeader_short (s := s1) hshort]; rfl, fun hbits => ⟨fun hmany => ?_, fun hl hd => ?_⟩⟩
  · rw [dynamicHeader_tooMany (s := s1) hbits hmany]; rfl
  have hcounts : ¬(29 < hlit ∨ 29 < hdist) := by omega
  refine ⟨fun hshort => ?_, fun hfits cll hlen hcll => ?_⟩
  · have hread : readClLens s.c (clOrder.take k) (bp + 14) (List.replicate 19 0) = none := by
      rw [Option.eq_none_iff_forall_ne_some]
      intro out hout
      have hlength : (clOrder.take k).length = k := List.length_take_of_le hk
      have := (readClLens_length hout).2 (List.ne_nil_of_length_pos (by omega))
      omega
    rw [dynamicHeader_clShort (s := s1) hbits hcounts hread]; rfl
  · rw [dynamicHeader_clRead (s := s1) hbits hcounts (readClLens_clOrder hk hfits hlen hcll)]
    refine ⟨fun hbad => ?_, fun hgood => ?_⟩
    · rw [if_neg (by simpa [codeComplete] using hbad)]; rfl
    · rw [if_pos (by simpa [codeComplete] using hgood)]; rfl

/-! ### The place of a pixel (47_interlace.md R474, R476) -/

theorem memAt_putPixel (p : Rgba) (s : State) (a : Nat) : memAt (putPixel p s) a = memAt (writePixel p s) a := by
  rw [putPixel_eq]; rfl

/-- Where the byte of offset `k` of the pixel stands. -/
def pixelAddr (s : State) (k : Nat) : Nat := (s.lat.outBase.toNat + (pixelOffset s + k)) % 2 ^ 32

/-- The four bytes of a pixel have four addresses. -/
theorem pixelAddr_inj {s : State} {j k : Nat} (hj : j < 4) (hk : k < 4) : pixelAddr s j = pixelAddr s k ↔ j = k := by
  simp only [pixelAddr]; omega

theorem memAt_setOutByte (s : State) (k : Nat) (b : Byte) (a : Nat) :
    memAt (setOutByte s k b) a = if a = (s.lat.outBase.toNat + k) % 2 ^ 32 then some b else memAt s a := by
  rw [setOutByte, memAt_busWrite, busAt_toNat]

theorem memAt_pixel (p : Rgba) (s : State) (a : Nat) :
    memAt (writePixel p s) a =
      if a = pixelAddr s 3 then some p.a
      else if a = pixelAddr s 2 then some p.b
      else if a = pixelAddr s 1 then some p.g
      else if a = pixelAddr s 0 then some p.r
      else memAt s a := by
  rw [writePixel, memAt_setOutByte, memAt_setOutByte, memAt_setOutByte, memAt_setOutByte]; rfl

section NextPixel

variable {s : State}

theorem nextPixel_column (h : s.exp.col + 1 < passWidth s.hdr s.exp.pass) :
    nextPixel s = (s.setExp { s.exp with col := s.exp.col + 1 }).setPoint .pixel := if_pos h

theorem nextPixel_row (hcol : passWidth s.hdr s.exp.pass ≤ s.exp.col + 1)
    (hrow : s.exp.row + 1 < passHeight s.hdr s.exp.pass) :
    nextPixel s = (s.setExp { s.exp with row := s.exp.row + 1, col := 0 }).setPoint .pixel := by
  rw [nextPixel, if_neg (Nat.not_lt.2 hcol), if_pos hrow]

variable (hcol : passWidth s.hdr s.exp.pass ≤ s.exp.col + 1) (hrow : passHeight s.hdr s.exp.pass ≤ s.exp.row + 1)
include hcol hrow

theorem nextPixel_pass {q : Nat} (hq : nextPass s.hdr (s.exp.pass + 1) = some q) :
    nextPixel s = (s.setExp ⟨q, 0, 0, s.exp.off + passBytes s.hdr s.exp.pass⟩).setPoint .pixel := by
  simp only [nextPixel, if_neg (Nat.not_lt.2 hcol), if_neg (Nat.not_lt.2 hrow), hq]

theorem nextPixel_last (hq : nextPass s.hdr (s.exp.pass + 1) = none) :
    nextPixel s = s.setPoint (.completing .success) := by
  simp only [nextPixel, if_neg (Nat.not_lt.2 hcol), if_neg (Nat.not_lt.2 hrow), hq]

end NextPixel

/-- Settles O46: what the pixel's write does to memory, and the ways the cursors move after it. -/
theorem pixelWrittenInPlace : Obligations.PixelWrittenInPlace := by
  intro p s g X Y addr t later
  have haddr (k : Nat) : addr k = pixelAddr s k :=
    congrArg (· % 2 ^ 32) (Nat.add_assoc ..)
  have hmem (a : Nat) : memAt t a = _ := (memAt_putPixel p s a).trans (memAt_pixel p s a)
  simp only [haddr, hmem]
  refine ⟨by simp [pixelAddr_inj], by simp [pixelAddr_inj], by simp [pixelAddr_inj], by simp, fun a ha => ?_, ?_,
    fun hcol => ?_, fun hcol => ⟨fun hrow => ?_, fun hrow => ⟨fun q hq hleast => ?_, fun hnone => ?_⟩⟩⟩
  · simp only [List.mem_cons, List.not_mem_nil, or_false, not_or] at ha
    obtain ⟨h0, h1, h2, h3⟩ := ha
    rw [if_neg h3, if_neg h2, if_neg h1, if_neg h0]
  · show putPixel p s = { s with
      mem := (putPixel p s).mem, exp := (putPixel p s).exp, point := (putPixel p s).point }
    rw [putPixel_eq]
  · have ht : t = _ := nextPixel_column (s := writePixel p s) hcol
    rw [ht]; exact ⟨rfl, rfl⟩
  · have ht : t = _ := nextPixel_row (s := writePixel p s) hcol hrow
    rw [ht]; exact ⟨rfl, rfl⟩
  · have ht : t = _ := nextPixel_pass (s := writePixel p s) hcol hrow (nextPass_of_least hq hleast)
    rw [ht]; exact ⟨rfl, rfl⟩
  · have hlast : nextPass s.hdr (s.exp.pass + 1) = none :=
      nextPass_none.2 fun q hq hlt => by
        by_contra he
        exact hnone q ⟨hq, hlt, by simpa using he⟩
    have ht : t = _ := nextPixel_last (s := writePixel p s) hcol hrow hlast
    rw [ht]; rfl

end Sys2Proof.Machine
end
